-- ==== Sys2Proof/Word.lean ====
section
/-! DEFINITION. The words of the wire and of the image, and the fixed lists of numbers the part counts over. -/

namespace Sys2Proof

/-- One byte on the Tank Link and in the image (R63, R197). -/
abbrev Byte := BitVec 8

/-- A two-byte number: check values, digests, masks over L0 to L15 (R64, R69). -/
abbrev Word16 := BitVec 16

/-- A station number 0 to 11 (Conventions, Units and ranges). -/
abbrev Station := Fin 12

/-- A zone line L0 to L15 (R100). -/
abbrev Line := Fin 16

/-- A measurement channel MC0 to MC4 (R105). -/
abbrev Channel := Fin 5

/-- A tag of a claim, 0 to 7 (R1). -/
abbrev Tag := Fin 8

/-- A heater element; element n of the manual is `n - 1` here (R112). -/
abbrev Element := Fin 3

/-- A set of station numbers 0 to 11: one mark per station (R65). -/
abbrev StationSet := Vector Bool 12

def allStations : List Station := [0, 1, 2, 3, 4, 5, 6, 7, 8, 9, 10, 11]
def allLines : List Line := [0, 1, 2, 3, 4, 5, 6, 7, 8, 9, 10, 11, 12, 13, 14, 15]
def allChannels : List Channel := [0, 1, 2, 3, 4]
def allTags : List Tag := [0, 1, 2, 3, 4, 5, 6, 7]
def allElements : List Element := [0, 1, 2]

end Sys2Proof
end

