-- ==== Sys2Proof/Config.lean ====
section
/-! DEFINITION. What the part fixes (times and counts that are not in the image) and the free values: what the manual leaves open, as constants without a body. -/

namespace Sys2Proof.Config

/-- One byte time: nine bit times of 4 us (R46). -/
def byteTime : Nat := 36
/-- Quiet interval of an opening, us (R47). -/
def quietInterval : Nat := 80
/-- Idle reset interval, us (R47). -/
def idleInterval : Nat := 2000
/-- Babble limit, us (R47). -/
def babbleLimit : Nat := 4000
/-- Programming of one row of the stored image, us (R207). -/
def rowTime : Nat := 5000
/-- Period of the sample arrivals of a channel, us (R105). -/
def samplePeriod : Nat := 100000
/-- Samples each channel must have counted before SETTLE ends, and where the count stops (R105, R202). -/
def settleSamples : Nat := 10
/-- Consecutive samples of ELEMENT_STUCK, SENSOR_FAULT and ELEMENT_OPEN (R142, R144, R145). -/
def stuckSamples : Nat := 10
def sensorSamples : Nat := 3
def openSamples : Nat := 20
/-- Consecutive valid samples of WAIT_VALID (R176). -/
def validSamples : Nat := 50
/-- CUT_CHECK and RETEST: 2 s; REST of ELEMENT_OPEN: 5 s; REST of the timeouts: 30 s; STOP: 2 s (R173, R177, R179, R180). -/
def cutCheckTime : Nat := 2000000
def retestTime : Nat := 2000000
def openRestTime : Nat := 5000000
def timeoutRestTime : Nat := 30000000
def pumpStopTime : Nat := 2000000
/-- Largest claim list of one owner, waiting request list, Incident List, outgoing hazard queue (R2, R32, R149, R189). -/
def maxClaims : Nat := 6
def maxWaiting : Nat := 8
def maxIncidents : Nat := 8
def maxHazards : Nat := 4
/-- Largest number of incidents in the carry-over record (R211). -/
def maxCarried : Nat := 4
/-- Changes in one CLAIM, and the reach of the send window (R35, R36). -/
def maxChanges : Nat := 4
def sendWindow : Nat := 64
/-- Bound of the passes of one event through the blocks (log 25): above the longest run of steps that can pass at one event. -/
def passes : Nat := 256

/-- FREE VALUE (R207, log 12): whether, at the n-th use of a free value, the byte at this address of a row whose programming was
abandoned holds its new value. -/
opaque tornByteIsNew : Nat → Nat → Bool

/-- FREE VALUE (R217, log 13): whether, at the n-th use, the clearing is taken before the SENT count of the same completion. -/
opaque clearBeforeSent : Nat → Bool

/-- FREE VALUE (R217, log 39): whether, at the n-th use, a REPLY for the waiting question is built before the QUERY whose reception ends
at the same event is taken. -/
opaque replyBuiltFirst : Nat → Bool

/-- FREE VALUE (R168, log 14): whether, at the n-th use, a completion condition is judged before a failure condition that holds at the same event. -/
opaque completionFirst : Nat → Bool

/-- FREE VALUE (log 2): which of the timers whose time has come is taken first on an empty queue. -/
opaque duePick : Nat → Nat

end Sys2Proof.Config
end

