-- ==== Sys2Proof/Syntax.lean ====
section
/-! DEFINITION. The commands: one constructor per row of spec/opcode_table.json, with the operands the manual gives the event (log 6). -/

namespace Sys2Proof

/-- The header fields of a received frame that its kind does not fix (R63): the kind is the constructor's. -/
structure Header where
  sender : BitVec 4
  group : BitVec 12
  version : BitVec 4
  deriving DecidableEq, Repr

/-- The five straps as a start reads them (R199, R201): the four station-number straps and the SETUP strap. -/
structure Straps where
  number : BitVec 4
  setup : Bool
  deriving DecidableEq, Repr

/-- What the sensor front end presents for a channel at its arrival (R105): a value in the unit of the channel, a marker, or nothing. -/
inductive Presented
  | value (v : Int)
  | over
  | under
  | nothing
  deriving DecidableEq, Repr

/-- The steps of the part, as opcode_table.json lists them. A frame command is the end of the reception of a valid frame of that kind;
its payload is the payload bytes of R63. -/
inductive Instr
  | powerOn (straps : Straps)
  | brownOut
  | supplyReturn (straps : Straps)
  | settleEnd
  | rawLevelChange (line : Line) (high : Bool)
  | lineChangeEvent (line : Line)
  | sampleArrival (channel : Channel) (presented : Presented)
  | receptionStart
  | checkFailure (received : List Byte)
  | babble
  | openingExpiry
  | idleReset
  | ownFrameComplete
  | collision
  | transmitCut
  | presence (h : Header) (payload : List Byte)
  | claim (h : Header) (payload : List Byte)
  | claimSet (h : Header) (payload : List Byte)
  | resync (h : Header) (payload : List Byte)
  | hazard (h : Header) (payload : List Byte)
  | program (h : Header) (payload : List Byte)
  | acknowledge (h : Header) (payload : List Byte)
  | abandon (h : Header) (payload : List Byte)
  | resumeZone (h : Header) (payload : List Byte)
  | queryStatus (h : Header) (payload : List Byte)
  | queryIncidents (h : Header) (payload : List Byte)
  | queryClaims (h : Header) (payload : List Byte)
  | queryPeers (h : Header) (payload : List Byte)
  | queryCounters (h : Header) (payload : List Byte)
  | write (h : Header) (payload : List Byte)
  | read (h : Header) (payload : List Byte)
  | commit (h : Header) (payload : List Byte)
  | lock (h : Header) (payload : List Byte)
  | lineTest (h : Header) (payload : List Byte)
  | rowProgrammed
  | restart (h : Header) (payload : List Byte) (straps : Straps)
  | replyReceived (ofSetup : Bool) (h : Header) (payload : List Byte)
  | listenTimerExpiry
  | silenceTimerExpiry (peer : Station)
  | expiryTimerExpiry (peer : Station)
  | notHeardFrom
  | notHeardBy
  | panelSilence
  | tTempExpiry
  | tFillExpiry
  | tDrainExpiry
  | tFilterExpiry
  | stepTimerExpiry
  | claimWaitExpiry
  | dryTimerExpiry
  | babbleReceptionEnd
  | undefinedKindFrame (code : BitVec 4) (h : Header) (payload : List Byte)
  deriving DecidableEq, Repr

end Sys2Proof
end

