-- ==== Sys2Proof/Decode.lean ====
section
/-! DEFINITION. The command a word spells by the bits of spec/opcode_table.json: no row gives bits, so no word spells one. -/

namespace Sys2Proof

/-- None of the 52 rows gives bits (log 4). -/
def decodeTableWord (_nbits _w : Nat) : Option Instr := none

end Sys2Proof
end

