-- ==== Sys2Proof/Machine/State.lean ====
section
/-! DEFINITION. The state of the part, block by block (00_scope.md, Block diagram), its reset value, and the reasons a step can stop. State is plain data. -/

namespace Sys2Proof.Machine

/-! ## Claim Table and Own Claim Unit (chapters 1 and 2) -/

inductive Resource
  | heat | fill | drain | hold
  deriving DecidableEq, Repr

/-- The class of a claim, highest first (R4). -/
inductive ClaimClass
  | safety | recovery | process
  deriving DecidableEq, Repr

inductive Mark
  | granted | waiting
  deriving DecidableEq, Repr

/-- A record of the Claim Table; its owner is the entry it stands in (R1, R2). -/
structure ClaimRecord where
  tag : Tag
  resource : Resource
  cls : ClaimClass
  amount : Nat
  mark : Mark
  deriving DecidableEq, Repr

/-- The owner entry of one station number (R2). The records are a set keyed by tag; they are kept in tag order (log 24). -/
structure OwnerEntry where
  applied : Option Byte
  stale : Bool
  records : List ClaimRecord
  deriving DecidableEq, Repr

def OwnerEntry.empty : OwnerEntry := { applied := none, stale := false, records := [] }

/-- The incident kinds with their elements: one for each detector (R137). -/
inductive FaultId
  | leak
  | elementStuck (e : Element)
  | dryHeat
  | sensorFault
  | elementOpen (e : Element)
  | tempLow
  | fillTimeout
  | drainTimeout
  | filterBlocked
  deriving DecidableEq, Repr

/-- A holder of the containment HOLD: an incident id, or an Unrecorded entry (R29). -/
inductive Holder
  | incident (id : Nat)
  | unrecorded (f : FaultId)
  deriving DecidableEq, Repr

/-- Who a claim is for (R27). -/
inductive Purpose
  | program
  | contain (holders : List Holder)
  | step (id : Nat)
  deriving DecidableEq, Repr

inductive SentState
  | unsent
  | sent (number : Byte)
  | confirmed
  deriving DecidableEq, Repr

/-- An own claim (R27). `requested` is the class its requester asks for; `boosted` says that the boost class RECOVERY is set (R30);
`confirmed` holds the confirmed class and amount. -/
structure OwnClaim where
  tag : Tag
  resource : Resource
  requested : ClaimClass
  boosted : Bool
  amount : Nat
  purpose : Purpose
  sent : SentState
  confirmed : Option (ClaimClass × Nat)
  usable : Nat
  deriving DecidableEq, Repr

/-- What one change does (R10, R33). -/
inductive ChangeOp
  | new (resource : Resource) (cls : ClaimClass) (amount : Nat)
  | amend (cls : ClaimClass) (amount : Nat)
  | release
  deriving DecidableEq, Repr

structure Change where
  tag : Tag
  op : ChangeOp
  deriving DecidableEq, Repr

/-- A request of the Program Drive, of the containment or of a step (R28); also an entry of the waiting request list (R32). -/
structure Request where
  resource : Resource
  cls : ClaimClass
  amount : Nat
  purpose : Purpose
  deriving DecidableEq, Repr

/-- The state of the Own Claim Unit (R27). -/
structure OwnClaimUnit where
  claims : List OwnClaim
  unsent : List Change
  inFlight : List Change
  awaiting : Vector Bool 8
  waiting : List Request
  changeNumber : Byte
  restatementDue : Bool
  restatedSinceStart : Bool
  restatedSinceJoined : Bool
  deriving DecidableEq, Repr

/-! ## Membership Unit (chapter 5) -/

inductive LinkState
  | offline | listening | joining | joined | isolated
  deriving DecidableEq, Repr

inductive ZoneMode
  | starting | inService | outOfService | setup | haltedConfig
  deriving DecidableEq, Repr

inductive PeerState
  | unknown | present | silent | absent | foreign
  deriving DecidableEq, Repr

/-- A record of the Peer Table (R79). Times are microseconds since the start (log 1). -/
structure PeerRecord where
  state : PeerState
  reportedLink : Option LinkState
  digest : Option Word16
  heardSet : Option StationSet
  ackOfMe : Option Byte
  lastAccepted : Option Nat
  lastPresence : Option Nat
  restated : Bool
  deriving DecidableEq, Repr

/-- The values of R79 after a reset. -/
def PeerRecord.unknown : PeerRecord :=
  { state := .unknown, reportedLink := none, digest := none, heardSet := none, ackOfMe := none,
    lastAccepted := none, lastPresence := none, restated := false }

inductive IsolationReason
  | notHeardFrom | notHeardBy | duplicateNumber
  deriving DecidableEq, Repr

structure Membership where
  peers : Vector PeerRecord 12
  linkState : LinkState
  isolationReason : Option IsolationReason
  duplicateLatch : Bool
  listenStart : Option Nat
  armedAt : Option Nat
  notHeardBySince : Option Nat
  joinRequestDone : Option Nat
  deriving DecidableEq, Repr

/-! ## Link Controller (chapters 3 and 4) -/

/-- The fields of a PRESENCE payload (R66). -/
structure PresenceFields where
  linkState : LinkState
  zoneMode : ZoneMode
  digest : Word16
  heardSet : StationSet
  applied : Vector (Option Byte) 12
  failedCount : Nat
  activeRank : Nat
  claimCount : Nat
  gateStop : Bool
  deriving DecidableEq, Repr

/-- What an own frame on the wire carries, as far as its completion needs it (R57). -/
inductive OwnContent
  | presence (fields : PresenceFields)
  | claim
  | claimSet (number : Byte)
  | resync (joinRequest : Bool)
  | hazard
  | reply
  | setupReply
  deriving DecidableEq, Repr

/-- An own frame being sent: its content, its bytes as they go onto the wire, and the time it started. -/
structure OwnFrame where
  content : OwnContent
  bytes : List Byte
  start : Nat
  deriving DecidableEq, Repr

/-- A reception in progress: the start of its continuous activity, whether it has become babble (R61), and whether it continues an
own frame that stopped, so that its check failure is not counted (R58, R60). -/
structure Reception where
  start : Nat
  babble : Bool
  afterOwn : Bool
  deriving DecidableEq, Repr

/-- The medium as this station observes it (R46): quiet, active with activity that is no reception (the receiver was off when it
began), a reception, or its own frame. -/
inductive Medium
  | quiet
  | ignored
  | reception (r : Reception)
  | own (f : OwnFrame)
  deriving DecidableEq, Repr

/-- The state of the Link Controller (R48, R49, R51, R55, R62). -/
structure LinkController where
  position : Nat
  roundCount : BitVec 16
  presenceAge : Nat
  receiverOn : Bool
  transmitCut : Bool
  medium : Medium
  openingStart : Nat
  idleStart : Nat
  lastPresence : Option PresenceFields
  deriving DecidableEq, Repr

/-! ## Line Unit and Measurement Unit (chapter 6) -/

/-- Line functions (R100), in the order of their codes (R198). -/
inductive LineFunction
  | unused | leakProbe | levelLow | levelNormal | levelHigh
  | fillValve | drainValve | pumpRun | pumpReverse | heat1 | heat2 | heat3
  | heatIsolate | cascadeGate | conveyorEnable | alert
  deriving DecidableEq, Repr

/-- The eleven output functions (R100). -/
inductive OutputFunction
  | fillValve | drainValve | pumpRun | pumpReverse | heat (e : Element)
  | heatIsolate | cascadeGate | conveyorEnable | alert
  deriving DecidableEq, Repr

inductive Source
  | forced | step | program | none
  deriving DecidableEq, Repr

/-- A resolved level and its source (R106). -/
structure Output where
  active : Bool
  source : Source
  deriving DecidableEq, Repr

structure LineUnit where
  pins : Vector Bool 16
  timers : Vector (Option Nat) 16
  debounced : Vector (Option Bool) 16
  outputs : Vector Output 11
  elementOut : Vector Bool 3
  testLevels : Vector Bool 16
  deriving DecidableEq, Repr

/-- A measurement sample: a value or one of the two markers (Conventions). -/
inductive Sample
  | value (v : Int)
  | over
  | under
  deriving DecidableEq, Repr

structure Measurement where
  latest : Vector (Option Sample) 5
  counts : Vector Nat 5
  nextArrival : Vector Nat 5
  deriving DecidableEq, Repr

/-! ## Program Drive (chapter 7) -/

inductive Phase
  | off | fillUp | heatUp | run | pause | drainDown
  deriving DecidableEq, Repr

inductive Demand
  | stop | run
  deriving DecidableEq, Repr

/-- The state of the Program Drive (R119). -/
structure ProgramDrive where
  phase : Phase
  demand : Demand
  serial : Option Byte
  silencePause : Bool
  silenceTimer : Option Nat
  regulation : Bool
  fillRequest : Bool
  drainRequest : Bool
  drained : Bool
  heatClaim : Option Nat
  fillClaim : Option Nat
  drainClaim : Option Nat
  deriving DecidableEq, Repr

/-! ## Fault Detector and Recovery Sequencer (chapters 8 and 9) -/

inductive DetectorState
  | stopped | watching | latched
  deriving DecidableEq, Repr

/-- A detector (R137): its state, its count of consecutive samples, and its timer. -/
structure Detector where
  state : DetectorState
  count : Nat
  timer : Option Nat
  deriving DecidableEq, Repr

structure FaultDetector where
  detectors : Vector Detector 13
  unrecorded : List FaultId
  deriving DecidableEq, Repr

/-- The steps of the procedures (section 9.4). -/
inductive Step
  | leakDrain | leakDryWait | leakRefill | leakVerify
  | cutCheck
  | dryRefill | dryVerify
  | waitValid
  | openRest | openRetest
  | boost
  | fillRest | fillRefill
  | drainRest | drainDrain
  | filterStop | filterBackflush | filterTopUp | filterVerify
  deriving DecidableEq, Repr

inductive FailureReason
  | attemptsExhausted | claimWait | supplyUncut | needsService | limit
  deriving DecidableEq, Repr

inductive RecoveryOutcome
  | restored | degraded
  deriving DecidableEq, Repr

/-- The state of an incident record with the fields that are present only in it (R149). -/
inductive IncidentState
  | pending
  | active (step : Step)
  | failed (reason : FailureReason)
  | abandoned (reason : FailureReason)
  | cleared (outcome : RecoveryOutcome)
  deriving DecidableEq, Repr

/-- An incident record (R149). `detectedAt` is milliseconds since the start. -/
structure Incident where
  id : Nat
  fault : FaultId
  state : IncidentState
  attempts : Nat
  detectedAt : Nat
  recurrences : Nat
  carried : Bool
  deriving DecidableEq, Repr

inductive AttemptCause
  | condition | claimWait
  deriving DecidableEq, Repr

/-- The state of the Recovery Sequencer (R149, R150, R159). The active record is the one in state ACTIVE. The step timer has run
for `stepElapsed`, and since `stepSince` when it is running. -/
structure Sequencer where
  incidents : List Incident
  nextId : Nat
  stepElapsed : Nat
  stepSince : Option Nat
  claimWait : Option Nat
  dryTimer : Option Nat
  validCount : Nat
  lastCause : Option AttemptCause
  deriving DecidableEq, Repr

/-! ## Hazard Unit (chapter 10) -/

inductive HazardCode
  | inflowStop | inflowResume | zoneDown | zoneUp
  deriving DecidableEq, Repr

/-- An entry of the outgoing hazard queue (R189). `onWire` marks the entry the own frame on the wire carries. -/
structure HazardEntry where
  origin : Station
  serial : Byte
  code : HazardCode
  hops : Nat
  group : BitVec 12
  sends : Nat
  relay : Bool
  onWire : Bool
  deriving DecidableEq, Repr

structure HazardUnit where
  serial : Byte
  stopMark : Bool
  queue : List HazardEntry
  memory : Vector (Option Byte) 12
  gateStop : StationSet
  deriving DecidableEq, Repr

/-! ## Configuration Store and Report Unit (chapters 11 and 12) -/

/-- An addressed buffer of bytes: the (address, byte) pairs that differ from what an unlisted address reads as, addresses rising. -/
abbrev Memory := List Host.Cell

/-- The load result: OK or the reasons of R200, in the order of their codes. -/
inductive LoadResult
  | ok
  | checkValue | fieldRange | stationNumber | ranks | quorum | timerOrder | timerMargin
  | currentLimits | lineCounts | heaterLines | criticalFlag | capacity | rating
  deriving DecidableEq, Repr

/-- Stages of a start (section 11.3). INPUTS and ENTRY end at once; SETUP and HALTED_CONFIG leave the start at the end of LOAD. -/
inductive StartStage
  | load | settle | entered
  deriving DecidableEq, Repr

/-- PROGRAMMING of the commit state (R197, R207): the row in progress, the time it began, and whether a LOCK began it (R208). -/
structure Programming where
  row : Nat
  start : Nat
  byLock : Bool
  deriving DecidableEq, Repr

/-- Status of a setup reply, in the order of the codes of R204. -/
inductive SetupStatus
  | done | refusedLocked | badAddress | busy | invalidImage | notEqual
  deriving DecidableEq, Repr

structure SetupReply where
  status : SetupStatus
  data : List Byte
  deriving DecidableEq, Repr

/-- An incident of the carry-over record (R211). -/
structure CarriedIncident where
  fault : FaultId
  reason : FailureReason
  recurrences : Nat
  deriving DecidableEq, Repr

/-- The Configuration Store (R197). `mixed`, the model's own mark, stands beside the stored image and is kept as it is: a commit was
abandoned and none has completed since (R207, log 12). -/
structure ConfigStore where
  stored : Memory
  mixed : Bool
  working : Memory
  stage : StartStage
  loadResult : LoadResult
  locked : Bool
  commit : Option Programming
  reply : Option SetupReply
  replyInFlight : Option SetupReply
  carryIncidents : List CarriedIncident
  carryOutOfService : Bool
  straps : Straps
  number : BitVec 4
  deriving DecidableEq, Repr

inductive Subject
  | status | incidents | claims | peers | counters
  deriving DecidableEq, Repr

/-- A question of the reply slot (R214): its requester is the panel, or 15. -/
structure Question where
  subject : Subject
  clear : Bool
  requester : BitVec 4
  deriving DecidableEq, Repr

/-- The thirteen counters, in the order of R216. -/
inductive Counter
  | sent | accepted | filtered | checkErrors | protocolErrors | collisions | babble
  | resyncsSent | relayDrops | replyOverruns | operatorRefused | incidentsRaised | restarts
  deriving DecidableEq, Repr

structure ReportUnit where
  counters : Vector Nat 13
  slot : Option Question
  inFlight : Option Question
  deriving DecidableEq, Repr

/-! ## The part -/

/-- The state of the part. `free` is the model's own counter of free values used (log 12); `pending` is the queue of commands,
first in, first out. -/
structure State where
  now : Nat
  supply : Bool
  zoneMode : ZoneMode
  lc : LinkController
  mu : Membership
  ct : Vector OwnerEntry 12
  oc : OwnClaimUnit
  lu : LineUnit
  ms : Measurement
  pd : ProgramDrive
  fd : FaultDetector
  rs : Sequencer
  hz : HazardUnit
  cs : ConfigStore
  rp : ReportUnit
  free : Nat
  pending : List Instr
  deriving DecidableEq, Repr

/-- The reasons a step can stop with a fault: none. The manual names no event at which the part stops; every command has an effect,
is refused by a status or a counter, or is dropped. -/
inductive Fault
  deriving DecidableEq, Repr

/-- The reasons a step can be refused. -/
inductive Refusal
  /-- Raised by an arm of exec whose command has no meaning yet: none at present. Safe: the model stops where the part goes on. -/
  | notModelled (mnemonic : String)
  deriving DecidableEq, Repr

/-! ## Reset values -/

/-- R48, R62, R55; the medium by log 8. -/
def LinkController.reset (medium : Medium) : LinkController :=
  { position := 0, roundCount := 0, presenceAge := 8, receiverOn := false, transmitCut := false,
    medium := medium, openingStart := 0, idleStart := 0, lastPresence := none }

/-- R79, R87, R94, R96. -/
def Membership.reset : Membership :=
  { peers := Vector.replicate 12 PeerRecord.unknown, linkState := .offline, isolationReason := none,
    duplicateLatch := false, listenStart := none, armedAt := none, notHeardBySince := none,
    joinRequestDone := none }

/-- R27, R34. -/
def OwnClaimUnit.reset : OwnClaimUnit :=
  { claims := [], unsent := [], inFlight := [], awaiting := Vector.replicate 8 false, waiting := [],
    changeNumber := 0, restatementDue := false, restatedSinceStart := false, restatedSinceJoined := false }

/-- R106, R107 in zone mode STARTING; ALERT, the last of the eleven, by R115. -/
def LineUnit.resetOutputs : Vector Output 11 :=
  (Vector.replicate 11 { active := false, source := .forced }).set 10 { active := false, source := .none }

/-- R103, R106, R112, R116. -/
def LineUnit.reset (pins : Vector Bool 16) : LineUnit :=
  { pins := pins, timers := Vector.replicate 16 none, debounced := Vector.replicate 16 none,
    outputs := LineUnit.resetOutputs, elementOut := Vector.replicate 3 false,
    testLevels := Vector.replicate 16 false }

/-- R105. -/
def Measurement.reset : Measurement :=
  { latest := Vector.replicate 5 none, counts := Vector.replicate 5 0, nextArrival := Vector.replicate 5 0 }

/-- R119. -/
def ProgramDrive.reset : ProgramDrive :=
  { phase := .off, demand := .stop, serial := none, silencePause := false, silenceTimer := none,
    regulation := false, fillRequest := false, drainRequest := false, drained := false,
    heatClaim := none, fillClaim := none, drainClaim := none }

def Detector.off : Detector := { state := .stopped, count := 0, timer := none }

/-- R137. -/
def FaultDetector.reset : FaultDetector :=
  { detectors := Vector.replicate 13 Detector.off, unrecorded := [] }

/-- R149, R150, R159. -/
def Sequencer.reset : Sequencer :=
  { incidents := [], nextId := 1, stepElapsed := 0, stepSince := none, claimWait := none,
    dryTimer := none, validCount := 0, lastCause := none }

/-- R187. -/
def HazardUnit.reset : HazardUnit :=
  { serial := 0, stopMark := false, queue := [], memory := Vector.replicate 12 none,
    gateStop := Vector.replicate 12 false }

/-- R197: what a reset leaves of the store before LOAD has run. The stored image with its mark and the carry-over record are given; what
LOAD sets stands at the values of log 5 until it has. -/
def ConfigStore.reset (stored : Memory) (mixed : Bool) (carried : List CarriedIncident) (outOfService : Bool) : ConfigStore :=
  { stored := stored, mixed := mixed, working := [], stage := .load, loadResult := .ok, locked := false, commit := none,
    reply := none, replyInFlight := none, carryIncidents := carried, carryOutOfService := outOfService,
    straps := { number := 0, setup := false }, number := 0 }

/-- R214, R216; RESTARTS, the last counter, is given. -/
def ReportUnit.reset (restarts : Nat) : ReportUnit :=
  { counters := (Vector.replicate 13 0).set 12 restarts, slot := none, inFlight := none }

/-- Every block at its reset value, the start at LOAD: what power-on, the return of the supply and a RESTART that is taken have in
common (R210, R211). What outlives the reset is given: the stored image with its mark, the carry-over record, RESTARTS, the pins and the
medium, and the model's own `free` and `pending`. -/
def State.atReset (stored : Memory) (mixed : Bool) (carried : List CarriedIncident) (outOfService : Bool) (restarts : Nat)
    (pins : Vector Bool 16) (medium : Medium) (free : Nat) (pending : List Instr) : State :=
  { now := 0, supply := true, zoneMode := .starting,
    lc := LinkController.reset medium, mu := Membership.reset, ct := Vector.replicate 12 OwnerEntry.empty,
    oc := OwnClaimUnit.reset, lu := LineUnit.reset pins, ms := Measurement.reset, pd := ProgramDrive.reset,
    fd := FaultDetector.reset, rs := Sequencer.reset, hz := HazardUnit.reset,
    cs := ConfigStore.reset stored mixed carried outOfService, rp := ReportUnit.reset restarts,
    free := free, pending := pending }

/-- The part right after the reset of a power-on (R210), at the beginning of LOAD, with a stored image that no service tool has
written yet (log 4), every pin low (log 7) and the medium quiet (log 8). -/
def State.reset : State :=
  State.atReset [] false [] false 0 (Vector.replicate 16 false) .quiet 0 []

end Sys2Proof.Machine
end

