-- ==== Sys2Proof/Machine/Wire.lean ====
section
/-! DEFINITION. Bytes on the wire: the check value, the frame layout and the codes of enumerated fields (chapter 4, R215). -/

namespace Sys2Proof.Machine

/-- One bit of the check value of the Conventions: polynomial x^16 + x^12 + x^5 + 1. -/
def crcBit (c : Word16) : Word16 := if c.msb then (c <<< 1) ^^^ 0x1021#16 else c <<< 1

/-- One byte of the check value, most significant bit first. -/
def crcByte (c : Word16) (b : Byte) : Word16 :=
  crcBit (crcBit (crcBit (crcBit (crcBit (crcBit (crcBit (crcBit (c ^^^ (b ++ 0#8)))))))))

/-- The register after the bytes, one by one; each value is matched so that it is a numeral before the next byte is taken. -/
def crcRegister : List Byte → Word16 → Word16
  | [], c => c
  | b :: rest, c =>
    match (crcByte c b).toNat with
    | 0 => crcRegister rest 0
    | n + 1 => crcRegister rest (BitVec.ofNat 16 (n + 1))

/-- The check value of the Conventions: initial value all ones, no final inversion (R64). -/
def crc16 (bytes : List Byte) : Word16 := crcRegister bytes 0xFFFF#16

def highByte (w : Word16) : Byte := w.extractLsb' 8 8
def lowByte (w : Word16) : Byte := w.extractLsb' 0 8

def byteOf (n : Nat) : Byte := BitVec.ofNat 8 n
/-- Two bytes, high byte first (R63). -/
def wordBytes (n : Nat) : List Byte := [byteOf (n / 256), byteOf n]
/-- The low `count` bytes of a number, high byte first (R215). -/
def numberBytes : Nat → Nat → List Byte
  | 0, _ => []
  | count + 1, n => byteOf (n / 256 ^ count) :: numberBytes count n

/-- Two values in one byte: the first named in the high four bits (R65). -/
def packed (high low : Nat) : Byte := byteOf (16 * (high % 16) + low % 16)
def highNibble (b : Byte) : Nat := b.toNat / 16
def lowNibble (b : Byte) : Nat := b.toNat % 16

/-- A flag occupies one byte, 0 for clear and 1 for set (R65). -/
def flagByte (f : Bool) : Byte := if f then 1 else 0

/-- A set of numbers as a number with one bit per member (R65). -/
def maskOf : List Bool → Nat
  | [] => 0
  | b :: rest => (if b then 1 else 0) + 2 * maskOf rest

def stationSetBytes (set : StationSet) : List Byte := wordBytes (maskOf set.toList)

/-- A station set from its two bytes; the four highest bits are ignored (R65). -/
def stationSetOf (high low : Byte) : StationSet :=
  let w : Word16 := high ++ low
  ⟨⟨allStations.map (fun k => w.getLsbD k.val)⟩, rfl⟩

/-- Frame kinds (R63). -/
inductive FrameKind
  | presence | claim | claimSet | resync | hazard | program | operator | query | reply
  | setup | setupReply | restart | undefined (code : BitVec 4)
  deriving DecidableEq, Repr

def kindCode : FrameKind → Nat
  | .presence => 0 | .claim => 1 | .claimSet => 2 | .resync => 3 | .hazard => 4 | .program => 5
  | .operator => 6 | .query => 7 | .reply => 8 | .setup => 9 | .setupReply => 10 | .restart => 11
  | .undefined code => code.toNat

/-- Group FFFh (R70). -/
def groupAll : BitVec 12 := 0xFFF
/-- The station group 800h + n (R70). -/
def stationGroup (n : Nat) : BitVec 12 := BitVec.ofNat 12 (0x800 + n)

/-- A frame without its check value (R63). -/
def frameBody (sender : Nat) (kind : FrameKind) (group : BitVec 12) (version : Nat) (payload : List Byte) : List Byte :=
  [packed sender (kindCode kind), byteOf (group.toNat / 16), packed group.toNat version, byteOf payload.length] ++ payload

/-- A frame: header, payload, check value (R63, R64). -/
def frameBytes (sender : Nat) (kind : FrameKind) (group : BitVec 12) (payload : List Byte) : List Byte :=
  let body := frameBody sender kind group 1 payload
  body ++ [highByte (crc16 body), lowByte (crc16 body)]

/-- Whether a reception is a valid frame: its four tests (R46). -/
def validReception (bytes : List Byte) : Bool :=
  let length := (bytes.getD 3 0).toNat
  6 ≤ bytes.length && bytes.length == 4 + length + 2 && length ≤ 56 &&
    (crc16 (bytes.take (bytes.length - 2)) == bytes.getD (bytes.length - 2) 0 ++ bytes.getD (bytes.length - 1) 0)

/-! ## Codes of enumerated fields (R65, R198, R215) -/

def linkCode : LinkState → Nat
  | .offline => 0 | .listening => 1 | .joining => 2 | .joined => 3 | .isolated => 4
def zoneModeCode : ZoneMode → Nat
  | .starting => 0 | .inService => 1 | .outOfService => 2 | .setup => 3 | .haltedConfig => 4
def resourceCode : Resource → Nat
  | .heat => 0 | .fill => 1 | .drain => 2 | .hold => 3
def classCode : ClaimClass → Nat
  | .safety => 0 | .recovery => 1 | .process => 2
def phaseCode : Phase → Nat
  | .off => 0 | .fillUp => 1 | .heatUp => 2 | .run => 3 | .pause => 4 | .drainDown => 5
def demandCode : Demand → Nat
  | .stop => 0 | .run => 1
def hazardCode : HazardCode → Nat
  | .inflowStop => 0 | .inflowResume => 1 | .zoneDown => 2 | .zoneUp => 3
def subjectCode : Subject → Nat
  | .status => 0 | .incidents => 1 | .claims => 2 | .peers => 3 | .counters => 4
def statusCode : SetupStatus → Nat
  | .done => 0 | .refusedLocked => 1 | .badAddress => 2 | .busy => 3 | .invalidImage => 4 | .notEqual => 5
def peerStateCode : PeerState → Nat
  | .unknown => 0 | .present => 1 | .silent => 2 | .absent => 3 | .foreign => 4
def isolationCode : Option IsolationReason → Nat
  | none => 0 | some .notHeardFrom => 1 | some .notHeardBy => 2 | some .duplicateNumber => 3
def loadCode : LoadResult → Nat
  | .ok => 0 | .checkValue => 1 | .fieldRange => 2 | .stationNumber => 3 | .ranks => 4 | .quorum => 5 | .timerOrder => 6
  | .timerMargin => 7 | .currentLimits => 8 | .lineCounts => 9 | .heaterLines => 10 | .criticalFlag => 11
  | .capacity => 12 | .rating => 13

/-- The rank of a kind (R137). -/
def faultRank : FaultId → Nat
  | .leak => 1 | .elementStuck _ => 2 | .dryHeat => 3 | .sensorFault => 4 | .elementOpen _ => 5 | .tempLow => 6
  | .fillTimeout => 7 | .drainTimeout => 8 | .filterBlocked => 9
/-- The element as its number, 0 where the kind has none (R215). -/
def faultElement : FaultId → Nat
  | .elementStuck e => e.val + 1 | .elementOpen e => e.val + 1 | _ => 0
def faultByte (f : FaultId) : Byte := packed (faultRank f - 1) (faultElement f)

def linkOfCode : Nat → Option LinkState
  | 0 => some .offline | 1 => some .listening | 2 => some .joining | 3 => some .joined | 4 => some .isolated | _ => none
def zoneModeOfCode : Nat → Option ZoneMode
  | 0 => some .starting | 1 => some .inService | 2 => some .outOfService | 3 => some .setup | 4 => some .haltedConfig
  | _ => none
def resourceOfCode : Nat → Option Resource
  | 0 => some .heat | 1 => some .fill | 2 => some .drain | 3 => some .hold | _ => none
def classOfCode : Nat → Option ClaimClass
  | 0 => some .safety | 1 => some .recovery | 2 => some .process | _ => none
def phaseOfCode : Nat → Option Phase
  | 0 => some .off | 1 => some .fillUp | 2 => some .heatUp | 3 => some .run | 4 => some .pause | 5 => some .drainDown
  | _ => none
def demandOfCode : Nat → Option Demand
  | 0 => some .stop | 1 => some .run | _ => none
def hazardOfCode : Nat → Option HazardCode
  | 0 => some .inflowStop | 1 => some .inflowResume | 2 => some .zoneDown | 3 => some .zoneUp | _ => none
def subjectOfCode : Nat → Option Subject
  | 0 => some .status | 1 => some .incidents | 2 => some .claims | 3 => some .peers | 4 => some .counters | _ => none

/-- A station number 0 to 11. -/
def stationOf (n : Nat) : Option Station := if h : n < 12 then some ⟨n, h⟩ else none
def tagOf (n : Nat) : Option Tag := if h : n < 8 then some ⟨n, h⟩ else none

end Sys2Proof.Machine
end

