-- ==== Sys2Proof/Machine/Ops.lean ====
section
/-! DEFINITION. Named operations over the image, the registers and the counters; the items of the image (R198). -/

namespace Sys2Proof.Machine

/-! ## Vectors -/

/-- A vector with one entry replaced. -/
def setAt {α : Type} {n : Nat} (v : Vector α n) (k : Fin n) (x : α) : Vector α n := v.set k.val x k.isLt

/-- A vector with a function applied to every entry. -/
def mapAll {α β : Type} {n : Nat} (f : α → β) (v : Vector α n) : Vector β n :=
  ⟨⟨v.toList.map f⟩, by simp⟩

/-! ## The addressed buffer: the two copies of the image -/

/-- What an unlisted address reads as (log 4). -/
def blankByte : Byte := 0

/-- The byte at an address. -/
def Memory.read : Memory → Nat → Byte
  | [], _ => blankByte
  | (k, v) :: rest, a => if k = a then v else Memory.read rest a

/-- One byte stored; the canonical form is kept. -/
def Memory.write : Memory → Nat → Byte → Memory
  | [], a, v => if v = blankByte then [] else [(a, v)]
  | (k, w) :: rest, a, v =>
    if a < k then (if v = blankByte then (k, w) :: rest else (a, v) :: (k, w) :: rest)
    else if a = k then (if v = blankByte then rest else (a, v) :: rest)
    else (k, w) :: Memory.write rest a v

/-- Bytes stored at rising addresses. -/
def Memory.writeBytes : Memory → Nat → List Byte → Memory
  | m, _, [] => m
  | m, a, v :: rest => Memory.writeBytes (m.write a v) (a + 1) rest

/-- `count` bytes from an address on. -/
def Memory.bytes (m : Memory) : Nat → Nat → List Byte
  | _, 0 => []
  | a, count + 1 => m.read a :: Memory.bytes m (a + 1) count

/-- Number of bytes of an image (R197). -/
def imageSize : Nat := 256

/-- The canonical form above a bound: addresses rising and inside the image, no entry equal to what an unlisted address reads as. -/
def Memory.wfFrom : Nat → Memory → Bool
  | _, [] => true
  | low, (k, v) :: rest => low ≤ k && k < imageSize && v != blankByte && Memory.wfFrom (k + 1) rest

/-- The canonical form. -/
def Memory.wf (m : Memory) : Bool := Memory.wfFrom 0 m

/-! ## The items of the image (R198); times in microseconds -/

def Memory.byteAt (m : Memory) (a : Nat) : Nat := (m.read a).toNat
def Memory.wordAt (m : Memory) (a : Nat) : Nat := 256 * m.byteAt a + m.byteAt (a + 1)
/-- A signed two-byte number. -/
def Memory.signedAt (m : Memory) (a : Nat) : Int :=
  if m.wordAt a < 32768 then (m.wordAt a : Int) else (m.wordAt a : Int) - 65536

def Memory.wheelSize (m : Memory) : Nat := m.byteAt 0
def Memory.quorum (m : Memory) : Nat := m.byteAt 1
def Memory.panel (m : Memory) : Nat := m.byteAt 2
def Memory.presencePeriod (m : Memory) : Nat := m.byteAt 3
def Memory.tSilent (m : Memory) : Nat := 1000 * m.wordAt 4
def Memory.tExpire (m : Memory) : Nat := 1000 * m.wordAt 6
def Memory.tIsolate (m : Memory) : Nat := 1000 * m.wordAt 8
def Memory.tListen (m : Memory) : Nat := 1000 * m.wordAt 10
def Memory.tPanel (m : Memory) : Nat := 1000 * m.wordAt 12
/-- The capacity of a resource; HOLD has none (R3). -/
def Memory.capacity (m : Memory) : Resource → Nat
  | .heat => m.byteAt 14 | .fill => m.byteAt 15 | .drain => m.byteAt 16 | .hold => 0
def Memory.rank (m : Memory) (k : Station) : Nat := m.byteAt (17 + k.val)
def Memory.numberBase (m : Memory) : BitVec 4 := (m.read 64).extractLsb' 4 4
def Memory.strapSelect (m : Memory) : BitVec 4 := (m.read 64).extractLsb' 0 4
def Memory.role (m : Memory) : Nat := m.byteAt 65
def Memory.skippable (m : Memory) : Bool := (m.read 66).getLsbD 0
def Memory.tempCritical (m : Memory) : Bool := (m.read 66).getLsbD 1
def Memory.remoteRestartOk (m : Memory) : Bool := (m.read 66).getLsbD 2

/-- The function of a line entry by its code. -/
def lineFunctionOfCode : Nat → LineFunction
  | 1 => .leakProbe | 2 => .levelLow | 3 => .levelNormal | 4 => .levelHigh | 5 => .fillValve | 6 => .drainValve
  | 7 => .pumpRun | 8 => .pumpReverse | 9 => .heat1 | 10 => .heat2 | 11 => .heat3 | 12 => .heatIsolate
  | 13 => .cascadeGate | 14 => .conveyorEnable | 15 => .alert | _ => .unused
def Memory.lineFunction (m : Memory) (i : Line) : LineFunction := lineFunctionOfCode (m.byteAt (67 + i.val) / 16)
def Memory.activeLow (m : Memory) (i : Line) : Bool := (m.read (67 + i.val)).getLsbD 3
/-- Debounce codes 0 to 3 give 20, 100, 500 and 2000 ms. -/
def Memory.debounce (m : Memory) (i : Line) : Nat :=
  match m.byteAt (67 + i.val) % 4 with
  | 0 => 20000 | 1 => 100000 | 2 => 500000 | _ => 2000000

/-- A group filter (R71). -/
structure GroupFilter where
  enable : Bool
  value : BitVec 12
  mask : BitVec 12
  deriving DecidableEq, Repr

def Memory.filter (m : Memory) (n : Nat) : GroupFilter :=
  let a := 83 + 4 * n
  { enable := (m.read a).getLsbD 7
    value := (m.read a).extractLsb' 0 4 ++ m.read (a + 1)
    mask := m.read (a + 2) ++ (m.read (a + 3)).extractLsb' 4 4 }

inductive ResponseAction
  | gateStop | gateResume | none
  deriving DecidableEq, Repr

/-- An entry of the Hazard Response Table (R187). -/
structure ResponseEntry where
  enable : Bool
  relay : Bool
  action : ResponseAction
  code : Nat
  originValue : BitVec 4
  originMask : BitVec 4
  relayGroup : BitVec 12
  deriving DecidableEq, Repr

def Memory.response (m : Memory) (n : Nat) : ResponseEntry :=
  let a := 99 + 4 * n
  { enable := (m.read a).getLsbD 7
    relay := (m.read a).getLsbD 6
    action := match m.byteAt a / 16 % 4 with
      | 0 => .gateStop | 1 => .gateResume | _ => .none
    code := m.byteAt a % 4
    originValue := (m.read (a + 1)).extractLsb' 4 4
    originMask := (m.read (a + 1)).extractLsb' 0 4
    relayGroup := (m.read (a + 2)).extractLsb' 0 4 ++ m.read (a + 3) }

def Memory.feederGroup (m : Memory) : BitVec 12 := (m.read 131).extractLsb' 0 4 ++ m.read 132
def Memory.hopLimit (m : Memory) : Nat := m.byteAt 133
def Memory.setpoint (m : Memory) : Int := m.signedAt 134
def Memory.hysteresis (m : Memory) : Int := m.wordAt 136
def Memory.tempMin (m : Memory) : Int := m.signedAt 138
def Memory.tTemp (m : Memory) : Nat := 1000000 * m.wordAt 140
def Memory.tBoost (m : Memory) : Nat := 1000000 * m.wordAt 142
def Memory.dpLimit (m : Memory) : Int := m.wordAt 144
def Memory.tFilter (m : Memory) : Nat := 1000000 * m.byteAt 146
def Memory.tFlush (m : Memory) : Nat := 1000000 * m.byteAt 147
def Memory.elementCount (m : Memory) : Nat := m.byteAt 148
def Memory.rating (m : Memory) (e : Element) : Nat := m.byteAt (149 + e.val)
def Memory.iOnMin (m : Memory) : Int := m.wordAt 152
def Memory.iOffMax (m : Memory) : Int := m.wordAt 154
def Memory.tFill (m : Memory) : Nat := 1000000 * m.wordAt 156
def Memory.tDrain (m : Memory) : Nat := 1000000 * m.wordAt 158
def Memory.tDry (m : Memory) : Nat := 1000000 * m.byteAt 160
def Memory.tVerify (m : Memory) : Nat := 1000000 * m.wordAt 161
def Memory.tClaimWait (m : Memory) : Nat := 1000000 * m.byteAt 163
def Memory.attempts (m : Memory) : Nat := m.byteAt 164
def Memory.lockByte (m : Memory) : Nat := m.byteAt 253
/-- The configuration digest: the check value over the shared part (R197). -/
def Memory.digest (m : Memory) : Word16 := crc16 (m.bytes 0 64)
/-- The check value over bytes 0 to 253 (R197). -/
def Memory.checkValue (m : Memory) : Word16 := crc16 (m.bytes 0 254)

/-! ## Modes, numbers and the wheel size in use -/

/-- SETUP or HALTED_CONFIG. -/
def State.serviceMode (s : State) : Bool := s.zoneMode == .setup || s.zoneMode == .haltedConfig
/-- IN_SERVICE or OUT_OF_SERVICE. -/
def State.runMode (s : State) : Bool := s.zoneMode == .inService || s.zoneMode == .outOfService
/-- The image the blocks read their items from (R197). -/
def State.image (s : State) : Memory := s.cs.working
/-- This station as a station number 0 to 11 (R199). -/
def State.me (s : State) : Station := ⟨s.cs.number.toNat % 12, Nat.mod_lt _ (by decide)⟩

/-- The wheel size W in use (R48). -/
def State.wheelSize (s : State) : Nat :=
  if s.serviceMode then
    (if 2 ≤ s.image.wheelSize && s.image.wheelSize ≤ 12 then s.image.wheelSize else 12)
  else s.image.wheelSize

/-- Whether a sender number is the panel's (R73). -/
def State.isPanel (s : State) (n : Nat) : Bool := n == s.image.panel && n < 12

/-- The peers: every station number but this station's own (R79). -/
def State.peerNumbers (s : State) : List Station := allStations.filter (fun k => k != s.me)

/-! ## Counters (R216) -/

def counterPlace : Counter → Fin 13
  | .sent => 0 | .accepted => 1 | .filtered => 2 | .checkErrors => 3 | .protocolErrors => 4 | .collisions => 5
  | .babble => 6 | .resyncsSent => 7 | .relayDrops => 8 | .replyOverruns => 9 | .operatorRefused => 10
  | .incidentsRaised => 11 | .restarts => 12

def counterMax : Counter → Nat
  | .sent => 4294967295 | .accepted => 4294967295 | .restarts => 255 | _ => 65535

def State.counter (s : State) (c : Counter) : Nat := s.rp.counters[counterPlace c]

/-- A counter rises by 1 and stays at its maximum (R216). -/
def count (c : Counter) (s : State) : State :=
  { s with rp := { s.rp with counters := setAt s.rp.counters (counterPlace c) (min (s.counter c + 1) (counterMax c)) } }

/-! ## Clock -/

/-- The present time is at least this deadline from here on (log 1). -/
def advanceTo (deadline : Nat) (s : State) : State := { s with now := max s.now deadline }

/-! ## Samples (R105) -/

/-- The valid range of a channel. -/
def channelRange (c : Channel) : Int × Int :=
  if c = 0 then (-100, 1200) else if c = 1 then (0, 1000) else (0, 400)

/-- The value of a sample when it is valid. -/
def validValue (c : Channel) : Sample → Option Int
  | .value v => if (channelRange c).1 ≤ v ∧ v ≤ (channelRange c).2 then some v else none
  | _ => none

def State.latestValid (s : State) (c : Channel) : Option Int := s.ms.latest[c].bind (validValue c)

/-- What a channel takes at its arrival: nothing presented is UNDER. -/
def sampleOf : Presented → Sample
  | .value v => .value v | .over => .over | .under => .under | .nothing => .under

/-- The current channel of an element: MC2, MC3, MC4. -/
def currentChannel (e : Element) : Channel := ⟨e.val + 2, by omega⟩

end Sys2Proof.Machine
end

