-- ==== Sys2Proof/Machine/ClaimTable.lean ====
section
/-! DEFINITION. The Claim Table: grant computation, changes and restatements of peers, removal of records (chapter 1). -/

namespace Sys2Proof.Machine

/-! ## Records of one owner -/

/-- The range of an amount (R1). -/
def amountInRange : Resource → Nat → Bool
  | .heat, n => 1 ≤ n && n ≤ 255
  | .fill, n => 1 ≤ n && n ≤ 7
  | .drain, n => 1 ≤ n && n ≤ 7
  | .hold, n => n == 1

def hasTag (t : Tag) (records : List ClaimRecord) : Bool := records.any (fun r => r.tag == t)

/-- A record placed by its tag. -/
def insertRecord (r : ClaimRecord) : List ClaimRecord → List ClaimRecord
  | [] => [r]
  | q :: rest => if r.tag < q.tag then r :: q :: rest else q :: insertRecord r rest

/-- The effect of a change on the records of its owner (R10). A new record is WAITING until the marks are recomputed. -/
def applyChange (c : Change) (records : List ClaimRecord) : List ClaimRecord :=
  match c.op with
  | .new resource cls amount =>
    insertRecord { tag := c.tag, resource := resource, cls := cls, amount := amount, mark := .waiting } records
  | .amend cls amount => records.map (fun r => if r.tag = c.tag then { r with cls := cls, amount := amount } else r)
  | .release => records.filter (fun r => r.tag != c.tag)

/-! ## Grant order and grant marks -/

def classOrder : ClaimClass → Nat
  | .safety => 0 | .recovery => 1 | .process => 2

/-- A claim of the table: a record with its owner. -/
abbrev Claim := Station × ClaimRecord

/-- Whether one claim stands before another in grant order: class, the owner's rank, tag (R5). -/
def grantBefore (image : Memory) (a b : Claim) : Bool :=
  classOrder a.2.cls < classOrder b.2.cls ||
    (classOrder a.2.cls == classOrder b.2.cls &&
      (image.rank a.1 < image.rank b.1 || (image.rank a.1 == image.rank b.1 && a.2.tag < b.2.tag)))

def insertClaim (image : Memory) (c : Claim) : List Claim → List Claim
  | [] => [c]
  | d :: rest => if grantBefore image c d then c :: d :: rest else d :: insertClaim image c rest

/-- Claims in grant order (R5). -/
def grantOrder (image : Memory) (claims : List Claim) : List Claim := claims.foldr (insertClaim image) []

/-- The walk of R6 from a remaining amount: the claims that are granted. It ends at the first that does not fit. -/
def grantWalk : Nat → List Claim → List Claim
  | _, [] => []
  | left, c :: rest => if c.2.amount ≤ left then c :: grantWalk (left - c.2.amount) rest else []

/-- Every claim of one resource, by owner and tag. -/
def claimsOf (resource : Resource) (table : Vector OwnerEntry 12) : List Claim :=
  allStations.flatMap (fun k => (table[k].records.filter (fun r => r.resource == resource)).map (fun r => (k, r)))

/-- The claims of one resource that the walk grants. -/
def grantedOf (image : Memory) (resource : Resource) (table : Vector OwnerEntry 12) : List Claim :=
  grantWalk (image.capacity resource) (grantOrder image (claimsOf resource table))

/-- The mark of a record: HOLD is always granted (R7), the others as the walk of their resource gives (R6). -/
def markOf (image : Memory) (table : Vector OwnerEntry 12) (k : Station) (r : ClaimRecord) : Mark :=
  if r.resource = .hold then .granted
  else if (grantedOf image r.resource table).any (fun c => c.1 == k && c.2.tag == r.tag) then .granted else .waiting

/-- The table with every grant mark computed again (R8). -/
def remark (image : Memory) (table : Vector OwnerEntry 12) : Vector OwnerEntry 12 :=
  ⟨⟨allStations.map (fun k =>
    { table[k] with records := table[k].records.map (fun r => { r with mark := markOf image table k r }) })⟩, rfl⟩

def recomputeMarks (s : State) : State := { s with ct := remark s.image s.ct }

/-- The HOLD indication: whether the table holds a HOLD record (R7). -/
def State.holdIndication (s : State) : Bool :=
  s.ct.toList.any (fun e => e.records.any (fun r => r.resource == .hold))

/-! ## Owner entries -/

def setOwner (k : Station) (e : OwnerEntry) (s : State) : State := { s with ct := setAt s.ct k e }

/-- The stale mark of an owner is set (R16). -/
def markStale (k : Station) (s : State) : State := setOwner k { s.ct[k] with stale := true } s

/-- An owner's records are removed, Applied becomes none and the stale mark clear (R22, R23). -/
def removeOwner (k : Station) (s : State) : State := setOwner k OwnerEntry.empty s

/-- The owners whose stale mark is set (R16). -/
def State.staleOwners (s : State) : List Station := allStations.filter (fun k => s.ct[k].stale)

/-- a is at or after b, and a is after b (Conventions, Modular numbers). -/
def atOrAfter (a b : Byte) : Bool := (a - b).toNat < 128
def after (a b : Byte) : Bool := atOrAfter a b && a != b

/-! ## Changes of a peer (section 1.4) -/

/-- A change as a CLAIM carries it (R67). -/
structure RawChange where
  op : Nat
  tag : Nat
  resource : Nat
  cls : Nat
  amount : Nat
  deriving DecidableEq, Repr

/-- The three-byte items of a claim frame (R67). -/
def rawChanges : List Byte → List RawChange
  | a :: b :: c :: rest =>
    { op := highNibble a, tag := lowNibble a, resource := highNibble b, cls := lowNibble b, amount := c.toNat } :: rawChanges rest
  | _ => []

/-- One change checked against the owner's records (R14): the change it stands for, or none where it fails. -/
def checkChange (raw : RawChange) (records : List ClaimRecord) : Option Change :=
  match tagOf raw.tag with
  | none => none
  | some tag =>
    match raw.op with
    | 0 =>
      match resourceOfCode raw.resource, classOfCode raw.cls with
      | some resource, some cls =>
        if hasTag tag records || records.length ≥ Config.maxClaims || !amountInRange resource raw.amount then none
        else some { tag := tag, op := .new resource cls raw.amount }
      | _, _ => none
    | 1 =>
      match records.find? (fun r => r.tag == tag), classOfCode raw.cls with
      | some r, some cls =>
        if amountInRange r.resource raw.amount then some { tag := tag, op := .amend cls raw.amount } else none
      | _, _ => none
    | 2 => if hasTag tag records then some { tag := tag, op := .release } else none
    | _ => none

/-- The selected changes in order, each checked against the records as the earlier ones leave them; none where one fails (R14, R15). -/
def applyRaw : List RawChange → List ClaimRecord → Option (List ClaimRecord)
  | [], records => some records
  | raw :: rest, records =>
    match checkChange raw records with
    | none => none
    | some c => applyRaw rest (applyChange c records)

/-- A protocol error of a claim frame: counted once, and the owner handled as for a gap (R14, R18, R67). -/
def claimRefused (k : Station) (s : State) : State := markStale k (count .protocolErrors s)

/-- The selected changes of a CLAIM applied (R15), or the frame refused (R14). -/
def applySelected (k : Station) (selected : List RawChange) (last : Byte) (s : State) : State :=
  match applyRaw selected s.ct[k].records with
  | none => claimRefused k s
  | some records => recomputeMarks (setOwner k { s.ct[k] with records := records, applied := some last } s)

/-- A CLAIM taken from owner k: form test, comparison with Applied, check and application (R13 to R17, R67). -/
def takeClaim (k : Station) (payload : List Byte) (s : State) : State :=
  match payload with
  | [] => claimRefused k s
  | first :: items =>
    let changes := rawChanges items
    if items.length % 3 ≠ 0 || changes.length = 0 || Config.maxChanges < changes.length then claimRefused k s
    else
      match s.ct[k].applied, s.ct[k].stale with
      | some a, false =>
        let last := first + byteOf (changes.length - 1)
        if first = a + 1 then applySelected k changes last s
        else if after first (a + 1) then markStale k s
        else if atOrAfter a last then s
        else applySelected k (changes.drop (a + 1 - first).toNat) last s
      | _, _ => markStale k s

/-! ## Restatement (section 1.5) -/

/-- A restated record checked as R14 checks a NEW, except for its place in the list (R18). -/
def restatedRecord (raw : RawChange) : Option ClaimRecord :=
  match tagOf raw.tag, resourceOfCode raw.resource, classOfCode raw.cls with
  | some tag, some resource, some cls =>
    if amountInRange resource raw.amount then
      some { tag := tag, resource := resource, cls := cls, amount := raw.amount, mark := .waiting }
    else none
  | _, _, _ => none

/-- The three-byte records of a CLAIM_SET: a tag; resource and class, packed; amount (R67). -/
def rawRecords : List Byte → List RawChange
  | a :: b :: c :: rest =>
    { op := 0, tag := a.toNat, resource := highNibble b, cls := lowNibble b, amount := c.toNat } :: rawRecords rest
  | _ => []

/-- The records of a restatement; none where one fails or two carry one tag (R18). -/
def restatedRecords : List RawChange → Option (List ClaimRecord)
  | [] => some []
  | raw :: rest =>
    match restatedRecord raw, restatedRecords rest with
    | some r, some records => if hasTag r.tag records then none else some (insertRecord r records)
    | _, _ => none

/-- What a CLAIM_SET carries when it passes R18: the change number, the fresh flag and the records. -/
def readRestatement : List Byte → Option (Byte × Bool × List ClaimRecord)
  | number :: fresh :: items =>
    if items.length % 3 ≠ 0 || Config.maxClaims < items.length / 3 then none
    else (restatedRecords (rawRecords items)).map (fun records => (number, fresh != 0, records))
  | _ => none

/-- A restatement applied (R19). -/
def applyRestatement (k : Station) (number : Byte) (records : List ClaimRecord) (s : State) : State :=
  recomputeMarks (setOwner k { applied := some number, stale := false, records := records } s)

/-- The entry for its sender of a PRESENCE's Applied vector, handed to the table (R21). -/
def takeAppliedEntry (k : Station) (entry : Option Byte) (s : State) : State :=
  match entry with
  | none => s
  | some n =>
    if s.ct[k].stale then s
    else match s.ct[k].applied with
      | none => markStale k s
      | some a => if after n a then markStale k s else s

/-- The table takes claim frames (R12, conditions 1 and 2; condition 3 is judged at delivery, R75). -/
def State.tableTakes (s : State) (k : Station) : Bool :=
  (s.mu.linkState == .listening || s.mu.linkState == .joining || s.mu.linkState == .joined) && k != s.me &&
    s.mu.peers[k].state != .foreign

/-- The table cleared at isolation (R24). -/
def clearTable (s : State) : State := { s with ct := Vector.replicate 12 OwnerEntry.empty }

end Sys2Proof.Machine
end

