-- ==== Sys2Proof/Machine/OwnClaims.lean ====
section
/-! DEFINITION. The Own Claim Unit: requests, changes, confirmation, usable amounts (chapter 2); the quorum (R38, R85). -/

namespace Sys2Proof.Machine

/-! ## Own claims -/

/-- The class of an own claim: the higher of the class requested and the boost class (R30). -/
def OwnClaim.cls (c : OwnClaim) : ClaimClass :=
  if c.boosted && c.requested == .process then .recovery else c.requested

/-- Purposes match: PROGRAM, STEP of the same incident id, CONTAIN (R28, R29). -/
def samePurpose : Purpose → Purpose → Bool
  | .program, .program => true
  | .contain _, .contain _ => true
  | .step a, .step b => a == b
  | _, _ => false

def OwnClaim.isFor (c : OwnClaim) (resource : Resource) (purpose : Purpose) : Bool :=
  c.resource == resource && samePurpose c.purpose purpose

def State.ownClaim (s : State) (resource : Resource) (purpose : Purpose) : Option OwnClaim :=
  s.oc.claims.find? (fun c => c.isFor resource purpose)

/-- An own claim placed by its tag. -/
def insertOwn (c : OwnClaim) : List OwnClaim → List OwnClaim
  | [] => [c]
  | d :: rest => if c.tag < d.tag then c :: d :: rest else d :: insertOwn c rest

/-- A tag is free: it belongs to no live claim and is not awaiting release (R31). -/
def State.tagFree (s : State) (t : Tag) : Bool := !(s.oc.claims.any (fun c => c.tag == t)) && !s.oc.awaiting[t]
/-- The lowest free tag (R31). -/
def State.freeTag (s : State) : Option Tag := allTags.find? (fun t => s.tagFree t)
/-- A place and a tag are free (R32). -/
def State.hasRoom (s : State) : Bool := s.oc.claims.length < Config.maxClaims && s.freeTag.isSome

/-! ## The unsent change list (R33) -/

/-- Two changes of one tag as one; none when they cancel. -/
def coalesce : ChangeOp → ChangeOp → Option ChangeOp
  | .new resource _ _, .amend cls amount => some (.new resource cls amount)
  | .new _ _ _, .release => none
  | _, op => some op

/-- A change placed on a change list: the list, and whether the change cancelled with the one already there. -/
def placeChange (c : Change) : List Change → List Change × Bool
  | [] => ([c], false)
  | d :: rest =>
    if d.tag = c.tag then
      match coalesce d.op c.op with
      | some op => ({ tag := d.tag, op := op } :: rest, false)
      | none => (rest, true)
    else (d :: (placeChange c rest).1, (placeChange c rest).2)

/-- An own change made: entered in the local table (R10) and placed on the unsent change list (R33). A tag released awaits its
release, or is free at once where the two cancel (R31). -/
def makeChange (c : Change) (s : State) : State :=
  let placed := placeChange c s.oc.unsent
  let awaiting := match c.op with
    | .release => setAt s.oc.awaiting c.tag (!placed.2)
    | _ => s.oc.awaiting
  recomputeMarks
    (setOwner s.me { s.ct[s.me] with records := applyChange c s.ct[s.me].records }
      { s with oc := { s.oc with unsent := placed.1, awaiting := awaiting } })

/-! ## Requests and withdrawals (R28 to R32, R42) -/

/-- The own claim a request creates: UNSENT, nothing confirmed (R28). -/
def newClaim (r : Request) (t : Tag) : OwnClaim :=
  { tag := t, resource := r.resource, requested := r.cls, boosted := false, amount := r.amount, purpose := r.purpose,
    sent := .unsent, confirmed := none, usable := 0 }

/-- A claim created with this tag (R28, R31). -/
def createClaim (r : Request) (t : Tag) (s : State) : State :=
  makeChange { tag := t, op := .new r.resource r.cls r.amount }
    { s with oc := { s.oc with claims := insertOwn (newClaim r t) s.oc.claims } }

def holdersOf : Purpose → List Holder
  | .contain hs => hs
  | _ => []

def addHolders (hs more : List Holder) : List Holder := hs ++ more.filter (fun h => !hs.contains h)

/-- A later request of the purpose and resource of a waiting one: its holders join, or it replaces it in its place (R32). -/
def mergeRequest (old new : Request) : Request :=
  match old.purpose with
  | .contain hs => { new with purpose := .contain (addHolders hs (holdersOf new.purpose)) }
  | _ => new

/-- A request onto the waiting request list; not kept where the list is full (R32). -/
def enterWaiting (r : Request) : List Request → List Request
  | [] => [r]
  | q :: rest =>
    if q.resource = r.resource ∧ samePurpose q.purpose r.purpose = true then mergeRequest q r :: rest
    else q :: enterWaiting r rest

def waitForRoom (r : Request) (s : State) : State :=
  let list := enterWaiting r s.oc.waiting
  if list.length ≤ Config.maxWaiting then { s with oc := { s.oc with waiting := list } } else s

/-- A request that matches no claim (R28, R32). -/
def requestNew (r : Request) (s : State) : State :=
  if s.mu.linkState = .isolated then s
  else if s.hasRoom then
    match s.freeTag with
    | some t => createClaim r t s
    | none => s
  else waitForRoom r s

/-- An own claim replaced by its tag. -/
def replaceClaim (c : OwnClaim) (s : State) : State :=
  { s with oc := { s.oc with claims := s.oc.claims.map (fun d => if d.tag = c.tag then c else d) } }

/-- A claim takes new values; where its class or amount differs an AMEND is made and it is UNSENT (R28, R30). -/
def amendClaim (old new : OwnClaim) (s : State) : State :=
  if new.cls = old.cls ∧ new.amount = old.amount then replaceClaim new s
  else makeChange { tag := old.tag, op := .amend new.cls new.amount } (replaceClaim { new with sent := .unsent } s)

/-- The request as the unit takes it: HOLD is 1 at SAFETY, whatever the request names (R28). -/
def asTaken (r : Request) : Request :=
  if r.resource = .hold then { r with cls := .safety, amount := 1 } else r

/-- A request of a claim of amount 1 or more in range (R28), and a containment request (R29). -/
def placeRequest (r : Request) (s : State) : State :=
  match s.ownClaim r.resource r.purpose with
  | none => requestNew r s
  | some c =>
    match c.purpose with
    | .contain hs => replaceClaim { c with purpose := .contain (addHolders hs (holdersOf r.purpose)) } s
    | _ => amendClaim c { c with requested := r.cls, amount := r.amount } s

/-- The waiting request that is taken next: highest class first, oldest first within a class (R32). -/
def nextWaiting (list : List Request) : Option Request :=
  match list.find? (fun r => r.cls == .safety) with
  | some r => some r
  | none => match list.find? (fun r => r.cls == .recovery) with
    | some r => some r
    | none => list.head?

/-- Waiting requests taken while a place and a tag are free (R32). -/
def takeWaiting : Nat → State → State
  | 0, s => s
  | fuel + 1, s =>
    match s.hasRoom, nextWaiting s.oc.waiting with
    | true, some r => takeWaiting fuel (placeRequest r { s with oc := { s.oc with waiting := s.oc.waiting.erase r } })
    | _, _ => s

/-- Waiting requests taken at an event that frees a place (R32). -/
def placeFreed (s : State) : State := takeWaiting Config.maxWaiting s

/-- The claim leaves the list and a RELEASE is made (R42). Waiting requests take the place at the removal itself, before the requests that are
made later in the same event, to which R32 gives no order (log 47). -/
def removeClaim (c : OwnClaim) (s : State) : State :=
  placeFreed (makeChange { tag := c.tag, op := .release }
    { s with oc := { s.oc with claims := s.oc.claims.filter (fun d => d.tag != c.tag) } })

/-- A withdrawal of PROGRAM or STEP (R28, R32, R42). -/
def withdraw (resource : Resource) (purpose : Purpose) (s : State) : State :=
  match s.ownClaim resource purpose with
  | some c => removeClaim c s
  | none =>
    { s with oc := { s.oc with
        waiting := s.oc.waiting.filter (fun r => !(r.resource == resource && samePurpose r.purpose purpose)) } }

/-- A request of the Program Drive, the containment or a step (R28). -/
def request (r : Request) (s : State) : State :=
  let q := asTaken r
  if q.amount = 0 then withdraw q.resource q.purpose s
  else if amountInRange q.resource q.amount then placeRequest q s else s

/-- A holder leaves a waiting containment request; the entry goes with its last holder (R32). -/
def dropWaitingHolder (h : Holder) (list : List Request) : List Request :=
  list.filterMap (fun r =>
    match r.purpose with
    | .contain hs => if (hs.erase h).isEmpty then none else some { r with purpose := .contain (hs.erase h) }
    | _ => some r)

/-- A containment withdrawal: the holder leaves the set; the claim goes with its last holder (R29). -/
def withdrawHolder (h : Holder) (s : State) : State :=
  match s.ownClaim .hold (.contain []) with
  | some c =>
    let hs := (holdersOf c.purpose).erase h
    if hs.isEmpty then removeClaim c s else replaceClaim { c with purpose := .contain hs } s
  | none => { s with oc := { s.oc with waiting := dropWaitingHolder h s.oc.waiting } }

/-- The boost class of the PROGRAM claim of a resource set or cleared (R30). -/
def setBoost (resource : Resource) (boost : Bool) (s : State) : State :=
  match s.ownClaim resource .program with
  | some c => amendClaim c { c with boosted := boost } s
  | none => s

/-! ## Quorum, confirmation, usable amounts (R38 to R41) -/

/-- The required set: every peer PRESENT that reports JOINED (R38, R85). -/
def State.requiredSet (s : State) : List Station :=
  s.peerNumbers.filter (fun k => s.mu.peers[k].state == .present && s.mu.peers[k].reportedLink == some .joined)

/-- The quorum count (R38, R85). -/
def State.quorumCount (s : State) : Nat := (if s.mu.linkState = .joined then 1 else 0) + s.requiredSet.length
def State.quorumHolds (s : State) : Bool := s.image.quorum ≤ s.quorumCount

/-- A change number is acknowledged by every peer of the required set (R38). -/
def State.acknowledged (s : State) (n : Byte) : Bool :=
  s.requiredSet.all (fun k => match s.mu.peers[k].ackOfMe with
    | some a => atOrAfter a n
    | none => false)

/-- Confirmation of one claim (R39). -/
def confirmClaim (s : State) (c : OwnClaim) : OwnClaim :=
  match c.sent with
  | .sent n => if s.acknowledged n && s.quorumHolds then { c with sent := .confirmed, confirmed := some (c.cls, c.amount) } else c
  | _ => c

/-- The mark of an own claim's record in the local table. -/
def State.ownGranted (s : State) (t : Tag) : Bool :=
  s.ct[s.me].records.any (fun r => r.tag == t && r.mark == .granted)

/-- The usable amount of an own claim (R40). -/
def usableOf (s : State) (c : OwnClaim) : Nat :=
  if s.mu.linkState = .joined ∧ s.quorumHolds = true ∧ s.ownGranted c.tag = true then
    if c.resource = .hold then 1
    else match c.confirmed with
      | some (cls, amount) => if c.amount ≤ amount ∧ classOrder cls ≤ classOrder c.cls then c.amount else 0
      | none => 0
  else 0

/-- Confirmation evaluated and every usable amount computed again (R39, R41). -/
def refreshClaims (s : State) : State :=
  { s with oc := { s.oc with claims := s.oc.claims.map (fun c =>
      let d := confirmClaim s c
      { d with usable := usableOf s d }) } }

/-- The sum of the usable amounts of one resource (R41). -/
def State.usableSum (s : State) (resource : Resource) : Nat :=
  ((s.oc.claims.filter (fun c => c.resource == resource)).map (fun c => c.usable)).sum

/-! ## CLAIM and CLAIM_SET of this station (R35 to R37) -/

/-- The send window admits a change number (R36). -/
def State.windowAdmits (s : State) (m : Byte) : Bool :=
  s.requiredSet.all (fun k => match s.mu.peers[k].ackOfMe with
    | some a => (m - a).toNat ≤ Config.sendWindow
    | none => true)

/-- How many changes from `n` up to `n + left - 1` the window admits, none after the first it does not (R35). -/
def State.admitted (s : State) : Nat → Byte → Nat
  | 0, _ => 0
  | left + 1, n => if s.windowAdmits n then 1 + s.admitted left (n + 1) else 0

/-- How many changes the next CLAIM carries. -/
def State.claimSize (s : State) : Nat :=
  s.admitted (min Config.maxChanges s.oc.unsent.length) (s.oc.changeNumber + 1)

/-- A CLAIM is due (R35). -/
def State.claimDue (s : State) : Bool :=
  s.mu.linkState == .joined && s.oc.restatedSinceJoined && !s.oc.restatementDue && 0 < s.claimSize

/-- The sent state after a frame: the claims whose latest change it carried, change `first + i` being the i-th carried, or one number
for all (R35, R37). -/
def markSent (carried : List Change) (numberOf : Nat → Byte) (unsent : List Change) (c : OwnClaim) : OwnClaim :=
  match carried.findIdx? (fun ch => ch.tag == c.tag) with
  | some i => if unsent.any (fun ch => ch.tag == c.tag) then c else { c with sent := .sent (numberOf i) }
  | none => c

def freeReleased (carried : List Change) (awaiting : Vector Bool 8) : Vector Bool 8 :=
  carried.foldl (fun v ch => match ch.op with
    | .release => setAt v ch.tag false
    | _ => v) awaiting

/-- What the completion of an own CLAIM and of an own CLAIM_SET have in common: the own change number, the sent states, the tags
freed, the in-flight set and the own Applied entry (R11, R35, R37). -/
def completeChanges (number : Byte) (numberOf : Nat → Byte) (s : State) : State :=
  placeFreed
    (setOwner s.me { s.ct[s.me] with applied := some number }
      { s with oc := { s.oc with
          claims := s.oc.claims.map (markSent s.oc.inFlight numberOf s.oc.unsent)
          awaiting := freeReleased s.oc.inFlight s.oc.awaiting
          changeNumber := number
          inFlight := [] } })

/-- Completion of an own CLAIM (R35). -/
def completeClaim (s : State) : State :=
  let n := s.oc.changeNumber
  completeChanges (n + byteOf s.oc.inFlight.length) (fun i => n + byteOf (i + 1)) s

/-- Completion of an own CLAIM_SET that carried this number (R37). -/
def completeClaimSet (number : Byte) (s : State) : State :=
  completeChanges number (fun _ => number)
    { s with oc := { s.oc with
        restatementDue := false
        restatedSinceStart := true
        restatedSinceJoined := s.oc.restatedSinceJoined || s.mu.linkState == .joined } }

/-- The in-flight changes back at the head of the unsent change list, changes made meanwhile coalesced into them (R35). -/
def returnChanges (s : State) : State :=
  let joined := s.oc.unsent.foldl (fun (acc : List Change × Vector Bool 8) c =>
    let placed := placeChange c acc.1
    (placed.1, if placed.2 then setAt acc.2 c.tag false else acc.2)) (s.oc.inFlight, s.oc.awaiting)
  placeFreed { s with oc := { s.oc with unsent := joined.1, awaiting := joined.2, inFlight := [] } }

/-- Isolation at the unit (R43). -/
def clearOwnClaims (s : State) : State :=
  { s with oc := { s.oc with
      claims := [], unsent := [], inFlight := [], awaiting := Vector.replicate 8 false, waiting := []
      restatementDue := false, restatedSinceJoined := false } }

/-- A RESYNC naming this station or all, delivered (R37). -/
def takeResync (s : State) : State :=
  if s.mu.linkState = .joining ∨ s.mu.linkState = .joined then { s with oc := { s.oc with restatementDue := true } } else s

/-- Becoming JOINED at the unit (R91). -/
def ownClaimsJoined (s : State) : State :=
  { s with oc := { s.oc with restatementDue := true, restatedSinceJoined := false } }

end Sys2Proof.Machine
end

