-- ==== Sys2Proof/Machine/Flags.lean ====
section
/-! DEFINITION. Conditions the blocks read from one another: probes (R104), the active step (section 9.4), containment (R147), the
requests of the Program Drive (R124). -/

namespace Sys2Proof.Machine

/-! ## Lines and probes -/

def isInput : LineFunction → Bool
  | .leakProbe => true | .levelLow => true | .levelNormal => true | .levelHigh => true | _ => false

/-- The output function of a line function; none for inputs and UNUSED (R100). -/
def outputOf : LineFunction → Option OutputFunction
  | .fillValve => some .fillValve | .drainValve => some .drainValve | .pumpRun => some .pumpRun
  | .pumpReverse => some .pumpReverse | .heat1 => some (.heat 0) | .heat2 => some (.heat 1) | .heat3 => some (.heat 2)
  | .heatIsolate => some .heatIsolate | .cascadeGate => some .cascadeGate | .conveyorEnable => some .conveyorEnable
  | .alert => some .alert | _ => none

/-- The place of an output function, in the order of the codes of R198. -/
def outputPlace : OutputFunction → Fin 11
  | .fillValve => 0 | .drainValve => 1 | .pumpRun => 2 | .pumpReverse => 3 | .heat e => ⟨e.val + 4, by omega⟩
  | .heatIsolate => 7 | .cascadeGate => 8 | .conveyorEnable => 9 | .alert => 10

def allOutputs : List OutputFunction :=
  [.fillValve, .drainValve, .pumpRun, .pumpReverse, .heat 0, .heat 1, .heat 2, .heatIsolate, .cascadeGate, .conveyorEnable, .alert]

def State.output (s : State) (f : OutputFunction) : Output := s.lu.outputs[outputPlace f]

/-- The lines of the image that carry a function. -/
def linesOf (image : Memory) (f : LineFunction) : List Line := allLines.filter (fun i => image.lineFunction i == f)

/-- The level a pin reads as: active where it is at the level its polarity names (R100). -/
def State.pinActive (s : State) (i : Line) : Bool := s.lu.pins[i] != s.image.activeLow i

/-- A probe of this function is wet (R104). -/
def State.wet (s : State) (f : LineFunction) : Bool := (linesOf s.image f).any (fun i => s.lu.debounced[i] == some true)

/-- Every probe of this function is dry; an unassigned function reads dry from the end of SETTLE (R101, R104). -/
def State.dry (s : State) (f : LineFunction) : Bool :=
  if (linesOf s.image f).isEmpty then s.cs.stage == .entered
  else (linesOf s.image f).all (fun i => s.lu.debounced[i] == some false)

/-! ## The zone and the phase -/

/-- A zone with a tank: every role but LOAD (R123). -/
def State.hasTank (s : State) : Bool := s.image.role != 0
def State.finalRinse (s : State) : Bool := s.image.role == 4

/-- The Program Drive makes requests (R123, R133). Row 7 of the table of R135 has its two cells exchanged against this: after OUT_OF_SERVICE a
PROGRAM is recorded without requests, as R120 and R133 say (log 49). -/
def State.driveRuns (s : State) : Bool := s.zoneMode == .inService && s.hasTank

/-- HEAT_UP, RUN and PAUSE regulate (R127). -/
def regulates : Phase → Bool
  | .heatUp => true | .run => true | .pause => true | _ => false

/-- The conveyor is running as seen by this station (R125). -/
def State.conveyorRuns (s : State) : Bool := s.pd.phase == .run && s.pd.demand == .run && !s.holdIndication

/-- The request of the Program Drive for an output function (R124, R131, R132); none where it makes no request. In IN_SERVICE before any
PROGRAM the phase is OFF and the column OFF of R124 is requested, HEAT_ISOLATE active among it, though R133 speaks of no request (log 38). -/
def State.driveRequest (s : State) (f : OutputFunction) : Option Bool :=
  if s.zoneMode ≠ .inService then none
  else match f with
    | .conveyorEnable => some (s.pd.phase == .run && s.pd.demand == .run)
    | .alert => none
    | .heat _ => none
    | _ =>
      if s.hasTank then
        match f with
        | .fillValve => some s.pd.fillRequest
        | .drainValve => some s.pd.drainRequest
        | .pumpRun => some (s.pd.phase == .run)
        | .heatIsolate => some true
        | .cascadeGate => some (s.pd.phase == .run && s.hz.gateStop.toList.all (fun m => !m))
        | _ => some false
      else none

/-! ## Steps (section 9.4) -/

/-- The record in state ACTIVE (R159). -/
def isActive (r : Incident) : Bool :=
  match r.state with
  | .active _ => true
  | _ => false

def State.activeIncident (s : State) : Option Incident := s.rs.incidents.find? isActive

/-- The active record's id, its fault and the active step. -/
def State.activeStep (s : State) : Option (Nat × FaultId × Step) :=
  s.activeIncident.bind (fun r => match r.state with
    | .active step => some (r.id, r.fault, step)
    | _ => none)

/-- The first step of the procedure of a kind (R172 to R180). -/
def firstStep : FaultId → Step
  | .leak => .leakDrain | .elementStuck _ => .cutCheck | .dryHeat => .dryRefill | .sensorFault => .waitValid
  | .elementOpen _ => .openRest | .tempLow => .boost | .fillTimeout => .fillRest | .drainTimeout => .drainRest
  | .filterBlocked => .filterStop

/-- The step after a step of its procedure; none after the last (R172 to R180). -/
def nextStep : Step → Option Step
  | .leakDrain => some .leakDryWait | .leakDryWait => some .leakRefill | .leakRefill => some .leakVerify
  | .dryRefill => some .dryVerify | .openRest => some .openRetest | .fillRest => some .fillRefill
  | .drainRest => some .drainDrain | .filterStop => some .filterBackflush | .filterBackflush => some .filterTopUp
  | .filterTopUp => some .filterVerify | _ => none

/-- The number of a step in its procedure (R215). -/
def stepNumber : Step → Nat
  | .leakDrain => 1 | .leakDryWait => 2 | .leakRefill => 3 | .leakVerify => 4 | .cutCheck => 1 | .dryRefill => 1
  | .dryVerify => 2 | .waitValid => 1 | .openRest => 1 | .openRetest => 2 | .boost => 1 | .fillRest => 1 | .fillRefill => 2
  | .drainRest => 1 | .drainDrain => 2 | .filterStop => 1 | .filterBackflush => 2 | .filterTopUp => 3 | .filterVerify => 4

/-- The level a step names for a function (section 9.4, column Names). -/
def stepNames : Step → OutputFunction → Option Bool
  | .leakDrain, .drainValve => some true
  | .leakDryWait, .fillValve => some false
  | .leakDryWait, .drainValve => some false
  | .leakRefill, .fillValve => some true
  | .dryRefill, .fillValve => some true
  | .fillRefill, .fillValve => some true
  | .drainDrain, .drainValve => some true
  | .filterStop, .pumpRun => some false
  | .filterStop, .pumpReverse => some false
  | .filterBackflush, .drainValve => some true
  | .filterBackflush, .pumpReverse => some true
  | .filterBackflush, .pumpRun => some false
  | .filterTopUp, .fillValve => some true
  | .filterTopUp, .pumpRun => some false
  | _, _ => none

/-- Whether a step releases a function from the containment of its own incident (section 9.4, column Releases). -/
def stepReleases (fault : FaultId) : Step → OutputFunction → Bool
  | .leakRefill, .fillValve => true
  | .leakVerify, _ => true
  | .dryVerify, _ => true
  | .openRetest, .heat e => fault == .elementOpen e
  | .fillRefill, .fillValve => true
  | .drainDrain, .drainValve => true
  | _, _ => false

/-- The heat request (R113). -/
inductive HeatRequest
  | off | on | only (e : Element)
  deriving DecidableEq, Repr

def stepHeat (fault : FaultId) : Step → Option HeatRequest
  | .boost => some .on
  | .openRetest => match fault with
    | .elementOpen e => some (.only e)
    | _ => none
  | _ => none

/-- The claim of purpose STEP a step needs, of amount 1 (section 9.4, column Claims). -/
def stepClaim : Step → Option (Resource × ClaimClass)
  | .leakDrain => some (.drain, .safety)
  | .leakRefill => some (.fill, .recovery)
  | .dryRefill => some (.fill, .recovery)
  | .fillRefill => some (.fill, .recovery)
  | .drainDrain => some (.drain, .recovery)
  | .filterBackflush => some (.drain, .recovery)
  | .filterTopUp => some (.fill, .recovery)
  | _ => none

/-- The duration each step names on its step timer: its limit or the time that completes it (R172 to R180). -/
def stepDuration (image : Memory) : Step → Nat
  | .leakDrain => image.tDrain | .leakDryWait => image.tVerify | .leakRefill => image.tFill | .leakVerify => image.tVerify
  | .cutCheck => Config.cutCheckTime | .dryRefill => image.tFill | .dryVerify => image.tVerify | .waitValid => image.tVerify
  | .openRest => Config.openRestTime | .openRetest => Config.retestTime | .boost => image.tBoost
  | .fillRest => Config.timeoutRestTime | .fillRefill => image.tFill
  | .drainRest => Config.timeoutRestTime | .drainDrain => image.tDrain
  | .filterStop => Config.pumpStopTime | .filterBackflush => image.tFlush | .filterTopUp => image.tFill
  | .filterVerify => image.tVerify

/-- The claims of a step are usable (R166). RETEST asks for a nonzero amount too, where the rating read for an element above ELEMENT_COUNT is 0
(log 51). -/
def State.claimsUsable (s : State) (id : Nat) (fault : FaultId) (step : Step) : Bool :=
  match step with
  | .boost => match s.ownClaim .heat .program with
    | some c => c.boosted && 0 < c.usable
    | none => false
  | .openRetest => match s.ownClaim .heat .program, fault with
    | some c, .elementOpen e => 0 < c.usable && s.image.rating e ≤ c.usable
    | _, _ => false
  | _ => match stepClaim step with
    | some (resource, _) => match s.ownClaim resource (.step id) with
      | some c => 0 < c.usable
      | none => false
    | none => true

/-! ## Containment (R147) -/

def heatLines : List OutputFunction := [.heat 0, .heat 1, .heat 2]

/-- The functions a kind forces inactive (R147). -/
def containment : FaultId → List OutputFunction
  | .leak => [.fillValve, .pumpRun, .pumpReverse, .heat 0, .heat 1, .heat 2, .cascadeGate]
  | .elementStuck _ => [.heatIsolate, .heat 0, .heat 1, .heat 2]
  | .dryHeat => [.heat 0, .heat 1, .heat 2, .pumpRun]
  | .sensorFault => [.heat 0, .heat 1, .heat 2]
  | .elementOpen e => [.heat e]
  | .tempLow => []
  | .fillTimeout => [.fillValve]
  | .drainTimeout => [.drainValve]
  | .filterBlocked => []

/-- Whether a kind calls for a conveyor HOLD of its own (R147). -/
def callsForHold (image : Memory) : FaultId → Bool
  | .leak => true
  | .elementStuck _ => image.tempCritical
  | .sensorFault => image.tempCritical
  | .tempLow => true
  | _ => false

/-- The zone is both SKIPPABLE and OUT_OF_SERVICE (R147). -/
def State.skipped (s : State) : Bool := s.image.skippable && s.zoneMode == .outOfService

/-- Whether an incident needs a HOLD (R147). -/
def State.incidentNeedsHold (s : State) (r : Incident) : Bool :=
  !s.skipped &&
    match r.state with
    | .pending => callsForHold s.image r.fault
    | .active _ => callsForHold s.image r.fault
    | .failed _ => callsForHold s.image r.fault || !(r.fault == .filterBlocked && s.image.skippable)
    | .abandoned _ => callsForHold s.image r.fault || !(r.fault == .filterBlocked && s.image.skippable)
    | .cleared _ => false

/-- The holders that need a HOLD: incidents in list order, then Unrecorded entries (R147). -/
def State.neededHolders (s : State) : List Holder :=
  (s.rs.incidents.filter s.incidentNeedsHold).map (fun r => Holder.incident r.id) ++
    (s.fd.unrecorded.filter (fun f => !s.skipped && callsForHold s.image f)).map Holder.unrecorded

/-- Whether an incident forces a function (R107). -/
def incidentForces (f : OutputFunction) (r : Incident) : Bool :=
  (containment r.fault).contains f &&
    match r.state with
    | .pending => true
    | .failed _ => true
    | .active step => !stepReleases r.fault step f
    | _ => false

/-- A function is in the forced set (R107, condition 3). -/
def State.inForcedSet (s : State) (f : OutputFunction) : Bool :=
  s.rs.incidents.any (incidentForces f) || s.fd.unrecorded.any (fun k => (containment k).contains f)

/-- R107 forces a function other than ALERT. -/
def State.forces (s : State) (f : OutputFunction) : Bool :=
  s.zoneMode != .inService || s.mu.linkState != .joined || s.inForcedSet f

/-- A heater element is forced (R112). -/
def State.elementForced (s : State) (e : Element) : Bool :=
  s.forces (.heat e) || s.forces .heatIsolate || s.lu.elementOut[e] || s.image.elementCount ≤ e.val

/-! ## Counts reported in PRESENCE and STATUS (R66) -/

def isFailed (r : Incident) : Bool :=
  match r.state with
  | .failed _ => true
  | _ => false

def isAbandoned (r : Incident) : Bool :=
  match r.state with
  | .abandoned _ => true
  | _ => false

def isCleared (r : Incident) : Bool :=
  match r.state with
  | .cleared _ => true
  | _ => false

def State.failedCount (s : State) : Nat := (s.rs.incidents.filter isFailed).length
def State.activeRank (s : State) : Nat := (s.activeIncident.map (fun r => faultRank r.fault)).getD 0

/-- The heard set: stations whose last accepted frame lies within the last T_silent (R82, log 28). -/
def State.heardSet (s : State) : StationSet :=
  mapAll (fun (p : PeerRecord) => match p.lastAccepted with
    | some t => decide (s.now - t ≤ s.image.tSilent)
    | none => false) s.mu.peers

/-- The Applied vector (R66). -/
def State.appliedVector (s : State) : Vector (Option Byte) 12 := mapAll (fun (e : OwnerEntry) => e.applied) s.ct

end Sys2Proof.Machine
end

