-- ==== Sys2Proof/Machine/Lines.lean ====
section
/-! DEFINITION. The Line Unit: output resolution, heater elements, ALERT, the pins (chapter 6). -/

namespace Sys2Proof.Machine

/-- The level the active step names for a function (R108). -/
def State.stepRequest (s : State) (f : OutputFunction) : Option Bool :=
  s.activeStep.bind (fun a => stepNames a.2.2 f)

/-- The requested level and its source (R108). -/
def State.requested (s : State) (f : OutputFunction) : Output :=
  match s.stepRequest f with
  | some level => { active := level, source := .step }
  | none => match s.driveRequest f with
    | some level => { active := level, source := .program }
    | none => { active := false, source := .none }

/-- The requested level after the gates of R109 to R111. -/
def State.gated (s : State) (f : OutputFunction) : Output :=
  let r := s.requested f
  match f with
  | .fillValve => { r with active := r.active && 1 ≤ s.usableSum .fill }
  | .drainValve => { r with active := r.active && 1 ≤ s.usableSum .drain }
  | .pumpRun =>
    let other := s.requested .pumpReverse
    { r with active := r.active && !(!s.forces .pumpReverse && other.active && other.source == .step) }
  | .pumpReverse =>
    let other := s.requested .pumpRun
    { r with active := r.active && !(!s.forces .pumpRun && other.active && r.source != .step) }
  | .conveyorEnable => { r with active := r.active && s.conveyorRuns }
  | _ => r

/-- The heat request that applies, with its source (R113, log 19). -/
def State.heatRequest (s : State) : HeatRequest × Source :=
  match s.activeStep.bind (fun a => stepHeat a.2.1 a.2.2) with
  | some r => (r, .step)
  | none => if s.driveRuns then (if s.pd.regulation then .on else .off, .program) else (.off, .none)

/-- The walk of R113 over the elements within the limit: the elements switched on. -/
def selectElements (s : State) (limit : Nat) : Nat → List Element → List Element
  | _, [] => []
  | sum, e :: rest =>
    if s.elementForced e then selectElements s limit sum rest
    else if sum + s.image.rating e ≤ limit then e :: selectElements s limit (sum + s.image.rating e) rest
    else selectElements s limit sum rest

/-- The elements on (R113). -/
def State.elementsOn (s : State) : List Element :=
  match s.heatRequest.1 with
  | .off => []
  | .on => selectElements s (s.usableSum .heat) 0 allElements
  | .only e => if !s.elementForced e && s.image.rating e ≤ s.usableSum .heat then [e] else []

/-- ALERT (R115). -/
def State.alertActive (s : State) : Bool :=
  s.rs.incidents.any (fun r => isFailed r || isAbandoned r) || s.zoneMode == .outOfService || s.zoneMode == .haltedConfig ||
    s.mu.linkState == .isolated

/-- The resolved level and source of an output function (R107 to R115). -/
def State.resolve (s : State) (f : OutputFunction) : Output :=
  match f with
  | .alert => { active := s.alertActive, source := .none }
  | .heat e =>
    if s.elementForced e then { active := false, source := .forced }
    else { active := s.elementsOn.contains e, source := s.heatRequest.2 }
  | _ => if s.forces f then { active := false, source := .forced } else s.gated f

/-- Every output function resolved again (R106). -/
def resolveOutputs (s : State) : State :=
  { s with lu := { s.lu with outputs := ⟨⟨allOutputs.map s.resolve⟩, rfl⟩ } }

/-! ## The pins -/

/-- The logical level an output line is driven to; none where the line is not driven (R106, R115, R116). -/
def State.driven (s : State) (i : Line) : Option Bool :=
  match outputOf (s.image.lineFunction i) with
  | none => none
  | some f =>
    if !s.supply then some false
    else if s.zoneMode = .haltedConfig then some (f == .alert || s.lu.testLevels[i])
    else if s.zoneMode = .setup then some s.lu.testLevels[i]
    else if s.cs.stage = .load then none
    else some (s.output f).active

/-- The level at the pin: the polarity applied (R100). -/
def State.pinLevel (s : State) (i : Line) : Option Bool := (s.driven i).map (fun level => level != s.image.activeLow i)

/-- Every output inactive at once, as at a brown-out (R106, R115). -/
def outputsOff (s : State) : State := { s with lu := { s.lu with outputs := LineUnit.resetOutputs } }

end Sys2Proof.Machine
end

