-- ==== Sys2Proof/Machine/ProgramDrive.lean ====
section
/-! DEFINITION. The Program Drive: level keeping, regulation, process claims, phase changes (chapter 7). -/

namespace Sys2Proof.Machine

/-- The regulation request judged on the latest temperature sample (R127). -/
def State.judgedRegulation (s : State) : Bool :=
  match s.latestValid 0 with
  | none => false
  | some t =>
    if t < s.image.setpoint - s.image.hysteresis then true
    else if s.image.setpoint ≤ t then false else s.pd.regulation

/-- The regulation request judged where the drive runs and the phase regulates (R127). -/
def judgeRegulation (s : State) : State :=
  if s.driveRuns ∧ regulates s.pd.phase = true then { s with pd := { s.pd with regulation := s.judgedRegulation } } else s

/-- LEVEL_LOW dry in DRAIN_DOWN sets the drained mark (R126). -/
def judgeDrained (s : State) : State :=
  if s.pd.phase = .drainDown ∧ s.dry .levelLow = true then { s with pd := { s.pd with drained := true } } else s

/-- The phase keeps the level (R125). -/
def keepsLevel : Phase → Bool
  | .fillUp => true | .heatUp => true | .run => true | .pause => true | _ => false

/-- The fill request (R125). -/
def State.fillWanted (s : State) : Bool :=
  s.driveRuns && !s.wet .levelHigh &&
    ((keepsLevel s.pd.phase && s.dry .levelNormal) || (s.finalRinse && s.conveyorRuns))

/-- The drain request (R126). -/
def State.drainWanted (s : State) : Bool := s.driveRuns && s.pd.phase == .drainDown && !s.pd.drained

/-- The sum of the ratings of the elements in use, or the HEAT capacity where that is smaller (R128). -/
def State.heatAmount (s : State) : Nat :=
  min (((allElements.filter (fun e => e.val < s.image.elementCount && !s.lu.elementOut[e])).map s.image.rating).sum)
    (s.image.capacity .heat)

/-- The HEAT claim the drive needs (R128). -/
def State.heatWanted (s : State) : Option Nat :=
  if s.driveRuns && regulates s.pd.phase && 1 ≤ s.heatAmount then some s.heatAmount else none

/-- Withdrawal of a program claim that is no longer needed (R122 step 5, R129). -/
def withdrawUnneeded (resource : Resource) (held wanted : Option Nat) (s : State) : State :=
  if held.isSome && wanted.isNone then withdraw resource .program s else s

/-- Request or amendment of a program claim that is needed (R128, R129). -/
def requestNeeded (resource : Resource) (held wanted : Option Nat) (s : State) : State :=
  match wanted with
  | some amount =>
    if held = some amount then s else request { resource := resource, cls := .process, amount := amount, purpose := .program } s
  | none => s

/-- The program claims brought to what the drive needs: withdrawals first, then requests; none while ISOLATED (R122, R128 to R130).
Within each of the two the order is HEAT, FILL, DRAIN, which the manual leaves open (log 37). -/
def updateProgramClaims (s : State) : State :=
  if s.mu.linkState = .isolated then
    { s with pd := { s.pd with heatClaim := none, fillClaim := none, drainClaim := none } }
  else
    let heat := s.heatWanted
    let fill := if s.pd.fillRequest then some 1 else none
    let drain := if s.pd.drainRequest then some 1 else none
    let s1 := withdrawUnneeded .drain s.pd.drainClaim drain
      (withdrawUnneeded .fill s.pd.fillClaim fill (withdrawUnneeded .heat s.pd.heatClaim heat s))
    let s2 := requestNeeded .drain s.pd.drainClaim drain
      (requestNeeded .fill s.pd.fillClaim fill (requestNeeded .heat s.pd.heatClaim heat s1))
    { s2 with pd := { s2.pd with heatClaim := heat, fillClaim := fill, drainClaim := drain } }

/-- The requests and claims of the drive evaluated on the state as it stands (R124 to R133). -/
def driveEvaluate (s : State) : State :=
  let s1 := judgeDrained s
  updateProgramClaims { s1 with pd := { s1.pd with fillRequest := s1.fillWanted, drainRequest := s1.drainWanted } }

/-- A phase change: the phase, the regulation request and the drained mark (R122 steps 1 to 3). -/
def changePhase (phase : Phase) (s : State) : State :=
  if phase = s.pd.phase then s
  else
    let old := s.pd.phase
    let s1 := { s with pd := { s.pd with phase := phase, drained := false
                                         regulation := s.pd.regulation && regulates phase } }
    judgeDrained (if regulates phase && !regulates old then judgeRegulation s1 else s1)

/-- A PROGRAM taken (R120), up to the evaluation of the requests. -/
def takeProgram (phase : Phase) (demand : Demand) (serial : Byte) (s : State) : State :=
  changePhase phase { s with pd := { s.pd with
    demand := demand, serial := some serial, silencePause := false, silenceTimer := some s.now } }

/-- The panel silence timer runs out (R121). -/
def panelSilent (s : State) : State :=
  let s1 := { s with pd := { s.pd with silenceTimer := none } }
  match s.pd.phase with
  | .fillUp => changePhase .pause { s1 with pd := { s1.pd with demand := .stop, silencePause := true } }
  | .heatUp => changePhase .pause { s1 with pd := { s1.pd with demand := .stop, silencePause := true } }
  | .run => changePhase .pause { s1 with pd := { s1.pd with demand := .stop, silencePause := true } }
  | _ => s1

/-- The drive at the zone mode becoming OUT_OF_SERVICE (R133); its claims and requests go at the evaluation of the same event. -/
def driveOutOfService (s : State) : State := { s with pd := { s.pd with regulation := false } }

end Sys2Proof.Machine
end

