-- ==== Sys2Proof/Machine/Hazard.lean ====
section
/-! DEFINITION. The Hazard Unit: own notices, the outgoing queue, receiving, the gate-stop set, relaying (chapter 10). -/

namespace Sys2Proof.Machine

/-- The queue with one entry removed to make room: the oldest relay, or the oldest entry where there is no relay (R189). -/
def makeRoom (queue : List HazardEntry) : List HazardEntry :=
  match queue.findIdx? (fun e => e.relay) with
  | some i => queue.eraseIdx i
  | none => queue.drop 1

/-- An entry joins the outgoing queue (R189). -/
def pushHazard (e : HazardEntry) (s : State) : State :=
  if s.hz.queue.length < Config.maxHazards then { s with hz := { s.hz with queue := s.hz.queue ++ [e] } }
  else count .relayDrops { s with hz := { s.hz with queue := makeRoom s.hz.queue ++ [e] } }

/-- The inflow-stop mark after an own notice (R188). -/
def stopMarkAfter (code : HazardCode) (mark : Bool) : Bool :=
  match code with
  | .inflowStop => true | .inflowResume => false | _ => mark

/-- An own notice queued (R188). -/
def queueNotice (code : HazardCode) (s : State) : State :=
  let serial := s.hz.serial + 1
  pushHazard
    { origin := s.me, serial := serial, code := code, hops := s.image.hopLimit, group := s.image.feederGroup,
      sends := 3, relay := false, onWire := false }
    { s with hz := { s.hz with serial := serial, stopMark := stopMarkAfter code s.hz.stopMark } }

/-- Whether a response entry matches a notice (R192). -/
def ResponseEntry.matchesNotice (e : ResponseEntry) (origin : Station) (code : HazardCode) : Bool :=
  e.enable && ((BitVec.ofNat 4 origin.val ^^^ e.originValue) &&& e.originMask) == 0 && e.code == hazardCode code

/-- The first matching entry of the Hazard Response Table (R192). -/
def State.responseTo (s : State) (origin : Station) (code : HazardCode) : Option ResponseEntry :=
  (([0, 1, 2, 3, 4, 5, 6, 7] : List Nat).map s.image.response).find? (fun e => e.matchesNotice origin code)

/-- The action of an entry on the gate-stop set (R192). -/
def actOnGate (action : ResponseAction) (origin : Station) (set : StationSet) : StationSet :=
  match action with
  | .gateStop => setAt set origin true | .gateResume => setAt set origin false | .none => set

/-- A notice acted on and relayed as its entry directs (R192, R193). -/
def answerNotice (e : ResponseEntry) (origin : Station) (serial : Byte) (code : HazardCode) (hops : Nat) (s : State) : State :=
  let s1 := { s with hz := { s.hz with gateStop := actOnGate e.action origin s.hz.gateStop } }
  if e.relay && 0 < hops then
    pushHazard { origin := origin, serial := serial, code := code, hops := hops - 1, group := e.relayGroup, sends := 3,
                 relay := true, onWire := false } s1
  else s1

/-- A HAZARD taken (R191). -/
def takeHazard (origin : Station) (serial : Byte) (code : HazardCode) (hops : Nat) (s : State) : State :=
  if origin = s.me then s
  else if s.hz.memory[origin] = some serial then s
  else
    let s1 := { s with hz := { s.hz with memory := setAt s.hz.memory origin (some serial) } }
    match s1.responseTo origin code with
    | some e => answerNotice e origin serial code hops s1
    | none => s1

/-- A fresh restatement from owner k (R194). -/
def freshOwner (k : Station) (s : State) : State :=
  { s with hz := { s.hz with gateStop := setAt s.hz.gateStop k false, memory := setAt s.hz.memory k none } }

/-- The entry of the frame that begins is marked as on the wire (R190). -/
def markFirstOnWire (s : State) : State :=
  match s.hz.queue with
  | [] => s
  | e :: rest => { s with hz := { s.hz with queue := { e with onWire := true } :: rest } }

/-- No entry is on the wire: the frame was abandoned (R58, R190). -/
def clearOnWire (s : State) : State :=
  { s with hz := { s.hz with queue := s.hz.queue.map (fun e => { e with onWire := false }) } }

/-- The carried entry has been sent once: its remaining sends fall by 1, and it goes with its last (R190). -/
def sentEntry (queue : List HazardEntry) : List HazardEntry :=
  queue.filterMap (fun e =>
    if e.onWire then (if e.sends ≤ 1 then none else some { e with sends := e.sends - 1, onWire := false }) else some e)

def hazardSent (s : State) : State := { s with hz := { s.hz with queue := sentEntry s.hz.queue } }

end Sys2Proof.Machine
end

