-- ==== Sys2Proof/Machine/IncidentList.lean ====
section
/-! DEFINITION. The Incident List and the Unrecorded set: submission, eviction, restore, the review of HOLD needs (sections 8.3 to 8.6). -/

namespace Sys2Proof.Machine

/-! ## Records -/

/-- A record matches a fault: the same kind and element, not CLEARED (R151). -/
def matchesFault (f : FaultId) (r : Incident) : Bool := r.fault == f && !isCleared r

def idHeld (records : List Incident) (id : Nat) : Bool := records.any (fun r => r.id == id)

/-- The id after an id: 255 is followed by 1 (R150). -/
def idAfter (id : Nat) : Nat := if 255 ≤ id then 1 else id + 1

/-- The first id from this one on that no record holds (R150); nine tries pass every list of eight records. -/
def freeId (records : List Incident) : Nat → Nat → Nat
  | 0, id => id
  | fuel + 1, id => if idHeld records id then freeId records fuel (idAfter id) else id

def State.newId (s : State) : Nat := freeId s.rs.incidents (Config.maxIncidents + 1) s.rs.nextId

/-- A record created last in the list (R149, R150). Detected at is the time of this event, for an Unrecorded entry submitted again too (R155),
of which no time is kept (log 45). -/
def createRecord (f : FaultId) (state : IncidentState) (recurrences : Nat) (carried : Bool) (s : State) : State :=
  let id := s.newId
  count .incidentsRaised
    { s with rs := { s.rs with
        incidents := s.rs.incidents ++ [{ id := id, fault := f, state := state, attempts := 0, detectedAt := s.now / 1000,
                                          recurrences := recurrences, carried := carried }]
        nextId := idAfter id } }

/-- A record replaced by its id. -/
def updateRecord (id : Nat) (f : Incident → Incident) (s : State) : State :=
  { s with rs := { s.rs with incidents := s.rs.incidents.map (fun r => if r.id = id then f r else r) } }

def removeRecord (id : Nat) (s : State) : State :=
  { s with rs := { s.rs with incidents := s.rs.incidents.filter (fun r => r.id != id) } }

/-- The outcome of a submission (R140, R155). -/
inductive Submitted
  | created | recurred | joined | unchanged
  deriving DecidableEq, Repr

/-- A submission placed in the list (R151, R152). -/
def submitRecord (f : FaultId) (s : State) : State × Submitted :=
  match s.rs.incidents.find? (matchesFault f) with
  | some r => (updateRecord r.id (fun q => { q with recurrences := min (q.recurrences + 1) 255 }) s, .recurred)
  | none =>
    if s.rs.incidents.length < Config.maxIncidents then (createRecord f .pending 0 false s, .created)
    else match s.rs.incidents.find? isCleared with
      | some old => (createRecord f .pending 0 false (removeRecord old.id s), .created)
      | none =>
        if s.fd.unrecorded.contains f then (s, .unchanged)
        else ({ s with fd := { s.fd with unrecorded := s.fd.unrecorded ++ [f] } }, .joined)

/-! ## Detectors as the list needs them -/

def detectorPlace : FaultId → Fin 13
  | .leak => 0 | .elementStuck e => ⟨e.val + 1, by omega⟩ | .dryHeat => 4 | .sensorFault => 5
  | .elementOpen e => ⟨e.val + 6, by omega⟩ | .tempLow => 9 | .fillTimeout => 10 | .drainTimeout => 11 | .filterBlocked => 12

def allFaults : List FaultId :=
  [.leak, .elementStuck 0, .elementStuck 1, .elementStuck 2, .dryHeat, .sensorFault, .elementOpen 0, .elementOpen 1,
   .elementOpen 2, .tempLow, .fillTimeout, .drainTimeout, .filterBlocked]

def State.detector (s : State) (f : FaultId) : Detector := s.fd.detectors[detectorPlace f]

def setDetector (f : FaultId) (d : Detector) (s : State) : State :=
  { s with fd := { s.fd with detectors := setAt s.fd.detectors (detectorPlace f) d } }

def Detector.latchedNow : Detector := { state := .latched, count := 0, timer := none }
def Detector.fresh : Detector := { state := .watching, count := 0, timer := none }

/-- The detector of a fault latches where it runs (R139, R155). -/
def latch (f : FaultId) (s : State) : State :=
  if (s.detector f).state = .stopped then s else setDetector f Detector.latchedNow s

/-- What the Fault Detector does with the outcome of a submission (R139, R140, R155). -/
def afterSubmit (f : FaultId) (wasUnrecorded : Bool) (outcome : Submitted) (s : State) : State :=
  match outcome with
  | .created =>
    if wasUnrecorded then latch f { s with fd := { s.fd with unrecorded := s.fd.unrecorded.erase f } }
    else latch f (if f = .leak then queueNotice .inflowStop s else s)
  | .recurred => latch f s
  | .joined => if f = .leak then queueNotice .inflowStop s else s
  | .unchanged => s

/-- A detection, or an Unrecorded entry submitted again: submission and outcome (R140, R155). -/
def submit (f : FaultId) (s : State) : State :=
  afterSubmit f (s.fd.unrecorded.contains f) (submitRecord f s).2 (submitRecord f s).1

/-- Every entry of the Unrecorded set submitted again, at an event at which the list gains room (R155). -/
def resubmitUnrecorded (s : State) : State := s.fd.unrecorded.foldl (fun t f => submit f t) s

/-- One incident of the carry-over record restored as a FAILED record; a LEAK queues its INFLOW_STOP (R156). The list is empty when
SETTLE ends, so there is room for the four. -/
def restoreOne (s : State) (c : CarriedIncident) : State :=
  if s.rs.incidents.length < Config.maxIncidents then
    let t := createRecord c.fault (.failed c.reason) c.recurrences true s
    if c.fault = .leak then queueNotice .inflowStop t else t
  else s

/-- The incidents of the carry-over record restored, oldest first; its incident part is emptied (R156, R202). -/
def restoreCarried (s : State) : State :=
  let t := s.cs.carryIncidents.foldl restoreOne s
  { t with cs := { t.cs with carryIncidents := [] } }

/-! ## HOLD needs (R148) -/

/-- The holder set of the containment HOLD: of the claim, or of the request that waits for room (R29, R32). -/
def State.heldFor (s : State) : List Holder :=
  match s.ownClaim .hold (.contain []) with
  | some c => holdersOf c.purpose
  | none => s.oc.waiting.flatMap (fun r => holdersOf r.purpose)

/-- HOLD requested for each holder that needs one, then withdrawn from each that no longer does; nothing while ISOLATED (R148). -/
def reviewHolds (s : State) : State :=
  if s.mu.linkState = .isolated then s
  else
    let needed := s.neededHolders
    let s1 := (needed.filter (fun h => !s.heldFor.contains h)).foldl
      (fun t h => request { resource := .hold, cls := .safety, amount := 1, purpose := .contain [h] } t) s
    (s1.heldFor.filter (fun h => !needed.contains h)).foldl (fun t h => withdrawHolder h t) s1

end Sys2Proof.Machine
end

