-- ==== Sys2Proof/Machine/FaultDetector.lean ====
section
/-! DEFINITION. The detectors: when they run, their conditions and their persistence (sections 8.1 and 8.2). -/

namespace Sys2Proof.Machine

/-- The element of a fault is in use by the image. -/
def elementCounted (image : Memory) (f : FaultId) : Bool := faultElement f ≤ image.elementCount

/-- A detector's run condition (R137, R138). -/
def State.detectorRuns (s : State) (f : FaultId) : Bool :=
  let onLink := s.zoneMode == .inService && s.mu.linkState == .joined
  match f with
  | .leak => s.cs.stage == .entered && !s.serviceMode
  | .elementStuck _ => s.cs.stage == .entered && !s.serviceMode && elementCounted s.image f
  | .dryHeat => onLink && !(linesOf s.image .levelLow).isEmpty
  | .elementOpen _ => onLink && elementCounted s.image f
  | .tempLow => onLink && s.image.tempCritical
  | _ => onLink

/-! ## Conditions -/

/-- Any HEAT_n is active. -/
def State.anyHeatOn (s : State) : Bool := allElements.any (fun e => (s.output (.heat e)).active)

/-- The condition of LEAK and of DRY_HEAT (R141, R143). -/
def State.atOnce (s : State) (f : FaultId) : Bool :=
  match f with
  | .leak => s.wet .leakProbe
  | .dryHeat => s.dry .levelLow && s.anyHeatOn
  | _ => false

/-- The condition of LEAK and of DRY_HEAT has lapsed (R139, R141, R143). -/
def State.lapsed (s : State) (f : FaultId) : Bool :=
  match f with
  | .leak => s.dry .leakProbe
  | _ => !s.atOnce f

/-- A current sample at or above a limit, or OVER (R142). -/
def overLimit (c : Channel) (limit : Int) (x : Sample) : Bool :=
  x == .over || (match validValue c x with
    | some v => decide (limit ≤ v)
    | none => false)

/-- A current sample below a limit, or UNDER (R145). -/
def underLimit (c : Channel) (limit : Int) (x : Sample) : Bool :=
  x == .under || (match validValue c x with
    | some v => decide (v < limit)
    | none => false)

/-- A sample meets the condition of a sample detector (R142, R144, R145). -/
def State.sampleMeets (s : State) (f : FaultId) (x : Sample) : Bool :=
  match f with
  | .elementStuck e => !(s.output (.heat e)).active && overLimit (currentChannel e) s.image.iOnMin x
  | .sensorFault => (validValue 0 x).isNone
  | .elementOpen e =>
    (s.output (.heat e)).active && (s.output .heatIsolate).active && underLimit (currentChannel e) s.image.iOnMin x
  | _ => false

def sampleThreshold : FaultId → Nat
  | .elementStuck _ => Config.stuckSamples | .sensorFault => Config.sensorSamples | _ => Config.openSamples

/-- The running state of a timed detector's timer (R146). -/
def State.timerState (s : State) (f : FaultId) : Bool :=
  match f with
  | .tempLow => s.pd.phase == .run && (match s.latestValid 0 with
      | some t => decide (t < s.image.tempMin)
      | none => false)
  | .fillTimeout => s.output .fillValve == { active := true, source := .program } && !s.wet .levelNormal
  | .drainTimeout => s.output .drainValve == { active := true, source := .program } && !s.dry .levelLow
  | .filterBlocked => (s.output .pumpRun).active && (match s.latestValid 1 with
      | some p => decide (s.image.dpLimit ≤ p)
      | none => false)
  | _ => false

def detectorTime (image : Memory) : FaultId → Nat
  | .tempLow => image.tTemp | .fillTimeout => image.tFill | .drainTimeout => image.tDrain | .filterBlocked => image.tFilter
  | _ => 0

/-! ## Evaluation -/

/-- LEAK and DRY_HEAT evaluated (R139, R141, R143). -/
def evalAtOnce (f : FaultId) (s : State) : State :=
  match (s.detector f).state with
  | .stopped => s
  | .watching => if s.atOnce f then submit f s else s
  | .latched => if s.lapsed f then setDetector f Detector.fresh s else s

/-- A sample detector evaluated on an arrival (R139, R142, R144, R145, R155). -/
def evalSample (f : FaultId) (x : Sample) (s : State) : State :=
  let d := s.detector f
  match d.state with
  | .stopped => s
  | .watching =>
    if s.sampleMeets f x then
      let reached := min (d.count + 1) (sampleThreshold f)
      let s1 := setDetector f { d with count := reached } s
      if sampleThreshold f ≤ reached then submit f s1 else s1
    else setDetector f { d with count := 0 } s
  | .latched => if s.sampleMeets f x then s else setDetector f Detector.fresh s

/-- A timed detector evaluated (R139, R146): its timer starts or stops; an Unrecorded fault whose timer has run is submitted again (R155). -/
def evalTimed (f : FaultId) (s : State) : State :=
  let d := s.detector f
  match d.state with
  | .stopped => s
  | .watching =>
    if s.timerState f then
      match d.timer with
      | none => setDetector f { d with timer := some s.now } s
      | some t =>
        if s.fd.unrecorded.contains f && t + detectorTime s.image f ≤ s.now then submit f s else s
    else setDetector f { d with timer := none } s
  | .latched => if s.timerState f then s else setDetector f Detector.fresh s

/-- A detector evaluated on the state as it stands, without a sample (R138). -/
def evalDetector (f : FaultId) (s : State) : State :=
  match f with
  | .leak => evalAtOnce f s
  | .dryHeat => evalAtOnce f s
  | .elementStuck _ => s
  | .sensorFault => s
  | .elementOpen _ => s
  | _ => evalTimed f s

/-- A detector started or stopped as its run condition directs; on starting it is evaluated at once (R138). -/
def runDetector (s : State) (f : FaultId) : State :=
  match (s.detector f).state, s.detectorRuns f with
  | .stopped, true => evalDetector f (setDetector f Detector.fresh s)
  | .stopped, false => s
  | _, true => s
  | _, false => setDetector f Detector.off s

def runDetectors (s : State) : State := allFaults.foldl runDetector s

/-- Isolation and a change of zone mode: what keeps running loses its progress (R138). -/
def dropProgress (s : State) : State :=
  { s with fd := { s.fd with detectors := mapAll (fun (d : Detector) => { d with count := 0, timer := none }) s.fd.detectors } }

/-- The detectors whose evaluation events a line change of this function is (section 8.1). -/
def lineDetectors : LineFunction → List FaultId
  | .leakProbe => [.leak]
  | .levelLow => [.dryHeat, .drainTimeout]
  | .levelNormal => [.fillTimeout]
  | _ => []

/-- A line change event at the Fault Detector. -/
def evalLine (f : LineFunction) (s : State) : State := (lineDetectors f).foldl (fun t k => evalDetector k t) s

/-- The element whose current channel this is. -/
def channelElement (c : Channel) : Option Element := if h : 2 ≤ c.val then some ⟨c.val - 2, by omega⟩ else none

/-- A sample arrival at the Fault Detector (section 8.1). -/
def evalArrival (c : Channel) (x : Sample) (s : State) : State :=
  match channelElement c with
  | some e => evalSample (.elementOpen e) x (evalSample (.elementStuck e) x s)
  | none => if c = 0 then evalTimed .tempLow (evalSample .sensorFault x s) else evalTimed .filterBlocked s

/-- Changed levels and sources handed to the Fault Detector (R106): the detectors that judge them. -/
def evalOutputs (before : Vector Output 11) (s : State) : State :=
  let old (f : OutputFunction) : Output := before[outputPlace f]
  let heat := if heatLines.any (fun f => (old f).active != (s.output f).active) then evalDetector .dryHeat s else s
  let fill := if old .fillValve != s.output .fillValve then evalDetector .fillTimeout heat else heat
  let drain := if old .drainValve != s.output .drainValve then evalDetector .drainTimeout fill else fill
  if (old .pumpRun).active != (s.output .pumpRun).active then evalDetector .filterBlocked drain else drain

/-- A timed detector's timer has run for its time: a detection (R146), or the submission again of a fault in the Unrecorded set, whose timer
had started afresh after a lapse (R155). -/
def timerDetects (f : FaultId) (s : State) : State :=
  let d := s.detector f
  match d.state, d.timer with
  | .watching, some t => submit f (advanceTo (t + detectorTime s.image f) s)
  | _, _ => s

end Sys2Proof.Machine
end

