-- ==== Sys2Proof/Machine/Recovery.lean ====
section
/-! DEFINITION. The Recovery Sequencer: arbitration, suspension, steps, timers, attempts, clearing, operator commands (chapter 9). -/

namespace Sys2Proof.Machine

/-- What reaches a step: nothing of its own, its start, a sample arrival on a channel, its timer at the duration it names (R167). -/
inductive Trigger
  | none | start | sample (c : Channel) | timer
  deriving DecidableEq, Repr

/-! ## Steps -/

/-- The step's claims requested and its boost set (R165). -/
def requestStepClaims (id : Nat) (step : Step) (s : State) : State :=
  match stepClaim step with
  | some (resource, cls) => request { resource := resource, cls := cls, amount := 1, purpose := .step id } s
  | none => if step = .boost then setBoost .heat true s else s

/-- The step timer at 0, the claim-wait timer stopped, no condition progress (R163, R165). -/
def stopStepTimers (s : State) : State :=
  { s with rs := { s.rs with stepElapsed := 0, stepSince := none, claimWait := none, dryTimer := none, validCount := 0 } }

/-- A step starts: the step field, its timer at 0, no condition progress, its claims (R165). -/
def startStep (id : Nat) (step : Step) (s : State) : State :=
  requestStepClaims id step (stopStepTimers (updateRecord id (fun r => { r with state := .active step }) s))

/-- A step ends: its STEP claims are withdrawn, a boost it set is cleared, its timers stop (R163, R167, R169). -/
def endStep (id : Nat) (step : Step) (s : State) : State :=
  let s1 := stopStepTimers s
  match stepClaim step with
  | some (resource, _) => withdraw resource (.step id) s1
  | none => if step = .boost then setBoost .heat false s1 else s1

/-! ## Arbitration and suspension (R161 to R164) -/

/-- The ACTIVE record returns to PENDING (R163). -/
def suspend (s : State) : State :=
  match s.activeStep with
  | none => s
  | some (id, _, step) => endStep id step (updateRecord id (fun r => { r with state := .pending }) s)

/-- The PENDING record of lowest rank, the first in list order among equals (R161). -/
def bestPending (records : List Incident) : Option Incident :=
  (records.filter (fun r => r.state == .pending)).foldl (fun best r =>
    match best with
    | none => some r
    | some b => if faultRank r.fault < faultRank b.fault then some r else some b) none

/-- A procedure may run (R161). -/
def State.mayRecover (s : State) : Bool := s.zoneMode == .inService && s.mu.linkState == .joined

/-- A record made ACTIVE: an attempt starts at step 1 (R162). -/
def activate (r : Incident) (s : State) : State :=
  let s1 := updateRecord r.id (fun q =>
    { q with attempts := if q.attempts < s.image.attempts then q.attempts + 1 else q.attempts }) s
  startStep r.id (firstStep r.fault) { s1 with rs := { s1.rs with lastCause := none } }

/-- Arbitration (R161), a suspension by a more urgent record (R163), and suspension where no procedure may run (R164); and whether a
step has started. -/
def arbitrate (s : State) : State × Trigger :=
  if s.mayRecover then
    match s.activeIncident, bestPending s.rs.incidents with
    | none, some r => (activate r s, .start)
    | some a, some r => if faultRank r.fault < faultRank a.fault then (activate r (suspend s), .start) else (s, .none)
    | _, none => (s, .none)
  else (suspend s, .none)

/-! ## Attempts, failure, clearing (R169 to R171, R174) -/

/-- The record becomes FAILED (R170). -/
def failRecord (id : Nat) (step : Step) (reason : FailureReason) (s : State) : State :=
  endStep id step (updateRecord id (fun r => { r with state := .failed reason }) s)

/-- The attempt fails (R169). -/
def failAttempt (id : Nat) (fault : FaultId) (step : Step) (cause : AttemptCause) (s : State) : State × Trigger :=
  let s1 := { s with rs := { s.rs with lastCause := some cause } }
  match s1.activeIncident with
  | none => (s1, .none)
  | some r =>
    if r.attempts < s.image.attempts then
      (startStep id (firstStep fault) (updateRecord id (fun q => { q with attempts := q.attempts + 1 }) (endStep id step s1)), .start)
    else (failRecord id step (if cause = .claimWait then .claimWait else .attemptsExhausted) s1, .none)

/-- The record is CLEARED; a LEAK queues INFLOW_RESUME; the Unrecorded set is submitted again (R171). -/
def clearRecord (id : Nat) (fault : FaultId) (step : Step) (outcome : RecoveryOutcome) (s : State) : State :=
  let s1 := endStep id step (updateRecord id (fun r => { r with state := .cleared outcome }) s)
  resubmitUnrecorded (if fault = .leak then queueNotice .inflowResume s1 else s1)

/-- An element marked out (R174). One above ELEMENT_COUNT, whose record a restart carried into another image, is added too, where R112 bounds
the set by ELEMENT_COUNT (log 50). -/
def markOut (e : Element) (s : State) : State := { s with lu := { s.lu with elementOut := setAt s.lu.elementOut e true } }

/-- The step completes: the next step starts, or the record is CLEARED after the last (R167, R171). -/
def completeStep (id : Nat) (fault : FaultId) (step : Step) (s : State) : State × Trigger :=
  match nextStep step with
  | some next => (startStep id next (endStep id step s), .start)
  | none => (clearRecord id fault step .restored s, .none)

/-! ## Conditions of the steps (R172 to R180) -/

/-- The time the step has run with its claims usable (R166). -/
def State.stepTime (s : State) : Nat :=
  s.rs.stepElapsed + (match s.rs.stepSince with
    | some t => s.now - t
    | none => 0)

/-- What the judgement of a step gives. -/
inductive Verdict
  | stay | complete | attemptFails | fails (reason : FailureReason) | markedOut (e : Element) (failed : Bool) | degraded
  deriving DecidableEq, Repr

/-- The step's completion condition on lines, samples and times (section 9.4, column Completes when). -/
def State.stepCompletes (s : State) (step : Step) : Bool :=
  let timed : Bool := decide (stepDuration s.image step ≤ s.stepTime)
  match step with
  | .leakDrain => s.dry .levelLow
  | .leakDryWait => match s.rs.dryTimer with
    | some t => decide (t + s.image.tDry ≤ s.now)
    | none => false
  | .leakRefill => s.wet .levelNormal
  | .leakVerify => timed && s.dry .leakProbe && s.wet .levelNormal
  | .dryRefill => s.wet .levelNormal
  | .dryVerify => timed
  | .waitValid => decide (Config.validSamples ≤ s.rs.validCount)
  | .openRest => timed
  | .boost => match s.latestValid 0 with
    | some t => decide (s.image.tempMin + s.image.hysteresis ≤ t)
    | none => false
  | .fillRest => timed
  | .fillRefill => s.wet .levelNormal
  | .drainRest => timed
  | .drainDrain => s.dry .levelLow
  | .filterStop => timed
  | .filterBackflush => timed
  | .filterTopUp => s.wet .levelNormal
  | .filterVerify => timed
  | .cutCheck => false
  | .openRetest => false

/-- LEVEL_HIGH wet with LEVEL_NORMAL dry. -/
def State.overfilled (s : State) : Bool := s.wet .levelHigh && s.dry .levelNormal

/-- The step's failure condition (section 9.4, column Fails when): the attempt fails. The sample of FILTER_BLOCKED's VERIFY is judged at
its arrival and at the start (log 15). -/
def State.stepFails (s : State) (step : Step) (trigger : Trigger) : Bool :=
  match step with
  | .leakRefill => s.wet .leakProbe || s.overfilled
  | .leakVerify => s.wet .leakProbe || s.dry .levelLow
  | .dryRefill => s.overfilled
  | .dryVerify => s.dry .levelLow
  | .fillRefill => s.overfilled
  | .filterTopUp => s.overfilled
  | .filterVerify =>
    (trigger == .start || trigger == .sample 1) && (s.output .pumpRun).active && (match s.latestValid 1 with
      | some p => decide (s.image.dpLimit ≤ p)
      | none => false)
  | _ => false

/-- What the limit of a step gives when the step timer reaches it (section 9.4, column Limit). -/
def limitVerdict : Step → Verdict
  | .leakDrain => .attemptFails | .leakDryWait => .fails .limit | .leakRefill => .attemptFails | .cutCheck => .fails .supplyUncut
  | .dryRefill => .attemptFails | .waitValid => .fails .limit | .boost => .fails .limit | .fillRefill => .attemptFails
  | .drainDrain => .fails .limit | .filterTopUp => .attemptFails | _ => .stay

/-- The check of ELEMENT_OPEN's RETEST on a sample (R177). -/
def retestVerdict (image : Memory) (e : Element) (x : Sample) : Verdict :=
  match validValue (currentChannel e) x with
  | some v => if image.iOnMin ≤ v then .complete else .markedOut e false
  | none => if x = .under then .markedOut e false else .attemptFails

/-- CUT_CHECK and RETEST, which judge samples of their element's channel (R173, R177); none where nothing is judged. -/
def State.elementVerdict (s : State) (fault : FaultId) (step : Step) (trigger : Trigger) : Option Verdict :=
  match step, fault with
  | .cutCheck, .elementStuck e =>
    if trigger = .sample (currentChannel e) && s.stepTime < Config.cutCheckTime then
      match s.ms.latest[currentChannel e] with
      | some x => if underLimit (currentChannel e) s.image.iOffMax x then some (.markedOut e true) else none
      | none => none
    else none
  | .openRetest, .elementOpen e =>
    if s.lu.elementOut[e] then some .degraded
    else if trigger = .sample (currentChannel e) && Config.retestTime ≤ s.stepTime then
      (s.ms.latest[currentChannel e]).map (retestVerdict s.image e)
    else none
  | _, _ => none

/-- Two conditions that hold at one event: which is judged first is open (R168, log 14). -/
def firstJudged (free : Nat) (completes : Bool) (other : Verdict) : Verdict :=
  if completes then (if other = .stay then .complete else if Config.completionFirst free then .complete else other) else other

/-- What the failure condition and the limit of a step give at an event (R167). -/
def State.failureVerdict (s : State) (step : Step) (trigger : Trigger) : Verdict :=
  if s.stepFails step trigger then .attemptFails
  else if trigger = .timer && stepDuration s.image step ≤ s.stepTime then limitVerdict step else .stay

/-- The judgement of the active step at an event (R167, R168). -/
def State.judgement (s : State) (fault : FaultId) (step : Step) (trigger : Trigger) : Verdict :=
  match s.elementVerdict fault step trigger with
  | some v => v
  | none => firstJudged s.free (s.stepCompletes step) (s.failureVerdict step trigger)

/-- A judgement carried out. -/
def carryOut (id : Nat) (fault : FaultId) (step : Step) (v : Verdict) (s : State) : State × Trigger :=
  match v with
  | .stay => (s, .none)
  | .complete => completeStep id fault step s
  | .attemptFails => failAttempt id fault step .condition s
  | .fails reason => (failRecord id step reason s, .none)
  | .markedOut e true => (failRecord id step .needsService (markOut e s), .none)
  | .markedOut e false => (clearRecord id fault step .degraded (markOut e s), .none)
  | .degraded => (clearRecord id fault step .degraded s, .none)

/-- The free value of log 14 counted where the judgement read it. -/
def countFree (step : Step) (trigger : Trigger) (s : State) : State :=
  if s.stepCompletes step && s.failureVerdict step trigger != .stay then { s with free := s.free + 1 } else s

/-- The active step judged and the judgement carried out. -/
def judgeStep (trigger : Trigger) (s : State) : State × Trigger :=
  match s.activeStep with
  | none => (s, .none)
  | some (id, fault, step) => carryOut id fault step (s.judgement fault step trigger) (countFree step trigger s)

/-! ## Timers and progress of the active step (R166, R172, R176) -/

/-- The step timer and the claim-wait timer after the claims have been judged (R166); the dry timer of DRY_WAIT (R172). -/
def stepTimers (s : State) : State :=
  match s.activeStep with
  | none => s
  | some (id, fault, step) =>
    let dry := if step = .leakDryWait && s.dry .leakProbe then some (s.rs.dryTimer.getD s.now) else none
    if s.claimsUsable id fault step then
      { s with rs := { s.rs with stepSince := some (s.rs.stepSince.getD s.now), claimWait := none, dryTimer := dry } }
    else
      { s with rs := { s.rs with stepElapsed := s.stepTime, stepSince := none
                                 claimWait := some (s.rs.claimWait.getD s.now), dryTimer := dry } }

/-- A sample at the sequencer: the valid-sample count of WAIT_VALID (R176). -/
def countValid (c : Channel) (x : Sample) (s : State) : State :=
  match s.activeStep with
  | some (_, _, .waitValid) =>
    if c = 0 then
      { s with rs := { s.rs with validCount := if (validValue 0 x).isSome then s.rs.validCount + 1 else 0 } }
    else s
  | _ => s

/-- While BOOST runs the boost stands on the PROGRAM HEAT claim, one created meanwhile included (R178). -/
def keepBoost (s : State) : State :=
  match s.activeStep with
  | some (_, _, .boost) => setBoost .heat true s
  | _ => s

/-! ## Operator commands (R181 to R184) -/

def State.record (s : State) (id : Nat) : Option Incident := s.rs.incidents.find? (fun r => r.id == id)

/-- ACKNOWLEDGE (R181). -/
def acknowledge (id : Nat) (s : State) : State :=
  match s.record id with
  | none => count .operatorRefused s
  | some r => match r.state with
    | .failed _ => updateRecord id (fun q => { q with state := .pending, attempts := 0, carried := false }) s
    | .cleared _ => resubmitUnrecorded (removeRecord id s)
    | _ => count .operatorRefused s

/-- The zone mode changes (R160): detectors that keep running lose their progress (R138). -/
def changeZoneMode (mode : ZoneMode) (s : State) : State := dropProgress { s with zoneMode := mode }

/-- The ACTIVE record is a LEAK whose last step completes at this very event (R172). -/
def State.leakCompletes (s : State) : Option Nat :=
  match s.activeStep with
  | some (id, .leak, .leakVerify) => if s.stepCompletes .leakVerify && !s.stepFails .leakVerify .none then some id else none
  | _ => none

/-- The zone mode becomes OUT_OF_SERVICE with a ZONE_DOWN (R182, R183). -/
def outOfService (s : State) : State := queueNotice .zoneDown (driveOutOfService (changeZoneMode .outOfService s))

/-- The ACTIVE record at the event at which the zone mode becomes OUT_OF_SERVICE is suspended (R164, R183). A LEAK record whose last step
completes at that same event is CLEARED after it instead, its INFLOW_RESUME behind the ZONE_DOWN (R195, row 5, second order; log 40). -/
def leaveService (s : State) : State :=
  match s.leakCompletes with
  | some id => clearRecord id .leak .leakVerify .restored (outOfService s)
  | none => outOfService (suspend s)

/-- ABANDON (R182, R183). -/
def abandon (id : Nat) (s : State) : State :=
  match s.record id with
  | none => count .operatorRefused s
  | some r => match r.state with
    | .failed reason =>
      let s1 := updateRecord id (fun q => { q with state := .abandoned reason }) s
      if s.zoneMode = .inService then leaveService s1 else s1
    | _ => count .operatorRefused s

/-- RESUME_ZONE (R184). -/
def resumeZone (s : State) : State :=
  if s.zoneMode = .outOfService then
    let s1 := { s with rs := { s.rs with incidents := s.rs.incidents.map (fun r =>
      if isAbandoned r then { r with state := .pending, attempts := 0 } else r) } }
    queueNotice .zoneUp (judgeRegulation (changeZoneMode .inService s1))
  else count .operatorRefused s

end Sys2Proof.Machine
end

