-- ==== Sys2Proof/Machine/Membership.lean ====
section
/-! DEFINITION. The Membership Unit: the Peer Table, the link state, isolation; the own frame that stops (R58, R60; chapter 5). -/

namespace Sys2Proof.Machine

/-! ## The own frame that is abandoned or stopped -/

/-- The question in flight back to the slot, or dropped where a newer one stands there (R214). -/
def returnQuestion (s : State) : State :=
  match s.rp.slot with
  | none => { s with rp := { s.rp with slot := s.rp.inFlight, inFlight := none } }
  | some _ => count .replyOverruns { s with rp := { s.rp with inFlight := none } }

/-- The setup reply in flight pending again, or dropped where a newer one is pending (R204). -/
def returnSetupReply (s : State) : State :=
  match s.cs.reply with
  | none => { s with cs := { s.cs with reply := s.cs.replyInFlight, replyInFlight := none } }
  | some _ => { s with cs := { s.cs with replyInFlight := none } }

/-- The block that gave the content of an own frame takes it back as abandoned (R58, R60). -/
def takeBack (content : OwnContent) (s : State) : State :=
  match content with
  | .claim => returnChanges s
  | .claimSet _ => returnChanges s
  | .hazard => clearOnWire s
  | .reply => returnQuestion s
  | .setupReply => returnSetupReply s
  | .presence _ => s
  | .resync _ => s

def setMedium (m : Medium) (s : State) : State := { s with lc := { s.lc with medium := m } }

/-- An own frame on the wire stops without completion; the reception that follows is not counted as a check error (R60, log 20). -/
def stopOwnFrame (s : State) : State :=
  match s.lc.medium with
  | .own f => setMedium (.reception { start := f.start, babble := false, afterOwn := true }) (takeBack f.content s)
  | _ => s

/-! ## Peer records -/

def setPeer (k : Station) (r : PeerRecord) (s : State) : State := { s with mu := { s.mu with peers := setAt s.mu.peers k r } }

/-- Link states in which the station takes part: JOINING or JOINED. -/
def State.takesPart (s : State) : Bool := s.mu.linkState == .joining || s.mu.linkState == .joined

/-- The check of R90 on a PRESENCE from a peer, made before the PRESENCE is stored. -/
def State.lagging (s : State) (k : Station) : Bool :=
  s.mu.linkState == .joining && !s.mu.peers[k].restated && s.mu.peers[k].state == .present &&
    (match s.mu.joinRequestDone, s.mu.peers[k].lastPresence with
      | some done, some last => decide (done ≤ last)
      | _, _ => false)

/-- What a received PRESENCE hands over (R66, R80). -/
structure PresenceReport where
  link : LinkState
  digest : Word16
  heard : StationSet
  ackOfMe : Option Byte
  ownEntry : Option Byte
  deriving DecidableEq, Repr

/-- A PRESENCE with a matching digest (R80, R90). -/
def takeMatching (k : Station) (p : PresenceReport) (s : State) : State :=
  let old := s.mu.peers[k]
  let s1 := if s.lagging k then markStale k s else s
  let s2 := setPeer k { old with state := .present, reportedLink := some p.link, digest := some p.digest,
                                 heardSet := some p.heard, ackOfMe := p.ackOfMe, lastPresence := some s.now } s1
  let s3 := if old.state = .foreign then markStale k s2 else s2
  let s4 := if old.state = .present then s3 else { s3 with mu := { s3.mu with armedAt := some s.now } }
  takeAppliedEntry k p.ownEntry s4

/-- A PRESENCE with a differing digest (R81, R23). -/
def takeDiffering (k : Station) (p : PresenceReport) (s : State) : State :=
  let old := s.mu.peers[k]
  if old.state = .foreign then setPeer k { old with digest := some p.digest, lastPresence := some s.now } s
  else
    recomputeMarks (removeOwner k (count .protocolErrors
      (setPeer k { old with state := .foreign, reportedLink := none, digest := some p.digest, heardSet := none,
                            ackOfMe := none, lastPresence := some s.now, restated := false } s)))

/-- A PRESENCE delivered to the Membership Unit: taken in LISTENING, JOINING and JOINED (R80, R81). -/
def takePresence (k : Station) (p : PresenceReport) (s : State) : State :=
  if s.mu.linkState = .listening ∨ s.takesPart = true then
    if p.digest = s.image.digest then takeMatching k p s else takeDiffering k p s
  else s

/-- A restatement from k applied, as the Membership Unit and the Hazard Unit hear of it (R20, R86, R194). -/
def reportRestated (k : Station) (fresh : Bool) (s : State) : State :=
  let s1 := setPeer k { s.mu.peers[k] with restated := true } s
  if fresh then freshOwner k s1 else s1

/-- The arrival record of an accepted frame (R82); it ends an isolation that is not latched (R95). -/
def arrivalRecord (k : Station) (s : State) : State :=
  let s1 := setPeer k { s.mu.peers[k] with lastAccepted := some s.now } s
  if s.mu.linkState = .isolated ∧ s.mu.duplicateLatch = false then
    { s1 with mu := { s1.mu with linkState := .listening, listenStart := some s.now } }
  else s1

/-- A peer's silence timer runs out (R83). -/
def peerSilent (k : Station) (s : State) : State := setPeer k { s.mu.peers[k] with state := .silent } s

/-- A peer's expiry timer runs out (R84, R22). -/
def peerAbsent (k : Station) (s : State) : State :=
  recomputeMarks (removeOwner k
    (setPeer k { s.mu.peers[k] with state := .absent, ackOfMe := none, restated := false, reportedLink := none, heardSet := none } s))

/-! ## The link state -/

/-- The JOINING wait ends (R89). -/
def State.joinEnds (s : State) : Bool :=
  s.mu.linkState == .joining &&
    (s.mu.peers.toList.all (fun r => r.state != .present) ||
      (s.mu.joinRequestDone.isSome && s.mu.peers.toList.all (fun r => r.state != .present || r.restated)))

/-- The link state becomes JOINED where the JOINING wait has ended (R89, R91). -/
def judgeJoin (s : State) : State :=
  if s.joinEnds then ownClaimsJoined { s with mu := { s.mu with linkState := .joined } } else s

/-- The listen timer runs out: JOINING (R88). -/
def becomeJoining (s : State) : State :=
  { s with mu := { s.mu with linkState := .joining, listenStart := none, joinRequestDone := none } }

/-- The link state becomes LISTENING and the listen timer starts (R88). -/
def becomeListening (s : State) : State :=
  { s with mu := { s.mu with linkState := .listening, listenStart := some s.now } }

/-- The join request has completed, whatever the link state is by then (R56, R57, R86); the wait of R89 reads the time in JOINING alone. -/
def joinRequestSent (s : State) : State :=
  { s with mu := { s.mu with joinRequestDone := some s.now
                             peers := mapAll (fun (r : PeerRecord) => { r with restated := false }) s.mu.peers } }

/-- The time of the last arrival record from any peer. -/
def State.lastArrival (s : State) : Nat :=
  s.peerNumbers.foldl (fun t k => max t (s.mu.peers[k].lastAccepted.getD 0)) 0

/-- The end of the T_isolate interval of R92, where the rule is armed. -/
def State.contactDeadline (s : State) : Option Nat :=
  s.mu.armedAt.map (fun t => max t s.lastArrival + s.image.tIsolate)

/-- The not-heard-by condition (R93). -/
def State.notHeard (s : State) : Bool :=
  s.takesPart && s.mu.peers.toList.any (fun r => r.state == .present) &&
    s.mu.peers.toList.all (fun r => r.state != .present || (match r.heardSet with
      | some set => !set[s.me]
      | none => true))

/-- The interval of R93 started or stopped. -/
def watchNotHeard (s : State) : State :=
  { s with mu := { s.mu with notHeardBySince := if s.notHeard then some (s.mu.notHeardBySince.getD s.now) else none } }

/-- What isolation does in the Membership Unit (R94). -/
def isolateMembership (reason : IsolationReason) (s : State) : State :=
  { s with mu := { s.mu with
      peers := Vector.replicate 12 PeerRecord.unknown, linkState := .isolated, isolationReason := some reason
      listenStart := none, armedAt := none, notHeardBySince := none, joinRequestDone := none } }

/-- Isolation, as one event of all the blocks it concerns (R94, R24, R43, R60, R138, R164). -/
def isolate (reason : IsolationReason) (s : State) : State :=
  dropProgress (suspend (clearOwnClaims (clearTable (isolateMembership reason (stopOwnFrame s)))))

/-- A duplicate number reported (R59, R96). -/
def duplicateNumber (s : State) : State :=
  let s1 := { s with mu := { s.mu with duplicateLatch := true } }
  if s.mu.linkState = .isolated then { s1 with mu := { s1.mu with isolationReason := some .duplicateNumber } }
  else if s.mu.linkState = .offline then s
  else isolate .duplicateNumber s1

end Sys2Proof.Machine
end

