-- ==== Sys2Proof/Machine/Event.lean ====
section
/-! DEFINITION. The end of an event: the blocks act on one another within the event that changed their inputs, until nothing changes
(R8, R41, R106, R114, R122, R165, R167). -/

namespace Sys2Proof.Machine

/-- Outputs resolved, and changed levels handed to the Fault Detector (R106): in each pass of an event, so those of a step that starts and ends
within the event reach the detectors too (log 52). -/
def handOutputs (s : State) : State := evalOutputs s.lu.outputs (resolveOutputs s)

/-- The blocks up to arbitration: joining, detectors, HOLD needs, the Program Drive (log 9). -/
def blocksPass (s : State) : State := driveEvaluate (reviewHolds (runDetectors (judgeJoin s)))

/-- Claims, outputs and timers after arbitration; a step that has just started has its levels resolved and handed on here, before its conditions
are judged (R165, log 52). -/
def claimsPass (s : State) : State :=
  stepTimers (watchNotHeard (handOutputs (refreshClaims (recomputeMarks (keepBoost s)))))

/-- One pass of the event through the blocks; a step that starts is judged as at its start. -/
def pass (trigger : Trigger) (s : State) : State × Trigger :=
  let a := arbitrate (blocksPass s)
  judgeStep (if a.2 = .start then .start else trigger) (claimsPass a.1)

/-- Passes until one changes nothing; `fuel` bounds them (log 25). -/
def settle : Nat → Trigger → State → State
  | 0, _, s => s
  | fuel + 1, trigger, s =>
    let r := pass trigger s
    if r.1 = s ∧ r.2 = .none then s else settle fuel r.2 r.1

/-- The end of an event (log 25, log 26). -/
def endEvent (trigger : Trigger) (s : State) : State := settle Config.passes trigger s

end Sys2Proof.Machine
end

