-- ==== Sys2Proof/Machine/ConfigStore.lean ====
section
/-! DEFINITION. The Configuration Store: station number, validity check, LOAD, commit, carry-over record (chapter 11). -/

namespace Sys2Proof.Machine

/-- The station number in the modes that follow a passed check (R199). -/
def serviceNumber (image : Memory) (straps : BitVec 4) : BitVec 4 :=
  (straps &&& image.strapSelect) ||| (image.numberBase &&& ~~~ image.strapSelect)

/-! ## The validity check (R200) -/

def between (low high n : Nat) : Bool := low ≤ n && n ≤ high
def betweenInt (low high n : Int) : Bool := low ≤ n && n ≤ high

/-- The elements of an image. -/
def elementsOf (image : Memory) : List Element := allElements.filter (fun e => e.val < image.elementCount)

/-- Every item lies in its range (R200, code 2). -/
def rangesHold (m : Memory) : Bool :=
  [ between 2 12 m.wheelSize, between 1 8 m.presencePeriod, between 200 2000 (m.wordAt 4), between 1000 30000 (m.wordAt 6),
    between 100 1000 (m.wordAt 8), between 100 2000 (m.wordAt 10), between 1000 10000 (m.wordAt 12), between 0 11 m.panel,
    between 0 7 (m.capacity .fill), between 0 7 (m.capacity .drain), allStations.all (fun k => between 0 11 (m.rank k)),
    between 0 4 m.role, ([0, 1, 2, 3, 4, 5, 6, 7] : List Nat).all (fun n => m.byteAt (99 + 4 * n) / 16 % 4 ≤ 2),
    between 0 3 m.hopLimit, betweenInt (-100) 1200 m.setpoint, betweenInt (-100) 1200 m.tempMin, betweenInt 0 200 m.hysteresis ].all id &&
  [ between 1 600 (m.wordAt 140), between 10 600 (m.wordAt 142), betweenInt 1 1000 m.dpLimit, between 2 30 (m.byteAt 146),
    between 5 60 (m.byteAt 147), between 1 3 m.elementCount, (elementsOf m).all (fun e => between 1 40 (m.rating e)),
    betweenInt 0 400 m.iOnMin, betweenInt 0 400 m.iOffMax, between 10 600 (m.wordAt 156), between 10 600 (m.wordAt 158),
    between 5 120 (m.byteAt 160), between 10 300 (m.wordAt 161), between 1 120 (m.byteAt 163), between 1 3 m.attempts,
    m.lockByte == 0 || m.lockByte == 0x5A ].all id

def numberHolds (m : Memory) (number : BitVec 4) : Bool :=
  number.toNat < m.wheelSize && m.panel < m.wheelSize && m.panel != number.toNat

/-- The ranks of the stations are distinct. -/
def ranksHold (m : Memory) : Bool :=
  allStations.all (fun j => allStations.all (fun k => j == k || m.rank j != m.rank k))

/-- How many lines the image assigns to a function. -/
def lineCount (m : Memory) (f : LineFunction) : Nat := (linesOf m f).length

/-- The most lines a function may have (R100, log 17). -/
def lineLimit (m : Memory) : LineFunction → Nat
  | .unused => 16 | .leakProbe => 2 | .heat2 => if 2 ≤ m.elementCount then 1 else 0
  | .heat3 => if 3 ≤ m.elementCount then 1 else 0 | _ => 1

def allLineFunctions : List LineFunction :=
  [.unused, .leakProbe, .levelLow, .levelNormal, .levelHigh, .fillValve, .drainValve, .pumpRun, .pumpReverse, .heat1, .heat2,
   .heat3, .heatIsolate, .cascadeGate, .conveyorEnable, .alert]

def lineCountsHold (m : Memory) : Bool := allLineFunctions.all (fun f => lineCount m f ≤ lineLimit m f)

/-- Exactly one line each of HEAT_1 to HEAT_n (R200, code 10). -/
def heaterLinesHold (m : Memory) : Bool :=
  lineCount m .heat1 == 1 && lineCount m .heat2 == (if 2 ≤ m.elementCount then 1 else 0) &&
    lineCount m .heat3 == (if 3 ≤ m.elementCount then 1 else 0)

/-- The validity check from the second test on (R200): the first test that fails. -/
def validity (m : Memory) (straps : BitVec 4) : LoadResult :=
  if !rangesHold m then .fieldRange
  else if !numberHolds m (serviceNumber m straps) then .stationNumber
  else if !ranksHold m then .ranks
  else if m.quorum = 0 || m.wheelSize < m.quorum then .quorum
  else if m.wordAt 4 ≤ m.wordAt 8 || m.wordAt 6 ≤ m.wordAt 4 then .timerOrder
  else if m.wordAt 6 < m.wordAt 8 + 250 then .timerMargin
  else if m.iOnMin ≤ m.iOffMax then .currentLimits
  else if !lineCountsHold m then .lineCounts
  else if !heaterLinesHold m then .heaterLines
  else if m.role = 4 && !m.tempCritical then .criticalFlag
  else if m.capacity .heat = 0 || m.capacity .fill = 0 || m.capacity .drain = 0 then .capacity
  else if (elementsOf m).any (fun e => m.capacity .heat < m.rating e) then .rating
  else .ok

/-- The stored check value is right (R200, code 1). -/
def checkPasses (m : Memory) : Bool := m.wordAt 254 == m.checkValue.toNat

/-- The check value test as LOAD runs it (R200, code 1): an image that an abandoned commit left mixed does not pass it (R207, log 12). -/
def loadPasses (mixed : Bool) (m : Memory) : Bool := !mixed && checkPasses m

/-- The validity check as LOAD runs it: the check value first (R200). -/
def loadCheck (mixed : Bool) (m : Memory) (straps : BitVec 4) : LoadResult :=
  if loadPasses mixed m then validity m straps else .checkValue

/-! ## LOAD and INPUTS (R201, R202) -/

/-- The medium as the reset of a start leaves it: an own frame has stopped, other activity is no reception (R46, R60, log 8). -/
def mediumAfterReset : Medium → Medium
  | .quiet => .quiet | .own _ => .quiet | _ => .ignored

/-- The stages LOAD and INPUTS of a start: the image read and judged, the mode decided; the part goes on to SETTLE or stops in a
service mode with its receiver on (R48, R201, R202). -/
def load (straps : Straps) (s : State) : State :=
  let image := s.cs.stored
  let result := loadCheck s.cs.mixed image straps.number
  let base : ConfigStore :=
    { s.cs with working := image, loadResult := result, locked := loadPasses s.cs.mixed image && image.lockByte == 0x5A, straps := straps }
  if straps.setup || result != .ok then
    { s with
      zoneMode := if straps.setup then .setup else .haltedConfig
      cs := { base with number := straps.number, stage := .entered }
      lc := { s.lc with receiverOn := true, position := 0, openingStart := s.now, idleStart := s.now
                        medium := mediumAfterReset s.lc.medium } }
  else
    { s with
      cs := { base with number := serviceNumber image straps.number, stage := .settle }
      lu := { s.lu with timers := ⟨⟨allLines.map (fun i => if isInput (image.lineFunction i) then some s.now else none)⟩, rfl⟩ }
      ms := { s.ms with nextArrival := Vector.replicate 5 (s.now + Config.samplePeriod) } }

/-- A start: every block at its reset value (R210, R211), then LOAD and INPUTS, with the outputs resolved. -/
def start (stored : Memory) (mixed : Bool) (carried : List CarriedIncident) (outOfService : Bool) (restarts : Nat) (straps : Straps)
    (s : State) : State :=
  resolveOutputs (load straps
    (State.atReset stored mixed carried outOfService restarts s.lu.pins (mediumAfterReset s.lc.medium) s.free s.pending))

/-! ## Commit (R207, R208) -/

/-- The bytes of a row. -/
def rowAddress (row : Nat) : Nat := 32 * row

/-- A row of the stored image programmed from the working image (R207). -/
def programRow (row : Nat) (cs : ConfigStore) : Memory :=
  cs.stored.writeBytes (rowAddress row) (cs.working.bytes (rowAddress row) 32)

/-- The stored image with each byte of the row in progress free: its old or its new value (R207). -/
def freeRow (n row : Nat) (cs : ConfigStore) : Memory :=
  cs.stored.writeBytes (rowAddress row)
    ((List.range 32).map (fun i =>
      let a := rowAddress row + i
      if Config.tornByteIsNew n a then cs.working.read a else cs.stored.read a))

/-- The first byte of a row whose old and new values differ. -/
def changedByte (row : Nat) (cs : ConfigStore) : Option Nat :=
  ((List.range 32).map (fun i => rowAddress row + i)).find? (fun a => cs.working.read a != cs.stored.read a)

/-- The row in progress as an abandoned commit leaves it: bytes old or new whose check value does not match (R207). Where the free bytes would
make it match, the first that can differ takes its other value, so a row with such a byte is left in just those ways (log 12). -/
def tornRow (n row : Nat) (cs : ConfigStore) : Memory :=
  let m := freeRow n row cs
  match checkPasses m, changedByte row cs with
  | true, some a => m.write a (if m.read a = cs.stored.read a then cs.working.read a else cs.stored.read a)
  | _, _ => m

/-- The programming of the row in progress has begun: not yet at the very instant at which the row before it was completed (R212, row 4;
log 42). -/
def State.rowBegun (s : State) (p : Programming) : Bool := p.row == 0 || p.start < s.now

/-- A commit in progress abandoned (R207): the row in progress is left mixed, a row not begun as it was, and the stored image is marked as
one that no LOAD passes until a commit completes (log 12). -/
def abandonCommit (s : State) : State :=
  match s.cs.commit with
  | none => s
  | some p =>
    if s.rowBegun p then
      { s with cs := { s.cs with stored := tornRow s.free p.row s.cs, mixed := true, commit := none }, free := s.free + 1 }
    else { s with cs := { s.cs with mixed := true, commit := none } }

/-- Programming begins: the check value goes into the working image, the commit state to row 0 (R207, R208). -/
def beginProgramming (byLock : Bool) (image : Memory) (s : State) : State :=
  { s with cs := { s.cs with
      working := image.writeBytes 254 [highByte image.checkValue, lowByte image.checkValue]
      commit := some { row := 0, start := s.now, byLock := byLock } } }

/-- A setup reply made pending; it replaces one not yet sent (R204). -/
def reply (status : SetupStatus) (data : List Byte) (s : State) : State :=
  { s with cs := { s.cs with reply := some { status := status, data := data } } }

/-- INVALID_IMAGE with its reason (R204). -/
def replyInvalid (reason : LoadResult) (s : State) : State := reply .invalidImage [byteOf (loadCode reason)] s

/-- The bytes of a WRITE under its keep mask; byte 253 keeps its old value (R205). -/
def keepMasked (image : Memory) (keep : Byte) : Nat → List Byte → List Byte
  | _, [] => []
  | a, d :: rest =>
    (if a = 253 then image.read a else (image.read a &&& keep) ||| (d &&& ~~~ keep)) :: keepMasked image keep (a + 1) rest

/-- Test levels of lines that are no longer output lines are inactive again (R116). A line that goes from one output function to another keeps
its level, one set on the undriven ALERT line in HALTED_CONFIG too (log 48). -/
def dropTestLevels (s : State) : State :=
  { s with lu := { s.lu with testLevels := ⟨⟨allLines.map (fun i =>
      s.lu.testLevels[i] && (outputOf (s.image.lineFunction i)).isSome)⟩, rfl⟩ } }

/-- WRITE (R205). -/
def takeWrite (a : Nat) (keep : Byte) (data : List Byte) (s : State) : State :=
  if s.cs.locked then reply .refusedLocked [] s
  else if s.cs.commit.isSome then reply .busy [] s
  else if 254 < a + data.length then reply .badAddress [] s
  else
    dropTestLevels (reply .done []
      { s with cs := { s.cs with working := s.cs.working.writeBytes a (keepMasked s.cs.working keep a data) } })

/-- READ (R206). -/
def takeRead (a length : Nat) (s : State) : State :=
  if a + length ≤ imageSize then reply .done (s.cs.working.bytes a length) s else reply .badAddress [] s

/-- COMMIT (R207). -/
def takeCommit (s : State) : State :=
  if s.cs.locked then reply .refusedLocked [] s
  else if s.cs.commit.isSome then reply .busy [] s
  else match validity s.cs.working s.cs.straps.number with
    | .ok => beginProgramming false s.cs.working s
    | reason => replyInvalid reason s

/-- LOCK (R208). -/
def takeLock (s : State) : State :=
  if s.cs.locked then reply .refusedLocked [] s
  else if s.cs.commit.isSome then reply .busy [] s
  else if s.cs.working.bytes 0 imageSize ≠ s.cs.stored.bytes 0 imageSize then reply .notEqual [] s
  else
    let image := s.cs.working.write 253 0x5A
    match validity image s.cs.straps.number with
    | .ok => beginProgramming true image s
    | reason => replyInvalid reason s

/-- One line's test level after the masks, in order set, clear, toggle (R209). -/
def testLevel (set clear toggle level : Bool) : Bool := ((level || set) && !clear) != toggle

/-- LINE_TEST (R209). Bit i of a mask, its two bytes read high byte first, stands for line Li: the manual gives no bit order (log 36). -/
def takeLineTest (set clear toggle : Word16) (s : State) : State :=
  reply .done []
    { s with lu := { s.lu with testLevels := ⟨⟨allLines.map (fun i =>
        if (outputOf (s.image.lineFunction i)).isSome then
          testLevel (set.getLsbD i.val) (clear.getLsbD i.val) (toggle.getLsbD i.val) s.lu.testLevels[i]
        else s.lu.testLevels[i])⟩, rfl⟩ } }

/-- The row in progress is programmed; after row 7 the stored image is whole, the commit ends with DONE, and a LOCK sets the lock state (R207,
R208). -/
def rowDone (p : Programming) (s : State) : State :=
  let s1 := { s with cs := { s.cs with stored := programRow p.row s.cs } }
  if p.row < 7 then { s1 with cs := { s1.cs with commit := some { p with row := p.row + 1, start := p.start + Config.rowTime } } }
  else reply .done [] { s1 with cs := { s1.cs with mixed := false, commit := none, locked := s1.cs.locked || p.byLock } }

/-! ## RESTART (R211) -/

/-- The incidents the carry-over record takes: FAILED or ABANDONED, in list order, the first four (R211). -/
def carried (records : List Incident) : List CarriedIncident :=
  (records.filterMap (fun r => match r.state with
    | .failed reason => some { fault := r.fault, reason := reason, recurrences := r.recurrences }
    | .abandoned reason => some { fault := r.fault, reason := reason, recurrences := r.recurrences }
    | _ => none)).take Config.maxCarried

/-- A RESTART that is taken: the carry-over record, RESTARTS, the reset, the start (R211). -/
def restartTaken (straps : Straps) (s : State) : State :=
  let s1 := count .restarts (abandonCommit s)
  if s.runMode then start s1.cs.stored s1.cs.mixed (carried s.rs.incidents) (s.zoneMode == .outOfService) (s1.counter .restarts) straps s1
  else start s1.cs.stored s1.cs.mixed s.cs.carryIncidents s.cs.carryOutOfService (s1.counter .restarts) straps s1

/-- RESTART is taken rather than refused (R211). -/
def State.restartAllowed (s : State) : Bool := s.serviceMode || s.image.remoteRestartOk

end Sys2Proof.Machine
end

