-- ==== Sys2Proof/Machine/Report.lean ====
section
/-! DEFINITION. The Report Unit: the reply slot and the data of each subject (chapter 12). -/

namespace Sys2Proof.Machine

/-- A QUERY taken (R214). -/
def takeQuery (q : Question) (s : State) : State :=
  match s.rp.slot with
  | none => { s with rp := { s.rp with slot := some q } }
  | some _ => count .replyOverruns { s with rp := { s.rp with slot := some q } }

/-- Bytes of data a REPLY carries at most (R69). -/
def replyLimit : Nat := 55

def flag (f : Bool) : Byte := flagByte f

/-! ## STATUS (R215) -/

def sampleBytes (c : Channel) : Option Sample → List Byte
  | none => byteOf 0 :: wordBytes 0
  | some (.value v) => byteOf (if (validValue c (.value v)).isSome then 1 else 2) :: wordBytes (BitVec.ofInt 16 v).toNat
  | some .over => byteOf 3 :: wordBytes 0
  | some .under => byteOf 4 :: wordBytes 0

def State.isInputLine (s : State) (i : Line) : Bool := isInput (s.image.lineFunction i)

/-- The output levels: by code in service, the test levels by line in SETUP and HALTED_CONFIG. -/
def State.outputBits (s : State) : Nat :=
  if s.serviceMode then maskOf (allLines.map (fun i => (outputOf (s.image.lineFunction i)).isSome && s.lu.testLevels[i]))
  else maskOf (s.lu.outputs.toList.map (fun o => o.active))

def State.statusData (s : State) : List Byte :=
  [byteOf (zoneModeCode s.zoneMode), byteOf s.cs.number.toNat, byteOf (linkCode s.mu.linkState),
   byteOf (isolationCode s.mu.isolationReason), flag s.mu.duplicateLatch, flag s.lc.transmitCut] ++
  wordBytes s.lc.roundCount.toNat ++
  [byteOf (loadCode s.cs.loadResult), flag s.cs.locked,
   (match s.cs.commit with
    | none => 0xFF
    | some p => byteOf p.row),
   byteOf (s.counter .restarts), byteOf (phaseCode s.pd.phase), byteOf (demandCode s.pd.demand),
   flag s.pd.serial.isSome, s.pd.serial.getD 0, flag s.pd.silencePause, flag s.pd.regulation,
   packed (if s.pd.fillRequest then 1 else 0) (if s.pd.drainRequest then 1 else 0),
   packed s.failedCount s.activeRank, byteOf (maskOf s.lu.elementOut.toList)] ++
  stationSetBytes s.hz.gateStop ++ [byteOf s.hz.queue.length] ++
  wordBytes (maskOf (allLines.map (fun i => s.isInputLine i && s.lu.debounced[i] == some true))) ++
  wordBytes (maskOf (allLines.map (fun i => s.isInputLine i && (s.lu.debounced[i]).isSome))) ++
  wordBytes s.outputBits ++
  allChannels.flatMap (fun c => sampleBytes c s.ms.latest[c])

/-! ## INCIDENTS (R215) -/

def reasonCode : FailureReason → Nat
  | .attemptsExhausted => 3 | .claimWait => 4 | .supplyUncut => 5 | .needsService => 6 | .limit => 7

def incidentStateBytes : IncidentState → Nat × Nat × Nat
  | .pending => (0, 0, 0)
  | .active step => (1, stepNumber step, 0)
  | .failed reason => (2, 0, reasonCode reason)
  | .abandoned reason => (3, 0, reasonCode reason)
  | .cleared .restored => (4, 0, 1)
  | .cleared .degraded => (4, 0, 2)

/-- One record of the INCIDENTS data: the fields of the column Coding of R215, ten bytes, where its column Bytes says 9 (log 41). Detected at
is sent as its low 32 bits; the manual states no value from 2^32 ms on (log 46). -/
def incidentBytes (r : Incident) : List Byte :=
  let x := incidentStateBytes r.state
  [byteOf r.id, faultByte r.fault, packed x.1 x.2.1, packed r.attempts x.2.2] ++ numberBytes 4 r.detectedAt ++
    [byteOf r.recurrences, flag r.carried]

def State.incidentsData (s : State) : List Byte :=
  let records := (s.rs.incidents.take 5).flatMap incidentBytes
  [byteOf s.rs.incidents.length] ++ records ++ [byteOf s.fd.unrecorded.length] ++
    (s.fd.unrecorded.map faultByte).take (replyLimit - 2 - records.length)

/-! ## CLAIMS (R215, R45) -/

def purposeCode : Purpose → Nat
  | .program => 0 | .contain _ => 1 | .step _ => 2

def purposeDatum (boosted : Bool) : Purpose → Nat
  | .program => if boosted then 1 else 0
  | .contain hs => hs.length
  | .step id => id

def sentCode : SentState → Nat × Byte
  | .unsent => (0, 0) | .sent n => (1, n) | .confirmed => (2, 0)

def ownClaimBytes (c : OwnClaim) : List Byte :=
  [packed c.tag.val (resourceCode c.resource),
   packed (classCode c.cls) (match c.confirmed with
    | some (cls, _) => classCode cls
    | none => 15),
   byteOf c.amount, packed (purposeCode c.purpose) (sentCode c.sent).1, byteOf (purposeDatum c.boosted c.purpose),
   (sentCode c.sent).2,
   (match c.confirmed with
    | some (_, amount) => byteOf amount
    | none => 0),
   byteOf c.usable]

def requestBytes (r : Request) : List Byte :=
  [packed (resourceCode r.resource) (classCode r.cls), byteOf r.amount, byteOf (purposeCode r.purpose),
   byteOf (purposeDatum false r.purpose)]

/-- Waiting requests, highest class first and oldest first within a class. -/
def byClass (list : List Request) : List Request :=
  list.filter (fun r => r.cls == .safety) ++ list.filter (fun r => r.cls == .recovery) ++ list.filter (fun r => r.cls == .process)

def State.claimsData (s : State) : List Byte :=
  let claims := s.oc.claims.flatMap ownClaimBytes
  [byteOf s.oc.claims.length] ++ claims ++ [byteOf s.oc.waiting.length] ++
    ((byClass s.oc.waiting).take ((replyLimit - 2 - claims.length) / 4)).flatMap requestBytes

/-! ## PEERS and COUNTERS (R215, R216) -/

def peerBytes (r : PeerRecord) : List Byte :=
  [packed (peerStateCode r.state) ((r.reportedLink.map linkCode).getD 15)] ++
    wordBytes ((r.digest.map BitVec.toNat).getD 0) ++
    [r.ackOfMe.getD 0, byteOf (maskOf [r.ackOfMe.isNone, r.digest.isNone, r.restated])]

/-- This station's number as queries and PEERS read it: in the service modes it may lie above 11. -/
def State.peersData (s : State) : List Byte := s.peerNumbers.flatMap (fun k => peerBytes s.mu.peers[k])

def counterBytes : Fin 13 → Nat
  | 0 => 4 | 1 => 4 | 12 => 1 | _ => 2

def State.countersData (s : State) : List Byte :=
  ([0, 1, 2, 3, 4, 5, 6, 7, 8, 9, 10, 11, 12] : List (Fin 13)).flatMap (fun i => numberBytes (counterBytes i) s.rp.counters[i])

/-- The data of a subject (R215). -/
def State.replyData (s : State) : Subject → List Byte
  | .status => s.statusData | .incidents => s.incidentsData | .claims => s.claimsData | .peers => s.peersData
  | .counters => s.countersData

/-- Every counter but RESTARTS becomes 0 (R217). -/
def clearCounters (s : State) : State :=
  { s with rp := { s.rp with counters := (Vector.replicate 13 0).set 12 (s.counter .restarts) } }

/-- The completion of a REPLY, its SENT count included; for COUNTERS with the clear flag which of the two comes first is open (R217,
log 13). -/
def replySent (s : State) : State :=
  let done (t : State) : State := { t with rp := { t.rp with inFlight := none } }
  match s.rp.inFlight with
  | some { subject := .counters, clear := true, .. } =>
    let used := { s with free := s.free + 1 }
    if Config.clearBeforeSent s.free then done (count .sent (clearCounters used)) else done (clearCounters (count .sent used))
  | _ => done (count .sent s)

end Sys2Proof.Machine
end

