-- ==== Sys2Proof/Machine/Operands.lean ====
section
/-! DEFINITION. The operands of the frame commands: a reception taken apart (R63), the fields of each payload (R65 to R69) and the tests of
acceptance (R70 to R74). -/

namespace Sys2Proof.Machine

/-- A payload byte as a number; a byte past the end reads as 0. -/
def field (payload : List Byte) (i : Nat) : Nat := (payload.getD i 0).toNat

/-! ## A reception taken apart -/

/-- The kind a code names; 12 to 15 name none (R63). -/
def kindOfCode (code : BitVec 4) : FrameKind :=
  match code.toNat with
  | 0 => .presence | 1 => .claim | 2 => .claimSet | 3 => .resync | 4 => .hazard | 5 => .program
  | 6 => .operator | 7 => .query | 8 => .reply | 9 => .setup | 10 => .setupReply | 11 => .restart
  | _ => .undefined code

/-- What a valid reception carries: its kind, the other header fields, its payload. -/
structure ReceivedFrame where
  kind : FrameKind
  header : Header
  payload : List Byte
  deriving DecidableEq, Repr

/-- A reception read by the layout of R63; none where it is no valid frame (R46). -/
def readFrame (bytes : List Byte) : Option ReceivedFrame :=
  let first := bytes.getD 0 0
  let third := bytes.getD 2 0
  if validReception bytes then
    some { kind := kindOfCode (first.extractLsb' 0 4)
           header := { sender := first.extractLsb' 4 4, group := bytes.getD 1 0 ++ third.extractLsb' 4 4, version := third.extractLsb' 0 4 }
           payload := (bytes.drop 4).take (field bytes 3) }
  else none

/-- The row of an OPERATOR by its command; a payload that names none stands under RESUME_ZONE (log 6). -/
def operatorCommand (h : Header) (payload : List Byte) : Instr :=
  match field payload 0 with
  | 0 => .acknowledge h payload | 1 => .abandon h payload | _ => .resumeZone h payload

/-- The row of a QUERY by its subject; a payload that names none stands under QUERY_COUNTERS (log 6). -/
def queryCommand (h : Header) (payload : List Byte) : Instr :=
  match field payload 1 with
  | 0 => .queryStatus h payload | 1 => .queryIncidents h payload | 2 => .queryClaims h payload | 3 => .queryPeers h payload
  | _ => .queryCounters h payload

/-- The row of a SETUP by its command; a payload that names none stands under LINE_TEST (log 6). -/
def setupCommand (h : Header) (payload : List Byte) : Instr :=
  match field payload 1 with
  | 0 => .write h payload | 1 => .read h payload | 2 => .commit h payload | 3 => .lock h payload | _ => .lineTest h payload

/-- The command of a received frame. -/
def frameCommand (straps : Straps) (f : ReceivedFrame) : Instr :=
  match f.kind with
  | .presence => .presence f.header f.payload
  | .claim => .claim f.header f.payload
  | .claimSet => .claimSet f.header f.payload
  | .resync => .resync f.header f.payload
  | .hazard => .hazard f.header f.payload
  | .program => .program f.header f.payload
  | .operator => operatorCommand f.header f.payload
  | .query => queryCommand f.header f.payload
  | .reply => .replyReceived false f.header f.payload
  | .setup => setupCommand f.header f.payload
  | .setupReply => .replyReceived true f.header f.payload
  | .restart => .restart f.header f.payload straps
  | .undefined code => .undefinedKindFrame code f.header f.payload

/-- The command that the end of a reception is, from the bytes received: a frame command with the fields read, or CHECK_FAILURE (R46,
R63). The straps are what a start that the frame brings would read. -/
def commandOf (straps : Straps) (bytes : List Byte) : Instr :=
  match readFrame bytes with
  | some f => frameCommand straps f
  | none => .checkFailure bytes

/-! ## Readings of the payloads -/

/-- The fields of a PRESENCE that acceptance judges, and those handed over (R66, R74): none where the form test fails. -/
def readPresence (me sender : Station) (payload : List Byte) : Option PresenceReport :=
  if payload.length ≠ 24 then none
  else match linkOfCode (field payload 0), zoneModeOfCode (field payload 1) with
    | some link, some mode =>
      let noneSet := stationSetOf (payload.getD 6 0) (payload.getD 7 0)
      let entry (k : Station) : Option Byte := if noneSet[k] then none else some (payload.getD (8 + k.val) 0)
      if (link = .joining ∨ link = .joined) ∧ (mode = .inService ∨ mode = .outOfService) ∧ field payload 20 ≤ 8 ∧
          field payload 21 ≤ 9 ∧ field payload 22 ≤ 6 then
        some { link := link, digest := payload.getD 2 0 ++ payload.getD 3 0
               heard := stationSetOf (payload.getD 4 0) (payload.getD 5 0), ackOfMe := entry me, ownEntry := entry sender }
      else none
    | _, _ => none

/-- A RESYNC: its target, 0 to 11 or 15 (R68, R74). -/
def readResync (payload : List Byte) : Option Nat :=
  if payload.length = 1 ∧ (field payload 0 < 12 ∨ field payload 0 = 15) then some (field payload 0) else none

/-- A HAZARD: origin, serial, code, hop count (R68, R74). -/
def readHazard (payload : List Byte) : Option (Station × Byte × HazardCode × Nat) :=
  if payload.length = 4 ∧ field payload 3 ≤ 3 then
    match stationOf (field payload 0), hazardOfCode (field payload 2) with
    | some origin, some code => some (origin, payload.getD 1 0, code, field payload 3)
    | _, _ => none
  else none

/-- A PROGRAM: phase, conveyor demand, serial (R68, R74). -/
def readProgram (payload : List Byte) : Option (Phase × Demand × Byte) :=
  if payload.length = 3 then
    match phaseOfCode (field payload 0), demandOfCode (field payload 1) with
    | some phase, some demand => some (phase, demand, payload.getD 2 0)
    | _, _ => none
  else none

inductive OperatorCommand
  | acknowledge (id : Nat) | abandon (id : Nat) | resumeZone
  deriving DecidableEq, Repr

/-- An OPERATOR: target and command (R68, R74). -/
def readOperator (payload : List Byte) : Option (Station × OperatorCommand) :=
  if payload.length = 3 then
    match stationOf (field payload 1), field payload 0 with
    | some target, 0 => if field payload 2 = 0 then none else some (target, .acknowledge (field payload 2))
    | some target, 1 => if field payload 2 = 0 then none else some (target, .abandon (field payload 2))
    | some target, 2 => some (target, .resumeZone)
    | _, _ => none
  else none

/-- A QUERY: target, subject, clear flag (R68, R74). -/
def readQuery (payload : List Byte) : Option (Station × Subject × Bool) :=
  if payload.length = 3 then
    match stationOf (field payload 0), subjectOfCode (field payload 1) with
    | some target, some subject => some (target, subject, field payload 2 != 0)
    | _, _ => none
  else none

inductive SetupCommand
  | write (address : Nat) (keep : Byte) (data : List Byte)
  | read (address length : Nat)
  | commit
  | lock
  | lineTest (set clear toggle : Word16)
  deriving DecidableEq, Repr

/-- A SETUP: target and command with its data (R69, R74); a READ length outside 1 to 32 fails the form (log 16). -/
def readSetup (payload : List Byte) : Option (Station × SetupCommand) :=
  match stationOf (field payload 0) with
  | none => none
  | some target =>
    let data := payload.drop 4
    if payload.length < 4 then none
    else match field payload 1 with
      | 0 => if 1 ≤ data.length ∧ data.length ≤ 16 then some (target, .write (field payload 2) (payload.getD 3 0) data) else none
      | 1 =>
        if data.length = 1 ∧ 1 ≤ field payload 4 ∧ field payload 4 ≤ 32 then some (target, .read (field payload 2) (field payload 4))
        else none
      | 2 => if data.length = 0 then some (target, .commit) else none
      | 3 => if data.length = 0 then some (target, .lock) else none
      | 4 =>
        if data.length = 6 then
          some (target, .lineTest (payload.getD 4 0 ++ payload.getD 5 0) (payload.getD 6 0 ++ payload.getD 7 0)
            (payload.getD 8 0 ++ payload.getD 9 0))
        else none
      | _ => none

/-- A RESTART: its target (R68, R74). -/
def readRestart (payload : List Byte) : Option Station :=
  if payload.length = 1 then stationOf (field payload 0) else none

/-! ## Acceptance (R72) -/

/-- A group matches a filter (R71). -/
def GroupFilter.accepts (f : GroupFilter) (group : BitVec 12) : Bool := f.enable && ((group ^^^ f.value) &&& f.mask) == 0

/-- The group test (R70, R71, R72 step 3). -/
def State.groupPasses (s : State) (group : BitVec 12) : Bool :=
  group == groupAll || group == stationGroup s.cs.number.toNat ||
    (s.runMode && ([0, 1, 2, 3] : List Nat).any (fun n => (s.image.filter n).accepts group))

/-- The sender test (R73). -/
def State.senderPasses (s : State) (kind : FrameKind) (h : Header) : Bool :=
  let sender := h.sender.toNat
  let inWheel : Bool := decide (sender < s.wheelSize)
  let fromTool := sender == 15
  (inWheel || fromTool) &&
    match kind with
    | .presence => inWheel && h.group == groupAll
    | .claim => inWheel && h.group == groupAll
    | .claimSet => inWheel && h.group == groupAll
    | .resync => inWheel && h.group == groupAll
    | .hazard => inWheel
    | .program => s.isPanel sender
    | .operator => s.isPanel sender
    | .restart => s.isPanel sender
    | .query => s.isPanel sender || fromTool
    | .setup => fromTool
    | .reply => true
    | .setupReply => true
    | .undefined _ => false

/-- The form test (R74). -/
def State.formPasses (s : State) (kind : FrameKind) (payload : List Byte) : Bool :=
  match kind with
  | .presence => (readPresence s.me s.me payload).isSome
  | .claim => payload.length ≤ 56
  | .claimSet => payload.length ≤ 56
  | .resync => (readResync payload).isSome
  | .hazard => (readHazard payload).isSome
  | .program => (readProgram payload).isSome
  | .operator => (readOperator payload).isSome
  | .query => (readQuery payload).isSome
  | .setup => (readSetup payload).isSome
  | .restart => (readRestart payload).isSome
  | .reply => 1 ≤ payload.length && payload.length ≤ 56
  | .setupReply => 1 ≤ payload.length && payload.length ≤ 56
  | .undefined _ => false

/-- What acceptance decides of a valid frame (R72). -/
inductive Acceptance
  | ownNumber | badFormat | filtered | badSender | badForm | accepted
  deriving DecidableEq, Repr

def isUndefined : FrameKind → Bool
  | .undefined _ => true
  | _ => false

/-- The tests of acceptance in order; the first that fails decides (R72). -/
def State.acceptance (s : State) (kind : FrameKind) (h : Header) (payload : List Byte) : Acceptance :=
  if h.sender = s.cs.number then .ownNumber
  else if h.version ≠ 1 ∨ isUndefined kind = true then .badFormat
  else if !s.groupPasses h.group then .filtered
  else if !s.senderPasses kind h then .badSender
  else if !s.formPasses kind payload then .badForm
  else .accepted

/-- The sender as a station number 0 to 11. -/
def headerStation (h : Header) : Option Station := stationOf h.sender.toNat

end Sys2Proof.Machine
end

