-- ==== Sys2Proof/Machine/Link.lean ====
section
/-! DEFINITION. The Link Controller: the wheel, openings, frame choice, own frames, receptions (chapter 3, sections 4.4 and 4.5). -/

namespace Sys2Proof.Machine

/-! ## The wheel (R48 to R51) -/

/-- A new position; one greater than W wraps to 0 and counts a wrap (R48, R50). -/
def setPosition (position : Nat) (s : State) : State :=
  if s.wheelSize < position then
    { s with lc := { s.lc with position := 0, roundCount := s.lc.roundCount + 1, presenceAge := min (s.lc.presenceAge + 1) 8 } }
  else { s with lc := { s.lc with position := position } }

/-- The position after a valid frame from a sender (R50). -/
def State.positionAfter (s : State) (sender : Nat) : Nat :=
  if sender < s.wheelSize then sender + 1 else if sender = 15 then s.wheelSize + 1 else s.lc.position + 1

/-- The end of an activity: the medium quiet for one byte time, the idle reset interval running from its end (R46, R47). -/
def mediumEnds (s : State) : State :=
  { s with lc := { s.lc with medium := .quiet, idleStart := s.now - Config.byteTime } }

/-! ## Frames of this station (R54, R63, R66 to R69) -/

/-- The fields of a PRESENCE built now (R66). -/
def State.presenceFields (s : State) : PresenceFields :=
  { linkState := s.mu.linkState, zoneMode := s.zoneMode, digest := s.image.digest, heardSet := s.heardSet,
    applied := s.appliedVector, failedCount := s.failedCount, activeRank := s.activeRank,
    claimCount := s.oc.claims.length, gateStop := s.hz.stopMark }

/-- The payload of a PRESENCE (R66). -/
def presencePayload (p : PresenceFields) : List Byte :=
  [byteOf (linkCode p.linkState), byteOf (zoneModeCode p.zoneMode), highByte p.digest, lowByte p.digest] ++
  stationSetBytes p.heardSet ++ wordBytes (maskOf (p.applied.toList.map Option.isNone)) ++
  p.applied.toList.map (fun a => a.getD 0) ++
  [byteOf p.failedCount, byteOf p.activeRank, byteOf p.claimCount, flagByte p.gateStop]

/-- A PRESENCE is due: a field R55 names differs from the last completed own PRESENCE. -/
def State.presenceDue (s : State) : Bool :=
  match s.lc.lastPresence with
  | none => true
  | some p =>
    p.applied != s.appliedVector || p.linkState != s.mu.linkState || p.zoneMode != s.zoneMode ||
      p.failedCount != s.failedCount || p.activeRank != s.activeRank || p.gateStop != s.hz.stopMark

/-- A change on the wire (R67). -/
def changeBytes (c : Change) : List Byte :=
  match c.op with
  | .new resource cls amount => [packed 0 c.tag.val, packed (resourceCode resource) (classCode cls), byteOf amount]
  | .amend cls amount => [packed 1 c.tag.val, packed 0 (classCode cls), byteOf amount]
  | .release => [packed 2 c.tag.val, 0, 0]

/-- A restated claim on the wire (R67). -/
def restatedBytes (c : OwnClaim) : List Byte :=
  [byteOf c.tag.val, packed (resourceCode c.resource) (classCode c.cls), byteOf c.amount]

def hazardPayload (e : HazardEntry) : List Byte :=
  [byteOf e.origin.val, e.serial, byteOf (hazardCode e.code), byteOf e.hops]

/-- The sender field of own frames: the station number, or 15 in the service modes (R53, R63). -/
def State.ownSender (s : State) : Nat := if s.serviceMode then 15 else s.cs.number.toNat

/-- An own frame starts (R53). -/
def startFrame (content : OwnContent) (kind : FrameKind) (group : BitVec 12) (payload : List Byte) (s : State) : State :=
  setMedium (.own { content := content, bytes := frameBytes s.ownSender kind group payload, start := s.now }) s

def sendPresence (s : State) : State :=
  startFrame (.presence s.presenceFields) .presence groupAll (presencePayload s.presenceFields) s

/-- A CLAIM built: up to four changes move into the in-flight set (R35). -/
def sendClaim (s : State) : State :=
  let n := s.claimSize
  let carried := s.oc.unsent.take n
  startFrame .claim .claim groupAll ((s.oc.changeNumber + 1) :: carried.flatMap changeBytes)
    { s with oc := { s.oc with inFlight := carried, unsent := s.oc.unsent.drop n } }

/-- A CLAIM_SET built: every unsent change moves into the in-flight set (R37). -/
def sendClaimSet (s : State) : State :=
  let number := if s.oc.unsent.isEmpty then s.oc.changeNumber else s.oc.changeNumber + 1
  startFrame (.claimSet number) .claimSet groupAll
    ([number, flagByte (!s.oc.restatedSinceStart)] ++ s.oc.claims.flatMap restatedBytes)
    { s with oc := { s.oc with inFlight := s.oc.unsent, unsent := [] } }

def sendResync (join : Bool) (target : Nat) (s : State) : State := startFrame (.resync join) .resync groupAll [byteOf target] s

/-- A HAZARD built from the first entry of the queue (R190). -/
def sendHazard (e : HazardEntry) (s : State) : State :=
  startFrame .hazard .hazard e.group (hazardPayload e) (markFirstOnWire s)

/-- A REPLY built: the question moves from the slot to the in-flight question (R214). -/
def sendReply (q : Question) (s : State) : State :=
  startFrame .reply .reply (stationGroup q.requester.toNat) (byteOf (subjectCode q.subject) :: s.replyData q.subject)
    { s with rp := { s.rp with slot := none, inFlight := some q } }

/-- A SETUP_REPLY built: the pending reply becomes the reply in flight (R204). -/
def sendSetupReply (r : SetupReply) (s : State) : State :=
  startFrame .setupReply .setupReply (stationGroup 15) (byteOf (statusCode r.status) :: r.data)
    { s with cs := { s.cs with reply := none, replyInFlight := some r } }

/-- The frame due first, at the beginning of the own opening in JOINING or JOINED (R54). -/
def chooseFrame (s : State) : State :=
  if s.mu.linkState = .joining ∧ s.mu.joinRequestDone = none then sendResync true 15 s
  else if s.mu.linkState = .joined ∧ s.oc.restatedSinceJoined = false then sendClaimSet s
  else if s.image.presencePeriod ≤ s.lc.presenceAge then sendPresence s
  else if s.oc.restatementDue then sendClaimSet s
  else if s.claimDue then sendClaim s
  else match s.mu.linkState, s.hz.queue with
    | .joined, e :: _ => sendHazard e s
    | _, _ =>
      if s.presenceDue then sendPresence s
      else match s.staleOwners with
        | k :: _ => sendResync false k.val s
        | [] => match s.rp.slot with
          | some q => sendReply q s
          | none => s

/-- The frame of a service opening in SETUP and HALTED_CONFIG (R53). -/
def chooseServiceFrame (s : State) : State :=
  match s.cs.reply, s.rp.slot with
  | some r, _ => sendSetupReply r s
  | none, some q => sendReply q s
  | none, none => s

/-- The beginning of an opening: this station starts a frame where it may (R49, R53). -/
def beginOpening (s : State) : State :=
  let t := { s with lc := { s.lc with openingStart := s.now } }
  if t.lc.transmitCut || t.lc.medium != .quiet || !t.lc.receiverOn then t
  else if t.serviceMode then (if t.lc.position = t.wheelSize then chooseServiceFrame t else t)
  else if t.takesPart && t.lc.position == t.cs.number.toNat && t.lc.position < t.wheelSize then chooseFrame t
  else t

/-! ## The end of an own frame (R57) -/

/-- The completion effects of a frame's kind, and its SENT count (R35, R37, R56, R57, R190, R204, R214). -/
def completionEffects (content : OwnContent) (s : State) : State :=
  match content with
  | .presence fields => { count .sent s with lc := { s.lc with presenceAge := 0, lastPresence := some fields } }
  | .claim => completeClaim (count .sent s)
  | .claimSet number => completeClaimSet number (count .sent s)
  | .resync join =>
    let s1 := count .resyncsSent (count .sent s)
    if join then joinRequestSent s1 else s1
  | .hazard => hazardSent (count .sent s)
  | .reply => replySent s
  | .setupReply => { count .sent s with cs := { s.cs with replyInFlight := none } }

/-- The position after an own frame: own number + 1, or past the service opening (R50, log 11). -/
def State.positionAfterOwn (s : State) : Nat := if s.serviceMode then s.wheelSize + 1 else s.cs.number.toNat + 1

def ownFrameEnds (content : OwnContent) (s : State) : State :=
  beginOpening (endEvent .none (completionEffects content (setPosition s.positionAfterOwn (mediumEnds s))))

/-! ## Receptions -/

/-- A reception can end as a frame or a check failure: one in progress that is no babble, or activity that begins and ends as one
command on a quiet medium (log 8). -/
def State.canReceive (s : State) : Bool :=
  s.supply && s.lc.receiverOn && (match s.lc.medium with
    | .quiet => true
    | .reception r => !r.babble
    | _ => false)

/-- The end of activity that was no reception (R46, log 8). -/
def ignoredEnds (s : State) : State := if s.supply && s.lc.medium == .ignored then mediumEnds s else s

/-- The wheel and the next opening after a valid frame from a sender (R50, R49). -/
def frameEnds (sender : Nat) (s : State) : State := beginOpening (setPosition (s.positionAfter sender) s)

/-- The wheel and the next opening after a check failure or babble (R50, R49). -/
def failureEnds (s : State) : State := beginOpening (setPosition (s.lc.position + 1) s)

/-! ## Delivery (R75) -/

/-- A CLAIM at the Claim Table (R12, R13). -/
def deliverClaim (k : Station) (payload : List Byte) (s : State) : State := if s.tableTakes k then takeClaim k payload s else s

/-- A CLAIM_SET at the Claim Table (R12, R18 to R20). -/
def deliverClaimSet (k : Station) (payload : List Byte) (s : State) : State :=
  if s.tableTakes k then
    match readRestatement payload with
    | none => claimRefused k s
    | some (number, fresh, records) => reportRestated k fresh (applyRestatement k number records s)
  else s

/-- A phase change's evaluation event of TEMP_LOW (section 8.1). -/
def phaseEvaluated (before : Phase) (s : State) : State := if s.pd.phase = before then s else evalTimed .tempLow s

def deliverOperator (command : OperatorCommand) (s : State) : State :=
  match command with
  | .acknowledge id => acknowledge id s
  | .abandon id => abandon id s
  | .resumeZone => resumeZone s

def deliverSetup (command : SetupCommand) (s : State) : State :=
  match command with
  | .write a keep data => takeWrite a keep data s
  | .read a length => takeRead a length s
  | .commit => takeCommit s
  | .lock => takeLock s
  | .lineTest set clear toggle => takeLineTest set clear toggle s

/-- A frame at the block that owns its kind, in zone modes IN_SERVICE and OUT_OF_SERVICE (R75). -/
def deliverRun (kind : FrameKind) (h : Header) (payload : List Byte) (s : State) : State :=
  match kind with
  | .presence => match headerStation h with
    | some k => match readPresence s.me k payload with
      | some p => takePresence k p s
      | none => s
    | none => s
  | .claim => match headerStation h with
    | some k => deliverClaim k payload s
    | none => s
  | .claimSet => match headerStation h with
    | some k => deliverClaimSet k payload s
    | none => s
  | .resync => match readResync payload with
    | some target => if target = s.me.val ∨ target = 15 then takeResync s else s
    | none => s
  | .hazard => match readHazard payload with
    | some (origin, serial, code, hops) => takeHazard origin serial code hops s
    | none => s
  | .program => match readProgram payload with
    | some (phase, demand, serial) => phaseEvaluated s.pd.phase (takeProgram phase demand serial s)
    | none => s
  | .operator => match readOperator payload with
    | some (target, command) => if target = s.me then deliverOperator command s else s
    | none => s
  | .query => match readQuery payload with
    | some (target, subject, clear) =>
      if target = s.me then takeQuery { subject := subject, clear := clear, requester := h.sender } s else s
    | none => s
  | _ => s

/-- A frame at the block that owns its kind, in SETUP and HALTED_CONFIG: QUERY and SETUP for this station's strap number (R75, R203). -/
def deliverService (kind : FrameKind) (h : Header) (payload : List Byte) (s : State) : State :=
  match kind with
  | .query => match readQuery payload with
    | some (target, subject, clear) =>
      if target.val = s.cs.number.toNat then takeQuery { subject := subject, clear := clear, requester := h.sender } s else s
    | none => s
  | .setup => match readSetup payload with
    | some (target, command) => if target.val = s.cs.number.toNat then deliverSetup command s else s
    | none => s
  | _ => s

/-- The sender's Peer Table record is FOREIGN; in SETUP and HALTED_CONFIG no sender is (R75). -/
def State.senderForeign (s : State) (h : Header) : Bool :=
  s.runMode && (match headerStation h with
    | some k => s.mu.peers[k].state == .foreign
    | none => false)

/-- The arrival record of an accepted frame whose sender is a station number 0 to 11 (R76, R82). -/
def arrived (h : Header) (s : State) : State :=
  match headerStation h with
  | some k => arrivalRecord k s
  | none => s

/-- Delivery of an accepted frame (R75), then its arrival record (R76). -/
def deliver (kind : FrameKind) (h : Header) (payload : List Byte) (s : State) : State :=
  if s.runMode then arrived h (if s.senderForeign h && kind != .presence then s else deliverRun kind h payload s)
  else if s.serviceMode then deliverService kind h payload s else s

/-- A valid frame through acceptance (R72), delivery and the arrival record. -/
def acceptFrame (kind : FrameKind) (h : Header) (payload : List Byte) (s : State) : State :=
  match s.acceptance kind h payload with
  | .ownNumber => if s.serviceMode then s else duplicateNumber s
  | .badFormat => count .protocolErrors s
  | .filtered => count .filtered s
  | .badSender => count .protocolErrors s
  | .badForm => count .protocolErrors s
  | .accepted => deliver kind h payload (count .accepted s)

/-- What follows the taking of a frame: the rest of the event, the wheel, and the opening that begins (R50). -/
def afterFrame (h : Header) (s : State) : State := frameEnds h.sender.toNat (endEvent .none s)

/-- A valid frame received (R46, R50, R72): acceptance and delivery on the state the reception ended in, the rest of the event, the
wheel, and the opening that begins. -/
def receiveFrame (kind : FrameKind) (h : Header) (payload : List Byte) (s : State) : State :=
  if s.canReceive then
    afterFrame h (acceptFrame kind h payload (mediumEnds s))
  else ignoredEnds s

/-! ## A QUERY and the building of a REPLY (R217) -/

/-- A QUERY with this header and payload is accepted and names this station: the Report Unit takes it (R214). -/
def State.takesQuery (s : State) (h : Header) (payload : List Byte) : Bool :=
  s.canReceive && s.acceptance .query h payload == .accepted && !s.senderForeign h &&
    (readQuery payload).any (fun q => q.1.val == s.cs.number.toNat)

/-- An own REPLY is on the wire. -/
def State.sendsReply (s : State) : Bool :=
  match s.lc.medium with
  | .own f => f.content == .reply
  | _ => false

/-- The opening at the end of a reception, begun before the frame is taken. -/
def openedFirst (h : Header) (s : State) : State := frameEnds h.sender.toNat (mediumEnds s)

/-- The end of the QUERY's reception begins an opening in which a REPLY for the waiting question is built (R217, row 3). -/
def State.replyMeetsQuery (s : State) (h : Header) (payload : List Byte) : Bool :=
  s.takesQuery h payload && s.rp.slot.isSome && (openedFirst h s).sendsReply

/-- The REPLY built first: it answers the waiting question, and the QUERY is taken after it (R217, rows 2 and 3, second orders). -/
def queryAfterReply (h : Header) (payload : List Byte) (s : State) : State :=
  endEvent .none (acceptFrame .query h payload (openedFirst h s))

/-- A QUERY received: where it meets the building of a REPLY, which of the two is first is open (R217, log 39). -/
def receiveQuery (h : Header) (payload : List Byte) (s : State) : State :=
  let used (t : State) : State := { t with free := t.free + 1 }
  if s.replyMeetsQuery h payload then
    if Config.replyBuiltFirst s.free then used (queryAfterReply h payload s) else receiveFrame .query h payload (used s)
  else receiveFrame .query h payload s

/-- A RESTART frame received: where it is accepted for this station and taken, the start it brings (R211); refused, one count. -/
def receiveRestart (h : Header) (payload : List Byte) (straps : Straps) (s : State) : State :=
  if s.canReceive && s.acceptance .restart h payload == .accepted && !s.senderForeign h &&
      (readRestart payload).any (fun k => k.val == s.cs.number.toNat) then
    if s.restartAllowed then restartTaken straps (count .accepted (mediumEnds s))
    else receiveFrame .restart h payload (count .operatorRefused s)
  else receiveFrame .restart h payload s

end Sys2Proof.Machine
end

