-- ==== Sys2Proof/Machine/Supply.lean ====
section
/-! DEFINITION. The commands of the supply and of the start: POWER_ON, BROWN_OUT, SUPPLY_RETURN, SETTLE_END, RESTART (sections 11.3 and 11.5). -/

namespace Sys2Proof.Machine

open Host

/-- POWER_ON: every block at its reset value, carry-over record and RESTARTS emptied, a start (R210; log 30). -/
def powerOn (straps : Straps) (s : State) : State :=
  let s1 := abandonCommit s
  start s1.cs.stored s1.cs.mixed [] false 0 straps s1

def execPowerOn (straps : Straps) (s : State) : Outcome State Fault Refusal := .next (powerOn straps s)

/-- The supply falls below the threshold (R210, R60, R106, R207). -/
def brownOut (s : State) : State :=
  let s1 := outputsOff (abandonCommit (stopOwnFrame s))
  { s1 with supply := false, lc := { s1.lc with receiverOn := false, medium := mediumAfterReset s.lc.medium } }

def execBrownOut (s : State) : Outcome State Fault Refusal := .next (if s.supply then brownOut s else s)

/-- SUPPLY_RETURN: a start as at power-on (R210). -/
def execSupplyReturn (straps : Straps) (s : State) : Outcome State Fault Refusal :=
  .next (if s.supply then s else start s.cs.stored s.cs.mixed [] false 0 straps s)

/-- Every input has settled and every channel has counted ten samples (R202). -/
def State.settled (s : State) : Bool :=
  allLines.all (fun i => !s.isInputLine i || (s.lu.debounced[i]).isSome) &&
    allChannels.all (fun c => Config.settleSamples ≤ s.ms.counts[c])

/-- The zone mode at the end of SETTLE; OUT_OF_SERVICE queues ZONE_DOWN; the flag is cleared (R202 step 3, R188). -/
def enterService (s : State) : State :=
  let out := s.cs.carryOutOfService
  let s1 := { s with cs := { s.cs with carryOutOfService := false } }
  if out then queueNotice .zoneDown (changeZoneMode .outOfService s1) else changeZoneMode .inService s1

/-- The receiver is switched on: position 0, the idle reset interval starts (R48). -/
def receiverOn (s : State) : State :=
  { s with lc := { s.lc with receiverOn := true, position := 0, openingStart := s.now, idleStart := s.now } }

/-- The end of SETTLE and the stage ENTRY, in the order of R202. -/
def settleEnds (s : State) : State :=
  let restored := reviewHolds (restoreCarried s)
  let detecting := runDetectors { restored with cs := { restored.cs with stage := .entered } }
  receiverOn (becomeListening (enterService detecting))

def execSettleEnd (s : State) : Outcome State Fault Refusal :=
  .next (if s.supply && s.cs.stage == .settle && s.settled then endEvent .none (settleEnds s) else s)

/-- RESTART (R211). -/
def execRestart (h : Header) (payload : List Byte) (straps : Straps) (s : State) : Outcome State Fault Refusal :=
  .next (receiveRestart h payload straps s)

end Sys2Proof.Machine
end

