-- ==== Sys2Proof/Machine/Zone.lean ====
section
/-! DEFINITION. The commands of the zone side: RAW_LEVEL_CHANGE, LINE_CHANGE_EVENT, SAMPLE_ARRIVAL (section 6.2). -/

namespace Sys2Proof.Machine

open Host

/-- Inputs are read and channels sampled: from the INPUTS stage on (R103, R105). -/
def State.reads (s : State) : Bool := s.supply && !s.serviceMode && s.cs.stage != .load

/-- The raw level of a pin changes; the debounce timer of an input line restarts (R103). -/
def rawChange (line : Line) (high : Bool) (s : State) : State :=
  { s with lu := { s.lu with
      pins := setAt s.lu.pins line high
      timers := if s.reads && s.isInputLine line then setAt s.lu.timers line (some s.now) else s.lu.timers } }

def execRawLevelChange (line : Line) (high : Bool) (s : State) : Outcome State Fault Refusal :=
  .next (if s.lu.pins[line] = high then s else rawChange line high s)

/-- The debounced level takes the raw level, and the line change event is handed on (R103). -/
def lineChanged (line : Line) (s : State) : State :=
  endEvent .none (evalLine (s.image.lineFunction line)
    { s with lu := { s.lu with debounced := setAt s.lu.debounced line (some (s.pinActive line)) } })

/-- The debounce timer of a line runs out (R103). -/
def debounceEnds (line : Line) (t : Nat) (s : State) : State :=
  let s1 := advanceTo (t + s.image.debounce line) { s with lu := { s.lu with timers := setAt s.lu.timers line none } }
  if s.lu.debounced[line] = some (s.pinActive line) then s1 else lineChanged line s1

def execLineChangeEvent (line : Line) (s : State) : Outcome State Fault Refusal :=
  .next (match s.supply, s.lu.timers[line] with
    | true, some t => debounceEnds line t s
    | _, _ => s)

/-- The Measurement Unit at an arrival: the latest sample, the count, the next arrival (R105). -/
def storeSample (c : Channel) (x : Sample) (s : State) : State :=
  let s1 := advanceTo s.ms.nextArrival[c] s
  { s1 with ms := { s1.ms with
      latest := setAt s.ms.latest c (some x)
      counts := setAt s.ms.counts c (min (s.ms.counts[c] + 1) Config.settleSamples)
      nextArrival := setAt s.ms.nextArrival c (s1.now + Config.samplePeriod) } }

/-- A sample arrival handed to the Fault Detector, the Program Drive and the Recovery Sequencer (R105, log 9). -/
def sampleArrives (c : Channel) (x : Sample) (s : State) : State :=
  let detected := evalArrival c x (storeSample c x s)
  endEvent (.sample c) (countValid c x (if c = 0 then judgeRegulation detected else detected))

def execSampleArrival (c : Channel) (presented : Presented) (s : State) : Outcome State Fault Refusal :=
  .next (if s.reads then sampleArrives c (sampleOf presented) s else s)

end Sys2Proof.Machine
end

