-- ==== Sys2Proof/Machine/Medium.lean ====
section
/-! DEFINITION. The commands of the medium and of own frames (chapter 3). -/

namespace Sys2Proof.Machine

open Host

/-- Activity begins on a quiet medium: a reception where the receiver is on (R46). -/
def activityBegins (s : State) : State :=
  setMedium (if s.lc.receiverOn then .reception { start := s.now, babble := false, afterOwn := false } else .ignored) s

/-- Foreign activity is on the medium at the event at which this station's opening begins (R52, row 3, second order): the frame chosen
there has not started (R53), its content stays due, and the activity is a reception in that opening (log 35). -/
def startForestalled (f : OwnFrame) (s : State) : State := endEvent .none (activityBegins (takeBack f.content s))

/-- RECEPTION_START: on a quiet medium, or at the very instant at which an own frame would start. -/
def execReceptionStart (s : State) : Outcome State Fault Refusal :=
  .next (match s.supply, s.lc.medium with
    | true, .quiet => activityBegins s
    | true, .own f => if f.start = s.now then startForestalled f s else s
    | _, _ => s)

/-- A check failure is counted, except in a reception that continues an own frame (R46, R58). -/
def countFailure (s : State) : State :=
  match s.lc.medium with
  | .reception r => if r.afterOwn then s else count .checkErrors s
  | _ => count .checkErrors s

def execCheckFailure (received : List Byte) (s : State) : Outcome State Fault Refusal :=
  .next (if s.canReceive then
      (if validReception received then s else failureEnds (mediumEnds (countFailure s)))
    else ignoredEnds s)

/-- The babble limit is reached in a reception (R61). -/
def babbleBegins (r : Reception) (s : State) : State :=
  count .babble (setMedium (.reception { r with babble := true }) (advanceTo (r.start + Config.babbleLimit) s))

def execBabble (s : State) : Outcome State Fault Refusal :=
  .next (match s.supply, s.lc.medium with
    | true, .reception r => if r.babble then s else babbleBegins r s
    | _, _ => s)

def execBabbleReceptionEnd (s : State) : Outcome State Fault Refusal :=
  .next (match s.supply, s.lc.medium with
    | true, .reception r => if r.babble then failureEnds (mediumEnds s) else s
    | _, _ => ignoredEnds s)

/-- Openings expire: the receiver is on and no reception or own frame is in progress (R49). -/
def State.openingRuns (s : State) : Bool := s.supply && s.lc.receiverOn && (s.lc.medium == .quiet || s.lc.medium == .ignored)

def openingExpires (s : State) : State :=
  beginOpening (setPosition (s.lc.position + 1) (advanceTo (s.lc.openingStart + Config.quietInterval) s))

def execOpeningExpiry (s : State) : Outcome State Fault Refusal := .next (if s.openingRuns then openingExpires s else s)

/-- The idle reset interval runs: the receiver is on and the medium quiet (R51). So where the expiry of an opening, taken first, begins this
station's own opening and starts a frame there, no idle reset follows: the position stays until that frame ends (R49), where R52, row 2,
second order, says "then 0" (log 43). -/
def State.idleRuns (s : State) : Bool := s.supply && s.lc.receiverOn && s.lc.medium == .quiet

def idleResets (s : State) : State :=
  let s1 := advanceTo (s.lc.idleStart + Config.idleInterval) s
  beginOpening { s1 with lc := { s1.lc with position := 0, idleStart := s1.now } }

def execIdleReset (s : State) : Outcome State Fault Refusal := .next (if s.idleRuns then idleResets s else s)

/-- The time an own frame takes on the wire with the byte time of quiet that ends it (R46, R57). -/
def frameTime (f : OwnFrame) : Nat := Config.byteTime * (f.bytes.length + 1)

def execOwnFrameComplete (s : State) : Outcome State Fault Refusal :=
  .next (match s.supply, s.lc.medium with
    | true, .own f => ownFrameEnds f.content (advanceTo (f.start + frameTime f) s)
    | _, _ => s)

/-- An own frame collides: counted, its content taken back, the rest of the activity received (R58). -/
def collides (s : State) : State := endEvent .none (stopOwnFrame (count .collisions s))

def execCollision (s : State) : Outcome State Fault Refusal :=
  .next (match s.supply, s.lc.medium with
    | true, .own _ => collides s
    | _, _ => s)

/-- The transmit-cut flag is set and the transmitter disconnected (R62). -/
def setTransmitCut (s : State) : State := { s with lc := { s.lc with transmitCut := true } }

/-- The part cuts its own transmitter, and what it receives from then on is one reception that begins at the cut (R62, R60; log 20). -/
def cutsTransmitter (s : State) : State :=
  endEvent .none (setTransmitCut (setMedium (.reception { start := s.now, babble := false, afterOwn := true }) s))

/-- The watch of R62 stands apart from the frame logic: the driver has been on for the babble limit with no own frame on the wire. In the
reception that follows a stopped own frame it has been on since that frame's start; elsewhere the manual gives its start no place, and the flag
alone is set (log 44). A transmitter that is cut already drives nothing (log 3). -/
def driverStuck (s : State) : State :=
  if s.lc.transmitCut then s
  else match s.lc.medium with
    | .reception r =>
      if r.afterOwn && !r.babble then cutsTransmitter (advanceTo (r.start + Config.babbleLimit) s) else setTransmitCut s
    | _ => setTransmitCut s

/-- TRANSMIT_CUT: with an own frame on the wire its content is taken back as R60 says; without one the driver is stuck (R62). -/
def execTransmitCut (s : State) : Outcome State Fault Refusal :=
  .next (match s.supply, s.lc.medium with
    | true, .own f => cutsTransmitter (takeBack f.content (advanceTo (f.start + Config.babbleLimit) s))
    | true, _ => driverStuck s
    | false, _ => s)

end Sys2Proof.Machine
end

