-- ==== Sys2Proof/Machine/PeerFrames.lean ====
section
/-! DEFINITION. The commands that are frames of other stations: peer frames, replies, frames of no kind (chapters 1, 2, 4, 5, 10). -/

namespace Sys2Proof.Machine

open Host

/-- PRESENCE (R80, R81). -/
def execPresence (h : Header) (payload : List Byte) (s : State) : Outcome State Fault Refusal :=
  .next (receiveFrame .presence h payload s)
/-- CLAIM (R13). -/
def execClaim (h : Header) (payload : List Byte) (s : State) : Outcome State Fault Refusal :=
  .next (receiveFrame .claim h payload s)
/-- CLAIM_SET (R19). -/
def execClaimSet (h : Header) (payload : List Byte) (s : State) : Outcome State Fault Refusal :=
  .next (receiveFrame .claimSet h payload s)
/-- RESYNC (R37). -/
def execResync (h : Header) (payload : List Byte) (s : State) : Outcome State Fault Refusal :=
  .next (receiveFrame .resync h payload s)
/-- HAZARD (R191). -/
def execHazard (h : Header) (payload : List Byte) (s : State) : Outcome State Fault Refusal :=
  .next (receiveFrame .hazard h payload s)
/-- REPLY and SETUP_REPLY of another station (R75). -/
def execReplyReceived (ofSetup : Bool) (h : Header) (payload : List Byte) (s : State) : Outcome State Fault Refusal :=
  .next (receiveFrame (if ofSetup then .setupReply else .reply) h payload s)
/-- A frame whose kind code is 12 to 15 (R63, R72). -/
def execUndefinedKindFrame (code : BitVec 4) (h : Header) (payload : List Byte) (s : State) : Outcome State Fault Refusal :=
  .next (receiveFrame (.undefined code) h payload s)

end Sys2Proof.Machine
end

