-- ==== Sys2Proof/Machine/PanelFrames.lean ====
section
/-! DEFINITION. The commands that are frames of the panel and of the service tool: PROGRAM, OPERATOR, QUERY (chapters 7, 9, 12). -/

namespace Sys2Proof.Machine

open Host

/-- PROGRAM (R120). -/
def execProgram (h : Header) (payload : List Byte) (s : State) : Outcome State Fault Refusal :=
  .next (receiveFrame .program h payload s)
/-- OPERATOR with ACKNOWLEDGE (R181). -/
def execAcknowledge (h : Header) (payload : List Byte) (s : State) : Outcome State Fault Refusal :=
  .next (receiveFrame .operator h payload s)
/-- OPERATOR with ABANDON (R182). -/
def execAbandon (h : Header) (payload : List Byte) (s : State) : Outcome State Fault Refusal :=
  .next (receiveFrame .operator h payload s)
/-- OPERATOR with RESUME_ZONE (R184). -/
def execResumeZone (h : Header) (payload : List Byte) (s : State) : Outcome State Fault Refusal :=
  .next (receiveFrame .operator h payload s)
/-- QUERY for STATUS (R214, R215). -/
def execQueryStatus (h : Header) (payload : List Byte) (s : State) : Outcome State Fault Refusal :=
  .next (receiveQuery h payload s)
/-- QUERY for INCIDENTS (R214, R215). -/
def execQueryIncidents (h : Header) (payload : List Byte) (s : State) : Outcome State Fault Refusal :=
  .next (receiveQuery h payload s)
/-- QUERY for CLAIMS (R214, R215). -/
def execQueryClaims (h : Header) (payload : List Byte) (s : State) : Outcome State Fault Refusal :=
  .next (receiveQuery h payload s)
/-- QUERY for PEERS (R214, R215). -/
def execQueryPeers (h : Header) (payload : List Byte) (s : State) : Outcome State Fault Refusal :=
  .next (receiveQuery h payload s)
/-- QUERY for COUNTERS (R214, R215, R217). -/
def execQueryCounters (h : Header) (payload : List Byte) (s : State) : Outcome State Fault Refusal :=
  .next (receiveQuery h payload s)

end Sys2Proof.Machine
end

