-- ==== Sys2Proof/Machine/Setup.lean ====
section
/-! DEFINITION. The commands that are SETUP frames, and the completion of a row (sections 11.4 and 11.5). -/

namespace Sys2Proof.Machine

open Host

/-- SETUP with WRITE (R205). -/
def execWrite (h : Header) (payload : List Byte) (s : State) : Outcome State Fault Refusal :=
  .next (receiveFrame .setup h payload s)
/-- SETUP with READ (R206). -/
def execRead (h : Header) (payload : List Byte) (s : State) : Outcome State Fault Refusal :=
  .next (receiveFrame .setup h payload s)
/-- SETUP with COMMIT (R207). -/
def execCommit (h : Header) (payload : List Byte) (s : State) : Outcome State Fault Refusal :=
  .next (receiveFrame .setup h payload s)
/-- SETUP with LOCK (R208). -/
def execLock (h : Header) (payload : List Byte) (s : State) : Outcome State Fault Refusal :=
  .next (receiveFrame .setup h payload s)
/-- SETUP with LINE_TEST (R209). -/
def execLineTest (h : Header) (payload : List Byte) (s : State) : Outcome State Fault Refusal :=
  .next (receiveFrame .setup h payload s)

/-- The completion of a row of a commit (R207, R208). -/
def execRowProgrammed (s : State) : Outcome State Fault Refusal :=
  .next (match s.supply, s.cs.commit with
    | true, some p => rowDone p (advanceTo (p.start + Config.rowTime) s)
    | _, _ => s)

end Sys2Proof.Machine
end

