-- ==== Sys2Proof/Machine/Timers.lean ====
section
/-! DEFINITION. The commands that are ends of timers of the Membership Unit, the Program Drive, the detectors and the sequencer. -/

namespace Sys2Proof.Machine

open Host

/-- JOINING begins, unless the interval of R92 has run out (R88, R92). -/
def listenEnds (t : Nat) (s : State) : State :=
  let s1 := becomeJoining (advanceTo (t + s.image.tListen) s)
  endEvent .none (if s1.contactDeadline.any (fun d => d ≤ s1.now) then isolate .notHeardFrom s1 else s1)

def execListenTimerExpiry (s : State) : Outcome State Fault Refusal :=
  .next (match s.supply, s.mu.linkState, s.mu.listenStart with
    | true, .listening, some t => listenEnds t s
    | _, _, _ => s)

/-- The silence timer of a PRESENT peer (R83). -/
def execSilenceTimerExpiry (peer : Station) (s : State) : Outcome State Fault Refusal :=
  .next (match s.supply, s.mu.peers[peer].state, s.mu.peers[peer].lastPresence with
    | true, .present, some t => endEvent .none (peerSilent peer (advanceTo (t + s.image.tSilent) s))
    | _, _, _ => s)

/-- The expiry timer of a SILENT peer (R84). -/
def execExpiryTimerExpiry (peer : Station) (s : State) : Outcome State Fault Refusal :=
  .next (match s.supply, s.mu.peers[peer].state, s.mu.peers[peer].lastPresence with
    | true, .silent, some t => endEvent .none (peerAbsent peer (advanceTo (t + s.image.tExpire) s))
    | _, _, _ => s)

/-- The interval of R92 runs out. -/
def execNotHeardFrom (s : State) : Outcome State Fault Refusal :=
  .next (match s.supply && s.takesPart, s.contactDeadline with
    | true, some d => endEvent .none (isolate .notHeardFrom (advanceTo d s))
    | _, _ => s)

/-- The interval of R93 runs out. -/
def execNotHeardBy (s : State) : Outcome State Fault Refusal :=
  .next (match s.supply && s.takesPart, s.mu.notHeardBySince with
    | true, some t => endEvent .none (isolate .notHeardBy (advanceTo (t + s.image.tIsolate) s))
    | _, _ => s)

/-- The panel silence timer (R121). -/
def execPanelSilence (s : State) : Outcome State Fault Refusal :=
  .next (match s.supply, s.pd.silenceTimer with
    | true, some t => endEvent .none (phaseEvaluated s.pd.phase (panelSilent (advanceTo (t + s.image.tPanel) s)))
    | _, _ => s)

/-- The timer of a timed detector (R146). -/
def detectorTimer (f : FaultId) (s : State) : State :=
  if s.supply && (s.detector f).state == .watching && (s.detector f).timer.isSome then endEvent .none (timerDetects f s) else s

def execTTempExpiry (s : State) : Outcome State Fault Refusal := .next (detectorTimer .tempLow s)
def execTFillExpiry (s : State) : Outcome State Fault Refusal := .next (detectorTimer .fillTimeout s)
def execTDrainExpiry (s : State) : Outcome State Fault Refusal := .next (detectorTimer .drainTimeout s)
def execTFilterExpiry (s : State) : Outcome State Fault Refusal := .next (detectorTimer .filterBlocked s)

/-- The step timer of a step whose claims are usable reaches the duration the step names (R167). -/
def execStepTimerExpiry (s : State) : Outcome State Fault Refusal :=
  .next (match s.supply, s.activeStep, s.rs.stepSince with
    | true, some (_, _, step), some t =>
      endEvent .timer (advanceTo (t + (stepDuration s.image step - s.rs.stepElapsed)) s)
    | _, _, _ => s)

/-- The claim-wait timer reaches T_CLAIM_WAIT (R166, R169). -/
def execClaimWaitExpiry (s : State) : Outcome State Fault Refusal :=
  .next (match s.supply, s.activeStep, s.rs.claimWait with
    | true, some (id, fault, step), some t =>
      let r := failAttempt id fault step .claimWait (advanceTo (t + s.image.tClaimWait) s)
      endEvent r.2 r.1
    | _, _, _ => s)

/-- The dry timer of DRY_WAIT reaches T_DRY (R172). -/
def execDryTimerExpiry (s : State) : Outcome State Fault Refusal :=
  .next (match s.supply, s.activeStep, s.rs.dryTimer with
    | true, some (_, _, .leakDryWait), some t => endEvent .none (advanceTo (t + s.image.tDry) s)
    | _, _, _ => s)

/-! ## What time brings on an empty queue (log 2) -/

/-- A deadline has come. -/
def State.reached (s : State) (deadline : Option Nat) : Bool := deadline.any (fun d => d ≤ s.now)

/-- The step timer has reached a duration at which the step is judged to end. -/
def State.stepDue (s : State) : Bool :=
  match s.activeStep with
  | some (_, fault, step) => s.rs.stepSince.isSome && stepDuration s.image step ≤ s.stepTime && s.judgement fault step .timer != .stay
  | none => false

/-- The timer of a timed detector has run. That of a fault in the Unrecorded set goes on running past its end, and its submission there finds a
full list without a CLEARED record and changes nothing (R155), so an empty queue passes over it (log 2). -/
def State.detectorDue (s : State) (f : FaultId) : Bool :=
  (s.detector f).state == .watching && !s.fd.unrecorded.contains f &&
    s.reached ((s.detector f).timer.map (fun t => t + detectorTime s.image f))

/-- One entry where a condition holds. -/
def dueIf (b : Bool) (c : Instr) : List Instr := if b then [c] else []

/-- The dry timer of a DRY_WAIT that has run. -/
def State.dryDue (s : State) : Bool :=
  (match s.activeStep with
    | some (_, _, .leakDryWait) => true
    | _ => false) && s.reached (s.rs.dryTimer.map (fun t => t + s.image.tDry))

/-- The medium's events whose time has come. -/
def State.mediumDue (s : State) : List Instr :=
  dueIf (s.openingRuns && s.lc.openingStart + Config.quietInterval ≤ s.now) .openingExpiry ++
  dueIf (s.idleRuns && s.lc.idleStart + Config.idleInterval ≤ s.now) .idleReset ++
  (match s.lc.medium with
    | .reception r => dueIf (!r.babble && r.start + Config.babbleLimit ≤ s.now) .babble
    | .own f => dueIf (f.start + frameTime f ≤ s.now) .ownFrameComplete
    | _ => [])

/-- The zone side's events whose time has come. -/
def State.zoneDue (s : State) : List Instr :=
  allLines.flatMap (fun i => dueIf (s.reached ((s.lu.timers[i]).map (fun t => t + s.image.debounce i))) (.lineChangeEvent i)) ++
  allChannels.flatMap (fun c => dueIf (s.reads && s.ms.nextArrival[c] ≤ s.now) (.sampleArrival c .nothing)) ++
  dueIf (s.cs.stage == .settle && s.settled) .settleEnd ++
  dueIf (s.reached (s.cs.commit.map (fun p => p.start + Config.rowTime))) .rowProgrammed

/-- The membership timers whose time has come. -/
def State.linkDue (s : State) : List Instr :=
  dueIf (s.mu.linkState == .listening && s.reached (s.mu.listenStart.map (fun t => t + s.image.tListen))) .listenTimerExpiry ++
  allStations.flatMap (fun k =>
    dueIf (s.mu.peers[k].state == .present && s.reached (s.mu.peers[k].lastPresence.map (fun t => t + s.image.tSilent)))
      (.silenceTimerExpiry k) ++
    dueIf (s.mu.peers[k].state == .silent && s.reached (s.mu.peers[k].lastPresence.map (fun t => t + s.image.tExpire)))
      (.expiryTimerExpiry k)) ++
  dueIf (s.takesPart && s.reached s.contactDeadline) .notHeardFrom ++
  dueIf (s.takesPart && s.reached (s.mu.notHeardBySince.map (fun t => t + s.image.tIsolate))) .notHeardBy

/-- The timers of the drive, the detectors and the active step whose time has come. -/
def State.procedureDue (s : State) : List Instr :=
  dueIf (s.reached (s.pd.silenceTimer.map (fun t => t + s.image.tPanel))) .panelSilence ++
  dueIf (s.detectorDue .tempLow) .tTempExpiry ++ dueIf (s.detectorDue .fillTimeout) .tFillExpiry ++
  dueIf (s.detectorDue .drainTimeout) .tDrainExpiry ++ dueIf (s.detectorDue .filterBlocked) .tFilterExpiry ++
  dueIf s.stepDue .stepTimerExpiry ++
  dueIf (s.activeStep.isSome && s.reached (s.rs.claimWait.map (fun t => t + s.image.tClaimWait))) .claimWaitExpiry ++
  dueIf s.dryDue .dryTimerExpiry

/-- The events whose time has come; none while the supply is down (log 2). -/
def State.due (s : State) : List Instr :=
  if s.supply then s.zoneDue ++ s.mediumDue ++ s.linkDue ++ s.procedureDue else []

/-- The event taken on an empty queue: the one that is due, or one of several, which one being open (log 2). -/
def idleEvent (s : State) : Option (Instr × State) :=
  match s.due with
  | [] => none
  | [c] => some (c, s)
  | list => (list[Config.duePick s.free % list.length]?).map (fun c => (c, { s with free := s.free + 1 }))

/-- One microsecond passes (log 2). -/
def tick (s : State) : State := { s with now := s.now + 1 }

end Sys2Proof.Machine
end

