-- ==== Sys2Proof/Machine/Dispatch.lean ====
section
/-! DEFINITION. exec: one arm per command, each one call of its meaning. -/

namespace Sys2Proof.Machine

/-- The effect of a command on everything but the queue. -/
def exec (i : Instr) (s : State) : Host.Outcome State Fault Refusal :=
  match i with
    | .powerOn x => Sys2Proof.Machine.execPowerOn x s
    | .brownOut => Sys2Proof.Machine.execBrownOut s
    | .supplyReturn x => Sys2Proof.Machine.execSupplyReturn x s
    | .settleEnd => Sys2Proof.Machine.execSettleEnd s
    | .rawLevelChange line high => Sys2Proof.Machine.execRawLevelChange line high s
    | .lineChangeEvent line => Sys2Proof.Machine.execLineChangeEvent line s
    | .sampleArrival channel presented => Sys2Proof.Machine.execSampleArrival channel presented s
    | .receptionStart => Sys2Proof.Machine.execReceptionStart s
    | .checkFailure received => Sys2Proof.Machine.execCheckFailure received s
    | .babble => Sys2Proof.Machine.execBabble s
    | .openingExpiry => Sys2Proof.Machine.execOpeningExpiry s
    | .idleReset => Sys2Proof.Machine.execIdleReset s
    | .ownFrameComplete => Sys2Proof.Machine.execOwnFrameComplete s
    | .collision => Sys2Proof.Machine.execCollision s
    | .transmitCut => Sys2Proof.Machine.execTransmitCut s
    | .presence h p => Sys2Proof.Machine.execPresence h p s
    | .claim h p => Sys2Proof.Machine.execClaim h p s
    | .claimSet h p => Sys2Proof.Machine.execClaimSet h p s
    | .resync h p => Sys2Proof.Machine.execResync h p s
    | .hazard h p => Sys2Proof.Machine.execHazard h p s
    | .program h p => Sys2Proof.Machine.execProgram h p s
    | .acknowledge h p => Sys2Proof.Machine.execAcknowledge h p s
    | .abandon h p => Sys2Proof.Machine.execAbandon h p s
    | .resumeZone h p => Sys2Proof.Machine.execResumeZone h p s
    | .queryStatus h p => Sys2Proof.Machine.execQueryStatus h p s
    | .queryIncidents h p => Sys2Proof.Machine.execQueryIncidents h p s
    | .queryClaims h p => Sys2Proof.Machine.execQueryClaims h p s
    | .queryPeers h p => Sys2Proof.Machine.execQueryPeers h p s
    | .queryCounters h p => Sys2Proof.Machine.execQueryCounters h p s
    | .write h p => Sys2Proof.Machine.execWrite h p s
    | .read h p => Sys2Proof.Machine.execRead h p s
    | .commit h p => Sys2Proof.Machine.execCommit h p s
    | .lock h p => Sys2Proof.Machine.execLock h p s
    | .lineTest h p => Sys2Proof.Machine.execLineTest h p s
    | .rowProgrammed => Sys2Proof.Machine.execRowProgrammed s
    | .restart h p x => Sys2Proof.Machine.execRestart h p x s
    | .replyReceived ofSetup h p => Sys2Proof.Machine.execReplyReceived ofSetup h p s
    | .listenTimerExpiry => Sys2Proof.Machine.execListenTimerExpiry s
    | .silenceTimerExpiry peer => Sys2Proof.Machine.execSilenceTimerExpiry peer s
    | .expiryTimerExpiry peer => Sys2Proof.Machine.execExpiryTimerExpiry peer s
    | .notHeardFrom => Sys2Proof.Machine.execNotHeardFrom s
    | .notHeardBy => Sys2Proof.Machine.execNotHeardBy s
    | .panelSilence => Sys2Proof.Machine.execPanelSilence s
    | .tTempExpiry => Sys2Proof.Machine.execTTempExpiry s
    | .tFillExpiry => Sys2Proof.Machine.execTFillExpiry s
    | .tDrainExpiry => Sys2Proof.Machine.execTDrainExpiry s
    | .tFilterExpiry => Sys2Proof.Machine.execTFilterExpiry s
    | .stepTimerExpiry => Sys2Proof.Machine.execStepTimerExpiry s
    | .claimWaitExpiry => Sys2Proof.Machine.execClaimWaitExpiry s
    | .dryTimerExpiry => Sys2Proof.Machine.execDryTimerExpiry s
    | .babbleReceptionEnd => Sys2Proof.Machine.execBabbleReceptionEnd s
    | .undefinedKindFrame code h p => Sys2Proof.Machine.execUndefinedKindFrame code h p s

end Sys2Proof.Machine
end

