-- ==== Sys2Proof/Machine/Step.lean ====
section
/-! DEFINITION. One step: the command at the front of the queue; on an empty queue, what time brings (log 2). -/

namespace Sys2Proof.Machine

/-- The command at the front of the queue, run on the state with the queue's rest; on an empty queue the event whose time has come, or
one microsecond (log 2). -/
def step (s : State) : Host.Outcome State Fault Refusal :=
  match s.pending with
  | c :: rest => exec c { s with pending := rest }
  | [] => match idleEvent s with
    | some (c, t) => exec c t
    | none => .next (tick s)

/-- The command a word spells put at the front of the queue; the state unchanged where the word spells none. -/
def State.withFetchWord (s : State) (nbits w : Nat) : State :=
  match Sys2Proof.decodeTableWord nbits w with
  | some c => { s with pending := c :: s.pending }
  | none => s

end Sys2Proof.Machine
end

