-- ==== Sys2Proof/WellFormed.lean ====
section
/-! DEFINITION. Which terms stand for commands the outside can give: the checks a term must pass. -/

namespace Sys2Proof

open Sys2Proof.Machine

/-- A payload fits a frame (R63). -/
def payloadFits (payload : List Byte) : Bool := payload.length ≤ 56

/-- The command byte of an OPERATOR, the subject byte of a QUERY or the command byte of a SETUP is the row's own, or the payload has
none that is defined: malformed payloads of a kind stand under any of its rows (log 6). -/
def rowByte (i code defined : Nat) (payload : List Byte) : Bool :=
  payload.length ≤ i || (payload.getD i 0).toNat == code || defined ≤ (payload.getD i 0).toNat

def operatorRow (code : Nat) (payload : List Byte) : Bool := payloadFits payload && rowByte 0 code 3 payload
def queryRow (code : Nat) (payload : List Byte) : Bool := payloadFits payload && rowByte 1 code 5 payload
def setupRow (code : Nat) (payload : List Byte) : Bool := payloadFits payload && rowByte 1 code 5 payload

/-- A value the sample interface can present: a signed two-byte number (R215, STATUS). -/
def presentable : Presented → Bool
  | .value v => -32768 ≤ v && v ≤ 32767
  | _ => true

/-- The check of a term. -/
def Instr.wellFormed : Instr → Bool
  | .sampleArrival _ presented => presentable presented
  | .checkFailure received => !validReception received
  | .presence _ payload => payloadFits payload
  | .claim _ payload => payloadFits payload
  | .claimSet _ payload => payloadFits payload
  | .resync _ payload => payloadFits payload
  | .hazard _ payload => payloadFits payload
  | .program _ payload => payloadFits payload
  | .acknowledge _ payload => operatorRow 0 payload
  | .abandon _ payload => operatorRow 1 payload
  | .resumeZone _ payload => operatorRow 2 payload
  | .queryStatus _ payload => queryRow 0 payload
  | .queryIncidents _ payload => queryRow 1 payload
  | .queryClaims _ payload => queryRow 2 payload
  | .queryPeers _ payload => queryRow 3 payload
  | .queryCounters _ payload => queryRow 4 payload
  | .write _ payload => setupRow 0 payload
  | .read _ payload => setupRow 1 payload
  | .commit _ payload => setupRow 2 payload
  | .lock _ payload => setupRow 3 payload
  | .lineTest _ payload => setupRow 4 payload
  | .restart _ payload _ => payloadFits payload
  | .replyReceived _ _ payload => payloadFits payload
  | .undefinedKindFrame code _ payload => 12 ≤ code.toNat && payloadFits payload
  | _ => true

end Sys2Proof
end

