-- ==== Sys2Proof/Safety.lean ====
section
/-! DEFINITION. The invariants of the state and the conditions the statements are made under. -/

namespace Sys2Proof.Machine

/-! ## Invariants -/

/-- The memory invariant: both copies of the image are in canonical form, and a commit stands at one of the eight rows (R197). -/
def State.ImagesWf (s : State) : Prop :=
  s.cs.stored.wf = true ∧ s.cs.working.wf = true ∧ ∀ p, s.cs.commit = some p → p.row ≤ 7

/-- The bounds of the lists and counters: six own claims (R27), eight waiting requests (R32), eight incidents (R151), a next incident id
from 1 to 255 (R150), four hazard entries (R189), four carried incidents (R197), every counter at most its maximum (R216), six records of each peer (R2). -/
structure State.Bounded (s : State) : Prop where
  claims : s.oc.claims.length ≤ 6
  waiting : s.oc.waiting.length ≤ 8
  incidents : s.rs.incidents.length ≤ 8
  nextId : 1 ≤ s.rs.nextId ∧ s.rs.nextId ≤ 255
  hazards : s.hz.queue.length ≤ 4
  carried : s.cs.carryIncidents.length ≤ 4
  counters : ∀ c, s.counter c ≤ counterMax c
  records : ∀ k, k ≠ s.me → s.ct[k].records.length ≤ 6

/-! ## Conditions of the statements -/

/-- A frame that this station accepts while it runs, a PRESENCE or from a sender that is not FOREIGN: it is delivered to the block that
owns its kind (R75). -/
def State.Delivers (s : State) (kind : FrameKind) (h : Header) (payload : List Byte) : Prop :=
  s.canReceive = true ∧ s.runMode = true ∧ s.acceptance kind h payload = .accepted ∧ (kind = .presence ∨ s.senderForeign h = false)

/-- The same in SETUP or HALTED_CONFIG (R203). -/
def State.DeliversService (s : State) (kind : FrameKind) (h : Header) (payload : List Byte) : Prop :=
  s.canReceive = true ∧ s.serviceMode = true ∧ s.acceptance kind h payload = .accepted

/-- The state in which the block that owns the kind takes an accepted frame: the reception has ended, ACCEPTED is counted (R72). -/
def State.asTaken (s : State) : State := count .accepted (mediumEnds s)

/-- What a frame command brings: its kind, header and payload. -/
def frameOf : Instr → Option (FrameKind × Header × List Byte)
  | .presence h p => some (.presence, h, p)
  | .claim h p => some (.claim, h, p)
  | .claimSet h p => some (.claimSet, h, p)
  | .resync h p => some (.resync, h, p)
  | .hazard h p => some (.hazard, h, p)
  | .program h p => some (.program, h, p)
  | .acknowledge h p => some (.operator, h, p)
  | .abandon h p => some (.operator, h, p)
  | .resumeZone h p => some (.operator, h, p)
  | .queryStatus h p => some (.query, h, p)
  | .queryIncidents h p => some (.query, h, p)
  | .queryClaims h p => some (.query, h, p)
  | .queryPeers h p => some (.query, h, p)
  | .queryCounters h p => some (.query, h, p)
  | .write h p => some (.setup, h, p)
  | .read h p => some (.setup, h, p)
  | .commit h p => some (.setup, h, p)
  | .lock h p => some (.setup, h, p)
  | .lineTest h p => some (.setup, h, p)
  | .restart h p _ => some (.restart, h, p)
  | .replyReceived ofSetup h p => some (if ofSetup then .setupReply else .reply, h, p)
  | .undefinedKindFrame code h p => some (.undefined code, h, p)
  | _ => none

/-- The timed detector whose timer a command ends (R146). -/
def timerFault : Instr → Option FaultId
  | .tTempExpiry => some .tempLow
  | .tFillExpiry => some .fillTimeout
  | .tDrainExpiry => some .drainTimeout
  | .tFilterExpiry => some .filterBlocked
  | _ => none

/-- A command that can begin a start: power-on, the return of the supply, a RESTART (R210, R211). -/
def isStart : Instr → Bool
  | .powerOn _ => true
  | .supplyReturn _ => true
  | .restart _ _ _ => true
  | _ => false

/-! ## The tests of an image (R200) -/

/-- Items of an image with the least and the greatest value each may have, by their bytes (R198; R200, code 2). -/
def itemRanges (m : Memory) : List (Int × Int × Int) :=
  [ (m.byteAt 0, 2, 12), (m.byteAt 2, 0, 11), (m.byteAt 3, 1, 8), (m.wordAt 4, 200, 2000), (m.wordAt 6, 1000, 30000),
    (m.wordAt 8, 100, 1000), (m.wordAt 10, 100, 2000), (m.wordAt 12, 1000, 10000), (m.byteAt 15, 0, 7), (m.byteAt 16, 0, 7),
    (m.byteAt 65, 0, 4), (m.byteAt 133, 0, 3), (m.signedAt 134, -100, 1200), (m.wordAt 136, 0, 200), (m.signedAt 138, -100, 1200),
    (m.wordAt 140, 1, 600), (m.wordAt 142, 10, 600), (m.wordAt 144, 1, 1000), (m.byteAt 146, 2, 30), (m.byteAt 147, 5, 60),
    (m.byteAt 148, 1, 3), (m.wordAt 152, 0, 400), (m.wordAt 154, 0, 400), (m.wordAt 156, 10, 600), (m.wordAt 158, 10, 600),
    (m.byteAt 160, 5, 120), (m.wordAt 161, 10, 300), (m.byteAt 163, 1, 120), (m.byteAt 164, 1, 3) ]

/-- How many line entries carry a function code (R198). -/
def linesWithCode (m : Memory) (code : Nat) : Nat := (allLines.filter (fun i => m.byteAt (67 + i.val) / 16 == code)).length

/-- When an image with this station number fails each test of R200. The lines of a heater above ELEMENT_COUNT are more than R100 allows:
log 17. -/
def ImageFails (m : Memory) (number : Nat) : LoadResult → Prop
  | .ok => False
  | .checkValue => 256 * m.byteAt 254 + m.byteAt 255 ≠ (crc16 (m.bytes 0 254)).toNat
  | .fieldRange => ¬ ((∀ x ∈ itemRanges m, x.2.1 ≤ x.1 ∧ x.1 ≤ x.2.2) ∧ (∀ k : Station, m.byteAt (17 + k.val) ≤ 11) ∧
      (∀ n < 8, m.byteAt (99 + 4 * n) / 16 % 4 ≤ 2) ∧
      (∀ e : Element, e.val < m.byteAt 148 → 1 ≤ m.byteAt (149 + e.val) ∧ m.byteAt (149 + e.val) ≤ 40) ∧
      (m.byteAt 253 = 0 ∨ m.byteAt 253 = 0x5A))
  | .stationNumber => m.byteAt 0 ≤ number ∨ m.byteAt 0 ≤ m.byteAt 2 ∨ m.byteAt 2 = number
  | .ranks => ∃ j k : Station, j ≠ k ∧ m.byteAt (17 + j.val) = m.byteAt (17 + k.val)
  | .quorum => m.byteAt 1 = 0 ∨ m.byteAt 0 < m.byteAt 1
  | .timerOrder => ¬ m.wordAt 8 < m.wordAt 4 ∨ ¬ m.wordAt 4 < m.wordAt 6
  | .timerMargin => (m.wordAt 6 : Int) - m.wordAt 8 < 250
  | .currentLimits => ¬ m.wordAt 154 < m.wordAt 152
  | .lineCounts => 2 < linesWithCode m 1 ∨ (∃ code, 2 ≤ code ∧ code ≤ 15 ∧ 1 < linesWithCode m code) ∨
      (m.byteAt 148 < 2 ∧ 0 < linesWithCode m 10) ∨ (m.byteAt 148 < 3 ∧ 0 < linesWithCode m 11)
  | .heaterLines => ¬ (linesWithCode m 9 = 1 ∧ linesWithCode m 10 = (if 2 ≤ m.byteAt 148 then 1 else 0) ∧
      linesWithCode m 11 = (if 3 ≤ m.byteAt 148 then 1 else 0))
  | .criticalFlag => m.byteAt 65 = 4 ∧ (m.read 66).getLsbD 1 = false
  | .capacity => m.byteAt 14 = 0 ∨ m.byteAt 15 = 0 ∨ m.byteAt 16 = 0
  | .rating => ∃ e : Element, e.val < m.byteAt 148 ∧ m.byteAt 14 < m.byteAt (149 + e.val)

/-- What LOAD leaves with these straps (R199, R201, R202): the judgement of the stored image, the lock state, the number, the zone mode and
what begins. -/
structure State.Loaded (t : State) (straps : Straps) : Prop where
  working : t.cs.working = t.cs.stored
  result : t.cs.loadResult = loadCheck t.cs.mixed t.cs.stored straps.number
  lock : t.cs.locked = true ↔ t.cs.mixed = false ∧ ¬ ImageFails t.cs.stored 0 .checkValue ∧ t.cs.stored.read 253 = 0x5A
  link : t.mu.linkState = .offline
  setup : straps.setup = true → t.zoneMode = .setup
  halted : straps.setup = false → t.cs.loadResult ≠ .ok → t.zoneMode = .haltedConfig
  service : straps.setup = true ∨ t.cs.loadResult ≠ .ok → t.cs.number = straps.number ∧ t.lc.receiverOn = true ∧ t.cs.stage = .entered
  begins : straps.setup = false → t.cs.loadResult = .ok → t.zoneMode = .starting ∧ t.cs.stage = .settle ∧ t.lc.receiverOn = false ∧
    t.cs.number = serviceNumber t.cs.stored straps.number ∧
    (∀ i : Line, t.lu.timers[i] = if t.isInputLine i then some t.now else none) ∧ t.ms.nextArrival = Vector.replicate 5 (t.now + 100000)

/-! ## What a command leaves as it was -/

/-- A record without its grant mark, which the table derives (R1, R8). -/
def unmarked (r : ClaimRecord) : ClaimRecord := { r with mark := .waiting }

/-- The samples, the pins with their debouncing, the test levels, the supply and the queue. -/
def State.SameZoneSide (s t : State) : Prop :=
  t.supply = s.supply ∧ t.ms = s.ms ∧ t.lu.pins = s.lu.pins ∧ t.lu.timers = s.lu.timers ∧ t.lu.debounced = s.lu.debounced ∧
    t.lu.testLevels = s.lu.testLevels ∧ t.pending = s.pending

/-- The Configuration Store and the zone mode. -/
def State.SameMode (s t : State) : Prop := t.cs = s.cs ∧ t.zoneMode = s.zoneMode

/-- What PROGRAM and the panel silence write of the Program Drive (R120, R121), and the regulation request. -/
def State.SameProgram (s t : State) : Prop :=
  t.pd.phase = s.pd.phase ∧ t.pd.demand = s.pd.demand ∧ t.pd.serial = s.pd.serial ∧ t.pd.silencePause = s.pd.silencePause ∧
    t.pd.silenceTimer = s.pd.silenceTimer ∧ t.pd.regulation = s.pd.regulation

/-- The receive memory and the gate-stop set (R187). -/
def State.SameHazardMemory (s t : State) : Prop := t.hz.memory = s.hz.memory ∧ t.hz.gateStop = s.hz.gateStop

/-- The reply slot and the question in flight (R214). -/
def State.SameQuestions (s t : State) : Prop := t.rp.slot = s.rp.slot ∧ t.rp.inFlight = s.rp.inFlight

/-- The Peer Table records of all stations but those named (R79). -/
def State.SamePeers (s t : State) (but : Station → Prop) : Prop := ∀ j, ¬ but j → t.mu.peers[j] = s.mu.peers[j]

/-- The owner entries of all stations but those named; this station's own records and every grant mark aside (R2). -/
def State.SameOwners (s t : State) (but : Station → Prop) : Prop :=
  ∀ j, ¬ but j → t.ct[j].applied = s.ct[j].applied ∧ t.ct[j].stale = s.ct[j].stale ∧
    (j ≠ s.me → t.ct[j].records.map unmarked = s.ct[j].records.map unmarked)

/-- Every counter but those named; the two that the end of any event may count are aside: INCIDENTS_RAISED and RELAY_DROPS. -/
def State.SameCounters (s t : State) (but : List Counter) : Prop :=
  ∀ c, c ∉ but → c ≠ .incidentsRaised → c ≠ .relayDrops → t.counter c = s.counter c

/-- A counter has risen by 1, or stays at its maximum (R216). -/
def State.Counted (s t : State) (c : Counter) : Prop := t.counter c = min (s.counter c + 1) (counterMax c)

/-- An own claim takes new values (R28, R30): nothing more where class and amount are the same, else an AMEND. -/
structure State.Amends (s t : State) (old new : OwnClaim) : Prop where
  equal : new.cls = old.cls → new.amount = old.amount →
    t = { s with oc := { s.oc with claims := s.oc.claims.map (fun d => if d.tag = old.tag then new else d) } }
  differs : new.cls ≠ old.cls ∨ new.amount ≠ old.amount → t.oc = { s.oc with
      claims := s.oc.claims.map (fun d => if d.tag = old.tag then { new with sent := .unsent } else d)
      unsent := (placeChange { tag := old.tag, op := .amend new.cls new.amount } s.oc.unsent).1 } ∧
    t.ct[s.me].records.map unmarked = (s.ct[s.me].records.map (fun q =>
      if q.tag = old.tag then { q with cls := new.cls, amount := new.amount } else q)).map unmarked
  kept : t = { s with oc := t.oc, ct := t.ct }

/-- A claim leaves the Own Claim List and its RELEASE is made, before waiting requests are taken (R31, R33, R42). -/
structure State.Releases (s t : State) (c : OwnClaim) : Prop where
  list : let placed := placeChange { tag := c.tag, op := .release } s.oc.unsent
    t.oc = { s.oc with claims := s.oc.claims.filter (fun d => d.tag != c.tag), unsent := placed.1
                       awaiting := setAt s.oc.awaiting c.tag (!placed.2) }
  records : t.ct[s.me].records.map unmarked = (s.ct[s.me].records.filter (fun q => q.tag != c.tag)).map unmarked
  kept : t = { s with oc := t.oc, ct := t.ct }

/-- A detection of a fault that is not in the Unrecorded set (R139, R140): the submission placed, the latch, the notice of a LEAK that is no
recurrence. -/
structure State.Detects (u v : State) (f : FaultId) : Prop where
  placed : v.rs = (submitRecord f u).1.rs
  latched : (v.rs.incidents.any (matchesFault f) = true ∧ (v.detector f).state = .latched) ∨
    (v.fd.unrecorded.contains f = true ∧ u.rs.incidents.any (matchesFault f) = false ∧ 8 ≤ u.rs.incidents.length)
  notice : v.hz = if f = .leak ∧ u.rs.incidents.any (matchesFault f) = false then (queueNotice .inflowStop u).hz else u.hz
  kept : v.now = u.now ∧ v.oc = u.oc ∧ v.ct = u.ct ∧ v.mu = u.mu ∧ v.cs = u.cs ∧ v.pd = u.pd ∧ v.ms = u.ms ∧ v.lu = u.lu

/-- A detector without persistence judges its condition (R139, R141, R143): where it holds, and where it has lapsed. A fault in the Unrecorded
set is submitted again (R155). -/
structure State.JudgesAtOnce (u v : State) (f : FaultId) (holds lapsed : Prop) : Prop where
  stopped : (u.detector f).state = .stopped → v = u
  detects : (u.detector f).state = .watching → holds → u.fd.unrecorded.contains f = false → u.Detects v f
  resubmits : (u.detector f).state = .watching → holds → u.fd.unrecorded.contains f = true → v = submit f u
  watches : (u.detector f).state = .watching → ¬ holds → v = u
  unlatches : (u.detector f).state = .latched → lapsed → v = setDetector f Detector.fresh u
  stays : (u.detector f).state = .latched → ¬ lapsed → v = u

/-- A sample detector judges an arrival (R139, R142, R144, R145): its count of consecutive meeting samples up to the threshold, at which it
stays for a fault in the Unrecorded set, submitted again at each meeting sample (R155). -/
structure State.JudgesSample (u v : State) (f : FaultId) (threshold : Nat) (holds : Prop) : Prop where
  stopped : (u.detector f).state = .stopped → v = u
  restarts : (u.detector f).state = .watching → ¬ holds → v = setDetector f { u.detector f with count := 0 } u
  counts : (u.detector f).state = .watching → holds → (u.detector f).count + 1 < threshold →
    v = setDetector f { u.detector f with count := (u.detector f).count + 1 } u
  detects : (u.detector f).state = .watching → holds → threshold ≤ (u.detector f).count + 1 → u.fd.unrecorded.contains f = false →
    u.Detects v f
  resubmits : (u.detector f).state = .watching → holds → threshold ≤ (u.detector f).count + 1 → u.fd.unrecorded.contains f = true →
    v = submit f (setDetector f { u.detector f with count := threshold } u)
  unlatches : (u.detector f).state = .latched → ¬ holds → v = setDetector f Detector.fresh u
  stays : (u.detector f).state = .latched → holds → v = u

/-- Every block stands at its reset value, but for what the stages LOAD and INPUTS set (R210, R211): the outputs other than ALERT are
inactive, the working image is read from the stored one. RESTARTS and the carry-over record are not part of this. -/
structure State.BlocksReset (t : State) : Prop where
  supply : t.supply = true
  membership : t.mu = Membership.reset
  claimTable : t.ct = Vector.replicate 12 OwnerEntry.empty
  ownClaims : t.oc = OwnClaimUnit.reset
  drive : t.pd = ProgramDrive.reset
  detectors : t.fd = FaultDetector.reset
  sequencer : t.rs = Sequencer.reset
  hazard : t.hz = HazardUnit.reset
  questions : t.rp.slot = none ∧ t.rp.inFlight = none
  counters : ∀ c, c ≠ .restarts → t.counter c = 0
  wheel : t.lc.position = 0 ∧ t.lc.roundCount = 0 ∧ t.lc.presenceAge = 8 ∧ t.lc.transmitCut = false ∧ t.lc.lastPresence = none
  samples : t.ms.latest = Vector.replicate 5 none ∧ t.ms.counts = Vector.replicate 5 0
  inputs : t.lu.debounced = Vector.replicate 16 none
  elements : t.lu.elementOut = Vector.replicate 3 false
  testLevels : t.lu.testLevels = Vector.replicate 16 false
  outputs : ∀ f, f ≠ .alert → (t.output f).active = false
  store : t.cs.commit = none ∧ t.cs.reply = none ∧ t.cs.replyInFlight = none ∧ t.cs.working = t.cs.stored

/-- Off the link or out of service no output but ALERT is active (R107), and off the link no share is usable (R40). -/
structure State.SafeOff (s : State) : Prop where
  outputs : (s.zoneMode ≠ .inService ∨ s.mu.linkState ≠ .joined) → ∀ f, f ≠ .alert → (s.output f).active = false
  shares : s.mu.linkState ≠ .joined → ∀ c ∈ s.oc.claims, c.usable = 0

/-- What isolation does at its event, from the state `s` before it (R94, with R24, R43, R138, R164). -/
structure State.Isolates (s v : State) (reason : IsolationReason) : Prop where
  link : v.mu.linkState = .isolated ∧ v.mu.isolationReason = some reason
  peers : v.mu.peers = Vector.replicate 12 PeerRecord.unknown
  timers : v.mu.listenStart = none ∧ v.mu.armedAt = none ∧ v.mu.notHeardBySince = none ∧ v.mu.joinRequestDone = none
  table : v.ct = Vector.replicate 12 OwnerEntry.empty
  ownClaims : v.oc.claims = [] ∧ v.oc.unsent = [] ∧ v.oc.inFlight = [] ∧ v.oc.waiting = [] ∧
    v.oc.awaiting = Vector.replicate 8 false ∧ v.oc.restatementDue = false ∧ v.oc.restatedSinceJoined = false
  sequence : v.oc.changeNumber = s.oc.changeNumber ∧ v.oc.restatedSinceStart = s.oc.restatedSinceStart
  suspended : v.rs.incidents = match s.activeStep with
    | some (id, _, _) => s.rs.incidents.map (fun r => if r.id = id then { r with state := .pending } else r)
    | none => s.rs.incidents
  detectors : ∀ f, (v.detector f).state = (s.detector f).state ∧ (v.detector f).count = 0 ∧ (v.detector f).timer = none
  silent : ∀ f, v.lc.medium ≠ .own f
  kept : v.hz.gateStop = s.hz.gateStop ∧ v.hz.memory = s.hz.memory ∧ v.lc.position = s.lc.position ∧
    v.lc.roundCount = s.lc.roundCount ∧ v.cs.stored = s.cs.stored ∧ v.cs.working = s.cs.working ∧ v.zoneMode = s.zoneMode ∧
    v.pd = s.pd ∧ v.ms = s.ms ∧ v.lu = s.lu ∧ v.supply = s.supply ∧ v.pending = s.pending ∧
    v.counter .sent = s.counter .sent ∧ v.counter .collisions = s.counter .collisions

end Sys2Proof.Machine
end

