-- ==== Sys2Proof/Certificates/Slice0/Obligations.lean ====
section
/-! DEFINITION. The statements for the provers. A statement of a command concludes with the state exec answers; `frameEnds`, `afterFrame` and
`beginOpening` are what follows the command's own effect, and statements of their own say what those leave as it was. -/

open Sys2Proof Sys2Proof.Machine

/-! ## The queue, and what follows a command's effect -/

/-- A step runs the command at the front of the queue on the state with the queue's rest. -/
def Obligations.StepRunsFrontCommand : Prop :=
  ∀ (c : Instr) (rest : List Instr) (s : State), step { s with pending := c :: rest } = exec c { s with pending := rest }

/-- On an empty queue the one event whose time has come runs; where none has, one microsecond passes and nothing else (the model's
choice, log 2). -/
def Obligations.StepOnEmptyQueue : Prop :=
  ∀ s : State, s.pending = [] →
    (s.due = [] → step s = .next { s with now := s.now + 1 }) ∧ (∀ c, s.due = [c] → step s = exec c s)

/-- Every command answers a next state, and leaves the queue as it found it. -/
def Obligations.EveryCommandAnswers : Prop :=
  ∀ (c : Instr) (s : State), ∃ t, exec c s = .next t ∧ t.pending = s.pending

/-- The blocks dealing with one another at the end of an event write none of this; the link state moves only from JOINING to JOINED, and
does so exactly where the JOINING wait has ended: no peer is PRESENT, or the join request has completed and every peer PRESENT has restated
since (R89). -/
def Obligations.EndOfEventLeaves : Prop :=
  ∀ (tr : Trigger) (s : State),
    (s.joinEnds = true ↔ s.mu.linkState = .joining ∧ ((∀ k : Station, s.mu.peers[k].state ≠ .present) ∨
      (s.mu.joinRequestDone ≠ none ∧ ∀ k : Station, s.mu.peers[k].state = .present → s.mu.peers[k].restated = true))) ∧
    s.SameZoneSide (endEvent tr s) ∧ s.SameMode (endEvent tr s) ∧ s.SameProgram (endEvent tr s) ∧ s.SameHazardMemory (endEvent tr s) ∧
    s.SameQuestions (endEvent tr s) ∧ s.SamePeers (endEvent tr s) (fun _ => False) ∧ s.SameOwners (endEvent tr s) (fun _ => False) ∧
    s.SameCounters (endEvent tr s) [] ∧ (endEvent tr s).now = s.now ∧ (endEvent tr s).lc = s.lc ∧
    (endEvent tr s).oc.changeNumber = s.oc.changeNumber ∧
    (s.joinEnds = true → (endEvent tr s).mu.linkState = .joined) ∧
    (s.joinEnds = false → (endEvent tr s).mu.linkState = s.mu.linkState)

/-- The wheel after a frame, and the opening that begins: the position is set by R50, and beside the link and the content an own frame
takes with it nothing is written. While the transmit-cut flag is set, or the medium is not quiet, no opening starts a frame (R53). -/
def Obligations.WheelRule : Prop :=
  (∀ (sender : Nat) (s : State),
    let t := frameEnds sender s
    let next := if sender < s.wheelSize then sender + 1 else if sender = 15 then s.wheelSize + 1 else s.lc.position + 1
    (s.wheelSize < next → t.lc.position = 0 ∧ t.lc.roundCount = s.lc.roundCount + 1 ∧ t.lc.presenceAge = min (s.lc.presenceAge + 1) 8) ∧
    (next ≤ s.wheelSize → t.lc.position = next ∧ t.lc.roundCount = s.lc.roundCount ∧ t.lc.presenceAge = s.lc.presenceAge) ∧
    s.SameZoneSide t ∧ t.zoneMode = s.zoneMode ∧ t.mu = s.mu ∧ t.ct = s.ct ∧ t.oc.claims = s.oc.claims ∧ t.lu = s.lu ∧ t.pd = s.pd ∧
    t.fd = s.fd ∧ t.rs = s.rs ∧ s.SameHazardMemory t ∧ t.cs.stored = s.cs.stored ∧ t.cs.working = s.cs.working ∧
    t.rp.counters = s.rp.counters) ∧
  (∀ s : State, s.lc.transmitCut = true ∨ s.lc.medium ≠ .quiet →
    beginOpening s = { s with lc := { s.lc with openingStart := s.now } })

/-- The own opening in JOINING and JOINED: the first frame due in the order of R54 starts. A CLAIM carries the first changes of the unsent list, at
most four, as many as the send window admits; the window counts from the acks of the peers PRESENT and JOINED, and where it admits none no CLAIM is
due (R35, R36). A PRESENCE is due where a field that R55 names differs from the last one sent. The payloads of the five kinds are those of R66 to
R68, a PRESENCE's 24 bytes field by field. That a station last heard exactly T_SILENT ago is in the heard set is the model's choice, log 28. -/
def Obligations.OwnOpeningSends : Prop :=
  (∀ s : State, s.serviceMode = false → s.takesPart = true → s.lc.position = s.cs.number.toNat → s.lc.position < s.wheelSize →
    s.lc.medium = .quiet → s.lc.receiverOn = true → s.lc.transmitCut = false →
    let t : State := { s with lc := { s.lc with openingStart := s.now } }
    let change := fun i : Nat => s.oc.changeNumber + byteOf (i + 1)
    let admits := fun i : Nat => ∀ (k : Station) (a : Byte), k ≠ s.me → s.mu.peers[k].state = .present →
      s.mu.peers[k].reportedLink = some .joined → s.mu.peers[k].ackOfMe = some a → (change i - a).toNat ≤ 64
    let join := s.mu.linkState = .joining ∧ s.mu.joinRequestDone = none
    let first := s.mu.linkState = .joined ∧ s.oc.restatedSinceJoined = false
    let late := s.image.presencePeriod ≤ s.lc.presenceAge
    let claim := s.mu.linkState = .joined ∧ s.oc.unsent ≠ [] ∧ admits 0
    let notice := s.mu.linkState = .joined ∧ s.hz.queue ≠ []
    (join → beginOpening s = sendResync true 15 t) ∧
    (first → beginOpening s = sendClaimSet t) ∧
    (¬ join → ¬ first → late → beginOpening s = sendPresence t) ∧
    (¬ join → ¬ first → ¬ late → s.oc.restatementDue = true → beginOpening s = sendClaimSet t) ∧
    (¬ join → ¬ first → ¬ late → s.oc.restatementDue = false →
      (claim → ∃ n, 1 ≤ n ∧ n ≤ 4 ∧ n ≤ s.oc.unsent.length ∧ (∀ i < n, admits i) ∧
        (n < 4 → n < s.oc.unsent.length → ¬ admits n) ∧
        beginOpening s = { s with
          oc := { s.oc with inFlight := s.oc.unsent.take n, unsent := s.oc.unsent.drop n }
          lc := { s.lc with openingStart := s.now, medium := .own {
            content := .claim, start := s.now
            bytes := frameBytes s.cs.number.toNat .claim groupAll (change 0 :: (s.oc.unsent.take n).flatMap changeBytes) } } }) ∧
      (¬ claim →
        (∀ e queue, s.mu.linkState = .joined → s.hz.queue = e :: queue → beginOpening s = sendHazard e t) ∧
        (¬ notice → s.presenceDue = true → beginOpening s = sendPresence t) ∧
        (¬ notice → s.presenceDue = false → ∀ k more, s.staleOwners = k :: more → beginOpening s = sendResync false k.val t) ∧
        (¬ notice → s.presenceDue = false → s.staleOwners = [] → ∀ q, s.rp.slot = some q → beginOpening s = sendReply q t) ∧
        (¬ notice → s.presenceDue = false → s.staleOwners = [] → s.rp.slot = none → beginOpening s = t)))) ∧
  (∀ s : State,
    (s.takesPart = true ↔ s.mu.linkState = .joining ∨ s.mu.linkState = .joined) ∧
    s.staleOwners = allStations.filter (fun k => s.ct[k].stale) ∧
    (s.presenceDue = false ↔ ∃ p, s.lc.lastPresence = some p ∧ p.linkState = s.mu.linkState ∧ p.zoneMode = s.zoneMode ∧
      p.gateStop = s.hz.stopMark ∧ p.failedCount = (s.rs.incidents.filter isFailed).length ∧
      p.activeRank = (match s.activeIncident with
        | some r => faultRank r.fault
        | none => 0) ∧ ∀ k : Station, p.applied[k] = s.ct[k].applied)) ∧
  (∀ s : State, ∃ p, sendPresence s = { s with lc := { s.lc with medium := .own {
      content := .presence s.presenceFields, start := s.now, bytes := frameBytes s.ownSender .presence groupAll p } } } ∧ p.length = 24 ∧
    p.take 4 = [byteOf (linkCode s.mu.linkState), byteOf (zoneModeCode s.zoneMode), highByte s.image.digest, lowByte s.image.digest] ∧
    (∀ k : Station,
      ((p.getD 4 0 ++ p.getD 5 0 : Word16).getLsbD k.val = true ↔
        ∃ last, s.mu.peers[k].lastAccepted = some last ∧ s.now - last ≤ s.image.tSilent) ∧
      ((p.getD 6 0 ++ p.getD 7 0 : Word16).getLsbD k.val = true ↔ s.ct[k].applied = none) ∧
      p.getD (8 + k.val) 0 = s.ct[k].applied.getD 0) ∧
    p.drop 20 = [byteOf (s.rs.incidents.filter isFailed).length, byteOf (match s.activeIncident with
        | some r => faultRank r.fault
        | none => 0), byteOf s.oc.claims.length, if s.hz.stopMark = true then 1 else 0]) ∧
  (∀ (s : State) (join : Bool) (target : Nat) (e : HazardEntry),
    let sent := fun (content : OwnContent) (kind : FrameKind) (group : BitVec 12) (payload : List Byte) => ({ s.lc with medium := .own {
      content := content, start := s.now, bytes := frameBytes s.ownSender kind group payload } } : LinkController)
    let number := if s.oc.unsent = [] then s.oc.changeNumber else s.oc.changeNumber + 1
    sendResync join target s = { s with lc := sent (.resync join) .resync groupAll [byteOf target] } ∧
    sendClaimSet s = { s with
      oc := { s.oc with inFlight := s.oc.unsent, unsent := [] }
      lc := sent (.claimSet number) .claimSet groupAll (number :: (if s.oc.restatedSinceStart = true then 0 else 1) ::
        s.oc.claims.flatMap (fun c => [byteOf c.tag.val, packed (resourceCode c.resource) (classCode c.cls), byteOf c.amount])) } ∧
    sendHazard e s = { s with
      hz := { s.hz with queue := (markFirstOnWire s).hz.queue }
      lc := sent .hazard .hazard e.group [byteOf e.origin.val, e.serial, byteOf (hazardCode e.code), byteOf e.hops] } ∧
    (∀ tag resource cls amount,
      changeBytes { tag := tag, op := .new resource cls amount } =
        [packed 0 tag.val, packed (resourceCode resource) (classCode cls), byteOf amount] ∧
      changeBytes { tag := tag, op := .amend cls amount } = [packed 1 tag.val, packed 0 (classCode cls), byteOf amount] ∧
      changeBytes { tag := tag, op := .release } = [packed 2 tag.val, 0, 0]))

/-- The REPLY and the SETUP_REPLY of a service opening: sender 15, the requester's group, the data of the subject at that event. The data of
all five subjects byte by byte, with their codes and lengths (R65, R215, R216). That an INCIDENTS record takes ten bytes and that detected at is
sent as its low 32 bits is the model's choice, log 41 and log 46. -/
def Obligations.ServiceOpeningAnswers : Prop :=
  (∀ s : State, s.serviceMode = true → s.lc.position = s.wheelSize → s.lc.medium = .quiet → s.lc.receiverOn = true →
    s.lc.transmitCut = false →
    (∀ r, s.cs.reply = some r → ∃ f, (beginOpening s).lc.medium = .own f ∧ f.start = s.now ∧ f.content = .setupReply ∧
      f.bytes = frameBytes 15 .setupReply (stationGroup 15) (byteOf (statusCode r.status) :: r.data) ∧
      (beginOpening s).cs = { s.cs with reply := none, replyInFlight := some r }) ∧
    (∀ q, s.cs.reply = none → s.rp.slot = some q → ∃ f, (beginOpening s).lc.medium = .own f ∧ f.start = s.now ∧ f.content = .reply ∧
      f.bytes = frameBytes 15 .reply (stationGroup q.requester.toNat) (byteOf (subjectCode q.subject) :: s.replyData q.subject) ∧
      (beginOpening s).rp = { s.rp with slot := none, inFlight := some q }) ∧
    (s.cs.reply = none → s.rp.slot = none → (beginOpening s).lc.medium = .quiet)) ∧
  (∀ s : State,
    let two := fun c : Counter => [byteOf (s.counter c / 256), byteOf (s.counter c)]
    let four := fun c : Counter => [byteOf (s.counter c / 16777216), byteOf (s.counter c / 65536)] ++ two c
    s.replyData .counters = four .sent ++ four .accepted ++ two .filtered ++ two .checkErrors ++ two .protocolErrors ++ two .collisions ++
      two .babble ++ two .resyncsSent ++ two .relayDrops ++ two .replyOverruns ++ two .operatorRefused ++ two .incidentsRaised ++
      [byteOf (s.counter .restarts)] ∧
    s.replyData .peers = (allStations.filter (fun k => k != s.me)).flatMap (fun k =>
      let r := s.mu.peers[k]
      let digest : Word16 := r.digest.getD 0
      [packed (peerStateCode r.state) (match r.reportedLink with
        | some l => linkCode l
        | none => 15), highByte digest, lowByte digest, r.ackOfMe.getD 0,
       byteOf ((if r.ackOfMe = none then 1 else 0) + (if r.digest = none then 2 else 0) + (if r.restated = true then 4 else 0))]) ∧
    (s.replyData .status).length = 45 ∧ (s.replyData .peers).length = 55 ∧ (s.replyData .counters).length = 29 ∧
    (s.replyData .incidents).length ≤ 55 ∧ (s.oc.claims.length ≤ 6 → (s.replyData .claims).length ≤ 55)) ∧
  (∀ s : State,
    let flag := fun b : Bool => if b = true then (1 : Byte) else 0
    let word := fun w : Word16 => [highByte w, lowByte w]
    ∃ (elements : Byte) (gates inputs settled outputs : Word16), s.replyData .status =
      [byteOf (zoneModeCode s.zoneMode), byteOf s.cs.number.toNat, byteOf (linkCode s.mu.linkState),
       byteOf (isolationCode s.mu.isolationReason), flag s.mu.duplicateLatch, flag s.lc.transmitCut] ++ word s.lc.roundCount ++
      [byteOf (loadCode s.cs.loadResult), flag s.cs.locked, (match s.cs.commit with
        | none => 0xFF
        | some p => byteOf p.row), byteOf (s.counter .restarts), byteOf (phaseCode s.pd.phase), byteOf (demandCode s.pd.demand),
       if s.pd.serial = none then 0 else 1, s.pd.serial.getD 0, flag s.pd.silencePause, flag s.pd.regulation,
       packed (if s.pd.fillRequest = true then 1 else 0) (if s.pd.drainRequest = true then 1 else 0),
       packed (s.rs.incidents.filter isFailed).length (match s.activeIncident with
        | some r => faultRank r.fault
        | none => 0), elements] ++ word gates ++ [byteOf s.hz.queue.length] ++ word inputs ++ word settled ++ word outputs ++
      allChannels.flatMap (fun c => match s.ms.latest[c] with
        | none => [0, 0, 0]
        | some (.value v) => (if (validValue c (.value v)).isSome = true then 1 else 2) :: word (BitVec.ofInt 16 v)
        | some .over => [3, 0, 0]
        | some .under => [4, 0, 0]) ∧
      (∀ e : Element, elements.getLsbD e.val = s.lu.elementOut[e]) ∧ (∀ i, 3 ≤ i → elements.getLsbD i = false) ∧
      (∀ k : Station, gates.getLsbD k.val = s.hz.gateStop[k]) ∧ (∀ i, 12 ≤ i → gates.getLsbD i = false) ∧
      (∀ i : Line, (inputs.getLsbD i.val = true ↔ isInput (s.image.lineFunction i) = true ∧ s.lu.debounced[i] = some true) ∧
        (settled.getLsbD i.val = true ↔ isInput (s.image.lineFunction i) = true ∧ s.lu.debounced[i] ≠ none)) ∧
      (s.serviceMode = false → (∀ f, outputs.getLsbD (outputPlace f).val = (s.output f).active) ∧
        ∀ i, 11 ≤ i → outputs.getLsbD i = false) ∧
      (s.serviceMode = true → ∀ i : Line, outputs.getLsbD i.val = true ↔
        (∃ f, outputOf (s.image.lineFunction i) = some f) ∧ s.lu.testLevels[i] = true)) ∧
  (∀ s : State,
    let kind := fun f : FaultId => packed (faultRank f - 1) (match f with
      | .elementStuck e => e.val + 1
      | .elementOpen e => e.val + 1
      | _ => 0)
    let ended := fun reason : FailureReason => match reason with
      | .attemptsExhausted => 3
      | .claimWait => 4
      | .supplyUncut => 5
      | .needsService => 6
      | .limit => 7
    let record := fun r : Incident =>
      let coded : Nat × Nat × Nat := match r.state with
        | .pending => (0, 0, 0)
        | .active step => (1, stepNumber step, 0)
        | .failed reason => (2, 0, ended reason)
        | .abandoned reason => (3, 0, ended reason)
        | .cleared .restored => (4, 0, 1)
        | .cleared .degraded => (4, 0, 2)
      [byteOf r.id, kind r.fault, packed coded.1 coded.2.1, packed r.attempts coded.2.2, byteOf (r.detectedAt / 16777216),
       byteOf (r.detectedAt / 65536), byteOf (r.detectedAt / 256), byteOf r.detectedAt, byteOf r.recurrences,
       if r.carried = true then 1 else 0]
    s.replyData .incidents = byteOf s.rs.incidents.length :: (s.rs.incidents.take 5).flatMap record ++
      byteOf s.fd.unrecorded.length :: (s.fd.unrecorded.map kind).take (53 - 10 * min 5 s.rs.incidents.length)) ∧
  (∀ s : State,
    let purpose := fun p : Purpose => match p with
      | .program => 0
      | .contain _ => 1
      | .step _ => 2
    let datum := fun (boosted : Bool) (p : Purpose) => match p with
      | .program => if boosted = true then 1 else 0
      | .contain hs => hs.length
      | .step id => id
    let of := fun cls : ClaimClass => s.oc.waiting.filter (fun r => r.cls == cls)
    s.replyData .claims = byteOf s.oc.claims.length :: s.oc.claims.flatMap (fun c =>
        let sent : Nat × Byte := match c.sent with
          | .unsent => (0, 0)
          | .sent n => (1, n)
          | .confirmed => (2, 0)
        [packed c.tag.val (resourceCode c.resource), packed (classCode c.cls) (match c.confirmed with
            | some (cls, _) => classCode cls
            | none => 15), byteOf c.amount, packed (purpose c.purpose) sent.1, byteOf (datum c.boosted c.purpose), sent.2,
         (match c.confirmed with
            | some (_, amount) => byteOf amount
            | none => 0), byteOf c.usable]) ++
      byteOf s.oc.waiting.length :: ((of .safety ++ of .recovery ++ of .process).take ((53 - 8 * s.oc.claims.length) / 4)).flatMap
        (fun r => [packed (resourceCode r.resource) (classCode r.cls), byteOf r.amount, byteOf (purpose r.purpose),
          byteOf (datum false r.purpose)])) ∧
  ([.starting, .inService, .outOfService, .setup, .haltedConfig].map zoneModeCode = [0, 1, 2, 3, 4] ∧
    [.offline, .listening, .joining, .joined, .isolated].map linkCode = [0, 1, 2, 3, 4] ∧
    [none, some .notHeardFrom, some .notHeardBy, some .duplicateNumber].map isolationCode = [0, 1, 2, 3] ∧
    [.off, .fillUp, .heatUp, .run, .pause, .drainDown].map phaseCode = [0, 1, 2, 3, 4, 5] ∧ [.stop, .run].map demandCode = [0, 1] ∧
    [.ok, .checkValue, .fieldRange, .stationNumber, .ranks, .quorum, .timerOrder, .timerMargin, .currentLimits, .lineCounts,
      .heaterLines, .criticalFlag, .capacity, .rating].map loadCode = [0, 1, 2, 3, 4, 5, 6, 7, 8, 9, 10, 11, 12, 13] ∧
    [.heat, .fill, .drain, .hold].map resourceCode = [0, 1, 2, 3] ∧ [.safety, .recovery, .process].map classCode = [0, 1, 2] ∧
    [.unknown, .present, .silent, .absent, .foreign].map peerStateCode = [0, 1, 2, 3, 4] ∧
    (∀ e d : Element, [.leak, .elementStuck e, .dryHeat, .sensorFault, .elementOpen d, .tempLow, .fillTimeout, .drainTimeout,
      .filterBlocked].map faultRank = [1, 2, 3, 4, 5, 6, 7, 8, 9]) ∧
    [.leakDrain, .leakDryWait, .leakRefill, .leakVerify, .cutCheck, .dryRefill, .dryVerify, .waitValid, .openRest, .openRetest, .boost,
      .fillRest, .fillRefill, .drainRest, .drainDrain, .filterStop, .filterBackflush, .filterTopUp, .filterVerify].map stepNumber =
      [1, 2, 3, 4, 1, 1, 2, 1, 1, 2, 1, 1, 2, 1, 2, 1, 2, 3, 4] ∧
    [.fillValve, .drainValve, .pumpRun, .pumpReverse, .heat 0, .heat 1, .heat 2, .heatIsolate, .cascadeGate, .conveyorEnable,
      .alert].map outputPlace = [0, 1, 2, 3, 4, 5, 6, 7, 8, 9, 10])

/-! ## Supply and start -/

/-- Power-on, brown-out and the return of the supply. A brown-out at the instant at which a row was completed finds the next row not begun and
leaves the stored image as that completion left it. A commit it abandons marks the stored image as mixed, and a row in progress with a byte
that changes is left with a check value that does not match (R207; the mark and the choice among the bytes are the model's, log 12). -/
def Obligations.SupplyRule : Prop :=
  (∀ (straps : Straps) (s : State), ∃ t, exec (.powerOn straps) s = .next t ∧ t.BlocksReset ∧ t.cs.carryIncidents = [] ∧
    t.cs.carryOutOfService = false ∧ t.counter .restarts = 0) ∧
  (∀ s : State, s.supply = true → s.ImagesWf → ∃ t, exec .brownOut s = .next t ∧ t.supply = false ∧
    (∀ f, (t.output f).active = false) ∧ (∀ i level, t.driven i = some level → level = false) ∧ (∀ f, t.lc.medium ≠ .own f) ∧
    t.lc.receiverOn = false ∧ t.counter .sent = s.counter .sent ∧ t.counter .collisions = s.counter .collisions ∧ t.cs.commit = none ∧
    (∀ a, (∀ p, s.cs.commit = some p → a < 32 * p.row ∨ 32 * p.row + 32 ≤ a) → t.cs.stored.read a = s.cs.stored.read a) ∧
    (∀ a, t.cs.stored.read a = s.cs.stored.read a ∨ t.cs.stored.read a = s.cs.working.read a) ∧
    (∀ p, s.cs.commit = some p → 0 < p.row → s.now ≤ p.start → t.cs.stored = s.cs.stored) ∧
    (∀ p a, s.cs.commit = some p → p.row = 0 ∨ p.start < s.now → 32 * p.row ≤ a → a < 32 * p.row + 32 →
      s.cs.working.read a ≠ s.cs.stored.read a → ImageFails t.cs.stored 0 .checkValue) ∧
    t.cs.mixed = (s.cs.mixed || s.cs.commit.isSome)) ∧
  (∀ (s : State) (p : Programming), s.supply = true → s.cs.commit = some p → p.row < 7 → s.now ≤ p.start + 5000 →
    ∃ t, exec .rowProgrammed s = .next t ∧ ∃ u, exec .brownOut t = .next u ∧ u.cs.commit = none ∧ u.cs.stored = t.cs.stored) ∧
  (∀ (s : State) (c : Instr), s.supply = false → (∀ x, c ≠ .powerOn x) → (∀ x, c ≠ .supplyReturn x) →
    (∀ i high, c ≠ .rawLevelChange i high) → exec c s = .next s) ∧
  (∀ (straps : Straps) (s : State), s.supply = false → ∃ t, exec (.supplyReturn straps) s = .next t ∧ t.BlocksReset ∧
    t.cs.carryIncidents = [] ∧ t.cs.carryOutOfService = false ∧ t.counter .restarts = 0 ∧ t.Loaded straps ∧ t.cs.stored = s.cs.stored ∧
    t.cs.mixed = s.cs.mixed)

/-- LOAD forms the station number, judges the stored image and decides the zone mode. The validity check answers the reason of the first test of
R200 that the image fails, in the order of the codes, and OK where it fails none; the tests are spelled out in ImageFails (the lines of a heater
above ELEMENT_COUNT by log 17). LOAD takes the check value first, and an image that an abandoned commit left mixed fails it, with the lock state
OPEN (R207, R208; by the model's mark, log 12). The number of R199 is formed bit by bit. The items of the image by their bytes, times in
microseconds (R198). -/
def Obligations.LoadDecidesTheMode : Prop :=
  (∀ (straps : Straps) (s : State), ∃ t, exec (.powerOn straps) s = .next t ∧ t.Loaded straps ∧
    t.cs.mixed = (s.cs.mixed || s.cs.commit.isSome) ∧ (s.cs.commit = none → t.cs.stored = s.cs.stored) ∧
    (s.cs.mixed = true ∨ s.cs.commit ≠ none → t.cs.loadResult = .checkValue ∧ t.cs.locked = false ∧
      t.zoneMode = if straps.setup = true then .setup else .haltedConfig)) ∧
  (∀ (mixed : Bool) (m : Memory) (straps : BitVec 4),
    (mixed = true ∨ ImageFails m 0 .checkValue → loadCheck mixed m straps = .checkValue) ∧
    (mixed = false → ¬ ImageFails m 0 .checkValue → loadCheck mixed m straps = validity m straps)) ∧
  (∀ (m : Memory) (straps : BitVec 4),
    let fails := ImageFails m (serviceNumber m straps).toNat
    (∀ r, 2 ≤ loadCode r → (validity m straps = r ↔ fails r ∧ ∀ q, 2 ≤ loadCode q → loadCode q < loadCode r → ¬ fails q)) ∧
    (validity m straps = .ok ↔ ∀ q, 2 ≤ loadCode q → ¬ fails q) ∧ validity m straps ≠ .checkValue ∧
    ∀ i < 4, (serviceNumber m straps).getLsbD i =
      if (m.read 64).getLsbD i = true then straps.getLsbD i else (m.read 64).getLsbD (4 + i)) ∧
  (∀ m : Memory,
    let byte := fun a : Nat => (m.read a).toNat
    let word := fun a : Nat => 256 * byte a + byte (a + 1)
    let signed := fun a : Nat => if word a < 32768 then (word a : Int) else (word a : Int) - 65536
    [m.wheelSize, m.quorum, m.panel, m.presencePeriod, m.tSilent, m.tExpire, m.tIsolate, m.tListen, m.tPanel] =
      [byte 0, byte 1, byte 2, byte 3, 1000 * word 4, 1000 * word 6, 1000 * word 8, 1000 * word 10, 1000 * word 12] ∧
    [.heat, .fill, .drain].map m.capacity = [byte 14, byte 15, byte 16] ∧ (∀ k : Station, m.rank k = byte (17 + k.val)) ∧
    m.role = byte 65 ∧ [m.skippable, m.tempCritical, m.remoteRestartOk] = [0, 1, 2].map (m.read 66).getLsbD ∧
    m.hopLimit = byte 133 ∧ (∀ i < 12, m.feederGroup.getLsbD i = if i < 8 then (m.read 132).getLsbD i else (m.read 131).getLsbD (i - 8)) ∧
    [m.setpoint, m.hysteresis, m.tempMin, m.dpLimit, m.iOnMin, m.iOffMax] =
      [signed 134, (word 136 : Int), signed 138, (word 144 : Int), (word 152 : Int), (word 154 : Int)] ∧
    [m.tTemp, m.tBoost, m.tFilter, m.tFlush, m.tFill, m.tDrain, m.tDry, m.tVerify, m.tClaimWait].map (· / 1000000) =
      [word 140, word 142, byte 146, byte 147, word 156, word 158, byte 160, word 161, byte 163] ∧
    (∀ n ∈ [m.tTemp, m.tBoost, m.tFilter, m.tFlush, m.tFill, m.tDrain, m.tDry, m.tVerify, m.tClaimWait], n % 1000000 = 0) ∧
    m.elementCount = byte 148 ∧ (∀ e : Element, m.rating e = byte (149 + e.val)) ∧ m.attempts = byte 164 ∧
    (∀ i : Line, m.activeLow i = (m.read (67 + i.val)).getLsbD 3 ∧ m.lineFunction i = lineFunctionOfCode (byte (67 + i.val) / 16) ∧
      [20000, 100000, 500000, 2000000][byte (67 + i.val) % 4]? = some (m.debounce i)) ∧
    [0, 1, 2, 3, 4, 5, 6, 7, 8, 9, 10, 11, 12, 13, 14, 15].map lineFunctionOfCode = [.unused, .leakProbe, .levelLow, .levelNormal,
      .levelHigh, .fillValve, .drainValve, .pumpRun, .pumpReverse, .heat1, .heat2, .heat3, .heatIsolate, .cascadeGate, .conveyorEnable,
      .alert] ∧
    m.digest = crc16 (m.bytes 0 64) ∧ m.checkValue = crc16 (m.bytes 0 254))

/-- The end of SETTLE: the carried incidents restored, the detectors' stage, the zone mode, the link state, the receiver. OUT_OF_SERVICE by the
carried flag queues an own ZONE_DOWN, behind what the restore and the detectors that begin have queued; IN_SERVICE queues nothing more. SETTLE can
end where every input line has a debounced level and every channel ten samples (R202). -/
def Obligations.SettleEnds : Prop :=
  (∀ s : State, s.settled = true ↔ (∀ i : Line, s.isInputLine i = true → s.lu.debounced[i] ≠ none) ∧ ∀ c : Channel, 10 ≤ s.ms.counts[c]) ∧
  ∀ s : State, s.supply = true → s.cs.stage = .settle → s.settled = true →
    ∃ t, exec .settleEnd s = .next t ∧ t.cs.stage = .entered ∧ t.cs.carryIncidents = [] ∧ t.cs.carryOutOfService = false ∧
      t.zoneMode = (if s.cs.carryOutOfService then .outOfService else .inService) ∧ t.mu.linkState = .listening ∧
      t.mu.listenStart = some s.now ∧ t.lc.receiverOn = true ∧ t.lc.position = 0 ∧ t.now = s.now ∧ t.cs.stored = s.cs.stored ∧
      t.cs.working = s.cs.working ∧ t.cs.number = s.cs.number ∧ t.ms = s.ms ∧ t.lu.debounced = s.lu.debounced ∧
      s.SameHazardMemory t ∧ s.SameQuestions t ∧ s.SameCounters t [] ∧
      ∃ v, t = endEvent .none v ∧
        (let restored := reviewHolds (restoreCarried s)
         let detecting := runDetectors { restored with cs := { restored.cs with stage := .entered } }
         (s.cs.carryOutOfService = false → v.hz = detecting.hz) ∧
         (s.cs.carryOutOfService = true → v.hz = (queueNotice .zoneDown detecting).hz ∧ v.hz.serial = detecting.hz.serial + 1 ∧
           v.hz.queue.getLast? = some {
             origin := s.me, serial := detecting.hz.serial + 1, code := .zoneDown, hops := s.image.hopLimit, group := s.image.feederGroup
             sends := 3, relay := false, onWire := false }))

/-- The carry-over record takes the FAILED and ABANDONED incidents in list order, the first four, with kind, reason and recurrences; at the end
of SETTLE they come back as FAILED records, in order, with ids from 1 on. A restored LEAK record queues an own INFLOW_STOP, each with the next
serial, and sets the inflow-stop mark. -/
def Obligations.CarryOverRecord : Prop :=
  (∀ records : List Incident,
    (carried records).length = min 4 (records.filter (fun r => isFailed r || isAbandoned r)).length ∧
    ∀ i : Nat, (carried records)[i]? = if i < 4 then ((records.filter (fun r => isFailed r || isAbandoned r))[i]?).bind (fun r =>
      match r.state with
      | .failed reason => some { fault := r.fault, reason := reason, recurrences := r.recurrences }
      | .abandoned reason => some { fault := r.fault, reason := reason, recurrences := r.recurrences }
      | _ => none) else none) ∧
  (∀ s : State, s.rs.incidents = [] → s.rs.nextId = 1 → s.cs.carryIncidents.length ≤ 4 →
    (restoreCarried s).rs.incidents = s.cs.carryIncidents.mapIdx (fun i c =>
      {
        id := i + 1, fault := c.fault, state := .failed c.reason, attempts := 0, detectedAt := s.now / 1000
        recurrences := c.recurrences, carried := true }) ∧
    (restoreCarried s).cs = { s.cs with carryIncidents := [] } ∧
    (s.counter .incidentsRaised ≤ 65535 →
      (restoreCarried s).counter .incidentsRaised = min (s.counter .incidentsRaised + s.cs.carryIncidents.length) 65535) ∧
    (let leaks := s.cs.carryIncidents.filter (fun c => c.fault == .leak)
     (restoreCarried s).hz.serial = s.hz.serial + byteOf leaks.length ∧ s.SameHazardMemory (restoreCarried s) ∧
     ((restoreCarried s).hz.stopMark = true ↔ s.hz.stopMark = true ∨ leaks ≠ []) ∧
     (s.hz.queue.length + leaks.length ≤ 4 → (restoreCarried s).hz.queue = s.hz.queue ++ leaks.mapIdx (fun i _ =>
       {
         origin := s.me, serial := s.hz.serial + byteOf (i + 1), code := .inflowStop, hops := s.image.hopLimit
         group := s.image.feederGroup, sends := 3, relay := false, onWire := false }))))

/-- RESTART: refused, or taken with the carry-over record written or left, RESTARTS counted, every block reset and LOAD run; the LOAD after a
commit that the RESTART abandons answers CHECK_VALUE with the lock state OPEN (R207, R208). -/
def Obligations.RestartRule : Prop :=
  ∀ (s : State) (h : Header) (payload : List Byte) (straps : Straps) (target : Station),
    (s.Delivers .restart h payload ∨ s.DeliversService .restart h payload) →
    readRestart payload = some target → target.val = s.cs.number.toNat →
    (s.runMode = true → s.image.remoteRestartOk = true → ∃ t, exec (.restart h payload straps) s = .next t ∧ t.BlocksReset ∧
      t.counter .restarts = min (s.counter .restarts + 1) 255 ∧ t.cs.carryIncidents = carried s.rs.incidents ∧
      t.cs.carryOutOfService = (s.zoneMode == .outOfService) ∧ t.Loaded straps ∧ t.cs.mixed = (s.cs.mixed || s.cs.commit.isSome) ∧
      (s.cs.commit = none → t.cs.stored = s.cs.stored) ∧
      (s.cs.commit ≠ none → t.cs.loadResult = .checkValue ∧ t.cs.locked = false)) ∧
    (s.serviceMode = true → ∃ t, exec (.restart h payload straps) s = .next t ∧ t.BlocksReset ∧
      t.counter .restarts = min (s.counter .restarts + 1) 255 ∧ t.cs.carryIncidents = s.cs.carryIncidents ∧
      t.cs.carryOutOfService = s.cs.carryOutOfService ∧ t.Loaded straps ∧ t.cs.mixed = (s.cs.mixed || s.cs.commit.isSome) ∧
      (s.cs.commit = none → t.cs.stored = s.cs.stored) ∧
      (s.cs.commit ≠ none → t.cs.loadResult = .checkValue ∧ t.cs.locked = false)) ∧
    (s.runMode = true → s.image.remoteRestartOk = false → ∃ u, exec (.restart h payload straps) s = .next (frameEnds h.sender.toNat u) ∧
      s.Counted u .operatorRefused ∧ s.Counted u .accepted ∧ s.SameCounters u [.operatorRefused, .accepted] ∧ s.SameMode u ∧
      s.SameProgram u ∧ s.SameHazardMemory u ∧ s.SameQuestions u)

/-! ## Zone lines and measurements -/

/-- A change of a pin's raw level restarts the debounce timer of an input line; a timer that has run stops, and the debounced level takes the
raw level. Which lines are inputs and which output function a line carries, a pin's level by its polarity (R100), and when probes of a function
read wet and dry, one that no line carries dry from the end of SETTLE (R101, R104). -/
def Obligations.LineEvents : Prop :=
  (∀ (s : State) (i : Line) (high : Bool),
    (s.lu.pins[i] ≠ high → exec (.rawLevelChange i high) s = .next { s with lu := { s.lu with
      pins := setAt s.lu.pins i high
      timers := if s.reads && s.isInputLine i then setAt s.lu.timers i (some s.now) else s.lu.timers } }) ∧
    (s.lu.pins[i] = high → exec (.rawLevelChange i high) s = .next s)) ∧
  (∀ (s : State) (i : Line) (start : Nat), s.supply = true → s.lu.timers[i] = some start →
    ∃ t, exec (.lineChangeEvent i) s = .next t ∧ t.lu.timers = setAt s.lu.timers i none ∧
      t.now = max s.now (start + s.image.debounce i) ∧ t.lu.debounced = setAt s.lu.debounced i (some (s.pinActive i)) ∧
      t.lu.pins = s.lu.pins ∧ t.ms = s.ms ∧ t.lc = s.lc ∧ s.SameMode t ∧ s.SameProgram t ∧ s.SameHazardMemory t ∧ s.SameQuestions t ∧
      s.SamePeers t (fun _ => False) ∧ s.SameOwners t (fun _ => False) ∧ s.SameCounters t []) ∧
  (∀ (s : State) (i : Line), (s.isInputLine i = true ↔ s.image.lineFunction i ∈ [.leakProbe, .levelLow, .levelNormal, .levelHigh]) ∧
    s.pinActive i = (s.lu.pins[i] != (s.image.read (67 + i.val)).getLsbD 3)) ∧
  [.unused, .leakProbe, .levelLow, .levelNormal, .levelHigh, .fillValve, .drainValve, .pumpRun, .pumpReverse, .heat1, .heat2, .heat3,
    .heatIsolate, .cascadeGate, .conveyorEnable, .alert].map outputOf = [none, none, none, none, none, some .fillValve, some .drainValve,
    some .pumpRun, some .pumpReverse, some (.heat 0), some (.heat 1), some (.heat 2), some .heatIsolate, some .cascadeGate,
    some .conveyorEnable, some .alert] ∧
  (∀ (s : State) (f : LineFunction),
    (s.wet f = true ↔ ∃ i : Line, s.image.lineFunction i = f ∧ s.lu.debounced[i] = some true) ∧
    ((∃ i : Line, s.image.lineFunction i = f) →
      (s.dry f = true ↔ ∀ i : Line, s.image.lineFunction i = f → s.lu.debounced[i] = some false)) ∧
    ((∀ i : Line, s.image.lineFunction i ≠ f) → (s.dry f = true ↔ s.cs.stage = .entered)))

/-- A sample arrival: the latest sample, the count, the next arrival; on MC0 the regulation request as R127 judges it, where the drive runs: in
IN_SERVICE, in a zone with a tank. That a LOAD zone leaves it as it was is the model's choice, log 29. The valid range of each channel (R105), and
the count of valid samples of WAIT_VALID (R176). -/
def Obligations.SampleArrives : Prop :=
  (∀ (s : State) (c : Channel) (p : Presented), s.reads = true →
    ∃ t, exec (.sampleArrival c p) s = .next t ∧ t.now = max s.now s.ms.nextArrival[c] ∧
      t.ms.latest = setAt s.ms.latest c (some (sampleOf p)) ∧ t.ms.counts = setAt s.ms.counts c (min (s.ms.counts[c] + 1) 10) ∧
      t.ms.nextArrival = setAt s.ms.nextArrival c (t.now + 100000) ∧
      t.pd.regulation = (if c = 0 ∧ s.driveRuns = true ∧ regulates s.pd.phase = true then
        (match validValue 0 (sampleOf p) with
          | none => false
          | some v => if v < s.image.setpoint - s.image.hysteresis then true
            else if s.image.setpoint ≤ v then false else s.pd.regulation)
        else s.pd.regulation) ∧
      t.pd.phase = s.pd.phase ∧ t.pd.demand = s.pd.demand ∧ t.lu.pins = s.lu.pins ∧ t.lu.timers = s.lu.timers ∧
      t.lu.debounced = s.lu.debounced ∧ t.lc = s.lc ∧ s.SameMode t ∧ s.SameHazardMemory t ∧ s.SameQuestions t ∧
      s.SamePeers t (fun _ => False) ∧ s.SameOwners t (fun _ => False) ∧ s.SameCounters t []) ∧
  (∀ s : State, s.reads = true ↔ s.supply = true ∧ s.serviceMode = false ∧ s.cs.stage ≠ .load) ∧
  (∀ v : Int, [.value v, .over, .under, .nothing].map sampleOf = [.value v, .over, .under, .under]) ∧
  (∀ (c : Channel) (x : Sample) (n : Int), validValue c x = some n ↔ x = .value n ∧
    if c = 0 then -100 ≤ n ∧ n ≤ 1200 else if c = 1 then 0 ≤ n ∧ n ≤ 1000 else 0 ≤ n ∧ n ≤ 400) ∧
  (∀ (s : State) (c : Channel) (n : Int), s.latestValid c = some n ↔ ∃ x, s.ms.latest[c] = some x ∧ validValue c x = some n) ∧
  (∀ (s : State) (c : Channel) (x : Sample),
    ((∀ id fault, s.activeStep ≠ some (id, fault, .waitValid)) ∨ c ≠ 0 → countValid c x s = s) ∧
    (∀ id fault, s.activeStep = some (id, fault, .waitValid) →
      countValid 0 x s = { s with rs := { s.rs with validCount := if validValue 0 x = none then 0 else s.rs.validCount + 1 } }))

/-! ## The medium and own frames -/

/-- A reception begins; one that ends with a check failure is counted, except after an own frame that stopped, and moves the wheel by one.
Foreign activity that is there when this station's opening begins: the frame chosen has not started, what it took is back where it was, and
the activity is a reception in that opening (that RECEPTION_START at the instant of the start says so is the model's choice, log 35). -/
def Obligations.ReceptionRule : Prop :=
  (∀ s : State, s.supply = true → s.lc.medium = .quiet → exec .receptionStart s = .next { s with lc := { s.lc with
    medium := if s.lc.receiverOn then .reception { start := s.now, babble := false, afterOwn := false } else .ignored } }) ∧
  (∀ (s : State) (received : List Byte), s.canReceive = true → validReception received = false →
    ∃ u, exec (.checkFailure received) s = .next (beginOpening (setPosition (s.lc.position + 1) u)) ∧ u.lc.medium = .quiet ∧
      (∀ r, s.lc.medium = .reception r → r.afterOwn = true → u.rp = s.rp) ∧
      ((∀ r, s.lc.medium = .reception r → r.afterOwn = false) → s.Counted u .checkErrors) ∧
      (∀ c, c ≠ .checkErrors → u.counter c = s.counter c) ∧
      u = { s with rp := u.rp, lc := { s.lc with medium := .quiet, idleStart := s.now - 36 } }) ∧
  (∀ (s : State) (f : OwnFrame), s.supply = true → s.lc.medium = .quiet → (beginOpening s).lc.medium = .own f → s.oc.inFlight = [] →
    s.rp.inFlight = none → s.cs.replyInFlight = none → (∀ e ∈ s.hz.queue, e.onWire = false) → s.oc.waiting = [] →
    (s.oc.unsent.map Change.tag).Nodup →
    exec .receptionStart (beginOpening s) = .next (endEvent .none { s with lc := { s.lc with
      openingStart := s.now, medium := .reception { start := s.now, babble := false, afterOwn := false } } }))

/-- Babble: counted when the limit is reached; meanwhile no opening expires and no idle reset occurs; at its end no acceptance, no check
error, and the position p + 1. The part's own transmitter at the limit: the flag is set, the frame stops without completion and is not
counted. The watch stands apart from the frame logic: with no own frame on the wire the flag is set as well; that the reception which follows a
stopped own frame begins anew at the cut, and that elsewhere the flag alone is written, is the model's choice, log 44. -/
def Obligations.BabbleLimit : Prop :=
  ((∀ (s : State) (r : Reception), s.supply = true → s.lc.medium = .reception r → r.babble = false →
    ∃ t, exec .babble s = .next t ∧ t.lc.medium = .reception { r with babble := true } ∧ s.Counted t .babble ∧
      t.now = max s.now (r.start + 4000) ∧ (∀ c, c ≠ .babble → t.counter c = s.counter c) ∧ t.lc.position = s.lc.position ∧
      t = { s with now := t.now, rp := t.rp, lc := { s.lc with medium := t.lc.medium } }) ∧
  (∀ (s : State) (r : Reception), s.lc.medium = .reception r → exec .openingExpiry s = .next s ∧ exec .idleReset s = .next s) ∧
  (∀ (s : State) (r : Reception), s.supply = true → s.lc.medium = .reception r → r.babble = true →
    exec .babbleReceptionEnd s = .next (beginOpening (setPosition (s.lc.position + 1)
      { s with lc := { s.lc with medium := .quiet, idleStart := s.now - 36 } })) ∧
    (∀ received, exec (.checkFailure received) s = .next s) ∧
    (∀ (c : Instr) (x : FrameKind × Header × List Byte), frameOf c = some x → exec c s = .next s))) ∧
  (∀ (s : State) (f : OwnFrame), s.supply = true → s.lc.medium = .own f →
    ∃ t, exec .transmitCut s = .next t ∧ t.lc.transmitCut = true ∧ t.now = max s.now (f.start + 4000) ∧
      (∀ g, t.lc.medium ≠ .own g) ∧ t.counter .sent = s.counter .sent ∧ t.counter .collisions = s.counter .collisions ∧
      t.lc.position = s.lc.position ∧ t.lc.receiverOn = s.lc.receiverOn ∧ t.oc.changeNumber = s.oc.changeNumber ∧
      s.SameProgram t ∧ s.SameHazardMemory t ∧ s.SameZoneSide t ∧ s.SamePeers t (fun _ => False) ∧
      ((f.content = .claim ∨ ∃ n, f.content = .claimSet n) → t.oc.inFlight = [])) ∧
  (∀ s : State, s.supply = true → (∀ f, s.lc.medium ≠ .own f) →
    (s.lc.transmitCut = true → exec .transmitCut s = .next s) ∧
    (s.lc.transmitCut = false →
      (∀ r, s.lc.medium = .reception r → r.afterOwn = true → r.babble = false →
        let now := max s.now (r.start + 4000)
        exec .transmitCut s = .next (endEvent .none { s with now := now, lc := { s.lc with
          transmitCut := true, medium := .reception { start := now, babble := false, afterOwn := true } } })) ∧
      ((∀ r, s.lc.medium = .reception r → r.afterOwn = false ∨ r.babble = true) →
        exec .transmitCut s = .next { s with lc := { s.lc with transmitCut := true } })))

/-- An opening expires: the position advances, past W it wraps and counts, and the next opening begins. An idle reset: position 0, no wrap,
and the idle reset interval starts again. -/
def Obligations.QuietMedium : Prop :=
  (∀ s : State, s.openingRuns = true →
    ∃ u, exec .openingExpiry s = .next (beginOpening u) ∧ u.now = max s.now (s.lc.openingStart + 80) ∧
      (s.lc.position < s.wheelSize → u.lc = { s.lc with position := s.lc.position + 1 }) ∧
      (s.wheelSize ≤ s.lc.position → u.lc = { s.lc with
        position := 0, roundCount := s.lc.roundCount + 1, presenceAge := min (s.lc.presenceAge + 1) 8 }) ∧
      u = { s with now := u.now, lc := u.lc }) ∧
  (∀ s : State, s.idleRuns = true →
    ∃ u, exec .idleReset s = .next (beginOpening u) ∧ u.now = max s.now (s.lc.idleStart + 2000) ∧
      u = { s with now := u.now, lc := { s.lc with position := 0, idleStart := u.now } })

/-- An own frame completes: the medium is quiet, the position is the own number + 1, in SETUP and HALTED_CONFIG past the service opening (the
model's reading, log 11), and the frame's kind has its completion effects, a join request whatever the link state is by then. After a COUNTERS
answer with the clear flag every counter but RESTARTS is 0; SENT is 0 or 1, the device gives no order (log 13). -/
def Obligations.OwnFrameCompletes : Prop :=
  (∀ (s : State) (f : OwnFrame), s.supply = true → s.lc.medium = .own f →
    ∃ v, exec .ownFrameComplete s = .next (beginOpening (endEvent .none v)) ∧ v.lc.medium = .quiet ∧
      v.now = max s.now (f.start + 36 * (f.bytes.length + 1)) ∧
      (s.serviceMode = false → s.cs.number.toNat + 1 ≤ s.wheelSize →
        v.lc.position = s.cs.number.toNat + 1 ∧ v.lc.roundCount = s.lc.roundCount) ∧
      (s.serviceMode = true ∨ s.wheelSize ≤ s.cs.number.toNat → v.lc.position = 0 ∧ v.lc.roundCount = s.lc.roundCount + 1) ∧
      (f.content ≠ .reply → s.Counted v .sent ∧ ∀ c, c ≠ .sent → c ≠ .resyncsSent → v.counter c = s.counter c) ∧
      (∀ fields, f.content = .presence fields → v.lc.presenceAge = 0 ∧ v.lc.lastPresence = some fields) ∧
      (∀ join, f.content = .resync join → s.Counted v .resyncsSent ∧
        (join = true → v.mu.joinRequestDone = some v.now ∧
          ∀ k : Station, v.mu.peers[k] = { s.mu.peers[k] with restated := false })) ∧
      (f.content = .hazard → v.hz = { s.hz with queue := s.hz.queue.filterMap (fun e =>
        if e.onWire then (if e.sends ≤ 1 then none else some { e with sends := e.sends - 1, onWire := false }) else some e) }) ∧
      (f.content = .reply → v.rp.slot = s.rp.slot ∧ v.rp.inFlight = none) ∧
      (f.content = .setupReply → v.cs = { s.cs with replyInFlight := none })) ∧
  (∀ (s : State) (f : OwnFrame) (q : Question), s.supply = true → s.lc.medium = .own f → f.content = .reply → s.rp.inFlight = some q →
    ∃ v, exec .ownFrameComplete s = .next (beginOpening (endEvent .none v)) ∧ v.rp.inFlight = none ∧ v.rp.slot = s.rp.slot ∧
      v.counter .restarts = s.counter .restarts ∧
      (q.subject = .counters → q.clear = true →
        (∀ c, c ≠ .restarts → c ≠ .sent → v.counter c = 0) ∧ (v.counter .sent = 0 ∨ v.counter .sent = 1)) ∧
      (q.subject ≠ .counters ∨ q.clear = false → s.Counted v .sent ∧ ∀ c, c ≠ .sent → v.counter c = s.counter c))

/-- An own CLAIM, or CLAIM_SET, completes: the change number, the sent states, the tags, the marks and the own Applied entry; then waiting requests
take the places of the tags freed (`placeFreed`, of which UsableAmount says what it does; that they do so here, before the requests of the rest of
the event, is the model's choice, log 47). -/
def Obligations.OwnClaimsComplete : Prop :=
  (∀ (s : State) (f : OwnFrame), s.supply = true → s.lc.medium = .own f → f.content = .claim →
    ∃ v, exec .ownFrameComplete s = .next (beginOpening (endEvent .none (placeFreed v))) ∧ v.oc.waiting = s.oc.waiting ∧
      v.oc.changeNumber = s.oc.changeNumber + byteOf s.oc.inFlight.length ∧ v.oc.inFlight = [] ∧ v.oc.unsent = s.oc.unsent ∧
      v.ct[s.me].applied = some v.oc.changeNumber ∧ v.ct[s.me].records = s.ct[s.me].records ∧
      v.oc.claims = s.oc.claims.map (fun c =>
        match s.oc.inFlight.findIdx? (fun ch => ch.tag == c.tag) with
        | some i => if s.oc.unsent.any (fun ch => ch.tag == c.tag) then c
          else { c with sent := .sent (s.oc.changeNumber + byteOf (i + 1)) }
        | none => c) ∧
      (∀ t : Tag, v.oc.awaiting[t] = (s.oc.awaiting[t] && !s.oc.inFlight.any (fun ch => ch.tag == t && ch.op == .release))) ∧
      v.oc.restatementDue = s.oc.restatementDue) ∧
  (∀ (s : State) (f : OwnFrame) (number : Byte), s.supply = true → s.lc.medium = .own f → f.content = .claimSet number →
    ∃ v, exec .ownFrameComplete s = .next (beginOpening (endEvent .none (placeFreed v))) ∧ v.oc.waiting = s.oc.waiting ∧
      v.oc.changeNumber = number ∧ v.oc.inFlight = [] ∧ v.oc.unsent = s.oc.unsent ∧ v.ct[s.me].applied = some number ∧
      v.oc.restatementDue = false ∧ v.oc.restatedSinceStart = true ∧
      v.oc.restatedSinceJoined = (s.oc.restatedSinceJoined || s.mu.linkState == .joined) ∧
      v.oc.claims = s.oc.claims.map (fun c =>
        if s.oc.inFlight.any (fun ch => ch.tag == c.tag) && !s.oc.unsent.any (fun ch => ch.tag == c.tag) then
          { c with sent := .sent number } else c) ∧
      (∀ t : Tag, v.oc.awaiting[t] = (s.oc.awaiting[t] && !s.oc.inFlight.any (fun ch => ch.tag == t && ch.op == .release))))

/-- An own frame collides: COLLISIONS counted, the rest of the activity received, nothing completed, the content back with the block that gave
it. In-flight changes go back to the head of the unsent change list, those made meanwhile placed behind them or coalesced; a HAZARD entry
stays with its sends; a question goes back to the slot or is dropped with a count; a setup reply is pending again. -/
def Obligations.CollisionRule : Prop :=
  ∀ (s : State) (f : OwnFrame), s.supply = true → s.lc.medium = .own f →
    ∃ v, exec .collision s = .next (endEvent .none v) ∧ s.Counted v .collisions ∧
      (∀ c, c ≠ .collisions → c ≠ .replyOverruns → v.counter c = s.counter c) ∧
      v = { s with lc := { s.lc with medium := .reception { start := f.start, babble := false, afterOwn := true } }, oc := v.oc, ct := v.ct
                   hz := { s.hz with queue := v.hz.queue }, rp := v.rp
                   cs := { s.cs with reply := v.cs.reply, replyInFlight := v.cs.replyInFlight } } ∧
      v.oc.changeNumber = s.oc.changeNumber ∧
      ((f.content = .claim ∨ ∃ n, f.content = .claimSet n) → v.oc.inFlight = [] ∧
        (s.oc.waiting = [] → v.ct = s.ct ∧ v.oc.claims = s.oc.claims ∧
          v.oc.unsent = s.oc.unsent.foldl (fun list c => (placeChange c list).1) s.oc.inFlight ∧
          ((∀ a ∈ s.oc.inFlight, ∀ b ∈ s.oc.unsent, a.tag ≠ b.tag) → (s.oc.unsent.map Change.tag).Nodup →
            v.oc = { s.oc with unsent := s.oc.inFlight ++ s.oc.unsent, inFlight := [] }))) ∧
      (f.content ≠ .claim → (∀ n, f.content ≠ .claimSet n) → v.oc = s.oc ∧ v.ct = s.ct) ∧
      v.hz.queue = (if f.content = .hazard then s.hz.queue.map (fun e => { e with onWire := false }) else s.hz.queue) ∧
      (f.content = .reply → v.rp.inFlight = none ∧
        (s.rp.slot = none → v.rp.slot = s.rp.inFlight ∧ v.counter .replyOverruns = s.counter .replyOverruns) ∧
        (s.rp.slot ≠ none → v.rp.slot = s.rp.slot ∧ s.Counted v .replyOverruns)) ∧
      (f.content ≠ .reply → s.SameQuestions v ∧ v.counter .replyOverruns = s.counter .replyOverruns) ∧
      (f.content = .setupReply → v.cs.replyInFlight = none ∧
        v.cs.reply = if s.cs.reply = none then s.cs.replyInFlight else s.cs.reply) ∧
      (f.content ≠ .setupReply → v.cs = s.cs)

/-- Every frame the part builds is a valid reception at its receivers: lengths and check value; read back by the same layout it gives its
sender, kind, group, version 1 and payload. Any reception is the command its bytes are: a frame command with the fields read, or
CHECK_FAILURE where it is no valid frame. -/
def Obligations.OwnFramesAreValid : Prop :=
  (∀ (sender : Nat) (kind : FrameKind) (group : BitVec 12) (payload : List Byte), payload.length ≤ 56 →
    validReception (frameBytes sender kind group payload) = true ∧ (frameBytes sender kind group payload).length = payload.length + 6 ∧
    ((∀ code, kind = .undefined code → 12 ≤ code.toNat) → readFrame (frameBytes sender kind group payload) = some {
      kind := kind, header := { sender := BitVec.ofNat 4 sender, group := group, version := 1 }, payload := payload })) ∧
  (∀ (straps : Straps) (bytes : List Byte),
    (∀ f, readFrame bytes = some f → frameOf (commandOf straps bytes) = some (f.kind, f.header, f.payload)) ∧
    (readFrame bytes = none → commandOf straps bytes = .checkFailure bytes) ∧
    ((readFrame bytes).isSome = validReception bytes))

/-! ## Acceptance -/

/-- The tests of acceptance. A valid frame that fails the format, group, sender or form test is dropped after one count; a kind code from 12 to
15 fails the format. The order of the tests (R72); the group test (R70, R71, R198): ALL, the station's own group, and in IN_SERVICE and
OUT_OF_SERVICE alone the enabled filters; the wheel size (R48); the sender table (R73); the form table with what each payload reads as (R65, R66,
R68, R69, R74), a READ of a length outside 1 to 32 failing it by log 16. -/
def Obligations.AcceptanceDrops : Prop :=
  (∀ (c : Instr) (kind : FrameKind) (h : Header) (payload : List Byte) (s : State), frameOf c = some (kind, h, payload) →
    s.canReceive = true →
    (∀ counter, (counter = .filtered ∧ s.acceptance kind h payload = .filtered) ∨
        (counter = .protocolErrors ∧ (s.acceptance kind h payload = .badFormat ∨ s.acceptance kind h payload = .badSender ∨
          s.acceptance kind h payload = .badForm)) →
      ∃ u, exec c s = .next (frameEnds h.sender.toNat u) ∧ s.Counted u counter ∧ s.SameCounters u [counter] ∧ s.SameMode u ∧
        s.SameZoneSide u ∧ s.SameProgram u ∧ s.SameHazardMemory u ∧ s.SameQuestions u ∧ s.SamePeers u (fun _ => False) ∧
        s.SameOwners u (fun _ => False))) ∧
  (∀ (code : BitVec 4) (h : Header) (payload : List Byte) (s : State), s.canReceive = true → h.sender ≠ s.cs.number →
    ∃ u, exec (.undefinedKindFrame code h payload) s = .next (frameEnds h.sender.toNat u) ∧ s.Counted u .protocolErrors ∧
      s.SameCounters u [.protocolErrors] ∧ s.SameMode u ∧ s.SameZoneSide u ∧ s.SameProgram u ∧ s.SameHazardMemory u ∧
      s.SameQuestions u ∧ s.SamePeers u (fun _ => False) ∧ s.SameOwners u (fun _ => False)) ∧
  (∀ (kind : FrameKind) (h : Header) (payload : List Byte) (s : State),
    let a := s.acceptance kind h payload
    (h.sender = s.cs.number → a = .ownNumber) ∧
    (h.sender ≠ s.cs.number → h.version ≠ 1 ∨ (∃ code, kind = .undefined code) → a = .badFormat) ∧
    (h.sender ≠ s.cs.number → h.version = 1 → (∀ code, kind ≠ .undefined code) →
      (s.groupPasses h.group = false → a = .filtered) ∧
      (s.groupPasses h.group = true → s.senderPasses kind h = false → a = .badSender) ∧
      (s.groupPasses h.group = true → s.senderPasses kind h = true → s.formPasses kind payload = false → a = .badForm) ∧
      (s.groupPasses h.group = true → s.senderPasses kind h = true → s.formPasses kind payload = true → a = .accepted))) ∧
  (∀ (s : State) (g : BitVec 12), s.groupPasses g = true ↔ g = 0xFFF ∨ g.toNat = 0x800 + s.cs.number.toNat ∨
    ((s.zoneMode = .inService ∨ s.zoneMode = .outOfService) ∧ ∃ n < 4,
      let byte := fun k : Nat => s.image.read (83 + 4 * n + k)
      (byte 0).getLsbD 7 = true ∧
      ∀ i < 12, (if i < 4 then (byte 3).getLsbD (4 + i) else (byte 2).getLsbD (i - 4)) = true →
        g.getLsbD i = if i < 8 then (byte 1).getLsbD i else (byte 0).getLsbD (i - 8))) ∧
  (∀ s : State, s.wheelSize = if (s.zoneMode = .setup ∨ s.zoneMode = .haltedConfig) ∧ ¬ (2 ≤ s.image.byteAt 0 ∧ s.image.byteAt 0 ≤ 12)
    then 12 else s.image.byteAt 0) ∧
  (∀ (kind : FrameKind) (h : Header) (s : State),
    let n := h.sender.toNat
    let panel := n = s.image.byteAt 2 ∧ n < 12
    s.senderPasses kind h = true ↔ (n < s.wheelSize ∨ n = 15) ∧ match kind with
      | .presence | .claim | .claimSet | .resync => n < s.wheelSize ∧ h.group = 0xFFF
      | .hazard => n < s.wheelSize
      | .program | .operator | .restart => panel
      | .query => panel ∨ n = 15
      | .setup => n = 15
      | .reply | .setupReply => True
      | .undefined _ => False) ∧
  (∀ (kind : FrameKind) (payload : List Byte) (s : State),
    s.formPasses kind payload = true ↔ match kind with
      | .presence => ∃ p, readPresence s.me s.me payload = some p
      | .claim | .claimSet => payload.length ≤ 56
      | .resync => ∃ n, readResync payload = some n
      | .hazard => ∃ x, readHazard payload = some x
      | .program => ∃ x, readProgram payload = some x
      | .operator => ∃ x, readOperator payload = some x
      | .query => ∃ x, readQuery payload = some x
      | .setup => ∃ x, readSetup payload = some x
      | .restart => ∃ k, readRestart payload = some k
      | .reply | .setupReply => 1 ≤ payload.length ∧ payload.length ≤ 56
      | .undefined _ => False) ∧
  (∀ payload : List Byte,
    let byte := fun i : Nat => payload.getD i 0
    let f := fun i : Nat => (byte i).toNat
    let length := payload.length
    (∀ (me sender : Station) (p : PresenceReport), readPresence me sender payload = some p ↔
      length = 24 ∧ f 0 = linkCode p.link ∧ (f 0 = 2 ∨ f 0 = 3) ∧ (f 1 = 1 ∨ f 1 = 2) ∧ f 20 ≤ 8 ∧ f 21 ≤ 9 ∧ f 22 ≤ 6 ∧
      p.digest = byte 2 ++ byte 3 ∧ (∀ k : Station, p.heard[k] = (byte 4 ++ byte 5).getLsbD k.val) ∧
      (let entry := fun k : Station => if (byte 6 ++ byte 7).getLsbD k.val = true then none else some (byte (8 + k.val))
       p.ackOfMe = entry me ∧ p.ownEntry = entry sender)) ∧
    (∀ n, readResync payload = some n ↔ length = 1 ∧ f 0 = n ∧ (n < 12 ∨ n = 15)) ∧
    (∀ (origin : Station) serial code hops, readHazard payload = some (origin, serial, code, hops) ↔
      length = 4 ∧ f 0 = origin.val ∧ byte 1 = serial ∧ f 2 = hazardCode code ∧ f 3 = hops ∧ hops ≤ 3) ∧
    (∀ phase demand serial, readProgram payload = some (phase, demand, serial) ↔
      length = 3 ∧ f 0 = phaseCode phase ∧ f 1 = demandCode demand ∧ byte 2 = serial) ∧
    (∀ (target : Station) c, readOperator payload = some (target, c) ↔ length = 3 ∧ f 1 = target.val ∧ match c with
      | .acknowledge id => f 0 = 0 ∧ f 2 = id ∧ id ≠ 0
      | .abandon id => f 0 = 1 ∧ f 2 = id ∧ id ≠ 0
      | .resumeZone => f 0 = 2) ∧
    (∀ (target : Station) subject clear, readQuery payload = some (target, subject, clear) ↔
      length = 3 ∧ f 0 = target.val ∧ f 1 = subjectCode subject ∧ (clear = true ↔ f 2 ≠ 0)) ∧
    (∀ (target : Station) c, readSetup payload = some (target, c) ↔ f 0 = target.val ∧ match c with
      | .write a keep data => f 1 = 0 ∧ 5 ≤ length ∧ length ≤ 20 ∧ f 2 = a ∧ byte 3 = keep ∧ payload.drop 4 = data
      | .read a n => f 1 = 1 ∧ length = 5 ∧ f 2 = a ∧ f 4 = n ∧ 1 ≤ n ∧ n ≤ 32
      | .commit => f 1 = 2 ∧ length = 4
      | .lock => f 1 = 3 ∧ length = 4
      | .lineTest set clear toggle => f 1 = 4 ∧ length = 10 ∧ byte 4 ++ byte 5 = set ∧ byte 6 ++ byte 7 = clear ∧
          byte 8 ++ byte 9 = toggle) ∧
    (∀ target : Station, readRestart payload = some target ↔ length = 1 ∧ f 0 = target.val)) ∧
  [.inflowStop, .inflowResume, .zoneDown, .zoneUp].map hazardCode = [0, 1, 2, 3] ∧
  [.status, .incidents, .claims, .peers, .counters].map subjectCode = [0, 1, 2, 3, 4]

/-- A frame from this station's own number is a duplicate number: the latch, the reason, and isolation where it is not isolated yet. (That both
stay until a start is stated by WrittenByTheirOwnCommands.) -/
def Obligations.DuplicateNumberIsolates : Prop :=
  ∀ (c : Instr) (kind : FrameKind) (h : Header) (payload : List Byte) (s : State), frameOf c = some (kind, h, payload) →
    s.canReceive = true → s.serviceMode = false → h.sender = s.cs.number → s.mu.linkState ≠ .offline →
    ∃ v, exec c s = .next (afterFrame h v) ∧ v.mu.duplicateLatch = true ∧ v.mu.isolationReason = some .duplicateNumber ∧
      (s.mu.linkState ≠ .isolated → (mediumEnds s).Isolates v .duplicateNumber) ∧
      (s.mu.linkState = .isolated → v.mu = { s.mu with duplicateLatch := true, isolationReason := some .duplicateNumber } ∧
        v.ct = s.ct ∧ v.oc = s.oc ∧ v.rs = s.rs) ∧
      v.counter .accepted = s.counter .accepted ∧ v.counter .protocolErrors = s.counter .protocolErrors

/-- A REPLY or SETUP_REPLY of another station is accepted, delivered to no block, and makes an arrival record, which ends an isolation that
is not latched. The same of every accepted frame that delivery turns away in service, for a FOREIGN sender, a CLAIM or CLAIM_SET while ISOLATED, a
SETUP, or a target that is another station (R12, R75, R76, R78); a frame from 15 makes no arrival record, and none is made in the service
modes, where only QUERY, SETUP and RESTART for this station's number are taken. -/
def Obligations.ReplyMakesArrivalRecord : Prop :=
  (∀ (ofSetup : Bool) (h : Header) (payload : List Byte) (s : State) (k : Station),
    s.Delivers (if ofSetup then .setupReply else .reply) h payload → headerStation h = some k →
    ∃ u, exec (.replyReceived ofSetup h payload) s = .next (frameEnds h.sender.toNat u) ∧ s.Counted u .accepted ∧
      s.SameCounters u [.accepted] ∧ u.mu.peers[k] = { s.mu.peers[k] with lastAccepted := some s.now } ∧ s.SamePeers u (· = k) ∧
      (s.mu.linkState = .isolated → s.mu.duplicateLatch = false →
        u.mu.linkState = .listening ∧ u.mu.listenStart = some s.now) ∧
      (s.mu.linkState = .isolated → s.mu.duplicateLatch = true → u.mu.linkState = .isolated) ∧
      s.SameMode u ∧ s.SameZoneSide u ∧ s.SameProgram u ∧ s.SameHazardMemory u ∧ s.SameQuestions u ∧ s.SameOwners u (fun _ => False)) ∧
  (∀ (c : Instr) (kind : FrameKind) (h : Header) (payload : List Byte) (s : State), frameOf c = some (kind, h, payload) →
    s.canReceive = true → s.acceptance kind h payload = .accepted →
    let other := (∃ target, readResync payload = some target ∧ kind = .resync ∧ target ≠ s.me.val ∧ target ≠ 15) ∨
      (∃ target command, readOperator payload = some (target, command) ∧ kind = .operator ∧ target ≠ s.me) ∨
      (∃ target subject clear, readQuery payload = some (target, subject, clear) ∧ kind = .query ∧ target.val ≠ s.cs.number.toNat) ∨
      (∃ target, readRestart payload = some target ∧ kind = .restart ∧ target.val ≠ s.cs.number.toNat)
    (s.runMode = true → s.cs.number.toNat < 12 →
      (kind ≠ .presence ∧ s.senderForeign h = true) ∨ kind = .setup ∨ other ∨
        ((kind = .claim ∨ kind = .claimSet) ∧ s.mu.linkState = .isolated) →
      ∃ v, exec c s = .next (afterFrame h v) ∧ v = { s.asTaken with mu := v.mu } ∧
        (headerStation h = none → v.mu = s.mu) ∧
        (∀ k, headerStation h = some k → v.mu = { s.mu with
          peers := setAt s.mu.peers k { s.mu.peers[k] with lastAccepted := some s.now }
          linkState := if s.mu.linkState = .isolated ∧ s.mu.duplicateLatch = false then .listening else s.mu.linkState
          listenStart := if s.mu.linkState = .isolated ∧ s.mu.duplicateLatch = false then some s.now else s.mu.listenStart })) ∧
    (s.serviceMode = true → (kind ≠ .query ∧ kind ≠ .setup ∧ kind ≠ .restart) ∨ other ∨
        (∃ target command, readSetup payload = some (target, command) ∧ kind = .setup ∧ target.val ≠ s.cs.number.toNat) →
      exec c s = .next (afterFrame h s.asTaken)))

/-! ## Frames of peers -/

/-- A PRESENCE with a matching digest: the sender's record and its stale mark; its claim records stay. While ISOLATED no PRESENCE is taken into
the Peer Table: its arrival record alone is made, and ends an isolation that is not latched. A peer that has sent a PRESENCE since the join
request completed and has not restated by the next is made stale (R90). -/
def Obligations.PresenceMatching : Prop :=
  (∀ (h : Header) (payload : List Byte) (s : State) (k : Station) (p : PresenceReport), s.Delivers .presence h payload →
    headerStation h = some k → readPresence s.me k payload = some p → (s.mu.linkState = .listening ∨ s.takesPart = true) →
    p.digest = s.image.digest →
    ∃ u, exec (.presence h payload) s = .next (frameEnds h.sender.toNat u) ∧
      u.mu.peers[k] = { s.mu.peers[k] with
        state := .present, reportedLink := some p.link, digest := some p.digest, heardSet := some p.heard, ackOfMe := p.ackOfMe
        lastPresence := some s.now, lastAccepted := some s.now } ∧
      s.SamePeers u (· = k) ∧ u.mu.armedAt = (if s.mu.peers[k].state = .present then s.mu.armedAt else some s.now) ∧
      u.ct[k].applied = s.ct[k].applied ∧
      u.ct[k].stale = (s.ct[k].stale || s.lagging k || s.mu.peers[k].state == .foreign ||
        match p.ownEntry, s.ct[k].applied with
        | some n, some a => after n a
        | some _, none => true
        | none, _ => false) ∧
      (k ≠ s.me → u.ct[k].records.map unmarked = s.ct[k].records.map unmarked) ∧
      s.SameOwners u (· = k) ∧ s.Counted u .accepted ∧ s.SameCounters u [.accepted] ∧ s.SameMode u ∧ s.SameZoneSide u ∧
      s.SameProgram u ∧ s.SameHazardMemory u ∧ s.SameQuestions u) ∧
  (∀ (h : Header) (payload : List Byte) (s : State) (k : Station), s.Delivers .presence h payload → headerStation h = some k →
    s.mu.linkState = .isolated →
    ∃ u, exec (.presence h payload) s = .next (frameEnds h.sender.toNat u) ∧
      u.mu = { s.mu with
        peers := setAt s.mu.peers k { s.mu.peers[k] with lastAccepted := some s.now }
        linkState := if s.mu.duplicateLatch = true then .isolated else .listening
        listenStart := if s.mu.duplicateLatch = true then s.mu.listenStart else some s.now
        notHeardBySince := u.mu.notHeardBySince } ∧
      s.SameOwners u (fun _ => False) ∧ s.Counted u .accepted ∧ s.SameCounters u [.accepted] ∧ s.SameMode u ∧ s.SameZoneSide u ∧
      s.SameProgram u ∧ s.SameHazardMemory u ∧ s.SameQuestions u) ∧
  (∀ (s : State) (k : Station), s.lagging k = true ↔ s.mu.linkState = .joining ∧ s.mu.peers[k].restated = false ∧
    s.mu.peers[k].state = .present ∧
    ∃ done last, s.mu.joinRequestDone = some done ∧ s.mu.peers[k].lastPresence = some last ∧ done ≤ last)

/-- A PRESENCE with a differing digest: FOREIGN. -/
def Obligations.PresenceDiffering : Prop :=
  ∀ (h : Header) (payload : List Byte) (s : State) (k : Station) (p : PresenceReport), s.Delivers .presence h payload →
    headerStation h = some k → readPresence s.me k payload = some p → (s.mu.linkState = .listening ∨ s.takesPart = true) →
    p.digest ≠ s.image.digest →
    ∃ u, exec (.presence h payload) s = .next (frameEnds h.sender.toNat u) ∧
      (s.mu.peers[k].state ≠ .foreign → s.Counted u .protocolErrors ∧
        u.mu.peers[k] = { s.mu.peers[k] with
          state := .foreign, reportedLink := none, digest := some p.digest, heardSet := none, ackOfMe := none
          lastPresence := some s.now, restated := false, lastAccepted := some s.now } ∧
        u.ct[k].applied = none ∧ u.ct[k].stale = false ∧ (k ≠ s.me → u.ct[k].records = [])) ∧
      (s.mu.peers[k].state = .foreign → u.counter .protocolErrors = s.counter .protocolErrors ∧
        u.mu.peers[k] = { s.mu.peers[k] with digest := some p.digest, lastPresence := some s.now, lastAccepted := some s.now } ∧
        s.SameOwners u (fun _ => False)) ∧
      s.SamePeers u (· = k) ∧ s.SameOwners u (· = k) ∧ s.Counted u .accepted ∧ s.SameCounters u [.accepted, .protocolErrors] ∧
      s.SameMode u ∧ s.SameZoneSide u ∧ s.SameProgram u ∧ s.SameHazardMemory u ∧ s.SameQuestions u

/-- A CLAIM in sequence or overlapping: the changes after Applied are checked and applied as one, or the frame is refused as one. Which frames
the table takes (R12), the modular order, and the changes an item list carries (R67), byte by byte. A change fails where its op or its tag is not
defined; a NEW where the owner holds its tag or six records, or a field is not defined or out of range; an AMEND where the owner does not hold its
tag, its class is not defined, or the amount is out of the range of the record's resource; a RELEASE where the owner does not hold its tag (R14).
A change that passes leaves the records that the next one is checked against: a NEW places its record by its tag, an AMEND replaces class and
amount, a RELEASE removes the record (R10, R15). -/
def Obligations.ClaimAppliedOrRefused : Prop :=
  (∀ (h : Header) (first : Byte) (items : List Byte) (s : State) (k : Station) (a : Byte), s.Delivers .claim h (first :: items) →
    headerStation h = some k → s.tableTakes k = true → items.length % 3 = 0 → 1 ≤ (rawChanges items).length →
    (rawChanges items).length ≤ 4 → s.ct[k].applied = some a → s.ct[k].stale = false →
    (first = a + 1 ∨ (after first (a + 1) = false ∧ atOrAfter a (first + byteOf ((rawChanges items).length - 1)) = false)) →
    ∃ u, exec (.claim h (first :: items)) s = .next (frameEnds h.sender.toNat u) ∧
      (∀ records, applyRaw ((rawChanges items).drop (a + 1 - first).toNat) s.ct[k].records = some records →
        u.ct[k].applied = some (first + byteOf ((rawChanges items).length - 1)) ∧ u.ct[k].stale = false ∧
        u.ct[k].records.map unmarked = records.map unmarked ∧ u.counter .protocolErrors = s.counter .protocolErrors) ∧
      (applyRaw ((rawChanges items).drop (a + 1 - first).toNat) s.ct[k].records = none →
        u.ct[k].applied = some a ∧ u.ct[k].stale = true ∧ u.ct[k].records.map unmarked = s.ct[k].records.map unmarked ∧
        s.Counted u .protocolErrors) ∧
      s.SameOwners u (· = k) ∧ s.SamePeers u (· = k) ∧ s.Counted u .accepted ∧ s.SameCounters u [.accepted, .protocolErrors] ∧
      s.SameMode u ∧ s.SameZoneSide u ∧ s.SameProgram u ∧ s.SameHazardMemory u ∧ s.SameQuestions u) ∧
  (∀ (s : State) (k : Station), s.tableTakes k = true ↔
    (s.mu.linkState = .listening ∨ s.mu.linkState = .joining ∨ s.mu.linkState = .joined) ∧ k ≠ s.me ∧ s.mu.peers[k].state ≠ .foreign) ∧
  (∀ a b : Byte, (atOrAfter a b = true ↔ (a - b).toNat < 128) ∧ (after a b = true ↔ (a - b).toNat < 128 ∧ a ≠ b)) ∧
  (rawChanges [] = [] ∧ ∀ (a b c : Byte) (rest : List Byte), rawChanges (a :: b :: c :: rest) =
    { op := a.toNat / 16, tag := a.toNat % 16, resource := b.toNat / 16, cls := b.toNat % 16, amount := c.toNat } :: rawChanges rest) ∧
  [.heat, .fill, .drain, .hold].map resourceCode = [0, 1, 2, 3] ∧ [.safety, .recovery, .process].map classCode = [0, 1, 2] ∧
  (∀ (resource : Resource) (n : Nat), amountInRange resource n = true ↔ match resource with
    | .heat => 1 ≤ n ∧ n ≤ 255
    | .fill | .drain => 1 ≤ n ∧ n ≤ 7
    | .hold => n = 1) ∧
  (∀ records : List ClaimRecord, applyRaw [] records = some records) ∧
  (∀ (raw : RawChange) (rest : List RawChange) (records : List ClaimRecord),
    let standing := records.find? (fun r => r.tag.val == raw.tag)
    (2 < raw.op ∨ 7 < raw.tag → applyRaw (raw :: rest) records = none) ∧
    (raw.op = 0 → standing ≠ none ∨ 6 ≤ records.length ∨ 3 < raw.resource ∨ 2 < raw.cls ∨
      (∃ resource, raw.resource = resourceCode resource ∧ amountInRange resource raw.amount = false) →
      applyRaw (raw :: rest) records = none) ∧
    (raw.op = 1 → standing = none ∨ 2 < raw.cls ∨ (∃ r, standing = some r ∧ amountInRange r.resource raw.amount = false) →
      applyRaw (raw :: rest) records = none) ∧
    (raw.op = 2 → standing = none → applyRaw (raw :: rest) records = none) ∧
    ∀ tag : Tag, raw.tag = tag.val →
      (∀ resource cls, raw.op = 0 → standing = none → records.length < 6 → raw.resource = resourceCode resource → raw.cls = classCode cls →
        amountInRange resource raw.amount = true →
        applyRaw (raw :: rest) records = applyRaw rest
          (insertRecord { tag := tag, resource := resource, cls := cls, amount := raw.amount, mark := .waiting } records)) ∧
      (∀ r cls, raw.op = 1 → standing = some r → raw.cls = classCode cls → amountInRange r.resource raw.amount = true →
        applyRaw (raw :: rest) records = applyRaw rest
          (records.map (fun q => if q.tag = tag then { q with cls := cls, amount := raw.amount } else q))) ∧
      (raw.op = 2 → standing ≠ none → applyRaw (raw :: rest) records = applyRaw rest (records.filter (fun q => q.tag != tag)))) ∧
  (∀ (r : ClaimRecord) (before behind : List ClaimRecord), (∀ q ∈ before, q.tag ≤ r.tag) → (∀ q, behind.head? = some q → r.tag < q.tag) →
    insertRecord r (before ++ behind) = before ++ r :: behind)

/-- A CLAIM that is a gap, a duplicate, or from an owner without Applied or marked stale, and one whose form fails: the records stay. -/
def Obligations.ClaimIgnored : Prop :=
  ∀ (h : Header) (payload : List Byte) (s : State) (k : Station), s.Delivers .claim h payload → headerStation h = some k →
    s.tableTakes k = true →
    ∃ u, exec (.claim h payload) s = .next (frameEnds h.sender.toNat u) ∧
      ((payload.length % 3 ≠ 1 ∨ payload.length < 4 ∨ 13 < payload.length) →
        u.ct[k].applied = s.ct[k].applied ∧ u.ct[k].stale = true ∧ u.ct[k].records.map unmarked = s.ct[k].records.map unmarked ∧
        s.Counted u .protocolErrors) ∧
      (∀ first items, payload = first :: items → items.length % 3 = 0 → 1 ≤ (rawChanges items).length →
        (rawChanges items).length ≤ 4 →
        (s.ct[k].applied = none ∨ s.ct[k].stale = true ∨ (∃ a, s.ct[k].applied = some a ∧ first ≠ a + 1 ∧ after first (a + 1) = true) →
          u.ct[k].applied = s.ct[k].applied ∧ u.ct[k].stale = true ∧ u.ct[k].records.map unmarked = s.ct[k].records.map unmarked ∧
          u.counter .protocolErrors = s.counter .protocolErrors) ∧
        (∀ a, s.ct[k].applied = some a → s.ct[k].stale = false → first ≠ a + 1 → after first (a + 1) = false →
          atOrAfter a (first + byteOf ((rawChanges items).length - 1)) = true →
          u.ct[k].applied = some a ∧ u.ct[k].stale = false ∧ u.ct[k].records.map unmarked = s.ct[k].records.map unmarked ∧
          u.counter .protocolErrors = s.counter .protocolErrors)) ∧
      s.SameOwners u (· = k) ∧ s.SamePeers u (· = k) ∧ s.Counted u .accepted

/-- A restatement: applied whole, whatever stood there, or refused whole. What it carries (R67), byte by byte, and when it passes R18: whole
records, at most six, no tag twice, and every field defined and in the range that ClaimAppliedOrRefused gives for a NEW. -/
def Obligations.RestatementApplied : Prop :=
  (∀ (h : Header) (payload : List Byte) (s : State) (k : Station), s.Delivers .claimSet h payload → headerStation h = some k →
    s.tableTakes k = true →
    ∃ u, exec (.claimSet h payload) s = .next (frameEnds h.sender.toNat u) ∧
      (∀ number fresh records, readRestatement payload = some (number, fresh, records) →
        u.ct[k].applied = some number ∧ u.ct[k].stale = false ∧ u.ct[k].records.map unmarked = records.map unmarked ∧
        u.mu.peers[k] = { s.mu.peers[k] with restated := true, lastAccepted := some s.now } ∧
        (fresh = true → u.hz.gateStop = setAt s.hz.gateStop k false ∧ u.hz.memory = setAt s.hz.memory k none) ∧
        (fresh = false → s.SameHazardMemory u) ∧ u.counter .protocolErrors = s.counter .protocolErrors) ∧
      (readRestatement payload = none → u.ct[k].applied = s.ct[k].applied ∧ u.ct[k].stale = true ∧
        u.ct[k].records.map unmarked = s.ct[k].records.map unmarked ∧ s.Counted u .protocolErrors ∧ s.SameHazardMemory u ∧
        u.mu.peers[k] = { s.mu.peers[k] with lastAccepted := some s.now }) ∧
      s.SameOwners u (· = k) ∧ s.SamePeers u (· = k) ∧ s.Counted u .accepted ∧ s.SameCounters u [.accepted, .protocolErrors] ∧
      s.SameMode u ∧ s.SameZoneSide u ∧ s.SameProgram u ∧ s.SameQuestions u) ∧
  (∀ payload : List Byte, payload.length < 2 → readRestatement payload = none) ∧
  (rawRecords [] = [] ∧ ∀ (a b c : Byte) (rest : List Byte), rawRecords (a :: b :: c :: rest) =
    { op := 0, tag := a.toNat, resource := b.toNat / 16, cls := b.toNat % 16, amount := c.toNat } :: rawRecords rest) ∧
  (∀ (number fresh : Byte) (items : List Byte),
    let raws := rawRecords items
    let passes := items.length % 3 = 0 ∧ items.length ≤ 18 ∧ (raws.map RawChange.tag).Nodup ∧
      ∀ raw ∈ raws, raw.tag ≤ 7 ∧ raw.cls ≤ 2 ∧ ∃ resource, raw.resource = resourceCode resource ∧ amountInRange resource raw.amount = true
    (¬ passes → readRestatement (number :: fresh :: items) = none) ∧
    (passes → ∃ records, readRestatement (number :: fresh :: items) = some (number, fresh != 0, records) ∧
      records.Pairwise (fun a b => a.tag < b.tag) ∧
      (records.map (fun r => ({ op := 0, tag := r.tag.val, resource := resourceCode r.resource, cls := classCode r.cls, amount := r.amount }
        : RawChange))).Perm raws))

/-- A RESYNC for this station or for all sets the restatement-due mark while JOINING or JOINED. One for another station leaves it, but where
the JOINING wait ends at that event: becoming JOINED makes a restatement due. -/
def Obligations.ResyncMakesRestatementDue : Prop :=
  ∀ (h : Header) (payload : List Byte) (s : State) (target : Nat), s.Delivers .resync h payload → readResync payload = some target →
    ∃ u, exec (.resync h payload) s = .next (frameEnds h.sender.toNat u) ∧
      (target = s.me.val ∨ target = 15 → s.takesPart = true → u.oc.restatementDue = true) ∧
      (target ≠ s.me.val → target ≠ 15 → s.mu.linkState ≠ .joining → u.oc.restatementDue = s.oc.restatementDue) ∧
      (target ≠ s.me.val → target ≠ 15 → s.mu.linkState = .joining →
        (s.joinEnds = false → u.mu.linkState = .joining ∧ u.oc.restatementDue = s.oc.restatementDue) ∧
        (s.joinEnds = true → u.mu.linkState = .joined ∧ u.oc.restatementDue = true)) ∧
      (s.takesPart = false → u.oc.restatementDue = s.oc.restatementDue) ∧
      s.Counted u .accepted ∧ s.SameCounters u [.accepted] ∧ s.SameOwners u (fun _ => False) ∧ s.SameMode u ∧ s.SameZoneSide u ∧
      s.SameProgram u ∧ s.SameHazardMemory u ∧ s.SameQuestions u ∧ (∀ k, headerStation h = some k → s.SamePeers u (· = k))

/-- A HAZARD: own and repeated notices are dropped; another is stored, and the first matching entry acts on the gate-stop set. An entry of the
working image matches where it is enabled, the origin agrees with its value in every bit of its mask, and the code is its own; the first of the
eight that matches answers, none where none does (R192), with the action, the relay flag and the relay group its bytes give (R198). -/
def Obligations.HazardTaken : Prop :=
  (∀ (h : Header) (payload : List Byte) (s : State) (origin : Station) (serial : Byte) (code : HazardCode) (hops : Nat),
    s.Delivers .hazard h payload → readHazard payload = some (origin, serial, code, hops) →
    ∃ u, exec (.hazard h payload) s = .next (frameEnds h.sender.toNat u) ∧
      (origin = s.me ∨ s.hz.memory[origin] = some serial → s.SameHazardMemory u) ∧
      (origin ≠ s.me → s.hz.memory[origin] ≠ some serial → u.hz.memory = setAt s.hz.memory origin (some serial) ∧
        u.hz.gateStop = (match s.responseTo origin code with
          | some e => (match e.action with
            | .gateStop => setAt s.hz.gateStop origin true
            | .gateResume => setAt s.hz.gateStop origin false
            | .none => s.hz.gateStop)
          | none => s.hz.gateStop)) ∧
      s.Counted u .accepted ∧ s.SameCounters u [.accepted] ∧ s.SameOwners u (fun _ => False) ∧ s.SameMode u ∧ s.SameZoneSide u ∧
      s.SameProgram u ∧ s.SameQuestions u ∧ (∀ k, headerStation h = some k → s.SamePeers u (· = k))) ∧
  (∀ (s : State) (origin : Station) (code : HazardCode),
    let applies := fun n : Nat =>
      let entry := fun k : Nat => s.image.read (99 + 4 * n + k)
      (entry 0).getLsbD 7 = true ∧
      (∀ i < 4, (entry 1).getLsbD i = true → (entry 1).getLsbD (4 + i) = origin.val.testBit i) ∧
      s.image.byteAt (99 + 4 * n) % 4 = hazardCode code
    ((∀ n < 8, ¬ applies n) → s.responseTo origin code = none) ∧
    (∀ n < 8, applies n → (∀ m < n, ¬ applies m) → s.responseTo origin code = some (s.image.response n))) ∧
  (∀ (image : Memory) (n : Nat),
    let entry := fun k : Nat => image.read (99 + 4 * n + k)
    let e := image.response n
    e.relay = (entry 0).getLsbD 6 ∧
    e.action = (if (entry 0).getLsbD 5 = true then .none else if (entry 0).getLsbD 4 = true then .gateResume else .gateStop) ∧
    ∀ i < 12, e.relayGroup.getLsbD i = if i < 8 then (entry 3).getLsbD i else (entry 2).getLsbD (i - 8))

/-- A taken notice is relayed with one hop less where its entry, of which HazardTaken says which that is, says so, and an own notice is queued with
the next serial; a full queue makes room, whichever of the two joins it: the oldest relay goes, or the oldest entry where there is no relay, with
one RELAY_DROPS. -/
def Obligations.NoticesQueued : Prop :=
  (∀ (s : State) (origin : Station) (serial : Byte) (code : HazardCode) (hops : Nat) (e : ResponseEntry), origin ≠ s.me →
    s.hz.memory[origin] ≠ some serial → s.responseTo origin code = some e →
    let t := takeHazard origin serial code hops s
    let relay : HazardEntry := { origin := origin, serial := serial, code := code, hops := hops - 1, group := e.relayGroup, sends := 3,
                                 relay := true, onWire := false }
    (e.relay = false ∨ hops = 0 → t.hz.queue = s.hz.queue ∧ t.rp = s.rp) ∧
    (e.relay = true → 0 < hops → s.hz.queue.length < 4 → t.hz.queue = s.hz.queue ++ [relay] ∧ t.rp = s.rp) ∧
    (e.relay = true → 0 < hops → ¬ s.hz.queue.length < 4 → s.Counted t .relayDrops ∧
        t.hz.queue = (match s.hz.queue.findIdx? (fun x => x.relay) with
      | some i => s.hz.queue.eraseIdx i
      | none => s.hz.queue.drop 1) ++ [relay])) ∧
  (∀ (s : State) (code : HazardCode),
    let t := queueNotice code s
    t.hz.serial = s.hz.serial + 1 ∧
    t.hz.stopMark = (match code with
      | .inflowStop => true
      | .inflowResume => false
      | _ => s.hz.stopMark) ∧
    t.hz.queue.getLast? = some {
      origin := s.me, serial := s.hz.serial + 1, code := code, hops := s.image.hopLimit, group := s.image.feederGroup
      sends := 3, relay := false, onWire := false } ∧
    (s.hz.queue.length < 4 → t.hz.queue.dropLast = s.hz.queue ∧ t.rp = s.rp) ∧
    (¬ s.hz.queue.length < 4 → s.Counted t .relayDrops ∧ (∀ c, c ≠ .relayDrops → t.counter c = s.counter c) ∧
      t.hz.queue.dropLast = (match s.hz.queue.findIdx? (fun x => x.relay) with
        | some i => s.hz.queue.eraseIdx i
        | none => s.hz.queue.drop 1)) ∧ s.SameHazardMemory t ∧ t.rs = s.rs ∧ t.pd = s.pd ∧ t.cs = s.cs)

/-! ## Frames of the panel and of the service tool -/

/-- A PROGRAM taken; a phase change writes the regulation request and the drained mark as R122 orders them. At the end of the event, after joining,
the detectors and the review of holds, which order is the model's reading, log 9, the fill and drain requests are evaluated (R125, R126), and
the program claims are brought to what the phase and the requests need: those no longer needed withdrawn, then those needed requested or amended
(R122, R128, R129), within each of the two in the order HEAT, FILL, DRAIN, which is the model's choice, log 37, as it is, log 47,
that waiting requests take the place a withdrawal frees before the requests behind it (UsableAmount); while ISOLATED every one is marked not held
and none requested (R130). -/
def Obligations.ProgramRule : Prop :=
  (∀ (h : Header) (payload : List Byte) (s : State) (phase : Phase) (demand : Demand) (serial : Byte), s.Delivers .program h payload →
    readProgram payload = some (phase, demand, serial) →
    ∃ u, exec (.program h payload) s = .next (frameEnds h.sender.toNat u) ∧ u.pd.phase = phase ∧ u.pd.demand = demand ∧
      u.pd.serial = some serial ∧ u.pd.silencePause = false ∧ u.pd.silenceTimer = some s.now ∧
      (phase = s.pd.phase → u.pd.regulation = s.pd.regulation) ∧ (regulates phase = false → phase ≠ s.pd.phase → u.pd.regulation = false) ∧
      s.Counted u .accepted ∧ s.SameCounters u [.accepted] ∧ s.SameOwners u (fun _ => False) ∧ s.SameMode u ∧ s.SameZoneSide u ∧
      s.SameHazardMemory u ∧ s.SameQuestions u ∧ (∀ k, headerStation h = some k → s.SamePeers u (· = k))) ∧
  (∀ (s : State) (phase : Phase), phase ≠ s.pd.phase →
    let t := changePhase phase s
    t.pd.phase = phase ∧
    (regulates phase = false → t.pd.regulation = false) ∧
    (regulates phase = true → regulates s.pd.phase = true → t.pd.regulation = s.pd.regulation) ∧
    (regulates phase = true → regulates s.pd.phase = false → s.driveRuns = true → t.pd.regulation = (match s.latestValid 0 with
      | none => false
      | some v => if v < s.image.setpoint - s.image.hysteresis then true
        else if s.image.setpoint ≤ v then false else s.pd.regulation)) ∧
    t.pd.drained = (phase == .drainDown && s.dry .levelLow) ∧
    t = { s with pd := t.pd } ∧ t.pd.demand = s.pd.demand ∧ t.pd.serial = s.pd.serial ∧ t.pd.silenceTimer = s.pd.silenceTimer) ∧
  (∀ s : State,
    (s.fillWanted = true ↔ s.zoneMode = .inService ∧ s.hasTank = true ∧ s.wet .levelHigh = false ∧
      ((s.pd.phase ∈ [Phase.fillUp, .heatUp, .run, .pause] ∧ s.dry .levelNormal = true) ∨
        (s.finalRinse = true ∧ s.pd.phase = .run ∧ s.pd.demand = .run ∧ ∀ (k : Station), ∀ r ∈ s.ct[k].records, r.resource ≠ .hold))) ∧
    (s.drainWanted = true ↔ s.zoneMode = .inService ∧ s.hasTank = true ∧ s.pd.phase = .drainDown ∧ s.pd.drained = false) ∧
    blocksPass s = driveEvaluate (reviewHolds (runDetectors (judgeJoin s))) ∧
    (let t : State := { s with pd := { s.pd with drained := s.pd.drained || (s.pd.phase == .drainDown && s.dry .levelLow) } }
     driveEvaluate s = updateProgramClaims { t with pd := { t.pd with fillRequest := t.fillWanted, drainRequest := t.drainWanted } }) ∧
    (s.mu.linkState = .isolated →
      updateProgramClaims s = { s with pd := { s.pd with heatClaim := none, fillClaim := none, drainClaim := none } }) ∧
    (s.mu.linkState ≠ .isolated →
      let fill := if s.pd.fillRequest = true then some 1 else none
      let drain := if s.pd.drainRequest = true then some 1 else none
      let drop := fun (resource : Resource) (held wanted : Option Nat) (t : State) =>
        if held ≠ none ∧ wanted = none then withdraw resource .program t else t
      let ask := fun (resource : Resource) (held wanted : Option Nat) (t : State) => match wanted with
        | none => t
        | some amount => if held = some amount then t
          else request { resource := resource, cls := .process, amount := amount, purpose := .program } t
      let dropped := drop .drain s.pd.drainClaim drain (drop .fill s.pd.fillClaim fill (drop .heat s.pd.heatClaim s.heatWanted s))
      let asked := ask .drain s.pd.drainClaim drain (ask .fill s.pd.fillClaim fill (ask .heat s.pd.heatClaim s.heatWanted dropped))
      updateProgramClaims s = { s with
        oc := asked.oc, ct := asked.ct
        pd := { s.pd with heatClaim := s.heatWanted, fillClaim := fill, drainClaim := drain } }))

/-- ACKNOWLEDGE: a FAILED record back to PENDING, a CLEARED record removed, anything else refused. -/
def Obligations.AcknowledgeRule : Prop :=
  ∀ (h : Header) (payload : List Byte) (s : State) (id : Nat), s.Delivers .operator h payload →
    readOperator payload = some (s.me, .acknowledge id) →
    ∃ v, exec (.acknowledge h payload) s = .next (afterFrame h (arrived h v)) ∧
      (∀ r reason, s.record id = some r → r.state = .failed reason →
        v = { s.asTaken with rs := { s.rs with incidents := s.rs.incidents.map (fun q =>
          if q.id = id then { q with state := .pending, attempts := 0, carried := false } else q) } }) ∧
      (∀ r outcome, s.record id = some r → r.state = .cleared outcome →
        v = resubmitUnrecorded { s.asTaken with rs := { s.rs with incidents := s.rs.incidents.filter (fun q => q.id != id) } }) ∧
      ((s.record id = none ∨ ∃ r, s.record id = some r ∧ isFailed r = false ∧ isCleared r = false) →
        v = { s.asTaken with rp := v.rp } ∧ s.Counted v .operatorRefused ∧ s.Counted v .accepted ∧
        s.SameCounters v [.operatorRefused, .accepted] ∧ s.SameQuestions v)

/-- ABANDON: a FAILED record ABANDONED, an IN_SERVICE zone OUT_OF_SERVICE with a ZONE_DOWN and its ACTIVE record suspended, anything else
refused. Where the last step of an ACTIVE LEAK record completes at that very event, it is CLEARED and its INFLOW_RESUME stands behind the
ZONE_DOWN (R195's row, which R164 does not speak of: the model's choice, log 40). -/
def Obligations.AbandonRule : Prop :=
  ∀ (h : Header) (payload : List Byte) (s : State) (id : Nat), s.Delivers .operator h payload →
    readOperator payload = some (s.me, .abandon id) →
    ∃ v, exec (.abandon h payload) s = .next (afterFrame h (arrived h v)) ∧
      (∀ r reason, s.record id = some r → r.state = .failed reason →
        let s1 := updateRecord id (fun q => { q with state := .abandoned reason }) s
        v.zoneMode = .outOfService ∧
        (s.zoneMode = .inService → v.pd = { s.pd with regulation := false } ∧
          (s1.leakCompletes = none → v.hz.serial = s.hz.serial + 1 ∧ (v.hz.queue.getLast?).map HazardEntry.code = some .zoneDown ∧
            v.rs.incidents = (match s1.activeStep with
              | some (active, _, _) => s1.rs.incidents.map (fun q => if q.id = active then { q with state := .pending } else q)
              | none => s1.rs.incidents)) ∧
          (∀ active, s1.leakCompletes = some active → s.fd.unrecorded = [] → v.hz.serial = s.hz.serial + 2 ∧
            (∃ before, v.hz.queue.map HazardEntry.code = before ++ [.zoneDown, .inflowResume]) ∧
            v.rs.incidents = s1.rs.incidents.map (fun q => if q.id = active then { q with state := .cleared .restored } else q))) ∧
        (s.zoneMode = .outOfService →
          v = { s.asTaken with rs := { s.rs with incidents := s.rs.incidents.map (fun q =>
            if q.id = id then { q with state := .abandoned reason } else q) } })) ∧
      ((s.record id = none ∨ ∃ r, s.record id = some r ∧ isFailed r = false) →
        v = { s.asTaken with rp := v.rp } ∧ s.Counted v .operatorRefused ∧ s.Counted v .accepted ∧
        s.SameCounters v [.operatorRefused, .accepted] ∧ s.SameQuestions v)

/-- RESUME_ZONE: ABANDONED records to PENDING, the zone IN_SERVICE, a ZONE_UP queued; refused where the zone is not OUT_OF_SERVICE. -/
def Obligations.ResumeZoneRule : Prop :=
  ∀ (h : Header) (payload : List Byte) (s : State), s.Delivers .operator h payload → readOperator payload = some (s.me, .resumeZone) →
    ∃ v, exec (.resumeZone h payload) s = .next (afterFrame h (arrived h v)) ∧
      (s.zoneMode = .outOfService → v.zoneMode = .inService ∧
        v.rs.incidents = s.rs.incidents.map (fun q => if isAbandoned q then { q with state := .pending, attempts := 0 } else q) ∧
        v.hz.serial = s.hz.serial + 1 ∧ (v.hz.queue.getLast?).map HazardEntry.code = some .zoneUp ∧ v.mu = s.mu ∧ v.ct = s.ct ∧
        v.oc = s.oc ∧ v.cs = s.cs) ∧
      (s.zoneMode ≠ .outOfService → v = { s.asTaken with rp := v.rp } ∧ s.Counted v .operatorRefused ∧ s.Counted v .accepted ∧
        s.SameCounters v [.operatorRefused, .accepted] ∧ s.SameQuestions v)

/-- A QUERY for this station, of any subject, enters the reply slot; a question waiting there is replaced and counted. Where the end of its
reception begins an opening in which the REPLY for the waiting question is due, that REPLY may be built first: it answers the old question,
and the new one enters the slot the build has emptied, not counted (the device gives both orders, R217; which, is open, log 39). -/
def Obligations.QueryEntersSlot : Prop :=
  ∀ (c : Instr) (h : Header) (payload : List Byte) (s : State) (target : Station) (subject : Subject) (clear : Bool),
    frameOf c = some (.query, h, payload) → readQuery payload = some (target, subject, clear) → target.val = s.cs.number.toNat →
    (s.Delivers .query h payload ∨ s.DeliversService .query h payload) →
    ∃ u, u.rp.slot = some { subject := subject, clear := clear, requester := h.sender } ∧ s.Counted u .accepted ∧
      s.SameCounters u [.accepted, .replyOverruns] ∧ s.SameOwners u (fun _ => False) ∧ s.SameMode u ∧ s.SameZoneSide u ∧ s.SameProgram u ∧
      s.SameHazardMemory u ∧
      ((exec c s = .next (frameEnds h.sender.toNat u) ∧ u.rp.inFlight = s.rp.inFlight ∧
        (s.rp.slot = none → u.counter .replyOverruns = s.counter .replyOverruns) ∧ (s.rp.slot ≠ none → s.Counted u .replyOverruns)) ∨
      (s.replyMeetsQuery h payload = true ∧ exec c s = .next u ∧ u.rp.inFlight = s.rp.slot ∧
        u.counter .replyOverruns = s.counter .replyOverruns ∧ ∃ f, u.lc.medium = .own f ∧ f.content = .reply ∧ f.start = s.now))

/-- WRITE. -/
def Obligations.WriteRule : Prop :=
  ∀ (h : Header) (payload : List Byte) (s : State) (target : Station) (a : Nat) (keep : Byte) (data : List Byte),
    s.DeliversService .setup h payload → readSetup payload = some (target, .write a keep data) → target.val = s.cs.number.toNat →
    s.ImagesWf →
    ∃ u, exec (.write h payload) s = .next (frameEnds h.sender.toNat u) ∧
      (s.cs.locked = true → u.cs = { s.cs with reply := some { status := .refusedLocked, data := [] } }) ∧
      (s.cs.locked = false → s.cs.commit ≠ none → u.cs = { s.cs with reply := some { status := .busy, data := [] } }) ∧
      (s.cs.locked = false → s.cs.commit = none → 254 < a + data.length →
        u.cs = { s.cs with reply := some { status := .badAddress, data := [] } }) ∧
      (s.cs.locked = false → s.cs.commit = none → a + data.length ≤ 254 →
        u.cs = { s.cs with working := u.cs.working, reply := some { status := .done, data := [] } } ∧
        ∀ b, u.cs.working.read b = if a ≤ b ∧ b < a + data.length ∧ b ≠ 253 then
            (s.cs.working.read b &&& keep) ||| (data.getD (b - a) 0 &&& ~~~ keep)
          else s.cs.working.read b) ∧
      s.Counted u .accepted ∧ s.SameCounters u [.accepted]

/-- READ. -/
def Obligations.ReadRule : Prop :=
  ∀ (h : Header) (payload : List Byte) (s : State) (target : Station) (a length : Nat),
    s.DeliversService .setup h payload → readSetup payload = some (target, .read a length) → target.val = s.cs.number.toNat →
    ∃ u, exec (.read h payload) s = .next (frameEnds h.sender.toNat u) ∧
      (a + length ≤ 256 → u.cs = { s.cs with
        reply := some { status := .done, data := (List.range length).map (fun i => s.cs.working.read (a + i)) } }) ∧
      (256 < a + length → u.cs = { s.cs with reply := some { status := .badAddress, data := [] } }) ∧
      s.Counted u .accepted ∧ s.SameCounters u [.accepted]

/-- COMMIT and LOCK up to the beginning of programming. What `validity` judges, test by test, is stated by LoadDecidesTheMode. -/
def Obligations.CommitAndLockRule : Prop :=
  ∀ (h : Header) (payload : List Byte) (s : State) (target : Station) (lock : Bool),
    s.DeliversService .setup h payload → readSetup payload = some (target, if lock then .lock else .commit) →
    target.val = s.cs.number.toNat → s.ImagesWf →
    ∃ u, exec (if lock then .lock h payload else .commit h payload) s = .next (frameEnds h.sender.toNat u) ∧
      (let image := if lock then s.cs.working.write 253 0x5A else s.cs.working
       let same := ∀ b, b < 256 → s.cs.working.read b = s.cs.stored.read b
       (s.cs.locked = true → u.cs = { s.cs with reply := some { status := .refusedLocked, data := [] } }) ∧
       (s.cs.locked = false → s.cs.commit ≠ none → u.cs = { s.cs with reply := some { status := .busy, data := [] } }) ∧
       (s.cs.locked = false → s.cs.commit = none → lock = true → ¬ same →
         u.cs = { s.cs with reply := some { status := .notEqual, data := [] } }) ∧
       (s.cs.locked = false → s.cs.commit = none → (lock = true → same) → validity image s.cs.straps.number ≠ .ok →
         u.cs = { s.cs with reply := some { status := .invalidImage, data := [byteOf (loadCode (validity image s.cs.straps.number))] } }) ∧
       (s.cs.locked = false → s.cs.commit = none → (lock = true → same) → validity image s.cs.straps.number = .ok →
         u.cs = { s.cs with working := u.cs.working, commit := some { row := 0, start := s.now, byLock := lock } } ∧
         (∀ b, b < 254 → u.cs.working.read b = image.read b) ∧
         u.cs.working.read 254 = highByte image.checkValue ∧ u.cs.working.read 255 = lowByte image.checkValue)) ∧
      s.Counted u .accepted ∧ s.SameCounters u [.accepted]

/-- The completion of a row: the row of the stored image is the working image's; after row 7 the stored image is whole, the commit ends with
DONE, and a LOCK locks. -/
def Obligations.RowProgrammedRule : Prop :=
  ∀ (s : State) (p : Programming), s.supply = true → s.cs.commit = some p → s.ImagesWf →
    ∃ t, exec .rowProgrammed s = .next t ∧ t.now = max s.now (p.start + 5000) ∧
      (∀ b, t.cs.stored.read b = if 32 * p.row ≤ b ∧ b < 32 * p.row + 32 then s.cs.working.read b else s.cs.stored.read b) ∧
      (p.row < 7 → t.cs = { s.cs with stored := t.cs.stored, commit := some { p with row := p.row + 1, start := p.start + 5000 } }) ∧
      (p.row = 7 → t.cs = { s.cs with stored := t.cs.stored, mixed := false, commit := none, locked := s.cs.locked || p.byLock,
                                      reply := some { status := .done, data := [] } }) ∧
      t = { s with now := t.now, cs := t.cs }

/-- LINE_TEST: set, then clear, then toggle, on lines of output functions; the pins follow in SETUP. Bit i of a mask stands for line Li: the
model's choice, log 36. -/
def Obligations.LineTestRule : Prop :=
  ∀ (h : Header) (payload : List Byte) (s : State) (target : Station) (set clear toggle : Word16),
    s.DeliversService .setup h payload → readSetup payload = some (target, .lineTest set clear toggle) →
    target.val = s.cs.number.toNat →
    ∃ u, exec (.lineTest h payload) s = .next (frameEnds h.sender.toNat u) ∧
      u.cs = { s.cs with reply := some { status := .done, data := [] } } ∧
      (∀ i : Line, u.lu.testLevels[i] = if (outputOf (s.image.lineFunction i)).isSome then
          (((s.lu.testLevels[i] || set.getLsbD i.val) && !clear.getLsbD i.val) != toggle.getLsbD i.val)
        else s.lu.testLevels[i]) ∧
      (s.zoneMode = .setup → ∀ i : Line, (outputOf (s.image.lineFunction i)).isSome = true →
        u.driven i = some u.lu.testLevels[i]) ∧
      (s.zoneMode = .haltedConfig → ∀ (i : Line) (f : OutputFunction), outputOf (s.image.lineFunction i) = some f →
        u.driven i = some (if f = .alert then true else u.lu.testLevels[i])) ∧
      s.Counted u .accepted ∧ s.SameCounters u [.accepted]

/-! ## Timers of the link and of the panel -/

/-- The listen timer: JOINING, and at once JOINED where no peer is PRESENT, or ISOLATED where R92 has run out. When that is, LossOfContactIsolates
states. -/
def Obligations.ListenTimerEnds : Prop :=
  ∀ (s : State) (start : Nat), s.supply = true → s.mu.linkState = .listening → s.mu.listenStart = some start →
    ∃ t, exec .listenTimerExpiry s = .next t ∧ t.now = max s.now (start + s.image.tListen) ∧
      (∀ d, s.contactDeadline = some d → d ≤ t.now → t.mu.linkState = .isolated ∧ t.mu.isolationReason = some .notHeardFrom) ∧
      ((∀ d, s.contactDeadline = some d → t.now < d) → t.mu.listenStart = none ∧ t.mu.peers = s.mu.peers ∧
        ((∀ k : Station, s.mu.peers[k].state ≠ .present) → t.mu.linkState = .joined) ∧
        ((∃ k : Station, s.mu.peers[k].state = .present) → t.mu.linkState = .joining ∧ t.mu.joinRequestDone = none) ∧ t.cs = s.cs) ∧
      t.zoneMode = s.zoneMode ∧ t.cs.stored = s.cs.stored ∧ t.cs.working = s.cs.working ∧ s.SameProgram t ∧ s.SameHazardMemory t

/-- The silence timer of a PRESENT peer: SILENT, and nothing else of its record or of its claims. The expiry timer of a SILENT peer: ABSENT,
its records removed; its gate-stop entry stays. -/
def Obligations.PeerTimers : Prop :=
  (∀ (s : State) (k : Station) (last : Nat), s.supply = true → s.mu.peers[k].state = .present → s.mu.peers[k].lastPresence = some last →
    ∃ t, exec (.silenceTimerExpiry k) s = .next t ∧ t.now = max s.now (last + s.image.tSilent) ∧
      t.mu.peers[k] = { s.mu.peers[k] with state := .silent } ∧ k ∉ t.requiredSet ∧ s.SamePeers t (· = k) ∧
      s.SameOwners t (fun _ => False) ∧ s.SameCounters t [] ∧ s.SameMode t ∧ s.SameZoneSide t ∧ s.SameProgram t ∧ s.SameHazardMemory t ∧
      s.SameQuestions t) ∧
  (∀ (s : State) (k : Station) (last : Nat), s.supply = true → s.mu.peers[k].state = .silent → s.mu.peers[k].lastPresence = some last →
    ∃ t, exec (.expiryTimerExpiry k) s = .next t ∧ t.now = max s.now (last + s.image.tExpire) ∧
      t.mu.peers[k] = { s.mu.peers[k] with state := .absent, ackOfMe := none, restated := false, reportedLink := none, heardSet := none } ∧
      t.ct[k].applied = none ∧ t.ct[k].stale = false ∧ (k ≠ s.me → t.ct[k].records = []) ∧ s.SamePeers t (· = k) ∧
      s.SameOwners t (· = k) ∧ s.SameCounters t [] ∧ s.SameMode t ∧ s.SameZoneSide t ∧ s.SameProgram t ∧ s.SameHazardMemory t ∧
      s.SameQuestions t)

/-- The interval of the not-heard-from or of the not-heard-by condition runs out: isolation with its reason. The first ends T_isolate after the
later of the event that armed the rule and the last arrival record of any peer (R92). The second starts at the end of the event at which the
condition of R93 has become true, runs on while it holds, and stops at the end of the event at which it no longer does. -/
def Obligations.LossOfContactIsolates : Prop :=
  (∀ (s : State) (d : Nat), s.supply = true → s.takesPart = true → s.contactDeadline = some d →
    ∃ v, exec .notHeardFrom s = .next (endEvent .none v) ∧ s.Isolates v .notHeardFrom ∧ v.now = max s.now d ∧
      (endEvent .none v).mu.linkState = .isolated) ∧
  (∀ (s : State) (since : Nat), s.supply = true → s.takesPart = true → s.mu.notHeardBySince = some since →
    ∃ v, exec .notHeardBy s = .next (endEvent .none v) ∧ s.Isolates v .notHeardBy ∧ v.now = max s.now (since + s.image.tIsolate) ∧
      (endEvent .none v).mu.linkState = .isolated) ∧
  (∀ s : State,
    (s.mu.armedAt = none → s.contactDeadline = none) ∧
    (∀ armed, s.mu.armedAt = some armed → ∃ last, s.contactDeadline = some (last + s.image.tIsolate) ∧ armed ≤ last ∧
      (∀ (k : Station) (arrival : Nat), k ≠ s.me → s.mu.peers[k].lastAccepted = some arrival → arrival ≤ last) ∧
      (last = armed ∨ ∃ k : Station, k ≠ s.me ∧ s.mu.peers[k].lastAccepted = some last))) ∧
  (∀ (tr : Trigger) (s : State),
    let notHeard := (s.mu.linkState = .joining ∨ s.mu.linkState = .joined) ∧ (∃ k : Station, s.mu.peers[k].state = .present) ∧
      ∀ (k : Station) (heard : StationSet), s.mu.peers[k].state = .present → s.mu.peers[k].heardSet = some heard → heard[s.me] = false
    (s.notHeard = true ↔ notHeard) ∧
    (notHeard → s.mu.notHeardBySince = none → (endEvent tr s).mu.notHeardBySince = some s.now) ∧
    (∀ since, notHeard → s.mu.notHeardBySince = some since → (endEvent tr s).mu.notHeardBySince = some since) ∧
    (¬ notHeard → (endEvent tr s).mu.notHeardBySince = none))

/-- The panel silence timer: a zone in FILL_UP, HEAT_UP or RUN pauses with demand STOP and the mark set; in another phase nothing changes
but the timer. -/
def Obligations.PanelSilencePauses : Prop :=
  ∀ (s : State) (start : Nat), s.supply = true → s.pd.silenceTimer = some start →
    ∃ t, exec .panelSilence s = .next t ∧ t.now = max s.now (start + s.image.tPanel) ∧ t.pd.silenceTimer = none ∧
      (s.pd.phase = .fillUp ∨ s.pd.phase = .heatUp ∨ s.pd.phase = .run →
        t.pd.phase = .pause ∧ t.pd.demand = .stop ∧ t.pd.silencePause = true) ∧
      (s.pd.phase = .off ∨ s.pd.phase = .pause ∨ s.pd.phase = .drainDown →
        t.pd.phase = s.pd.phase ∧ t.pd.demand = s.pd.demand ∧ t.pd.silencePause = s.pd.silencePause ∧ t.pd.regulation = s.pd.regulation) ∧
      t.pd.serial = s.pd.serial ∧ s.SamePeers t (fun _ => False) ∧ s.SameOwners t (fun _ => False) ∧ s.SameCounters t [] ∧ s.SameMode t ∧
      s.SameZoneSide t ∧ s.SameHazardMemory t ∧ s.SameQuestions t

/-! ## Detection and recovery -/

/-- The timer of a timed detector (TEMP_LOW, FILL_TIMEOUT, DRAIN_TIMEOUT, FILTER_BLOCKED) has run: a detection, the fault submitted at the timer's
end, one in the Unrecorded set again (R155). A fault not in the set then has a record that is not CLEARED, or joined it; the detector is LATCHED in
the first case. LEAK and DRY_HEAT are judged at once at a line change of their probes, ELEMENT_STUCK and ELEMENT_OPEN on ten and twenty samples of
their element's current channel in a row, SENSOR_FAULT on three of MC0. When each detector runs, its start and stop and the loss of its progress
(R138); the running states of the four timers and where they are judged (R146); and what becomes of a fault in the Unrecorded set that is submitted
again (R155; detected at of its record is the model's choice, log 45). The order of the blocks, and of several detectors, within an event is the
model's reading, log 9; that outputs of a step that starts and ends within one event reach the detectors is its choice, log 52. -/
def Obligations.TimedDetection : Prop :=
  (∀ (c : Instr) (f : FaultId) (s : State) (start : Nat), timerFault c = some f → s.supply = true → (s.detector f).state = .watching →
    (s.detector f).timer = some start → s.fd.unrecorded.contains f = false →
    ∃ v, exec c s = .next (endEvent .none v) ∧ v.now = max s.now (start + detectorTime s.image f) ∧
      ((v.rs.incidents.any (matchesFault f) = true ∧ (v.detector f).state = .latched) ∨
        (v.fd.unrecorded.contains f = true ∧ s.rs.incidents.any (matchesFault f) = false ∧ 8 ≤ s.rs.incidents.length)) ∧
      v.oc = s.oc ∧ v.ct = s.ct ∧ v.mu = s.mu ∧ v.cs = s.cs ∧ v.pd = s.pd ∧ v.ms = s.ms ∧ v.lu = s.lu ∧ v.hz = s.hz) ∧
  (∀ (c : Instr) (f : FaultId) (s : State) (start : Nat), timerFault c = some f → s.supply = true → (s.detector f).state = .watching →
    (s.detector f).timer = some start →
    exec c s = .next (endEvent .none (submit f { s with now := max s.now (start + detectorTime s.image f) }))) ∧
  (∀ (s : State) (i : Line) (start : Nat), s.supply = true → s.lu.timers[i] = some start → s.lu.debounced[i] ≠ some (s.pinActive i) →
    let u : State := { s with
      now := max s.now (start + s.image.debounce i)
      lu := { s.lu with timers := setAt s.lu.timers i none, debounced := setAt s.lu.debounced i (some (s.pinActive i)) } }
    (s.image.lineFunction i = .leakProbe → ∃ v, exec (.lineChangeEvent i) s = .next (endEvent .none v) ∧
      u.JudgesAtOnce v .leak (u.wet .leakProbe = true) (u.dry .leakProbe = true)) ∧
    (s.image.lineFunction i = .levelLow → ∃ v, exec (.lineChangeEvent i) s = .next (endEvent .none (evalTimed .drainTimeout v)) ∧
      u.JudgesAtOnce v .dryHeat (u.dry .levelLow = true ∧ ∃ e : Element, (u.output (.heat e)).active = true)
        (¬ (u.dry .levelLow = true ∧ ∃ e : Element, (u.output (.heat e)).active = true))) ∧
    (s.image.lineFunction i = .levelNormal → exec (.lineChangeEvent i) s = .next (endEvent .none (evalTimed .fillTimeout u)))) ∧
  (∀ (s : State) (c : Channel) (p : Presented), s.reads = true →
    let x := sampleOf p
    let u : State := { s with
      now := max s.now s.ms.nextArrival[c]
      ms := { s.ms with
        latest := setAt s.ms.latest c (some x), counts := setAt s.ms.counts c (min (s.ms.counts[c] + 1) 10)
        nextArrival := setAt s.ms.nextArrival c (max s.now s.ms.nextArrival[c] + 100000) } }
    (∀ e : Element, c = currentChannel e → ∃ v w, exec (.sampleArrival c p) s = .next (endEvent (.sample c) w) ∧
      u.JudgesSample v (.elementStuck e) 10 ((u.output (.heat e)).active = false ∧
        (x = .over ∨ ∃ n, validValue c x = some n ∧ s.image.iOnMin ≤ n)) ∧
      v.JudgesSample w (.elementOpen e) 20 ((v.output (.heat e)).active = true ∧ (v.output .heatIsolate).active = true ∧
        (x = .under ∨ ∃ n, validValue c x = some n ∧ n < s.image.iOnMin))) ∧
    (c = 0 → ∃ v, exec (.sampleArrival c p) s = .next (endEvent (.sample 0) (countValid 0 x (judgeRegulation (evalTimed .tempLow v)))) ∧
      u.JudgesSample v .sensorFault 3 (validValue 0 x = none)) ∧
    (c = 1 → exec (.sampleArrival c p) s = .next (endEvent (.sample 1) (evalTimed .filterBlocked u)))) ∧
  (∀ s : State,
    let onLink := s.zoneMode = .inService ∧ s.mu.linkState = .joined
    (∀ f, s.detectorRuns f = true ↔ match f with
      | .leak => s.cs.stage = .entered ∧ s.serviceMode = false
      | .elementStuck e => s.cs.stage = .entered ∧ s.serviceMode = false ∧ e.val < s.image.elementCount
      | .dryHeat => onLink ∧ ∃ i : Line, s.image.lineFunction i = .levelLow
      | .elementOpen e => onLink ∧ e.val < s.image.elementCount
      | .tempLow => onLink ∧ s.image.tempCritical = true
      | _ => onLink) ∧
    (∀ f, ((runDetectors s).detector f).state = .stopped ↔ s.detectorRuns f = false) ∧
    (∀ f, (s.detector f).state ≠ .stopped → s.detectorRuns f = true → runDetector s f = s) ∧
    (∀ f, (s.detector f).state ≠ .stopped → s.detectorRuns f = false →
      runDetector s f = setDetector f { state := .stopped, count := 0, timer := none } s) ∧
    (∀ f, (s.detector f).state = .stopped → s.detectorRuns f = false → runDetector s f = s) ∧
    (∀ f, (s.detector f).state = .stopped → s.detectorRuns f = true →
      let u := setDetector f { state := .watching, count := 0, timer := none } s
      runDetector s f = (match f with
        | .leak => evalAtOnce .leak u
        | .dryHeat => evalAtOnce .dryHeat u
        | .elementStuck _ => u
        | .sensorFault => u
        | .elementOpen _ => u
        | timed => evalTimed timed u)) ∧
    runDetectors s = ([.leak, .elementStuck 0, .elementStuck 1, .elementStuck 2, .dryHeat, .sensorFault, .elementOpen 0, .elementOpen 1,
      .elementOpen 2, .tempLow, .fillTimeout, .drainTimeout, .filterBlocked] : List FaultId).foldl runDetector s ∧
    s.JudgesAtOnce (evalAtOnce .leak s) .leak (s.wet .leakProbe = true) (s.dry .leakProbe = true) ∧
    (let holds := s.dry .levelLow = true ∧ ∃ e : Element, (s.output (.heat e)).active = true
     s.JudgesAtOnce (evalAtOnce .dryHeat s) .dryHeat holds (¬ holds)) ∧
    (∀ mode f, ((changeZoneMode mode s).detector f) = { s.detector f with count := 0, timer := none })) ∧
  (∀ s : State,
    (s.timerState .tempLow = true ↔ s.pd.phase = .run ∧ ∃ t, s.latestValid 0 = some t ∧ t < s.image.tempMin) ∧
    (s.timerState .fillTimeout = true ↔ s.output .fillValve = { active := true, source := .program } ∧ s.wet .levelNormal = false) ∧
    (s.timerState .drainTimeout = true ↔ s.output .drainValve = { active := true, source := .program } ∧ s.dry .levelLow = false) ∧
    (s.timerState .filterBlocked = true ↔ (s.output .pumpRun).active = true ∧ ∃ p, s.latestValid 1 = some p ∧ s.image.dpLimit ≤ p) ∧
    [.tempLow, .fillTimeout, .drainTimeout, .filterBlocked].map (detectorTime s.image) =
      [s.image.tTemp, s.image.tFill, s.image.tDrain, s.image.tFilter] ∧
    (∀ f, let d := s.detector f
      (d.state = .stopped → evalTimed f s = s) ∧
      (d.state = .watching → s.timerState f = false → evalTimed f s = setDetector f { d with timer := none } s) ∧
      (d.state = .watching → s.timerState f = true → d.timer = none → evalTimed f s = setDetector f { d with timer := some s.now } s) ∧
      (∀ t, d.state = .watching → s.timerState f = true → d.timer = some t → evalTimed f s =
        if s.fd.unrecorded.contains f = true ∧ t + detectorTime s.image f ≤ s.now then submit f s else s) ∧
      (d.state = .latched → evalTimed f s = if s.timerState f = true then s else setDetector f Detector.fresh s)) ∧
    (∀ before : Phase, phaseEvaluated before s = if s.pd.phase = before then s else evalTimed .tempLow s) ∧
    (let t := resolveOutputs s
     let changed := fun f : OutputFunction => (s.output f).active ≠ (t.output f).active
     let heat := if changed (.heat 0) ∨ changed (.heat 1) ∨ changed (.heat 2) then evalAtOnce .dryHeat t else t
     let fill := if s.output .fillValve ≠ t.output .fillValve then evalTimed .fillTimeout heat else heat
     let drain := if s.output .drainValve ≠ t.output .drainValve then evalTimed .drainTimeout fill else fill
     handOutputs s = if changed .pumpRun then evalTimed .filterBlocked drain else drain)) ∧
  (∀ (s : State) (f : FaultId), s.fd.unrecorded.contains f = true → s.rs.incidents.find? (matchesFault f) = none →
    (s.rs.incidents.length < 8 ∨ s.rs.incidents.find? isCleared ≠ none → let v := submit f s
      v.rs = (submitRecord f s).1.rs ∧ v.fd.unrecorded = s.fd.unrecorded.erase f ∧
      (v.detector f).state = (if (s.detector f).state = .stopped then .stopped else .latched) ∧
      v.hz = s.hz ∧ v.oc = s.oc ∧ v.ct = s.ct ∧ v.pd = s.pd ∧ v.lu = s.lu ∧ v.mu = s.mu) ∧
    (8 ≤ s.rs.incidents.length → s.rs.incidents.find? isCleared = none → submit f s = s)) ∧
  (∀ s : State, resubmitUnrecorded s = s.fd.unrecorded.foldl (fun t f => submit f t) s ∧
    ∀ id r, s.record id = some r → isCleared r = true → acknowledge id s = resubmitUnrecorded (removeRecord id s))

/-- A submission: a recurrence on the record that matches; else a new PENDING record, in the room of the oldest CLEARED record where the list is
full; else an Unrecorded entry. A new record takes the next id, or the first after it that no record holds, 255 followed by 1, and the next id is
the one after. Detected at is the time of the submission; that this holds of a fault submitted again from the Unrecorded set too is the model's
choice, log 45. Arbitration, IN_SERVICE and JOINED: the PENDING record of lowest rank, the first in list order among equals, becomes ACTIVE at step
1 with an attempt counted, where none is ACTIVE or the ACTIVE one has a higher rank and returns to PENDING; else the ACTIVE record returns to
PENDING and none is made ACTIVE. -/
def Obligations.SubmissionPlaced : Prop :=
  (∀ (f : FaultId) (r : Incident), matchesFault f r = true ↔ r.fault = f ∧ ∀ outcome, r.state ≠ .cleared outcome) ∧
  (∀ (f : FaultId) (s : State),
    (∀ r, s.rs.incidents.find? (matchesFault f) = some r →
      (submitRecord f s).1 = { s with rs := { s.rs with incidents := s.rs.incidents.map (fun q =>
        if q.id = r.id then { q with recurrences := min (q.recurrences + 1) 255 } else q) } }) ∧
    (s.rs.incidents.find? (matchesFault f) = none → s.rs.incidents.length < 8 →
      (submitRecord f s).1.rs.incidents = s.rs.incidents ++ [{
          id := s.newId, fault := f, state := .pending, attempts := 0, detectedAt := s.now / 1000, recurrences := 0, carried := false }] ∧
        (submitRecord f s).1.rs.nextId = (if 255 ≤ s.newId then 1 else s.newId + 1) ∧
        s.Counted (submitRecord f s).1 .incidentsRaised) ∧
    (∀ old, s.rs.incidents.find? (matchesFault f) = none → ¬ s.rs.incidents.length < 8 → s.rs.incidents.find? isCleared = some old →
      let left := removeRecord old.id s
      left.rs = { s.rs with incidents := s.rs.incidents.filter (fun q => q.id != old.id) } ∧
        (submitRecord f s).1.rs.incidents = left.rs.incidents ++ [{
          id := left.newId, fault := f, state := .pending, attempts := 0, detectedAt := s.now / 1000, recurrences := 0, carried := false }] ∧
        (submitRecord f s).1.rs.nextId = (if 255 ≤ left.newId then 1 else left.newId + 1) ∧
        s.Counted (submitRecord f s).1 .incidentsRaised) ∧
    (s.rs.incidents.find? (matchesFault f) = none → ¬ s.rs.incidents.length < 8 → s.rs.incidents.find? isCleared = none →
      (submitRecord f s).1.rs = s.rs ∧ (submitRecord f s).1.fd.unrecorded =
        if s.fd.unrecorded.contains f then s.fd.unrecorded else s.fd.unrecorded ++ [f])) ∧
  (∀ s : State, 1 ≤ s.rs.nextId → s.rs.nextId ≤ 255 → s.rs.incidents.length ≤ 8 →
    ∃ n ≤ 8, s.newId = (s.rs.nextId - 1 + n) % 255 + 1 ∧ (∀ r ∈ s.rs.incidents, r.id ≠ s.newId) ∧
      ∀ m < n, ∃ r ∈ s.rs.incidents, r.id = (s.rs.nextId - 1 + m) % 255 + 1) ∧
  (∀ (s : State) (r : Incident) (before behind : List Incident),
    s.zoneMode = .inService → s.mu.linkState = .joined → s.rs.incidents = before ++ r :: behind → r.state = .pending →
    (∀ q ∈ before, q.state = .pending → faultRank r.fault < faultRank q.fault) →
    (∀ q ∈ behind, q.state = .pending → faultRank r.fault ≤ faultRank q.fault) →
    let started := fun q : Incident => if q.id = r.id then
      { q with attempts := if q.attempts < s.image.attempts then q.attempts + 1 else q.attempts, state := .active (firstStep r.fault) } else q
    let begun := fun t : State => startStep r.id (firstStep r.fault) { t with rs := { t.rs with
      lastCause := none
      incidents := t.rs.incidents.map (fun q => if q.id = r.id then
        { q with attempts := if q.attempts < t.image.attempts then q.attempts + 1 else q.attempts } else q) } }
    (s.activeIncident = none → (arbitrate s).1.rs.incidents = s.rs.incidents.map started ∧ arbitrate s = (begun s, .start)) ∧
    (∀ a step, s.activeIncident = some a → a.state = .active step → faultRank r.fault < faultRank a.fault →
      (arbitrate s).1.rs.incidents =
        (s.rs.incidents.map (fun q => if q.id = a.id then { q with state := .pending } else q)).map started ∧
      arbitrate s = (begun (endStep a.id step { s with rs := { s.rs with
        incidents := s.rs.incidents.map (fun q => if q.id = a.id then { q with state := .pending } else q) } }), .start)) ∧
    (∀ a, s.activeIncident = some a → faultRank a.fault ≤ faultRank r.fault → arbitrate s = (s, .none))) ∧
  (∀ s : State, s.zoneMode = .inService → s.mu.linkState = .joined → (∀ q ∈ s.rs.incidents, q.state ≠ .pending) →
    arbitrate s = (s, .none)) ∧
  (∀ s : State, s.zoneMode ≠ .inService ∨ s.mu.linkState ≠ .joined →
    (s.activeIncident = none → arbitrate s = (s, .none)) ∧
    (∀ a step, s.activeIncident = some a → a.state = .active step →
      (arbitrate s).1.rs.incidents = s.rs.incidents.map (fun q => if q.id = a.id then { q with state := .pending } else q) ∧
      arbitrate s = (endStep a.id step { s with rs := { s.rs with
        incidents := s.rs.incidents.map (fun q => if q.id = a.id then { q with state := .pending } else q) } }, .none)))

/-- The steps of the procedures (R165 to R180): the step timer of a step whose claims are usable reaches the duration the step names, and the step
is judged at that time; the dry timer of DRY_WAIT reaches T_DRY. The table: duration, limit, next step and claim of each step, the levels it names,
what it releases of the containment and its heat request. The step timer runs while the claims are usable, the claim-wait timer while they are not
(R166; that RETEST asks for a nonzero amount too is the model's reading, log 51). The end of an event judges the active step after the blocks have
dealt with one another in the order of log 9, again until nothing changes (log 25), outputs of a step that starts and ends within the event handed
on (log 52). Completion and failure conditions step by step; where a completion and a failure or limit hold at one event either may be taken, which
of them being open (log 14), and FILTER_BLOCKED's VERIFY judges the latest sample of MC1 at its arrival and at its own start (log 15). CUT_CHECK and
RETEST judge samples. Then what follows: the next step, a new attempt, FAILED with its reason, or CLEARED with its outcome, a LEAK with
INFLOW_RESUME. That the last attempt cause is CONDITION also after the new attempt has started is the model's reading, log 21; that waiting requests
take the place a step's withdrawal frees before the next step's claim is its choice, log 47. What a pass of the event does between arbitration and
the judgement, in this order: while BOOST runs, the boost set on the PROGRAM HEAT claim, one created meanwhile included (R178); the grant marks (R8),
confirmation and usable amounts (R39, R41), the outputs (R106), the interval of R93 and the timers of the step (R166). -/
def Obligations.StepTimers : Prop :=
  (∀ (s : State) (id : Nat) (fault : FaultId) (step : Step) (since : Nat), s.supply = true →
    s.activeStep = some (id, fault, step) → s.rs.stepSince = some since →
    ∃ v, exec .stepTimerExpiry s = .next (endEvent .timer v) ∧ stepDuration s.image step ≤ v.stepTime ∧
      v = { s with now := max s.now (since + (stepDuration s.image step - s.rs.stepElapsed)) } ∧
      (v.elementVerdict fault step .timer = none → v.stepCompletes step = false → v.stepFails step .timer = false →
        v.judgement fault step .timer = limitVerdict step)) ∧
  (∀ (s : State) (id : Nat) (fault : FaultId) (since : Nat), s.supply = true → s.activeStep = some (id, fault, .leakDryWait) →
    s.rs.dryTimer = some since →
    ∃ v, exec .dryTimerExpiry s = .next (endEvent .none v) ∧ v = { s with now := max s.now (since + s.image.tDry) } ∧
      v.stepCompletes .leakDryWait = true ∧ v.judgement fault .leakDryWait .none = .complete) ∧
  (∀ image : Memory, ([.leakDrain, .leakDryWait, .leakRefill, .leakVerify, .cutCheck, .dryRefill, .dryVerify, .waitValid, .openRest,
      .openRetest, .boost, .fillRest, .fillRefill, .drainRest, .drainDrain, .filterStop, .filterBackflush, .filterTopUp, .filterVerify]
      : List Step).map (fun step => (stepDuration image step, limitVerdict step, nextStep step, stepClaim step)) =
    [(image.tDrain, .attemptFails, some .leakDryWait, some (.drain, .safety)), (image.tVerify, .fails .limit, some .leakRefill, none),
     (image.tFill, .attemptFails, some .leakVerify, some (.fill, .recovery)), (image.tVerify, .stay, none, none),
     (2000000, .fails .supplyUncut, none, none),
     (image.tFill, .attemptFails, some .dryVerify, some (.fill, .recovery)), (image.tVerify, .stay, none, none),
     (image.tVerify, .fails .limit, none, none),
     (5000000, .stay, some .openRetest, none), (2000000, .stay, none, none),
     (image.tBoost, .fails .limit, none, none),
     (30000000, .stay, some .fillRefill, none), (image.tFill, .attemptFails, none, some (.fill, .recovery)),
     (30000000, .stay, some .drainDrain, none), (image.tDrain, .fails .limit, none, some (.drain, .recovery)),
     (2000000, .stay, some .filterBackflush, none), (image.tFlush, .stay, some .filterTopUp, some (.drain, .recovery)),
     (image.tFill, .attemptFails, some .filterVerify, some (.fill, .recovery)), (image.tVerify, .stay, none, none)]) ∧
  (∀ e : Element, ([.leak, .elementStuck e, .dryHeat, .sensorFault, .elementOpen e, .tempLow, .fillTimeout, .drainTimeout, .filterBlocked]
      : List FaultId).map firstStep =
    [.leakDrain, .cutCheck, .dryRefill, .waitValid, .openRest, .boost, .fillRest, .drainRest, .filterStop]) ∧
  (∀ e : Element,
    let steps : List (FaultId × Step) :=
      [(.leak, .leakDrain), (.leak, .leakDryWait), (.leak, .leakRefill), (.leak, .leakVerify), (.elementStuck e, .cutCheck),
       (.dryHeat, .dryRefill), (.dryHeat, .dryVerify), (.sensorFault, .waitValid), (.elementOpen e, .openRest),
       (.elementOpen e, .openRetest), (.tempLow, .boost), (.fillTimeout, .fillRest), (.fillTimeout, .fillRefill),
       (.drainTimeout, .drainRest), (.drainTimeout, .drainDrain), (.filterBlocked, .filterStop), (.filterBlocked, .filterBackflush),
       (.filterBlocked, .filterTopUp), (.filterBlocked, .filterVerify)]
    steps.map (fun x => ([.fillValve, .drainValve, .pumpRun, .pumpReverse, .heat 0, .heat 1, .heat 2, .heatIsolate, .cascadeGate,
        .conveyorEnable, .alert] : List OutputFunction).filterMap (fun f => (stepNames x.2 f).map (fun level => (f, level)))) =
      [[(.drainValve, true)], [(.fillValve, false), (.drainValve, false)], [(.fillValve, true)], [], [],
       [(.fillValve, true)], [], [], [], [], [], [], [(.fillValve, true)], [], [(.drainValve, true)],
       [(.pumpRun, false), (.pumpReverse, false)], [(.drainValve, true), (.pumpRun, false), (.pumpReverse, true)],
       [(.fillValve, true), (.pumpRun, false)], []] ∧
    steps.map (fun x => (containment x.1).filter (stepReleases x.1 x.2)) =
      [[], [], [.fillValve], containment .leak, [], [], containment .dryHeat, [], [], [.heat e], [], [], [.fillValve], [], [.drainValve],
       [], [], [], []] ∧
    steps.map (fun x => stepHeat x.1 x.2) =
      [none, none, none, none, none, none, none, none, none, some (.only e), some .on, none, none, none, none, none, none, none, none]) ∧
  (∀ (s : State) (id : Nat) (fault : FaultId) (step : Step),
    s.claimsUsable id fault step = true ↔ match step with
      | .boost => ∃ c, s.ownClaim .heat .program = some c ∧ c.boosted = true ∧ 0 < c.usable
      | .openRetest => ∃ c e, s.ownClaim .heat .program = some c ∧ fault = .elementOpen e ∧ 0 < c.usable ∧ s.image.rating e ≤ c.usable
      | _ => ∀ resource cls, stepClaim step = some (resource, cls) → ∃ c, s.ownClaim resource (.step id) = some c ∧ 0 < c.usable) ∧
  (∀ s : State, s.activeStep = none → stepTimers s = s) ∧
  (∀ (s : State) (id : Nat) (fault : FaultId) (step : Step), s.activeStep = some (id, fault, step) →
    let t := stepTimers s
    let dry := if step = .leakDryWait ∧ s.dry .leakProbe = true then some (s.rs.dryTimer.getD s.now) else none
    (s.claimsUsable id fault step = true →
      t = { s with rs := { s.rs with stepSince := some (s.rs.stepSince.getD s.now), claimWait := none, dryTimer := dry } } ∧
      ((∀ since, s.rs.stepSince = some since → since ≤ s.now) →
        ∀ later, ({ t with now := s.now + later } : State).stepTime = s.stepTime + later)) ∧
    (s.claimsUsable id fault step = false →
      t = { s with rs := { s.rs with
        stepElapsed := s.stepTime, stepSince := none, claimWait := some (s.rs.claimWait.getD s.now), dryTimer := dry } } ∧
      ∀ later, ({ t with now := s.now + later } : State).stepTime = s.stepTime)) ∧
  (∀ (tr : Trigger) (s : State),
    let blocks := arbitrate (blocksPass s)
    let judged := judgeStep (if blocks.2 = .start then .start else tr) (claimsPass blocks.1)
    (endEvent tr s = if judged.1 = s ∧ judged.2 = .none then s else settle 255 judged.2 judged.1) ∧ settle 0 tr s = s ∧
    (∀ n, settle (n + 1) tr s = if judged.1 = s ∧ judged.2 = .none then s else settle n judged.2 judged.1) ∧
    (s.activeStep = none → judgeStep tr s = (s, .none))) ∧
  (∀ s : State,
    claimsPass s = stepTimers (watchNotHeard (handOutputs (refreshClaims (recomputeMarks (keepBoost s))))) ∧
    ((∀ id fault, s.activeStep ≠ some (id, fault, .boost)) → keepBoost s = s) ∧
    (∀ id fault, s.activeStep = some (id, fault, .boost) →
      (s.ownClaim .heat .program = none → keepBoost s = s) ∧
      (∀ c, s.ownClaim .heat .program = some c → s.Amends (keepBoost s) c { c with boosted := true })) ∧
    recomputeMarks s = { s with ct := remark s.image s.ct } ∧
    refreshClaims s = { s with oc := { s.oc with
      claims := s.oc.claims.map (fun c => { confirmClaim s c with usable := usableOf s (confirmClaim s c) }) } } ∧
    handOutputs s = evalOutputs s.lu.outputs (resolveOutputs s) ∧
    resolveOutputs s = { s with lu := { s.lu with outputs := (resolveOutputs s).lu.outputs } } ∧
    (∀ f, (resolveOutputs s).output f = s.resolve f) ∧
    watchNotHeard s = { s with mu := { s.mu with
      notHeardBySince := if s.notHeard = true then some (s.mu.notHeardBySince.getD s.now) else none } }) ∧
  (∀ (tr : Trigger) (s : State) (id : Nat) (fault : FaultId) (step : Step), s.activeStep = some (id, fault, step) →
    ∃ free, judgeStep tr s = carryOut id fault step (s.judgement fault step tr) { s with free := free }) ∧
  (∀ (s : State) (step : Step), s.stepCompletes step = true ↔ match step with
    | .leakDrain | .drainDrain => s.dry .levelLow = true
    | .leakDryWait => ∃ start, s.rs.dryTimer = some start ∧ start + s.image.tDry ≤ s.now
    | .leakRefill | .dryRefill | .fillRefill | .filterTopUp => s.wet .levelNormal = true
    | .leakVerify => stepDuration s.image step ≤ s.stepTime ∧ s.dry .leakProbe = true ∧ s.wet .levelNormal = true
    | .dryVerify | .openRest | .fillRest | .drainRest | .filterStop | .filterBackflush | .filterVerify =>
      stepDuration s.image step ≤ s.stepTime
    | .waitValid => 50 ≤ s.rs.validCount
    | .boost => ∃ t, s.latestValid 0 = some t ∧ s.image.tempMin + s.image.hysteresis ≤ t
    | .cutCheck | .openRetest => False) ∧
  (∀ (s : State) (step : Step) (tr : Trigger), s.stepFails step tr = true ↔ match step with
    | .leakRefill => s.wet .leakProbe = true ∨ (s.wet .levelHigh = true ∧ s.dry .levelNormal = true)
    | .leakVerify => s.wet .leakProbe = true ∨ s.dry .levelLow = true
    | .dryRefill | .fillRefill | .filterTopUp => s.wet .levelHigh = true ∧ s.dry .levelNormal = true
    | .dryVerify => s.dry .levelLow = true
    | .filterVerify => (tr = .start ∨ tr = .sample 1) ∧ (s.output .pumpRun).active = true ∧
        ∃ p, s.latestValid 1 = some p ∧ s.image.dpLimit ≤ p
    | _ => False) ∧
  (∀ (s : State) (fault : FaultId) (step : Step) (tr : Trigger), s.elementVerdict fault step tr = none →
    let limit := tr = .timer ∧ stepDuration s.image step ≤ s.stepTime
    (s.stepCompletes step = true → s.stepFails step tr = false → (limit → limitVerdict step = .stay) →
      s.judgement fault step tr = .complete) ∧
    (s.stepCompletes step = false → s.stepFails step tr = true → s.judgement fault step tr = .attemptFails) ∧
    (s.stepCompletes step = false → s.stepFails step tr = false → limit → s.judgement fault step tr = limitVerdict step) ∧
    (s.stepCompletes step = false → s.stepFails step tr = false → ¬ limit → s.judgement fault step tr = .stay) ∧
    (s.stepCompletes step = true → s.stepFails step tr = true →
      s.judgement fault step tr = .complete ∨ s.judgement fault step tr = .attemptFails) ∧
    (s.stepCompletes step = true → s.stepFails step tr = false → limit → limitVerdict step ≠ .stay →
      s.judgement fault step tr = .complete ∨ s.judgement fault step tr = limitVerdict step)) ∧
  (∀ (s : State) (e : Element) (tr : Trigger) (x : Sample),
    (s.stepTime < 2000000 → tr = .sample (currentChannel e) → s.ms.latest[currentChannel e] = some x →
      (x = .under ∨ ∃ n, validValue (currentChannel e) x = some n ∧ n < s.image.iOffMax) →
      s.judgement (.elementStuck e) .cutCheck tr = .markedOut e true) ∧
    (s.lu.elementOut[e] = true → s.judgement (.elementOpen e) .openRetest tr = .degraded) ∧
    (s.lu.elementOut[e] = false → 2000000 ≤ s.stepTime → tr = .sample (currentChannel e) → s.ms.latest[currentChannel e] = some x →
      (∀ n, validValue (currentChannel e) x = some n → s.image.iOnMin ≤ n →
        s.judgement (.elementOpen e) .openRetest tr = .complete) ∧
      (x = .under ∨ (∃ n, validValue (currentChannel e) x = some n ∧ n < s.image.iOnMin) →
        s.judgement (.elementOpen e) .openRetest tr = .markedOut e false) ∧
      (x ≠ .under → validValue (currentChannel e) x = none → s.judgement (.elementOpen e) .openRetest tr = .attemptFails))) ∧
  (∀ (s : State) (fault : FaultId) (step : Step) (tr : Trigger), s.elementVerdict fault step tr = none ∨
    (∃ (e : Element) (x : Sample), fault = .elementStuck e ∧ step = .cutCheck ∧ s.stepTime < 2000000 ∧ tr = .sample (currentChannel e) ∧
      s.ms.latest[currentChannel e] = some x ∧
      (x = .under ∨ ∃ n, validValue (currentChannel e) x = some n ∧ n < s.image.iOffMax)) ∨
    (∃ e : Element, fault = .elementOpen e ∧ step = .openRetest ∧ (s.lu.elementOut[e] = true ∨
      (2000000 ≤ s.stepTime ∧ tr = .sample (currentChannel e) ∧ ∃ x, s.ms.latest[currentChannel e] = some x)))) ∧
  (∀ (s : State) (id : Nat) (fault : FaultId) (step : Step),
    let set := fun (state : IncidentState) (records : List Incident) =>
      records.map (fun q : Incident => if q.id = id then { q with state := state } else q)
    let ended := fun (state : IncidentState) => endStep id step { s with rs := { s.rs with incidents := set state s.rs.incidents } }
    let stopped : State := { s with rs := { s.rs with
      stepElapsed := 0, stepSince := none, claimWait := none, dryTimer := none, validCount := 0 } }
    endStep id step s = (match stepClaim step with
      | some (resource, _) => withdraw resource (.step id) stopped
      | none => if step = .boost then setBoost .heat false stopped else stopped) ∧
    startStep id step s = (let started : State := { stopped with rs := { stopped.rs with incidents := set (.active step) s.rs.incidents } }
      match stepClaim step with
      | some (resource, cls) => request { resource := resource, cls := cls, amount := 1, purpose := .step id } started
      | none => if step = .boost then setBoost .heat true started else started) ∧
    (∀ next, nextStep step = some next →
      carryOut id fault step .complete s = (startStep id next (endStep id step s), .start) ∧
      (carryOut id fault step .complete s).1.rs = { stopped.rs with incidents := set (.active next) s.rs.incidents }) ∧
    (∀ outcome verdict, (nextStep step = none ∧ verdict = .complete ∧ outcome = .restored) ∨ (verdict = .degraded ∧ outcome = .degraded) →
      carryOut id fault step verdict s = (resubmitUnrecorded (if fault = .leak then queueNotice .inflowResume (ended (.cleared outcome))
        else ended (.cleared outcome)), .none) ∧
      (s.fd.unrecorded = [] →
        (carryOut id fault step verdict s).1.rs = { stopped.rs with incidents := set (.cleared outcome) s.rs.incidents } ∧
        (carryOut id fault step verdict s).1.hz = if fault = .leak then (queueNotice .inflowResume s).hz else s.hz)) ∧
    (∀ reason, carryOut id fault step (.fails reason) s = (ended (.failed reason), .none) ∧
      (ended (.failed reason)).rs = { stopped.rs with incidents := set (.failed reason) s.rs.incidents }) ∧
    (∀ r, s.activeIncident = some r → r.id = id →
      (r.attempts < s.image.attempts → (carryOut id fault step .attemptFails s).2 = .start ∧
        (carryOut id fault step .attemptFails s).1.rs = { stopped.rs with
          lastCause := some .condition
          incidents := s.rs.incidents.map (fun q =>
            if q.id = id then { q with attempts := q.attempts + 1, state := .active (firstStep fault) } else q) }) ∧
      (s.image.attempts ≤ r.attempts → (carryOut id fault step .attemptFails s).2 = .none ∧
        (carryOut id fault step .attemptFails s).1.rs = { stopped.rs with
          lastCause := some .condition, incidents := set (.failed .attemptsExhausted) s.rs.incidents })))

/-- The claim-wait timer reaches T_CLAIM_WAIT: the attempt fails with cause CLAIM_WAIT; a new attempt starts at step 1, or with no attempt
left the record is FAILED. That the cause stands after the new attempt has started is the model's reading, log 21. -/
def Obligations.ClaimWaitFails : Prop :=
  ∀ (s : State) (r : Incident) (step : Step) (since : Nat), s.supply = true → s.activeIncident = some r → r.state = .active step →
    s.rs.claimWait = some since →
    ∃ (tr : Trigger) (v : State), exec .claimWaitExpiry s = .next (endEvent tr v) ∧ v.now = max s.now (since + s.image.tClaimWait) ∧
      v.rs.lastCause = some .claimWait ∧ v.rs.stepElapsed = 0 ∧ v.rs.claimWait = none ∧
      (r.attempts < s.image.attempts → tr = .start ∧ v.rs.incidents = s.rs.incidents.map (fun q =>
        if q.id = r.id then { q with attempts := q.attempts + 1, state := .active (firstStep r.fault) } else q)) ∧
      (s.image.attempts ≤ r.attempts → v.rs.incidents = s.rs.incidents.map (fun q =>
        if q.id = r.id then { q with state := .failed .claimWait } else q)) ∧
      v.mu = s.mu ∧ v.pd = s.pd ∧ v.ms = s.ms ∧ v.cs = s.cs ∧ v.hz = s.hz ∧ v.lu = s.lu

/-! ## Grants and outputs -/

/-- The grant order lists every claim of a resource by class, SAFETY first, the owner's rank and tag (R5); the walk grants a beginning of it whose
amounts fit the capacity and ends at the first claim that does not fit; a record is GRANTED where the walk grants its claim, a HOLD record always.
-/
def Obligations.GrantWalk : Prop :=
  [.safety, .recovery, .process].map classOrder = [0, 1, 2] ∧
  (∀ (image : Memory) (a b : Claim),
    let p := image.byteAt (17 + a.1.val)
    let q := image.byteAt (17 + b.1.val)
    grantBefore image a b = true ↔ classOrder a.2.cls < classOrder b.2.cls ∨
      (a.2.cls = b.2.cls ∧ (p < q ∨ (p = q ∧ a.2.tag < b.2.tag)))) ∧
  ∀ (image : Memory) (table : Vector OwnerEntry 12),
    (∀ resource : Resource,
      (grantOrder image (claimsOf resource table)).Perm (claimsOf resource table) ∧
      (grantOrder image (claimsOf resource table)).Pairwise (fun a b => grantBefore image b a = false) ∧
      ((grantedOf image resource table).map (fun c => c.2.amount)).sum ≤ image.capacity resource ∧
      ∃ rest, grantOrder image (claimsOf resource table) = grantedOf image resource table ++ rest ∧
        ∀ c, rest.head? = some c → image.capacity resource < ((grantedOf image resource table).map (fun c => c.2.amount)).sum + c.2.amount) ∧
    (∀ c : Claim, c ∈ claimsOf c.2.resource table ↔ c.2 ∈ table[c.1].records) ∧
    (∀ k : Station, (remark image table)[k].records = table[k].records.map (fun r => { r with
      mark := if r.resource = .hold ∨ (grantedOf image r.resource table).any (fun c => c.1 == k && c.2.tag == r.tag) = true then .granted else .waiting }))

/-- Confirmation and the usable amount of an own claim, as the recomputation of R41 (`refreshClaims`) gives it to every own claim: a SENT claim is
confirmed where every peer PRESENT and JOINED has acknowledged its number and the quorum holds (R38, R39). Requests: a claim is created with the
lowest free tag and a NEW at the end of the unsent change list; a request with other values amends it, an equal one changes nothing, and a
boost amends the class; a containment request adds its holder and no change, and the claim goes with its last holder; while ISOLATED no claim
results; with no place or tag free the request waits, and at a place freed the waiting requests are taken, highest class first and oldest
first; a withdrawal removes the claim and its tag awaits release, unless its NEW had not left. That waiting requests take a freed place at the
removal itself (`placeFreed` behind every removal), before the requests made later in the same event, is the model's choice, log 47: R32 gives no
order. Changes of one tag coalesce in the place of the earlier one. -/
def Obligations.UsableAmount : Prop :=
  (∀ (s : State) (c : OwnClaim),
    (0 < usableOf s c → s.mu.linkState = .joined ∧ s.quorumHolds = true ∧ s.ownGranted c.tag = true) ∧
    (s.mu.linkState = .joined → s.quorumHolds = true → s.ownGranted c.tag = true →
      (c.resource = .hold → usableOf s c = 1) ∧
      (c.resource ≠ .hold → c.confirmed = none → usableOf s c = 0) ∧
      (∀ cls amount, c.resource ≠ .hold → c.confirmed = some (cls, amount) →
        usableOf s c = if c.amount ≤ amount ∧ classOrder cls ≤ classOrder c.cls then c.amount else 0)) ∧
    (∀ d ∈ (refreshClaims s).oc.claims, ∃ b ∈ s.oc.claims, d = { confirmClaim s b with usable := usableOf s (confirmClaim s b) }) ∧
    (s.quorumHolds = true ↔ s.image.quorum ≤ (if s.mu.linkState = .joined then 1 else 0) + (allStations.filter (fun k =>
      k != s.me && (s.mu.peers[k].state == .present && s.mu.peers[k].reportedLink == some .joined))).length) ∧
    c.cls = (if c.boosted = true ∧ c.requested = .process then .recovery else c.requested) ∧
    (let acknowledged := fun n : Byte => ∀ k : Station, k ≠ s.me → s.mu.peers[k].state = .present →
       s.mu.peers[k].reportedLink = some .joined → ∃ a, s.mu.peers[k].ackOfMe = some a ∧ (a - n).toNat < 128
     (∀ n, c.sent = .sent n → acknowledged n → s.quorumHolds = true →
       confirmClaim s c = { c with sent := .confirmed, confirmed := some (c.cls, c.amount) }) ∧
     (∀ n, c.sent = .sent n → ¬ (acknowledged n ∧ s.quorumHolds = true) → confirmClaim s c = c) ∧
     ((∀ n, c.sent ≠ .sent n) → confirmClaim s c = c))) ∧
  (∀ (s : State) (r : Request), r.amount ≠ 0 → amountInRange r.resource r.amount = true → (r.resource = .hold → r.cls = .safety) →
    (s.ownClaim r.resource r.purpose = none →
      (s.mu.linkState = .isolated → request r s = s) ∧
      (∀ t : Tag, s.mu.linkState ≠ .isolated → s.oc.claims.length < 6 → s.tagFree t = true → (∀ i : Tag, i < t → s.tagFree i = false) →
        (∀ c ∈ s.oc.unsent, c.tag ≠ t) →
        (request r s).oc = { s.oc with
          claims := insertOwn { tag := t, resource := r.resource, requested := r.cls, boosted := false, amount := r.amount
                                purpose := r.purpose, sent := .unsent, confirmed := none, usable := 0 } s.oc.claims
          unsent := s.oc.unsent ++ [{ tag := t, op := .new r.resource r.cls r.amount }] } ∧
        (request r s).ct[s.me].records.map unmarked = (insertRecord
          { tag := t, resource := r.resource, cls := r.cls, amount := r.amount, mark := .waiting } s.ct[s.me].records).map unmarked) ∧
      (s.mu.linkState ≠ .isolated → 6 ≤ s.oc.claims.length ∨ (∀ t, s.tagFree t = false) →
        let same := fun q : Request => q.resource = r.resource ∧ samePurpose q.purpose r.purpose = true
        ∃ list, request r s = { s with oc := { s.oc with waiting := list } } ∧
          ((∀ q ∈ s.oc.waiting, ¬ same q) → list = if s.oc.waiting.length < 8 then s.oc.waiting ++ [r] else s.oc.waiting) ∧
          (∀ before q behind, s.oc.waiting = before ++ q :: behind → s.oc.waiting.length ≤ 8 → (∀ p ∈ before, ¬ same p) → same q →
            list = before ++ (match q.purpose with
              | .contain hs => { r with purpose := .contain (addHolders hs (holdersOf r.purpose)) }
              | _ => r) :: behind))) ∧
    (∀ c, s.ownClaim r.resource r.purpose = some c →
      (∀ hs, c.purpose = .contain hs → request r s = { s with oc := { s.oc with claims := s.oc.claims.map (fun d =>
          if d.tag = c.tag then { c with purpose := .contain (addHolders hs (holdersOf r.purpose)) } else d) } }) ∧
      ((∀ hs, c.purpose ≠ .contain hs) → s.Amends (request r s) c { c with requested := r.cls, amount := r.amount }))) ∧
  (∀ (s : State) (resource : Resource) (boost : Bool),
    (s.ownClaim resource .program = none → setBoost resource boost s = s) ∧
    (∀ c, s.ownClaim resource .program = some c → s.Amends (setBoost resource boost s) c { c with boosted := boost })) ∧
  (∀ (s : State) (r : Request) (c : OwnClaim), r.resource ≠ .hold → r.amount = 0 → s.ownClaim r.resource r.purpose = some c →
    ∃ u, request r s = placeFreed u ∧ s.Releases u c) ∧
  (∀ (s : State) (h : Holder),
    (∀ c hs, s.ownClaim .hold (.contain []) = some c → c.purpose = .contain hs →
      (hs.erase h ≠ [] → withdrawHolder h s = { s with oc := { s.oc with claims := s.oc.claims.map (fun d =>
        if d.tag = c.tag then { c with purpose := .contain (hs.erase h) } else d) } }) ∧
      (hs.erase h = [] → ∃ u, withdrawHolder h s = placeFreed u ∧ s.Releases u c)) ∧
    (s.ownClaim .hold (.contain []) = none → withdrawHolder h s = { s with oc := { s.oc with
      waiting := s.oc.waiting.filterMap (fun q => match q.purpose with
        | .contain hs => if hs.erase h = [] then none else some { q with purpose := .contain (hs.erase h) }
        | _ => some q) } })) ∧
  (∀ s : State,
    (s.hasRoom = true ↔ s.oc.claims.length < 6 ∧ ∃ t, s.tagFree t = true) ∧
    (s.oc.waiting = [] ∨ s.hasRoom = false → placeFreed s = s) ∧
    (∀ before r behind, s.oc.waiting = before ++ r :: behind → s.oc.waiting.length ≤ 8 → s.hasRoom = true →
      (∀ q ∈ before, classOrder r.cls < classOrder q.cls) → (∀ q ∈ behind, classOrder r.cls ≤ classOrder q.cls) →
      r.amount ≠ 0 → amountInRange r.resource r.amount = true → (r.resource = .hold → r.cls = .safety) →
      placeFreed s = placeFreed (request r { s with oc := { s.oc with waiting := before ++ behind } }))) ∧
  (∀ (s : State) (r : Request),
    (r.resource = .hold → request r s = request { r with cls := .safety, amount := 1 } s) ∧
    (r.resource ≠ .hold → r.amount ≠ 0 → amountInRange r.resource r.amount = false → request r s = s) ∧
    (r.resource ≠ .hold → r.amount = 0 → s.ownClaim r.resource r.purpose = none → request r s = { s with oc := { s.oc with
      waiting := s.oc.waiting.filter (fun q => !(q.resource == r.resource && samePurpose q.purpose r.purpose)) } })) ∧
  (∀ s : State,
    (∀ resource purpose, s.ownClaim resource purpose =
      s.oc.claims.find? (fun c => c.resource == resource && samePurpose c.purpose purpose)) ∧
    (∀ t : Tag, s.tagFree t = true ↔ (∀ c ∈ s.oc.claims, c.tag ≠ t) ∧ s.oc.awaiting[t] = false) ∧
    (∀ t : Tag, s.ownGranted t = true ↔ ∃ r ∈ s.ct[s.me].records, r.tag = t ∧ r.mark = .granted)) ∧
  (∀ a b : Purpose, samePurpose a b = true ↔
    (a = .program ∧ b = .program) ∨ (∃ id, a = .step id ∧ b = .step id) ∨ ∃ hs more, a = .contain hs ∧ b = .contain more) ∧
  (∀ (hs more : List Holder) (h : Holder), h ∈ addHolders hs more ↔ h ∈ hs ∨ h ∈ more) ∧
  (∀ (c : OwnClaim) (before behind : List OwnClaim), (∀ d ∈ before, d.tag ≤ c.tag) → (∀ d, behind.head? = some d → c.tag < d.tag) →
    insertOwn c (before ++ behind) = before ++ c :: behind) ∧
  (∀ (c : Change) (list : List Change), (∀ d ∈ list, d.tag ≠ c.tag) → placeChange c list = (list ++ [c], false)) ∧
  (∀ (tag : Tag) (old new : ChangeOp) (before behind : List Change), (∀ d ∈ before, d.tag ≠ tag) →
    placeChange { tag := tag, op := new } (before ++ { tag := tag, op := old } :: behind) = match old, new with
      | .new resource _ _, .amend cls amount => (before ++ { tag := tag, op := .new resource cls amount } :: behind, false)
      | .new _ _ _, .release => (before ++ behind, true)
      | _, _ => (before ++ { tag := tag, op := new } :: behind, false))

/-- FILL_VALVE and DRAIN_VALVE are active only on a usable share of at least 1, and keep the source of their request without one. PUMP_RUN
and PUMP_REVERSE are never active together; a step's reverse request wins, otherwise the forward one. The requests themselves are stated by
ForcedAndFree. -/
def Obligations.OutputGates : Prop :=
  (∀ s : State,
    (s.forces .fillValve = false → s.resolve .fillValve =
      { active := (s.requested .fillValve).active && decide (1 ≤ s.usableSum .fill), source := (s.requested .fillValve).source }) ∧
    (s.forces .drainValve = false → s.resolve .drainValve =
      { active := (s.requested .drainValve).active && decide (1 ≤ s.usableSum .drain), source := (s.requested .drainValve).source }) ∧
    ((s.resolve .fillValve).active = true → ∃ c ∈ s.oc.claims, c.resource = .fill ∧ 1 ≤ c.usable) ∧
    ((s.resolve .drainValve).active = true → ∃ c ∈ s.oc.claims, c.resource = .drain ∧ 1 ≤ c.usable) ∧
    (∀ resource, s.usableSum resource = ((s.oc.claims.filter (fun c => c.resource == resource)).map OwnClaim.usable).sum ∧
      (1 ≤ s.usableSum resource ↔ ∃ c ∈ s.oc.claims, c.resource = resource ∧ 1 ≤ c.usable))) ∧
  (∀ s : State,
    ¬ ((s.resolve .pumpRun).active = true ∧ (s.resolve .pumpReverse).active = true) ∧
    (s.forces .pumpRun = false → s.forces .pumpReverse = false → (s.requested .pumpRun).active = true →
      (s.requested .pumpReverse).active = true →
      ((s.resolve .pumpReverse).active = true ↔ (s.requested .pumpReverse).source = .step) ∧
      ((s.resolve .pumpRun).active = true ↔ (s.requested .pumpReverse).source ≠ .step)) ∧
    (s.forces .pumpRun = true → s.forces .pumpReverse = false → s.resolve .pumpReverse = s.requested .pumpReverse) ∧
    (s.forces .pumpReverse = true → s.forces .pumpRun = false → s.resolve .pumpRun = s.requested .pumpRun) ∧
    (s.forces .pumpReverse = false → (s.requested .pumpRun).active = false → s.resolve .pumpReverse = s.requested .pumpReverse) ∧
    (s.forces .pumpRun = false → (s.requested .pumpReverse).active = false → s.resolve .pumpRun = s.requested .pumpRun))

/-- Forced functions are inactive with source FORCED: out of service, off the link, or contained by an incident or an Unrecorded entry (R107, the
functions of each kind by R147). A function
that is not forced takes the level the active step names, else the drive's request, else inactive (R108); what the drive requests of each in
IN_SERVICE, PUMP_RUN, HEAT_ISOLATE and CASCADE_GATE among them (R124, R131), from the first IN_SERVICE on, which before the first PROGRAM is the
model's reading, log 38. The conveyor runs in RUN, with demand RUN and no HOLD record of any owner, where it is not forced; that this gate is
applied at every station is the model's reading, log 34. ALERT follows its own conditions. An incident or an
Unrecorded entry holds the containment HOLD as R147 says, and the review makes the holder set of the one CONTAIN claim, or of its waiting
request, those that need it; the claim goes with the last of them, a waiting request taking its place at once (log 47, as UsableAmount says), and
while ISOLATED nothing is requested (R29, R148). -/
def Obligations.ForcedAndFree : Prop :=
  (∀ (s : State) (f : OutputFunction), f ≠ .alert →
    (s.zoneMode ≠ .inService ∨ s.mu.linkState ≠ .joined ∨
      (∃ r ∈ s.rs.incidents, f ∈ containment r.fault ∧ (r.state = .pending ∨ (∃ reason, r.state = .failed reason) ∨
        ∃ step, r.state = .active step ∧ stepReleases r.fault step f = false)) ∨
      (∃ k ∈ s.fd.unrecorded, f ∈ containment k)) →
    s.resolve f = { active := false, source := .forced }) ∧
  (∀ (s : State) (f : OutputFunction), s.forces f = true ↔ (s.zoneMode ≠ .inService ∨ s.mu.linkState ≠ .joined ∨
    (∃ r ∈ s.rs.incidents, f ∈ containment r.fault ∧ (r.state = .pending ∨ (∃ reason, r.state = .failed reason) ∨
      ∃ step, r.state = .active step ∧ stepReleases r.fault step f = false)) ∨
    (∃ k ∈ s.fd.unrecorded, f ∈ containment k))) ∧
  (∀ (s : State) (f : OutputFunction),
    (∀ id fault step level, s.activeStep = some (id, fault, step) → stepNames step f = some level →
      s.requested f = { active := level, source := .step }) ∧
    ((∀ id fault step, s.activeStep = some (id, fault, step) → stepNames step f = none) →
      (∀ level, s.driveRequest f = some level → s.requested f = { active := level, source := .program }) ∧
      (s.driveRequest f = none → s.requested f = { active := false, source := .none })) ∧
    (f = .heatIsolate ∨ f = .cascadeGate → s.forces f = false → s.resolve f = s.requested f)) ∧
  (∀ s : State,
    (s.zoneMode ≠ .inService → ∀ f, s.driveRequest f = none) ∧
    (s.zoneMode = .inService → s.driveRequest .alert = none ∧ (∀ e, s.driveRequest (.heat e) = none) ∧
      s.driveRequest .conveyorEnable = some (s.pd.phase == .run && s.pd.demand == .run) ∧
      (s.hasTank = true → s.driveRequest .fillValve = some s.pd.fillRequest ∧ s.driveRequest .drainValve = some s.pd.drainRequest ∧
        s.driveRequest .pumpRun = some (s.pd.phase == .run) ∧ s.driveRequest .pumpReverse = some false ∧
        s.driveRequest .heatIsolate = some true ∧ ∃ gate, s.driveRequest .cascadeGate = some gate ∧
          (gate = true ↔ s.pd.phase = .run ∧ ∀ k : Station, s.hz.gateStop[k] = false)) ∧
      (s.hasTank = false → ∀ f ∈ [OutputFunction.fillValve, .drainValve, .pumpRun, .pumpReverse, .heatIsolate, .cascadeGate],
        s.driveRequest f = none))) ∧
  (∀ s : State,
    ((s.resolve .conveyorEnable).active = true →
      s.pd.phase = .run ∧ s.pd.demand = .run ∧ ∀ (k : Station), ∀ r ∈ s.ct[k].records, r.resource ≠ .hold) ∧
    (s.forces .conveyorEnable = false → s.pd.phase = .run → s.pd.demand = .run → (∀ (k : Station), ∀ r ∈ s.ct[k].records, r.resource ≠ .hold) →
      (s.resolve .conveyorEnable).active = true) ∧
    ((s.resolve .alert).active = true ↔ ((∃ r ∈ s.rs.incidents, isFailed r = true ∨ isAbandoned r = true) ∨
      s.zoneMode = .outOfService ∨ s.zoneMode = .haltedConfig ∨ s.mu.linkState = .isolated))) ∧
  (∀ e : Element, ([.leak, .elementStuck e, .dryHeat, .sensorFault, .elementOpen e, .tempLow, .fillTimeout, .drainTimeout, .filterBlocked]
      : List FaultId).map containment =
    [[.fillValve, .pumpRun, .pumpReverse, .heat 0, .heat 1, .heat 2, .cascadeGate], [.heatIsolate, .heat 0, .heat 1, .heat 2],
     [.heat 0, .heat 1, .heat 2, .pumpRun], [.heat 0, .heat 1, .heat 2], [.heat e], [], [.fillValve], [.drainValve], []]) ∧
  (∀ s : State, (s.hasTank = true ↔ s.image.role ≠ 0) ∧ (s.finalRinse = true ↔ s.image.role = 4) ∧
    (s.driveRuns = true ↔ s.zoneMode = .inService ∧ s.hasTank = true)) ∧
  [.off, .fillUp, .heatUp, .run, .pause, .drainDown].map regulates = [false, false, true, true, true, false] ∧
  (∀ s : State,
    let calls := fun f : FaultId => f = .leak ∨ f = .tempLow ∨ (((∃ e, f = .elementStuck e) ∨ f = .sensorFault) ∧ s.image.tempCritical = true)
    let skipped := s.image.skippable = true ∧ s.zoneMode = .outOfService
    (∀ r, s.incidentNeedsHold r = true ↔ ¬ skipped ∧ ((isCleared r = false ∧ calls r.fault) ∨
      ((isFailed r = true ∨ isAbandoned r = true) ∧ ¬ (r.fault = .filterBlocked ∧ s.image.skippable = true)))) ∧
    (∀ h, h ∈ s.neededHolders ↔ (∃ r ∈ s.rs.incidents, s.incidentNeedsHold r = true ∧ h = .incident r.id) ∨
      ∃ f ∈ s.fd.unrecorded, ¬ skipped ∧ calls f ∧ h = .unrecorded f)) ∧
  (∀ s : State,
    (s.mu.linkState = .isolated → reviewHolds s = s) ∧
    (s.mu.linkState ≠ .isolated → ∀ c hs, s.ownClaim .hold (.contain []) = some c → c.purpose = .contain hs →
      (s.neededHolders ≠ [] → ∃ held, (∀ h, h ∈ held ↔ h ∈ s.neededHolders) ∧ ((held = hs ∧ reviewHolds s = s) ∨
        reviewHolds s = { s with oc := { s.oc with claims := s.oc.claims.map (fun d =>
          if d.tag = c.tag then { c with purpose := .contain held } else d) } })) ∧
      (s.neededHolders = [] → hs ≠ [] → ∃ u, reviewHolds s = placeFreed u ∧ s.Releases u c)) ∧
    (s.mu.linkState ≠ .isolated → s.ownClaim .hold (.contain []) = none → (∀ q ∈ s.oc.waiting, ∀ hs, q.purpose ≠ .contain hs) →
      (s.neededHolders = [] → reviewHolds s = s) ∧
      (s.neededHolders ≠ [] → ∃ held, (∀ h, h ∈ held ↔ h ∈ s.neededHolders) ∧
        (∀ t : Tag, s.oc.claims.length < 6 → s.tagFree t = true → (∀ i : Tag, i < t → s.tagFree i = false) → (∀ c ∈ s.oc.unsent, c.tag ≠ t) →
          (reviewHolds s).oc = { s.oc with
            claims := insertOwn { tag := t, resource := .hold, requested := .safety, boosted := false, amount := 1
                                  purpose := .contain held, sent := .unsent, confirmed := none, usable := 0 } s.oc.claims
            unsent := s.oc.unsent ++ [{ tag := t, op := .new .hold .safety 1 }] }) ∧
        (6 ≤ s.oc.claims.length ∨ (∀ t, s.tagFree t = false) → s.oc.waiting.length < 8 →
          reviewHolds s = { s with oc := { s.oc with
            waiting := s.oc.waiting ++ [{ resource := .hold, cls := .safety, amount := 1, purpose := .contain held }] } }))))

/-- The ratings of the elements that are on never sum above the usable HEAT amount, and no forced element is on. An element that recovery marks
out is in the element-out set from that event on, its record FAILED with NEEDS_SERVICE or CLEARED with DEGRADED; it is forced inactive, and
the HEAT claim the drive wants counts the others alone; that an element above ELEMENT_COUNT is added too is the model's choice, log 50. The heat
request of the active step, else of the drive, else off, and its selection: for the request on, the walk over the elements, each that fits beside
those already on switched on; for one element alone, that one where it fits; for off, none (R113; the source of HEAT_n is the model's, log 19). -/
def Obligations.HeatWithinShare : Prop :=
  (∀ s : State,
    ((allElements.filter (fun e => (s.resolve (.heat e)).active)).map s.image.rating).sum ≤ s.usableSum .heat ∧
    ∀ e : Element, ((s.resolve (.heat e)).active = true → s.elementForced e = false) ∧
      (s.elementForced e = true ↔ s.forces (.heat e) = true ∨ s.forces .heatIsolate = true ∨ s.lu.elementOut[e] = true ∨
        s.image.elementCount ≤ e.val)) ∧
  (∀ (s : State) (e : Element), s.lu.elementOut[e] = true ∨ s.image.elementCount ≤ e.val →
    s.resolve (.heat e) = { active := false, source := .forced }) ∧
  (∀ (s : State) (id : Nat) (fault : FaultId) (step : Step) (e : Element) (failed : Bool),
    let t := (carryOut id fault step (.markedOut e failed) s).1
    t.lu.elementOut = setAt s.lu.elementOut e true ∧
    (failed = true → t.rs.incidents = s.rs.incidents.map (fun q => if q.id = id then { q with state := .failed .needsService } else q)) ∧
    (failed = false → s.fd.unrecorded = [] →
      t.rs.incidents = s.rs.incidents.map (fun q => if q.id = id then { q with state := .cleared .degraded } else q))) ∧
  (∀ (s : State) (amount : Nat), s.heatWanted = some amount ↔ s.zoneMode = .inService ∧ s.hasTank = true ∧ regulates s.pd.phase = true ∧
    1 ≤ amount ∧ amount = min ((allElements.filter (fun e => e.val < s.image.elementCount && !s.lu.elementOut[e])).map s.image.rating).sum
      (s.image.capacity .heat)) ∧
  (∀ s : State,
    (∀ id fault step request, s.activeStep = some (id, fault, step) → stepHeat fault step = some request →
      s.heatRequest = (request, .step)) ∧
    ((∀ id fault step, s.activeStep = some (id, fault, step) → stepHeat fault step = none) →
      (s.zoneMode = .inService ∧ s.hasTank = true → s.heatRequest = (if s.pd.regulation = true then .on else .off, .program)) ∧
      (¬ (s.zoneMode = .inService ∧ s.hasTank = true) → s.heatRequest = (.off, .none))) ∧
    (∀ e : Element, s.elementForced e = false → (s.resolve (.heat e)).source = s.heatRequest.2 ∧
      ((s.resolve (.heat e)).active = true ↔ match s.heatRequest.1 with
        | .off => False
        | .on => ((allElements.filter (fun d => decide (d < e) && (s.resolve (.heat d)).active)).map s.image.rating).sum +
            s.image.rating e ≤ s.usableSum .heat
        | .only d => e = d ∧ s.image.rating e ≤ s.usableSum .heat)))

/-! ## Invariants -/

/-- Right after reset both images are in canonical form, the lists and counters are within bounds, and the outputs are safe. -/
def Obligations.InvariantsAtReset : Prop :=
  State.reset.ImagesWf ∧ State.reset.Bounded ∧ State.reset.SafeOff

/-- Every step keeps the canonical form of both images. -/
def Obligations.ImagesStayCanonical : Prop :=
  ∀ s t : State, s.ImagesWf → step s = .next t → t.ImagesWf

/-- Every step keeps the bounds of the lists, of the next incident id and of the counters. -/
def Obligations.BoundsKept : Prop :=
  ∀ s t : State, s.Bounded → step s = .next t → t.Bounded

/-- Every step keeps the outputs safe: no output but ALERT is active out of service or off the link, no share is usable off the link. -/
def Obligations.OutputsStaySafe : Prop :=
  ∀ s t : State, s.SafeOff → step s = .next t → t.SafeOff

/-- What only its own commands write: the pins, the debounced levels, the samples, the stored and the working image, the station number; and
what only a start undoes: an element marked out, the isolation of a station that has entered service and is latched for a duplicate number. -/
def Obligations.WrittenByTheirOwnCommands : Prop :=
  ∀ (c : Instr) (s t : State), exec c s = .next t → isStart c = false →
    ((∀ i high, c ≠ .rawLevelChange i high) → t.lu.pins = s.lu.pins) ∧
    ((∀ i, c ≠ .lineChangeEvent i) → t.lu.debounced = s.lu.debounced) ∧
    ((∀ ch p, c ≠ .sampleArrival ch p) → t.ms = s.ms) ∧
    (c ≠ .rowProgrammed → c ≠ .brownOut → t.cs.stored = s.cs.stored ∧ t.cs.mixed = s.cs.mixed) ∧
    ((∀ h p, frameOf c ≠ some (.setup, h, p)) → t.cs.working = s.cs.working) ∧
    t.cs.number = s.cs.number ∧ t.cs.straps = s.cs.straps ∧ t.cs.loadResult = s.cs.loadResult ∧
    (c ≠ .settleEnd → (∀ h p, frameOf c ≠ some (.operator, h, p)) → t.zoneMode = s.zoneMode) ∧
    (c ≠ .panelSilence → (∀ h p, frameOf c ≠ some (.program, h, p)) →
      t.pd.phase = s.pd.phase ∧ t.pd.demand = s.pd.demand ∧ t.pd.serial = s.pd.serial) ∧
    (∀ e : Element, s.lu.elementOut[e] = true → t.lu.elementOut[e] = true) ∧
    (s.cs.stage = .entered → s.mu.duplicateLatch = true → s.mu.linkState = .isolated →
      t.mu.duplicateLatch = true ∧ t.mu.linkState = .isolated)
end

