-- ==== Sys2Proof/Laws/State.lean ====
section
/-! SUPPORT. One lemma per field of State per named update: what the update leaves as it was. -/

namespace Sys2Proof.Machine

variable (s : State)

@[simp] theorem count_now (c : Counter) : (count c s).now = s.now := rfl
@[simp] theorem count_supply (c : Counter) : (count c s).supply = s.supply := rfl
@[simp] theorem count_zoneMode (c : Counter) : (count c s).zoneMode = s.zoneMode := rfl
@[simp] theorem count_lc (c : Counter) : (count c s).lc = s.lc := rfl
@[simp] theorem count_mu (c : Counter) : (count c s).mu = s.mu := rfl
@[simp] theorem count_ct (c : Counter) : (count c s).ct = s.ct := rfl
@[simp] theorem count_oc (c : Counter) : (count c s).oc = s.oc := rfl
@[simp] theorem count_lu (c : Counter) : (count c s).lu = s.lu := rfl
@[simp] theorem count_ms (c : Counter) : (count c s).ms = s.ms := rfl
@[simp] theorem count_pd (c : Counter) : (count c s).pd = s.pd := rfl
@[simp] theorem count_fd (c : Counter) : (count c s).fd = s.fd := rfl
@[simp] theorem count_rs (c : Counter) : (count c s).rs = s.rs := rfl
@[simp] theorem count_hz (c : Counter) : (count c s).hz = s.hz := rfl
@[simp] theorem count_cs (c : Counter) : (count c s).cs = s.cs := rfl
@[simp] theorem count_free (c : Counter) : (count c s).free = s.free := rfl
@[simp] theorem count_pending (c : Counter) : (count c s).pending = s.pending := rfl

@[simp] theorem advanceTo_supply (d : Nat) : (advanceTo d s).supply = s.supply := rfl
@[simp] theorem advanceTo_zoneMode (d : Nat) : (advanceTo d s).zoneMode = s.zoneMode := rfl
@[simp] theorem advanceTo_lc (d : Nat) : (advanceTo d s).lc = s.lc := rfl
@[simp] theorem advanceTo_mu (d : Nat) : (advanceTo d s).mu = s.mu := rfl
@[simp] theorem advanceTo_ct (d : Nat) : (advanceTo d s).ct = s.ct := rfl
@[simp] theorem advanceTo_oc (d : Nat) : (advanceTo d s).oc = s.oc := rfl
@[simp] theorem advanceTo_lu (d : Nat) : (advanceTo d s).lu = s.lu := rfl
@[simp] theorem advanceTo_ms (d : Nat) : (advanceTo d s).ms = s.ms := rfl
@[simp] theorem advanceTo_pd (d : Nat) : (advanceTo d s).pd = s.pd := rfl
@[simp] theorem advanceTo_fd (d : Nat) : (advanceTo d s).fd = s.fd := rfl
@[simp] theorem advanceTo_rs (d : Nat) : (advanceTo d s).rs = s.rs := rfl
@[simp] theorem advanceTo_hz (d : Nat) : (advanceTo d s).hz = s.hz := rfl
@[simp] theorem advanceTo_cs (d : Nat) : (advanceTo d s).cs = s.cs := rfl
@[simp] theorem advanceTo_rp (d : Nat) : (advanceTo d s).rp = s.rp := rfl
@[simp] theorem advanceTo_free (d : Nat) : (advanceTo d s).free = s.free := rfl
@[simp] theorem advanceTo_pending (d : Nat) : (advanceTo d s).pending = s.pending := rfl

@[simp] theorem tick_supply : (tick s).supply = s.supply := rfl
@[simp] theorem tick_zoneMode : (tick s).zoneMode = s.zoneMode := rfl
@[simp] theorem tick_lc : (tick s).lc = s.lc := rfl
@[simp] theorem tick_mu : (tick s).mu = s.mu := rfl
@[simp] theorem tick_ct : (tick s).ct = s.ct := rfl
@[simp] theorem tick_oc : (tick s).oc = s.oc := rfl
@[simp] theorem tick_lu : (tick s).lu = s.lu := rfl
@[simp] theorem tick_ms : (tick s).ms = s.ms := rfl
@[simp] theorem tick_pd : (tick s).pd = s.pd := rfl
@[simp] theorem tick_fd : (tick s).fd = s.fd := rfl
@[simp] theorem tick_rs : (tick s).rs = s.rs := rfl
@[simp] theorem tick_hz : (tick s).hz = s.hz := rfl
@[simp] theorem tick_cs : (tick s).cs = s.cs := rfl
@[simp] theorem tick_rp : (tick s).rp = s.rp := rfl
@[simp] theorem tick_free : (tick s).free = s.free := rfl
@[simp] theorem tick_pending : (tick s).pending = s.pending := rfl

@[simp] theorem setOwner_now (k : Station) (e : OwnerEntry) : (setOwner k e s).now = s.now := rfl
@[simp] theorem setOwner_supply (k : Station) (e : OwnerEntry) : (setOwner k e s).supply = s.supply := rfl
@[simp] theorem setOwner_zoneMode (k : Station) (e : OwnerEntry) : (setOwner k e s).zoneMode = s.zoneMode := rfl
@[simp] theorem setOwner_lc (k : Station) (e : OwnerEntry) : (setOwner k e s).lc = s.lc := rfl
@[simp] theorem setOwner_mu (k : Station) (e : OwnerEntry) : (setOwner k e s).mu = s.mu := rfl
@[simp] theorem setOwner_oc (k : Station) (e : OwnerEntry) : (setOwner k e s).oc = s.oc := rfl
@[simp] theorem setOwner_lu (k : Station) (e : OwnerEntry) : (setOwner k e s).lu = s.lu := rfl
@[simp] theorem setOwner_ms (k : Station) (e : OwnerEntry) : (setOwner k e s).ms = s.ms := rfl
@[simp] theorem setOwner_pd (k : Station) (e : OwnerEntry) : (setOwner k e s).pd = s.pd := rfl
@[simp] theorem setOwner_fd (k : Station) (e : OwnerEntry) : (setOwner k e s).fd = s.fd := rfl
@[simp] theorem setOwner_rs (k : Station) (e : OwnerEntry) : (setOwner k e s).rs = s.rs := rfl
@[simp] theorem setOwner_hz (k : Station) (e : OwnerEntry) : (setOwner k e s).hz = s.hz := rfl
@[simp] theorem setOwner_cs (k : Station) (e : OwnerEntry) : (setOwner k e s).cs = s.cs := rfl
@[simp] theorem setOwner_rp (k : Station) (e : OwnerEntry) : (setOwner k e s).rp = s.rp := rfl
@[simp] theorem setOwner_free (k : Station) (e : OwnerEntry) : (setOwner k e s).free = s.free := rfl
@[simp] theorem setOwner_pending (k : Station) (e : OwnerEntry) : (setOwner k e s).pending = s.pending := rfl

@[simp] theorem recomputeMarks_now : (recomputeMarks s).now = s.now := rfl
@[simp] theorem recomputeMarks_supply : (recomputeMarks s).supply = s.supply := rfl
@[simp] theorem recomputeMarks_zoneMode : (recomputeMarks s).zoneMode = s.zoneMode := rfl
@[simp] theorem recomputeMarks_lc : (recomputeMarks s).lc = s.lc := rfl
@[simp] theorem recomputeMarks_mu : (recomputeMarks s).mu = s.mu := rfl
@[simp] theorem recomputeMarks_oc : (recomputeMarks s).oc = s.oc := rfl
@[simp] theorem recomputeMarks_lu : (recomputeMarks s).lu = s.lu := rfl
@[simp] theorem recomputeMarks_ms : (recomputeMarks s).ms = s.ms := rfl
@[simp] theorem recomputeMarks_pd : (recomputeMarks s).pd = s.pd := rfl
@[simp] theorem recomputeMarks_fd : (recomputeMarks s).fd = s.fd := rfl
@[simp] theorem recomputeMarks_rs : (recomputeMarks s).rs = s.rs := rfl
@[simp] theorem recomputeMarks_hz : (recomputeMarks s).hz = s.hz := rfl
@[simp] theorem recomputeMarks_cs : (recomputeMarks s).cs = s.cs := rfl
@[simp] theorem recomputeMarks_rp : (recomputeMarks s).rp = s.rp := rfl
@[simp] theorem recomputeMarks_free : (recomputeMarks s).free = s.free := rfl
@[simp] theorem recomputeMarks_pending : (recomputeMarks s).pending = s.pending := rfl

@[simp] theorem clearTable_now : (clearTable s).now = s.now := rfl
@[simp] theorem clearTable_supply : (clearTable s).supply = s.supply := rfl
@[simp] theorem clearTable_zoneMode : (clearTable s).zoneMode = s.zoneMode := rfl
@[simp] theorem clearTable_lc : (clearTable s).lc = s.lc := rfl
@[simp] theorem clearTable_mu : (clearTable s).mu = s.mu := rfl
@[simp] theorem clearTable_oc : (clearTable s).oc = s.oc := rfl
@[simp] theorem clearTable_lu : (clearTable s).lu = s.lu := rfl
@[simp] theorem clearTable_ms : (clearTable s).ms = s.ms := rfl
@[simp] theorem clearTable_pd : (clearTable s).pd = s.pd := rfl
@[simp] theorem clearTable_fd : (clearTable s).fd = s.fd := rfl
@[simp] theorem clearTable_rs : (clearTable s).rs = s.rs := rfl
@[simp] theorem clearTable_hz : (clearTable s).hz = s.hz := rfl
@[simp] theorem clearTable_cs : (clearTable s).cs = s.cs := rfl
@[simp] theorem clearTable_rp : (clearTable s).rp = s.rp := rfl
@[simp] theorem clearTable_free : (clearTable s).free = s.free := rfl
@[simp] theorem clearTable_pending : (clearTable s).pending = s.pending := rfl

@[simp] theorem setMedium_now (m : Medium) : (setMedium m s).now = s.now := rfl
@[simp] theorem setMedium_supply (m : Medium) : (setMedium m s).supply = s.supply := rfl
@[simp] theorem setMedium_zoneMode (m : Medium) : (setMedium m s).zoneMode = s.zoneMode := rfl
@[simp] theorem setMedium_mu (m : Medium) : (setMedium m s).mu = s.mu := rfl
@[simp] theorem setMedium_ct (m : Medium) : (setMedium m s).ct = s.ct := rfl
@[simp] theorem setMedium_oc (m : Medium) : (setMedium m s).oc = s.oc := rfl
@[simp] theorem setMedium_lu (m : Medium) : (setMedium m s).lu = s.lu := rfl
@[simp] theorem setMedium_ms (m : Medium) : (setMedium m s).ms = s.ms := rfl
@[simp] theorem setMedium_pd (m : Medium) : (setMedium m s).pd = s.pd := rfl
@[simp] theorem setMedium_fd (m : Medium) : (setMedium m s).fd = s.fd := rfl
@[simp] theorem setMedium_rs (m : Medium) : (setMedium m s).rs = s.rs := rfl
@[simp] theorem setMedium_hz (m : Medium) : (setMedium m s).hz = s.hz := rfl
@[simp] theorem setMedium_cs (m : Medium) : (setMedium m s).cs = s.cs := rfl
@[simp] theorem setMedium_rp (m : Medium) : (setMedium m s).rp = s.rp := rfl
@[simp] theorem setMedium_free (m : Medium) : (setMedium m s).free = s.free := rfl
@[simp] theorem setMedium_pending (m : Medium) : (setMedium m s).pending = s.pending := rfl

@[simp] theorem mediumEnds_now : (mediumEnds s).now = s.now := rfl
@[simp] theorem mediumEnds_supply : (mediumEnds s).supply = s.supply := rfl
@[simp] theorem mediumEnds_zoneMode : (mediumEnds s).zoneMode = s.zoneMode := rfl
@[simp] theorem mediumEnds_mu : (mediumEnds s).mu = s.mu := rfl
@[simp] theorem mediumEnds_ct : (mediumEnds s).ct = s.ct := rfl
@[simp] theorem mediumEnds_oc : (mediumEnds s).oc = s.oc := rfl
@[simp] theorem mediumEnds_lu : (mediumEnds s).lu = s.lu := rfl
@[simp] theorem mediumEnds_ms : (mediumEnds s).ms = s.ms := rfl
@[simp] theorem mediumEnds_pd : (mediumEnds s).pd = s.pd := rfl
@[simp] theorem mediumEnds_fd : (mediumEnds s).fd = s.fd := rfl
@[simp] theorem mediumEnds_rs : (mediumEnds s).rs = s.rs := rfl
@[simp] theorem mediumEnds_hz : (mediumEnds s).hz = s.hz := rfl
@[simp] theorem mediumEnds_cs : (mediumEnds s).cs = s.cs := rfl
@[simp] theorem mediumEnds_rp : (mediumEnds s).rp = s.rp := rfl
@[simp] theorem mediumEnds_free : (mediumEnds s).free = s.free := rfl
@[simp] theorem mediumEnds_pending : (mediumEnds s).pending = s.pending := rfl

@[simp] theorem receiverOn_now : (receiverOn s).now = s.now := rfl
@[simp] theorem receiverOn_supply : (receiverOn s).supply = s.supply := rfl
@[simp] theorem receiverOn_zoneMode : (receiverOn s).zoneMode = s.zoneMode := rfl
@[simp] theorem receiverOn_mu : (receiverOn s).mu = s.mu := rfl
@[simp] theorem receiverOn_ct : (receiverOn s).ct = s.ct := rfl
@[simp] theorem receiverOn_oc : (receiverOn s).oc = s.oc := rfl
@[simp] theorem receiverOn_lu : (receiverOn s).lu = s.lu := rfl
@[simp] theorem receiverOn_ms : (receiverOn s).ms = s.ms := rfl
@[simp] theorem receiverOn_pd : (receiverOn s).pd = s.pd := rfl
@[simp] theorem receiverOn_fd : (receiverOn s).fd = s.fd := rfl
@[simp] theorem receiverOn_rs : (receiverOn s).rs = s.rs := rfl
@[simp] theorem receiverOn_hz : (receiverOn s).hz = s.hz := rfl
@[simp] theorem receiverOn_cs : (receiverOn s).cs = s.cs := rfl
@[simp] theorem receiverOn_rp : (receiverOn s).rp = s.rp := rfl
@[simp] theorem receiverOn_free : (receiverOn s).free = s.free := rfl
@[simp] theorem receiverOn_pending : (receiverOn s).pending = s.pending := rfl

@[simp] theorem setPeer_now (k : Station) (r : PeerRecord) : (setPeer k r s).now = s.now := rfl
@[simp] theorem setPeer_supply (k : Station) (r : PeerRecord) : (setPeer k r s).supply = s.supply := rfl
@[simp] theorem setPeer_zoneMode (k : Station) (r : PeerRecord) : (setPeer k r s).zoneMode = s.zoneMode := rfl
@[simp] theorem setPeer_lc (k : Station) (r : PeerRecord) : (setPeer k r s).lc = s.lc := rfl
@[simp] theorem setPeer_ct (k : Station) (r : PeerRecord) : (setPeer k r s).ct = s.ct := rfl
@[simp] theorem setPeer_oc (k : Station) (r : PeerRecord) : (setPeer k r s).oc = s.oc := rfl
@[simp] theorem setPeer_lu (k : Station) (r : PeerRecord) : (setPeer k r s).lu = s.lu := rfl
@[simp] theorem setPeer_ms (k : Station) (r : PeerRecord) : (setPeer k r s).ms = s.ms := rfl
@[simp] theorem setPeer_pd (k : Station) (r : PeerRecord) : (setPeer k r s).pd = s.pd := rfl
@[simp] theorem setPeer_fd (k : Station) (r : PeerRecord) : (setPeer k r s).fd = s.fd := rfl
@[simp] theorem setPeer_rs (k : Station) (r : PeerRecord) : (setPeer k r s).rs = s.rs := rfl
@[simp] theorem setPeer_hz (k : Station) (r : PeerRecord) : (setPeer k r s).hz = s.hz := rfl
@[simp] theorem setPeer_cs (k : Station) (r : PeerRecord) : (setPeer k r s).cs = s.cs := rfl
@[simp] theorem setPeer_rp (k : Station) (r : PeerRecord) : (setPeer k r s).rp = s.rp := rfl
@[simp] theorem setPeer_free (k : Station) (r : PeerRecord) : (setPeer k r s).free = s.free := rfl
@[simp] theorem setPeer_pending (k : Station) (r : PeerRecord) : (setPeer k r s).pending = s.pending := rfl

@[simp] theorem becomeJoining_now : (becomeJoining s).now = s.now := rfl
@[simp] theorem becomeJoining_supply : (becomeJoining s).supply = s.supply := rfl
@[simp] theorem becomeJoining_zoneMode : (becomeJoining s).zoneMode = s.zoneMode := rfl
@[simp] theorem becomeJoining_lc : (becomeJoining s).lc = s.lc := rfl
@[simp] theorem becomeJoining_ct : (becomeJoining s).ct = s.ct := rfl
@[simp] theorem becomeJoining_oc : (becomeJoining s).oc = s.oc := rfl
@[simp] theorem becomeJoining_lu : (becomeJoining s).lu = s.lu := rfl
@[simp] theorem becomeJoining_ms : (becomeJoining s).ms = s.ms := rfl
@[simp] theorem becomeJoining_pd : (becomeJoining s).pd = s.pd := rfl
@[simp] theorem becomeJoining_fd : (becomeJoining s).fd = s.fd := rfl
@[simp] theorem becomeJoining_rs : (becomeJoining s).rs = s.rs := rfl
@[simp] theorem becomeJoining_hz : (becomeJoining s).hz = s.hz := rfl
@[simp] theorem becomeJoining_cs : (becomeJoining s).cs = s.cs := rfl
@[simp] theorem becomeJoining_rp : (becomeJoining s).rp = s.rp := rfl
@[simp] theorem becomeJoining_free : (becomeJoining s).free = s.free := rfl
@[simp] theorem becomeJoining_pending : (becomeJoining s).pending = s.pending := rfl

@[simp] theorem becomeListening_now : (becomeListening s).now = s.now := rfl
@[simp] theorem becomeListening_supply : (becomeListening s).supply = s.supply := rfl
@[simp] theorem becomeListening_zoneMode : (becomeListening s).zoneMode = s.zoneMode := rfl
@[simp] theorem becomeListening_lc : (becomeListening s).lc = s.lc := rfl
@[simp] theorem becomeListening_ct : (becomeListening s).ct = s.ct := rfl
@[simp] theorem becomeListening_oc : (becomeListening s).oc = s.oc := rfl
@[simp] theorem becomeListening_lu : (becomeListening s).lu = s.lu := rfl
@[simp] theorem becomeListening_ms : (becomeListening s).ms = s.ms := rfl
@[simp] theorem becomeListening_pd : (becomeListening s).pd = s.pd := rfl
@[simp] theorem becomeListening_fd : (becomeListening s).fd = s.fd := rfl
@[simp] theorem becomeListening_rs : (becomeListening s).rs = s.rs := rfl
@[simp] theorem becomeListening_hz : (becomeListening s).hz = s.hz := rfl
@[simp] theorem becomeListening_cs : (becomeListening s).cs = s.cs := rfl
@[simp] theorem becomeListening_rp : (becomeListening s).rp = s.rp := rfl
@[simp] theorem becomeListening_free : (becomeListening s).free = s.free := rfl
@[simp] theorem becomeListening_pending : (becomeListening s).pending = s.pending := rfl

@[simp] theorem isolateMembership_now (r : IsolationReason) : (isolateMembership r s).now = s.now := rfl
@[simp] theorem isolateMembership_supply (r : IsolationReason) : (isolateMembership r s).supply = s.supply := rfl
@[simp] theorem isolateMembership_zoneMode (r : IsolationReason) : (isolateMembership r s).zoneMode = s.zoneMode := rfl
@[simp] theorem isolateMembership_lc (r : IsolationReason) : (isolateMembership r s).lc = s.lc := rfl
@[simp] theorem isolateMembership_ct (r : IsolationReason) : (isolateMembership r s).ct = s.ct := rfl
@[simp] theorem isolateMembership_oc (r : IsolationReason) : (isolateMembership r s).oc = s.oc := rfl
@[simp] theorem isolateMembership_lu (r : IsolationReason) : (isolateMembership r s).lu = s.lu := rfl
@[simp] theorem isolateMembership_ms (r : IsolationReason) : (isolateMembership r s).ms = s.ms := rfl
@[simp] theorem isolateMembership_pd (r : IsolationReason) : (isolateMembership r s).pd = s.pd := rfl
@[simp] theorem isolateMembership_fd (r : IsolationReason) : (isolateMembership r s).fd = s.fd := rfl
@[simp] theorem isolateMembership_rs (r : IsolationReason) : (isolateMembership r s).rs = s.rs := rfl
@[simp] theorem isolateMembership_hz (r : IsolationReason) : (isolateMembership r s).hz = s.hz := rfl
@[simp] theorem isolateMembership_cs (r : IsolationReason) : (isolateMembership r s).cs = s.cs := rfl
@[simp] theorem isolateMembership_rp (r : IsolationReason) : (isolateMembership r s).rp = s.rp := rfl
@[simp] theorem isolateMembership_free (r : IsolationReason) : (isolateMembership r s).free = s.free := rfl
@[simp] theorem isolateMembership_pending (r : IsolationReason) : (isolateMembership r s).pending = s.pending := rfl

@[simp] theorem watchNotHeard_now : (watchNotHeard s).now = s.now := rfl
@[simp] theorem watchNotHeard_supply : (watchNotHeard s).supply = s.supply := rfl
@[simp] theorem watchNotHeard_zoneMode : (watchNotHeard s).zoneMode = s.zoneMode := rfl
@[simp] theorem watchNotHeard_lc : (watchNotHeard s).lc = s.lc := rfl
@[simp] theorem watchNotHeard_ct : (watchNotHeard s).ct = s.ct := rfl
@[simp] theorem watchNotHeard_oc : (watchNotHeard s).oc = s.oc := rfl
@[simp] theorem watchNotHeard_lu : (watchNotHeard s).lu = s.lu := rfl
@[simp] theorem watchNotHeard_ms : (watchNotHeard s).ms = s.ms := rfl
@[simp] theorem watchNotHeard_pd : (watchNotHeard s).pd = s.pd := rfl
@[simp] theorem watchNotHeard_fd : (watchNotHeard s).fd = s.fd := rfl
@[simp] theorem watchNotHeard_rs : (watchNotHeard s).rs = s.rs := rfl
@[simp] theorem watchNotHeard_hz : (watchNotHeard s).hz = s.hz := rfl
@[simp] theorem watchNotHeard_cs : (watchNotHeard s).cs = s.cs := rfl
@[simp] theorem watchNotHeard_rp : (watchNotHeard s).rp = s.rp := rfl
@[simp] theorem watchNotHeard_free : (watchNotHeard s).free = s.free := rfl
@[simp] theorem watchNotHeard_pending : (watchNotHeard s).pending = s.pending := rfl

@[simp] theorem setDetector_now (f : FaultId) (d : Detector) : (setDetector f d s).now = s.now := rfl
@[simp] theorem setDetector_supply (f : FaultId) (d : Detector) : (setDetector f d s).supply = s.supply := rfl
@[simp] theorem setDetector_zoneMode (f : FaultId) (d : Detector) : (setDetector f d s).zoneMode = s.zoneMode := rfl
@[simp] theorem setDetector_lc (f : FaultId) (d : Detector) : (setDetector f d s).lc = s.lc := rfl
@[simp] theorem setDetector_mu (f : FaultId) (d : Detector) : (setDetector f d s).mu = s.mu := rfl
@[simp] theorem setDetector_ct (f : FaultId) (d : Detector) : (setDetector f d s).ct = s.ct := rfl
@[simp] theorem setDetector_oc (f : FaultId) (d : Detector) : (setDetector f d s).oc = s.oc := rfl
@[simp] theorem setDetector_lu (f : FaultId) (d : Detector) : (setDetector f d s).lu = s.lu := rfl
@[simp] theorem setDetector_ms (f : FaultId) (d : Detector) : (setDetector f d s).ms = s.ms := rfl
@[simp] theorem setDetector_pd (f : FaultId) (d : Detector) : (setDetector f d s).pd = s.pd := rfl
@[simp] theorem setDetector_rs (f : FaultId) (d : Detector) : (setDetector f d s).rs = s.rs := rfl
@[simp] theorem setDetector_hz (f : FaultId) (d : Detector) : (setDetector f d s).hz = s.hz := rfl
@[simp] theorem setDetector_cs (f : FaultId) (d : Detector) : (setDetector f d s).cs = s.cs := rfl
@[simp] theorem setDetector_rp (f : FaultId) (d : Detector) : (setDetector f d s).rp = s.rp := rfl
@[simp] theorem setDetector_free (f : FaultId) (d : Detector) : (setDetector f d s).free = s.free := rfl
@[simp] theorem setDetector_pending (f : FaultId) (d : Detector) : (setDetector f d s).pending = s.pending := rfl

@[simp] theorem dropProgress_now : (dropProgress s).now = s.now := rfl
@[simp] theorem dropProgress_supply : (dropProgress s).supply = s.supply := rfl
@[simp] theorem dropProgress_zoneMode : (dropProgress s).zoneMode = s.zoneMode := rfl
@[simp] theorem dropProgress_lc : (dropProgress s).lc = s.lc := rfl
@[simp] theorem dropProgress_mu : (dropProgress s).mu = s.mu := rfl
@[simp] theorem dropProgress_ct : (dropProgress s).ct = s.ct := rfl
@[simp] theorem dropProgress_oc : (dropProgress s).oc = s.oc := rfl
@[simp] theorem dropProgress_lu : (dropProgress s).lu = s.lu := rfl
@[simp] theorem dropProgress_ms : (dropProgress s).ms = s.ms := rfl
@[simp] theorem dropProgress_pd : (dropProgress s).pd = s.pd := rfl
@[simp] theorem dropProgress_rs : (dropProgress s).rs = s.rs := rfl
@[simp] theorem dropProgress_hz : (dropProgress s).hz = s.hz := rfl
@[simp] theorem dropProgress_cs : (dropProgress s).cs = s.cs := rfl
@[simp] theorem dropProgress_rp : (dropProgress s).rp = s.rp := rfl
@[simp] theorem dropProgress_free : (dropProgress s).free = s.free := rfl
@[simp] theorem dropProgress_pending : (dropProgress s).pending = s.pending := rfl

@[simp] theorem updateRecord_now (id : Nat) (f : Incident → Incident) : (updateRecord id f s).now = s.now := rfl
@[simp] theorem updateRecord_supply (id : Nat) (f : Incident → Incident) : (updateRecord id f s).supply = s.supply := rfl
@[simp] theorem updateRecord_zoneMode (id : Nat) (f : Incident → Incident) : (updateRecord id f s).zoneMode = s.zoneMode := rfl
@[simp] theorem updateRecord_lc (id : Nat) (f : Incident → Incident) : (updateRecord id f s).lc = s.lc := rfl
@[simp] theorem updateRecord_mu (id : Nat) (f : Incident → Incident) : (updateRecord id f s).mu = s.mu := rfl
@[simp] theorem updateRecord_ct (id : Nat) (f : Incident → Incident) : (updateRecord id f s).ct = s.ct := rfl
@[simp] theorem updateRecord_oc (id : Nat) (f : Incident → Incident) : (updateRecord id f s).oc = s.oc := rfl
@[simp] theorem updateRecord_lu (id : Nat) (f : Incident → Incident) : (updateRecord id f s).lu = s.lu := rfl
@[simp] theorem updateRecord_ms (id : Nat) (f : Incident → Incident) : (updateRecord id f s).ms = s.ms := rfl
@[simp] theorem updateRecord_pd (id : Nat) (f : Incident → Incident) : (updateRecord id f s).pd = s.pd := rfl
@[simp] theorem updateRecord_fd (id : Nat) (f : Incident → Incident) : (updateRecord id f s).fd = s.fd := rfl
@[simp] theorem updateRecord_hz (id : Nat) (f : Incident → Incident) : (updateRecord id f s).hz = s.hz := rfl
@[simp] theorem updateRecord_cs (id : Nat) (f : Incident → Incident) : (updateRecord id f s).cs = s.cs := rfl
@[simp] theorem updateRecord_rp (id : Nat) (f : Incident → Incident) : (updateRecord id f s).rp = s.rp := rfl
@[simp] theorem updateRecord_free (id : Nat) (f : Incident → Incident) : (updateRecord id f s).free = s.free := rfl
@[simp] theorem updateRecord_pending (id : Nat) (f : Incident → Incident) : (updateRecord id f s).pending = s.pending := rfl

@[simp] theorem removeRecord_now (id : Nat) : (removeRecord id s).now = s.now := rfl
@[simp] theorem removeRecord_supply (id : Nat) : (removeRecord id s).supply = s.supply := rfl
@[simp] theorem removeRecord_zoneMode (id : Nat) : (removeRecord id s).zoneMode = s.zoneMode := rfl
@[simp] theorem removeRecord_lc (id : Nat) : (removeRecord id s).lc = s.lc := rfl
@[simp] theorem removeRecord_mu (id : Nat) : (removeRecord id s).mu = s.mu := rfl
@[simp] theorem removeRecord_ct (id : Nat) : (removeRecord id s).ct = s.ct := rfl
@[simp] theorem removeRecord_oc (id : Nat) : (removeRecord id s).oc = s.oc := rfl
@[simp] theorem removeRecord_lu (id : Nat) : (removeRecord id s).lu = s.lu := rfl
@[simp] theorem removeRecord_ms (id : Nat) : (removeRecord id s).ms = s.ms := rfl
@[simp] theorem removeRecord_pd (id : Nat) : (removeRecord id s).pd = s.pd := rfl
@[simp] theorem removeRecord_fd (id : Nat) : (removeRecord id s).fd = s.fd := rfl
@[simp] theorem removeRecord_hz (id : Nat) : (removeRecord id s).hz = s.hz := rfl
@[simp] theorem removeRecord_cs (id : Nat) : (removeRecord id s).cs = s.cs := rfl
@[simp] theorem removeRecord_rp (id : Nat) : (removeRecord id s).rp = s.rp := rfl
@[simp] theorem removeRecord_free (id : Nat) : (removeRecord id s).free = s.free := rfl
@[simp] theorem removeRecord_pending (id : Nat) : (removeRecord id s).pending = s.pending := rfl

@[simp] theorem stopStepTimers_now : (stopStepTimers s).now = s.now := rfl
@[simp] theorem stopStepTimers_supply : (stopStepTimers s).supply = s.supply := rfl
@[simp] theorem stopStepTimers_zoneMode : (stopStepTimers s).zoneMode = s.zoneMode := rfl
@[simp] theorem stopStepTimers_lc : (stopStepTimers s).lc = s.lc := rfl
@[simp] theorem stopStepTimers_mu : (stopStepTimers s).mu = s.mu := rfl
@[simp] theorem stopStepTimers_ct : (stopStepTimers s).ct = s.ct := rfl
@[simp] theorem stopStepTimers_oc : (stopStepTimers s).oc = s.oc := rfl
@[simp] theorem stopStepTimers_lu : (stopStepTimers s).lu = s.lu := rfl
@[simp] theorem stopStepTimers_ms : (stopStepTimers s).ms = s.ms := rfl
@[simp] theorem stopStepTimers_pd : (stopStepTimers s).pd = s.pd := rfl
@[simp] theorem stopStepTimers_fd : (stopStepTimers s).fd = s.fd := rfl
@[simp] theorem stopStepTimers_hz : (stopStepTimers s).hz = s.hz := rfl
@[simp] theorem stopStepTimers_cs : (stopStepTimers s).cs = s.cs := rfl
@[simp] theorem stopStepTimers_rp : (stopStepTimers s).rp = s.rp := rfl
@[simp] theorem stopStepTimers_free : (stopStepTimers s).free = s.free := rfl
@[simp] theorem stopStepTimers_pending : (stopStepTimers s).pending = s.pending := rfl

@[simp] theorem replaceClaim_now (c : OwnClaim) : (replaceClaim c s).now = s.now := rfl
@[simp] theorem replaceClaim_supply (c : OwnClaim) : (replaceClaim c s).supply = s.supply := rfl
@[simp] theorem replaceClaim_zoneMode (c : OwnClaim) : (replaceClaim c s).zoneMode = s.zoneMode := rfl
@[simp] theorem replaceClaim_lc (c : OwnClaim) : (replaceClaim c s).lc = s.lc := rfl
@[simp] theorem replaceClaim_mu (c : OwnClaim) : (replaceClaim c s).mu = s.mu := rfl
@[simp] theorem replaceClaim_ct (c : OwnClaim) : (replaceClaim c s).ct = s.ct := rfl
@[simp] theorem replaceClaim_lu (c : OwnClaim) : (replaceClaim c s).lu = s.lu := rfl
@[simp] theorem replaceClaim_ms (c : OwnClaim) : (replaceClaim c s).ms = s.ms := rfl
@[simp] theorem replaceClaim_pd (c : OwnClaim) : (replaceClaim c s).pd = s.pd := rfl
@[simp] theorem replaceClaim_fd (c : OwnClaim) : (replaceClaim c s).fd = s.fd := rfl
@[simp] theorem replaceClaim_rs (c : OwnClaim) : (replaceClaim c s).rs = s.rs := rfl
@[simp] theorem replaceClaim_hz (c : OwnClaim) : (replaceClaim c s).hz = s.hz := rfl
@[simp] theorem replaceClaim_cs (c : OwnClaim) : (replaceClaim c s).cs = s.cs := rfl
@[simp] theorem replaceClaim_rp (c : OwnClaim) : (replaceClaim c s).rp = s.rp := rfl
@[simp] theorem replaceClaim_free (c : OwnClaim) : (replaceClaim c s).free = s.free := rfl
@[simp] theorem replaceClaim_pending (c : OwnClaim) : (replaceClaim c s).pending = s.pending := rfl

@[simp] theorem refreshClaims_now : (refreshClaims s).now = s.now := rfl
@[simp] theorem refreshClaims_supply : (refreshClaims s).supply = s.supply := rfl
@[simp] theorem refreshClaims_zoneMode : (refreshClaims s).zoneMode = s.zoneMode := rfl
@[simp] theorem refreshClaims_lc : (refreshClaims s).lc = s.lc := rfl
@[simp] theorem refreshClaims_mu : (refreshClaims s).mu = s.mu := rfl
@[simp] theorem refreshClaims_ct : (refreshClaims s).ct = s.ct := rfl
@[simp] theorem refreshClaims_lu : (refreshClaims s).lu = s.lu := rfl
@[simp] theorem refreshClaims_ms : (refreshClaims s).ms = s.ms := rfl
@[simp] theorem refreshClaims_pd : (refreshClaims s).pd = s.pd := rfl
@[simp] theorem refreshClaims_fd : (refreshClaims s).fd = s.fd := rfl
@[simp] theorem refreshClaims_rs : (refreshClaims s).rs = s.rs := rfl
@[simp] theorem refreshClaims_hz : (refreshClaims s).hz = s.hz := rfl
@[simp] theorem refreshClaims_cs : (refreshClaims s).cs = s.cs := rfl
@[simp] theorem refreshClaims_rp : (refreshClaims s).rp = s.rp := rfl
@[simp] theorem refreshClaims_free : (refreshClaims s).free = s.free := rfl
@[simp] theorem refreshClaims_pending : (refreshClaims s).pending = s.pending := rfl

@[simp] theorem clearOwnClaims_now : (clearOwnClaims s).now = s.now := rfl
@[simp] theorem clearOwnClaims_supply : (clearOwnClaims s).supply = s.supply := rfl
@[simp] theorem clearOwnClaims_zoneMode : (clearOwnClaims s).zoneMode = s.zoneMode := rfl
@[simp] theorem clearOwnClaims_lc : (clearOwnClaims s).lc = s.lc := rfl
@[simp] theorem clearOwnClaims_mu : (clearOwnClaims s).mu = s.mu := rfl
@[simp] theorem clearOwnClaims_ct : (clearOwnClaims s).ct = s.ct := rfl
@[simp] theorem clearOwnClaims_lu : (clearOwnClaims s).lu = s.lu := rfl
@[simp] theorem clearOwnClaims_ms : (clearOwnClaims s).ms = s.ms := rfl
@[simp] theorem clearOwnClaims_pd : (clearOwnClaims s).pd = s.pd := rfl
@[simp] theorem clearOwnClaims_fd : (clearOwnClaims s).fd = s.fd := rfl
@[simp] theorem clearOwnClaims_rs : (clearOwnClaims s).rs = s.rs := rfl
@[simp] theorem clearOwnClaims_hz : (clearOwnClaims s).hz = s.hz := rfl
@[simp] theorem clearOwnClaims_cs : (clearOwnClaims s).cs = s.cs := rfl
@[simp] theorem clearOwnClaims_rp : (clearOwnClaims s).rp = s.rp := rfl
@[simp] theorem clearOwnClaims_free : (clearOwnClaims s).free = s.free := rfl
@[simp] theorem clearOwnClaims_pending : (clearOwnClaims s).pending = s.pending := rfl

@[simp] theorem resolveOutputs_now : (resolveOutputs s).now = s.now := rfl
@[simp] theorem resolveOutputs_supply : (resolveOutputs s).supply = s.supply := rfl
@[simp] theorem resolveOutputs_zoneMode : (resolveOutputs s).zoneMode = s.zoneMode := rfl
@[simp] theorem resolveOutputs_lc : (resolveOutputs s).lc = s.lc := rfl
@[simp] theorem resolveOutputs_mu : (resolveOutputs s).mu = s.mu := rfl
@[simp] theorem resolveOutputs_ct : (resolveOutputs s).ct = s.ct := rfl
@[simp] theorem resolveOutputs_oc : (resolveOutputs s).oc = s.oc := rfl
@[simp] theorem resolveOutputs_ms : (resolveOutputs s).ms = s.ms := rfl
@[simp] theorem resolveOutputs_pd : (resolveOutputs s).pd = s.pd := rfl
@[simp] theorem resolveOutputs_fd : (resolveOutputs s).fd = s.fd := rfl
@[simp] theorem resolveOutputs_rs : (resolveOutputs s).rs = s.rs := rfl
@[simp] theorem resolveOutputs_hz : (resolveOutputs s).hz = s.hz := rfl
@[simp] theorem resolveOutputs_cs : (resolveOutputs s).cs = s.cs := rfl
@[simp] theorem resolveOutputs_rp : (resolveOutputs s).rp = s.rp := rfl
@[simp] theorem resolveOutputs_free : (resolveOutputs s).free = s.free := rfl
@[simp] theorem resolveOutputs_pending : (resolveOutputs s).pending = s.pending := rfl

@[simp] theorem markOut_now (e : Element) : (markOut e s).now = s.now := rfl
@[simp] theorem markOut_supply (e : Element) : (markOut e s).supply = s.supply := rfl
@[simp] theorem markOut_zoneMode (e : Element) : (markOut e s).zoneMode = s.zoneMode := rfl
@[simp] theorem markOut_lc (e : Element) : (markOut e s).lc = s.lc := rfl
@[simp] theorem markOut_mu (e : Element) : (markOut e s).mu = s.mu := rfl
@[simp] theorem markOut_ct (e : Element) : (markOut e s).ct = s.ct := rfl
@[simp] theorem markOut_oc (e : Element) : (markOut e s).oc = s.oc := rfl
@[simp] theorem markOut_ms (e : Element) : (markOut e s).ms = s.ms := rfl
@[simp] theorem markOut_pd (e : Element) : (markOut e s).pd = s.pd := rfl
@[simp] theorem markOut_fd (e : Element) : (markOut e s).fd = s.fd := rfl
@[simp] theorem markOut_rs (e : Element) : (markOut e s).rs = s.rs := rfl
@[simp] theorem markOut_hz (e : Element) : (markOut e s).hz = s.hz := rfl
@[simp] theorem markOut_cs (e : Element) : (markOut e s).cs = s.cs := rfl
@[simp] theorem markOut_rp (e : Element) : (markOut e s).rp = s.rp := rfl
@[simp] theorem markOut_free (e : Element) : (markOut e s).free = s.free := rfl
@[simp] theorem markOut_pending (e : Element) : (markOut e s).pending = s.pending := rfl

@[simp] theorem outputsOff_now : (outputsOff s).now = s.now := rfl
@[simp] theorem outputsOff_supply : (outputsOff s).supply = s.supply := rfl
@[simp] theorem outputsOff_zoneMode : (outputsOff s).zoneMode = s.zoneMode := rfl
@[simp] theorem outputsOff_lc : (outputsOff s).lc = s.lc := rfl
@[simp] theorem outputsOff_mu : (outputsOff s).mu = s.mu := rfl
@[simp] theorem outputsOff_ct : (outputsOff s).ct = s.ct := rfl
@[simp] theorem outputsOff_oc : (outputsOff s).oc = s.oc := rfl
@[simp] theorem outputsOff_ms : (outputsOff s).ms = s.ms := rfl
@[simp] theorem outputsOff_pd : (outputsOff s).pd = s.pd := rfl
@[simp] theorem outputsOff_fd : (outputsOff s).fd = s.fd := rfl
@[simp] theorem outputsOff_rs : (outputsOff s).rs = s.rs := rfl
@[simp] theorem outputsOff_hz : (outputsOff s).hz = s.hz := rfl
@[simp] theorem outputsOff_cs : (outputsOff s).cs = s.cs := rfl
@[simp] theorem outputsOff_rp : (outputsOff s).rp = s.rp := rfl
@[simp] theorem outputsOff_free : (outputsOff s).free = s.free := rfl
@[simp] theorem outputsOff_pending : (outputsOff s).pending = s.pending := rfl

@[simp] theorem clearOnWire_now : (clearOnWire s).now = s.now := rfl
@[simp] theorem clearOnWire_supply : (clearOnWire s).supply = s.supply := rfl
@[simp] theorem clearOnWire_zoneMode : (clearOnWire s).zoneMode = s.zoneMode := rfl
@[simp] theorem clearOnWire_lc : (clearOnWire s).lc = s.lc := rfl
@[simp] theorem clearOnWire_mu : (clearOnWire s).mu = s.mu := rfl
@[simp] theorem clearOnWire_ct : (clearOnWire s).ct = s.ct := rfl
@[simp] theorem clearOnWire_oc : (clearOnWire s).oc = s.oc := rfl
@[simp] theorem clearOnWire_lu : (clearOnWire s).lu = s.lu := rfl
@[simp] theorem clearOnWire_ms : (clearOnWire s).ms = s.ms := rfl
@[simp] theorem clearOnWire_pd : (clearOnWire s).pd = s.pd := rfl
@[simp] theorem clearOnWire_fd : (clearOnWire s).fd = s.fd := rfl
@[simp] theorem clearOnWire_rs : (clearOnWire s).rs = s.rs := rfl
@[simp] theorem clearOnWire_cs : (clearOnWire s).cs = s.cs := rfl
@[simp] theorem clearOnWire_rp : (clearOnWire s).rp = s.rp := rfl
@[simp] theorem clearOnWire_free : (clearOnWire s).free = s.free := rfl
@[simp] theorem clearOnWire_pending : (clearOnWire s).pending = s.pending := rfl

@[simp] theorem hazardSent_now : (hazardSent s).now = s.now := rfl
@[simp] theorem hazardSent_supply : (hazardSent s).supply = s.supply := rfl
@[simp] theorem hazardSent_zoneMode : (hazardSent s).zoneMode = s.zoneMode := rfl
@[simp] theorem hazardSent_lc : (hazardSent s).lc = s.lc := rfl
@[simp] theorem hazardSent_mu : (hazardSent s).mu = s.mu := rfl
@[simp] theorem hazardSent_ct : (hazardSent s).ct = s.ct := rfl
@[simp] theorem hazardSent_oc : (hazardSent s).oc = s.oc := rfl
@[simp] theorem hazardSent_lu : (hazardSent s).lu = s.lu := rfl
@[simp] theorem hazardSent_ms : (hazardSent s).ms = s.ms := rfl
@[simp] theorem hazardSent_pd : (hazardSent s).pd = s.pd := rfl
@[simp] theorem hazardSent_fd : (hazardSent s).fd = s.fd := rfl
@[simp] theorem hazardSent_rs : (hazardSent s).rs = s.rs := rfl
@[simp] theorem hazardSent_cs : (hazardSent s).cs = s.cs := rfl
@[simp] theorem hazardSent_rp : (hazardSent s).rp = s.rp := rfl
@[simp] theorem hazardSent_free : (hazardSent s).free = s.free := rfl
@[simp] theorem hazardSent_pending : (hazardSent s).pending = s.pending := rfl

@[simp] theorem freshOwner_now (k : Station) : (freshOwner k s).now = s.now := rfl
@[simp] theorem freshOwner_supply (k : Station) : (freshOwner k s).supply = s.supply := rfl
@[simp] theorem freshOwner_zoneMode (k : Station) : (freshOwner k s).zoneMode = s.zoneMode := rfl
@[simp] theorem freshOwner_lc (k : Station) : (freshOwner k s).lc = s.lc := rfl
@[simp] theorem freshOwner_mu (k : Station) : (freshOwner k s).mu = s.mu := rfl
@[simp] theorem freshOwner_ct (k : Station) : (freshOwner k s).ct = s.ct := rfl
@[simp] theorem freshOwner_oc (k : Station) : (freshOwner k s).oc = s.oc := rfl
@[simp] theorem freshOwner_lu (k : Station) : (freshOwner k s).lu = s.lu := rfl
@[simp] theorem freshOwner_ms (k : Station) : (freshOwner k s).ms = s.ms := rfl
@[simp] theorem freshOwner_pd (k : Station) : (freshOwner k s).pd = s.pd := rfl
@[simp] theorem freshOwner_fd (k : Station) : (freshOwner k s).fd = s.fd := rfl
@[simp] theorem freshOwner_rs (k : Station) : (freshOwner k s).rs = s.rs := rfl
@[simp] theorem freshOwner_cs (k : Station) : (freshOwner k s).cs = s.cs := rfl
@[simp] theorem freshOwner_rp (k : Station) : (freshOwner k s).rp = s.rp := rfl
@[simp] theorem freshOwner_free (k : Station) : (freshOwner k s).free = s.free := rfl
@[simp] theorem freshOwner_pending (k : Station) : (freshOwner k s).pending = s.pending := rfl

@[simp] theorem reply_now (st : SetupStatus) (data : List Byte) : (reply st data s).now = s.now := rfl
@[simp] theorem reply_supply (st : SetupStatus) (data : List Byte) : (reply st data s).supply = s.supply := rfl
@[simp] theorem reply_zoneMode (st : SetupStatus) (data : List Byte) : (reply st data s).zoneMode = s.zoneMode := rfl
@[simp] theorem reply_lc (st : SetupStatus) (data : List Byte) : (reply st data s).lc = s.lc := rfl
@[simp] theorem reply_mu (st : SetupStatus) (data : List Byte) : (reply st data s).mu = s.mu := rfl
@[simp] theorem reply_ct (st : SetupStatus) (data : List Byte) : (reply st data s).ct = s.ct := rfl
@[simp] theorem reply_oc (st : SetupStatus) (data : List Byte) : (reply st data s).oc = s.oc := rfl
@[simp] theorem reply_lu (st : SetupStatus) (data : List Byte) : (reply st data s).lu = s.lu := rfl
@[simp] theorem reply_ms (st : SetupStatus) (data : List Byte) : (reply st data s).ms = s.ms := rfl
@[simp] theorem reply_pd (st : SetupStatus) (data : List Byte) : (reply st data s).pd = s.pd := rfl
@[simp] theorem reply_fd (st : SetupStatus) (data : List Byte) : (reply st data s).fd = s.fd := rfl
@[simp] theorem reply_rs (st : SetupStatus) (data : List Byte) : (reply st data s).rs = s.rs := rfl
@[simp] theorem reply_hz (st : SetupStatus) (data : List Byte) : (reply st data s).hz = s.hz := rfl
@[simp] theorem reply_rp (st : SetupStatus) (data : List Byte) : (reply st data s).rp = s.rp := rfl
@[simp] theorem reply_free (st : SetupStatus) (data : List Byte) : (reply st data s).free = s.free := rfl
@[simp] theorem reply_pending (st : SetupStatus) (data : List Byte) : (reply st data s).pending = s.pending := rfl

/-! ## What an update writes -/

@[simp] theorem setOwner_ct (k : Station) (e : OwnerEntry) : (setOwner k e s).ct = setAt s.ct k e := rfl
@[simp] theorem recomputeMarks_ct : (recomputeMarks s).ct = remark s.image s.ct := rfl
@[simp] theorem clearTable_ct : (clearTable s).ct = Vector.replicate 12 OwnerEntry.empty := rfl
@[simp] theorem setMedium_medium (m : Medium) : (setMedium m s).lc.medium = m := rfl
@[simp] theorem mediumEnds_medium : (mediumEnds s).lc.medium = .quiet := rfl
@[simp] theorem setPeer_peers (k : Station) (r : PeerRecord) : (setPeer k r s).mu.peers = setAt s.mu.peers k r := rfl
@[simp] theorem setDetector_detectors (f : FaultId) (d : Detector) :
    (setDetector f d s).fd.detectors = setAt s.fd.detectors (detectorPlace f) d := rfl
@[simp] theorem advanceTo_now (d : Nat) : (advanceTo d s).now = max s.now d := rfl
@[simp] theorem tick_now : (tick s).now = s.now + 1 := rfl

/-! ## Reading back a vector entry -/

@[simp] theorem setAt_same {α : Type} {n : Nat} (v : Vector α n) (k : Fin n) (x : α) : (setAt v k x)[k] = x := by
  simp [setAt]

theorem setAt_other {α : Type} {n : Nat} (v : Vector α n) (j k : Fin n) (x : α) (h : j ≠ k) : (setAt v j x)[k] = v[k] := by
  have : j.val ≠ k.val := fun e => h (Fin.ext e)
  simp [setAt, this]

theorem setAt_self {α : Type} {n : Nat} (v : Vector α n) (k : Fin n) (x : α) (h : v[k] = x) : setAt v k x = v := by
  subst h
  ext i hi
  by_cases e : k.val = i
  · subst e; simp [setAt]
  · simp [setAt]

theorem mapAll_get {α β : Type} {n : Nat} (f : α → β) (v : Vector α n) (k : Fin n) : (mapAll f v)[k] = f v[k] := by
  show (v.toList.map f)[k.val]'(by simp) = _
  rw [List.getElem_map]
  rfl

/-- A vector written as a map over the lines, read at a line. -/
theorem lines_get {α : Type} (f : Line → α) (i : Line) : (⟨⟨allLines.map f⟩, rfl⟩ : Vector α 16)[i] = f i := by
  have h : ∀ i : Line, allLines[i.val]? = some i := by decide
  have e : allLines[i.val]'(i.isLt) = i := by
    have := h i
    rw [List.getElem?_eq_getElem (show i.val < allLines.length from i.isLt)] at this
    exact Option.some.inj this
  exact (List.getElem_map f (h := (List.length_map f).symm ▸ i.isLt)).trans (congrArg f e)

/-- A vector written as a map over the stations, read at a station. -/
theorem stations_get {α : Type} (f : Station → α) (k : Station) : (⟨⟨allStations.map f⟩, rfl⟩ : Vector α 12)[k] = f k := by
  have h : ∀ k : Station, allStations[k.val]? = some k := by decide
  have e : allStations[k.val]'(k.isLt) = k := by
    have := h k
    rw [List.getElem?_eq_getElem (show k.val < allStations.length from k.isLt)] at this
    exact Option.some.inj this
  exact (List.getElem_map f (h := (List.length_map f).symm ▸ k.isLt)).trans (congrArg f e)

end Sys2Proof.Machine
end

