-- ==== Sys2Proof/Laws/Acceptance.lean ====
section
/-! SUPPORT. The tests of acceptance one by one (R70 to R74), and what each payload reads as (R65 to R69). -/

namespace Sys2Proof.Machine

/-! ## Codes read back -/

theorem linkOfCode_iff (n : Nat) (x : LinkState) : linkOfCode n = some x ↔ n = linkCode x := by
  unfold linkOfCode
  split <;> cases x <;> simp_all [linkCode]
theorem zoneModeOfCode_iff (n : Nat) (x : ZoneMode) : zoneModeOfCode n = some x ↔ n = zoneModeCode x := by
  unfold zoneModeOfCode
  split <;> cases x <;> simp_all [zoneModeCode]
theorem phaseOfCode_iff (n : Nat) (x : Phase) : phaseOfCode n = some x ↔ n = phaseCode x := by
  unfold phaseOfCode
  split <;> cases x <;> simp_all [phaseCode]
theorem demandOfCode_iff (n : Nat) (x : Demand) : demandOfCode n = some x ↔ n = demandCode x := by
  unfold demandOfCode
  split <;> cases x <;> simp_all [demandCode]
theorem hazardOfCode_iff (n : Nat) (x : HazardCode) : hazardOfCode n = some x ↔ n = hazardCode x := by
  unfold hazardOfCode
  split <;> cases x <;> simp_all [hazardCode]
theorem subjectOfCode_iff (n : Nat) (x : Subject) : subjectOfCode n = some x ↔ n = subjectCode x := by
  unfold subjectOfCode
  split <;> cases x <;> simp_all [subjectCode]
theorem resourceOfCode_iff (n : Nat) (x : Resource) : resourceOfCode n = some x ↔ n = resourceCode x := by
  unfold resourceOfCode
  split <;> cases x <;> simp_all [resourceCode]
theorem classOfCode_iff (n : Nat) (x : ClaimClass) : classOfCode n = some x ↔ n = classCode x := by
  unfold classOfCode
  split <;> cases x <;> simp_all [classCode]
theorem stationOf_iff (n : Nat) (k : Station) : stationOf n = some k ↔ n = k.val := by
  unfold stationOf
  split
  · rw [Option.some.injEq, Fin.ext_iff]
  · rename_i h; simp only [reduceCtorEq, false_iff]; omega
theorem tagOf_iff (n : Nat) (t : Tag) : tagOf n = some t ↔ n = t.val := by
  unfold tagOf
  split
  · rw [Option.some.injEq, Fin.ext_iff]
  · rename_i h; simp only [reduceCtorEq, false_iff]; omega

/-- A station set read back: one bit per station, station 0 in the lowest (R65). -/
theorem stationSetOf_get (high low : Byte) (k : Station) : (stationSetOf high low)[k] = (high ++ low).getLsbD k.val :=
  stations_get _ k

theorem stationSet_ext (a : StationSet) (high low : Byte) : a = stationSetOf high low ↔ ∀ k : Station, a[k] = (high ++ low).getLsbD k.val := by
  constructor
  · intro h k; rw [h, stationSetOf_get]
  · intro h
    apply Vector.ext
    intro i hi
    exact (h ⟨i, hi⟩).trans (stationSetOf_get high low ⟨i, hi⟩).symm

/-! ## The payloads (R66, R68, R69, R74) -/

variable (payload : List Byte)

theorem readResync_iff (n : Nat) : readResync payload = some n ↔ payload.length = 1 ∧ field payload 0 = n ∧ (n < 12 ∨ n = 15) := by
  unfold readResync
  split
  · rename_i h
    rw [Option.some.injEq]
    exact ⟨fun e => ⟨h.1, e, e ▸ h.2⟩, fun e => e.2.1⟩
  · rename_i h
    exact ⟨fun e => (nomatch e), fun e => absurd ⟨e.1, e.2.1 ▸ e.2.2⟩ h⟩

theorem readHazard_iff (origin : Station) (serial : Byte) (code : HazardCode) (hops : Nat) :
    readHazard payload = some (origin, serial, code, hops) ↔ payload.length = 4 ∧ field payload 0 = origin.val ∧
      payload.getD 1 0 = serial ∧ field payload 2 = hazardCode code ∧ field payload 3 = hops ∧ hops ≤ 3 := by
  rw [← stationOf_iff, ← hazardOfCode_iff]
  unfold readHazard
  split
  · rename_i h
    split
    · rename_i o c e1 e2
      rw [e1, e2]
      simp only [Option.some.injEq, Prod.mk.injEq]
      exact ⟨fun e => ⟨h.1, e.1, e.2.1, e.2.2.1, e.2.2.2, e.2.2.2 ▸ h.2⟩, fun e => ⟨e.2.1, e.2.2.1, e.2.2.2.1, e.2.2.2.2.1⟩⟩
    · rename_i g
      exact ⟨fun e => (nomatch e), fun e => (g _ _ e.2.1 e.2.2.2.1).elim⟩
  · rename_i h
    exact ⟨fun e => (nomatch e), fun e => absurd ⟨e.1, e.2.2.2.2.1 ▸ e.2.2.2.2.2⟩ h⟩

theorem readProgram_iff (phase : Phase) (demand : Demand) (serial : Byte) :
    readProgram payload = some (phase, demand, serial) ↔ payload.length = 3 ∧ field payload 0 = phaseCode phase ∧
      field payload 1 = demandCode demand ∧ payload.getD 2 0 = serial := by
  rw [← phaseOfCode_iff, ← demandOfCode_iff]
  unfold readProgram
  split
  · rename_i h
    split
    · rename_i o c e1 e2
      rw [e1, e2]
      simp only [Option.some.injEq, Prod.mk.injEq]
      exact ⟨fun e => ⟨h, e.1, e.2.1, e.2.2⟩, fun e => ⟨e.2.1, e.2.2.1, e.2.2.2⟩⟩
    · rename_i g
      exact ⟨fun e => (nomatch e), fun e => (g _ _ e.2.1 e.2.2.1).elim⟩
  · rename_i h
    exact ⟨fun e => (nomatch e), fun e => absurd e.1 h⟩

/-- The fields of an OPERATOR with this command. -/
def operatorFields (c : OperatorCommand) : Prop :=
  match c with
  | .acknowledge id => field payload 0 = 0 ∧ field payload 2 = id ∧ id ≠ 0
  | .abandon id => field payload 0 = 1 ∧ field payload 2 = id ∧ id ≠ 0
  | .resumeZone => field payload 0 = 2

theorem readOperator_iff (target : Station) (c : OperatorCommand) :
    readOperator payload = some (target, c) ↔ payload.length = 3 ∧ field payload 1 = target.val ∧ operatorFields payload c := by
  rw [← stationOf_iff]
  unfold readOperator
  split
  · rename_i h
    split
    · rename_i k e1 e2
      rw [e1]
      split <;> cases c <;> simp_all [operatorFields] <;> omega
    · rename_i k e1 e2
      rw [e1]
      split <;> cases c <;> simp_all [operatorFields] <;> omega
    · rename_i k e1 e2
      rw [e1]
      cases c <;> simp_all [operatorFields]
    · rename_i g0 g1 g2
      refine ⟨fun e => (nomatch e), fun e => ?_⟩
      cases c with
      | acknowledge id => exact (g0 _ e.2.1 e.2.2.1).elim
      | abandon id => exact (g1 _ e.2.1 e.2.2.1).elim
      | resumeZone => exact (g2 _ e.2.1 e.2.2).elim
  · rename_i h
    exact ⟨fun e => (nomatch e), fun e => absurd e.1 h⟩

theorem readQuery_iff (target : Station) (subject : Subject) (clear : Bool) :
    readQuery payload = some (target, subject, clear) ↔ payload.length = 3 ∧ field payload 0 = target.val ∧
      field payload 1 = subjectCode subject ∧ (clear = true ↔ field payload 2 ≠ 0) := by
  rw [← stationOf_iff, ← subjectOfCode_iff]
  unfold readQuery
  split
  · rename_i h
    split
    · rename_i o c e1 e2
      rw [e1, e2]
      simp only [Option.some.injEq, Prod.mk.injEq]
      have : (field payload 2 != 0) = clear ↔ (clear = true ↔ field payload 2 ≠ 0) := by
        cases clear <;> simp
      rw [this]
      exact ⟨fun e => ⟨h, e.1, e.2.1, e.2.2⟩, fun e => ⟨e.2.1, e.2.2.1, e.2.2.2⟩⟩
    · rename_i g
      exact ⟨fun e => (nomatch e), fun e => (g _ _ e.2.1 e.2.2.1).elim⟩
  · rename_i h
    exact ⟨fun e => (nomatch e), fun e => absurd e.1 h⟩

theorem readRestart_iff (target : Station) : readRestart payload = some target ↔ payload.length = 1 ∧ field payload 0 = target.val := by
  rw [← stationOf_iff]
  unfold readRestart
  split
  · rename_i h; exact ⟨fun e => ⟨h, e⟩, fun e => e.2⟩
  · rename_i h; exact ⟨fun e => (nomatch e), fun e => absurd e.1 h⟩

/-- The fields of a SETUP with this command (R69). -/
def setupFields (c : SetupCommand) : Prop :=
  match c with
  | .write a keep data => field payload 1 = 0 ∧ 5 ≤ payload.length ∧ payload.length ≤ 20 ∧ field payload 2 = a ∧ payload.getD 3 0 = keep ∧
      payload.drop 4 = data
  | .read a n => field payload 1 = 1 ∧ payload.length = 5 ∧ field payload 2 = a ∧ field payload 4 = n ∧ 1 ≤ n ∧ n ≤ 32
  | .commit => field payload 1 = 2 ∧ payload.length = 4
  | .lock => field payload 1 = 3 ∧ payload.length = 4
  | .lineTest set clear toggle => field payload 1 = 4 ∧ payload.length = 10 ∧ payload.getD 4 0 ++ payload.getD 5 0 = set ∧
      payload.getD 6 0 ++ payload.getD 7 0 = clear ∧ payload.getD 8 0 ++ payload.getD 9 0 = toggle

theorem readSetup_iff (target : Station) (c : SetupCommand) :
    readSetup payload = some (target, c) ↔ field payload 0 = target.val ∧ setupFields payload c := by
  rw [← stationOf_iff]
  unfold readSetup
  split
  · rename_i e; rw [e]; exact ⟨fun e => (nomatch e), fun e => nomatch e.1⟩
  · rename_i k e
    rw [e]
    dsimp only
    have len : (payload.drop 4).length = payload.length - 4 := List.length_drop
    split
    · rename_i h
      refine ⟨fun e => (nomatch e), fun e => ?_⟩
      cases c <;> (have := e.2; simp only [setupFields] at this; omega)
    · rename_i h
      rw [len]
      split
      · rename_i f
        split <;> cases c <;> simp_all [setupFields] <;> omega
      · rename_i f
        split <;> cases c <;> simp_all [setupFields] <;> omega
      · rename_i f
        split <;> cases c <;> simp_all [setupFields] <;> omega
      · rename_i f
        split <;> cases c <;> simp_all [setupFields] <;> omega
      · rename_i f
        split <;> cases c <;> simp_all [setupFields] <;> omega
      · rename_i f0 f1 f2 f3 f4
        refine ⟨fun e => (nomatch e), fun e => ?_⟩
        cases c with
        | write => exact (f0 e.2.1).elim
        | read => exact (f1 e.2.1).elim
        | commit => exact (f2 e.2.1).elim
        | lock => exact (f3 e.2.1).elim
        | lineTest => exact (f4 e.2.1).elim

/-- A PRESENCE reads as its fields where acceptance passes their form (R66, R74). -/
theorem readPresence_iff (me sender : Station) (p : PresenceReport) :
    readPresence me sender payload = some p ↔ payload.length = 24 ∧ field payload 0 = linkCode p.link ∧ (p.link = .joining ∨ p.link = .joined) ∧
      (field payload 1 = 1 ∨ field payload 1 = 2) ∧ field payload 20 ≤ 8 ∧ field payload 21 ≤ 9 ∧ field payload 22 ≤ 6 ∧
      p.digest = payload.getD 2 0 ++ payload.getD 3 0 ∧ p.heard = stationSetOf (payload.getD 4 0) (payload.getD 5 0) ∧
      (let entry := fun k : Station => if (stationSetOf (payload.getD 6 0) (payload.getD 7 0))[k] then none else some (payload.getD (8 + k.val) 0)
       p.ackOfMe = entry me ∧ p.ownEntry = entry sender) := by
  rw [← linkOfCode_iff]
  have mode : (field payload 1 = 1 ∨ field payload 1 = 2) ↔
      ∃ m, zoneModeOfCode (field payload 1) = some m ∧ (m = .inService ∨ m = .outOfService) := by
    constructor
    · rintro (h | h) <;> rw [h]
      · exact ⟨_, rfl, .inl rfl⟩
      · exact ⟨_, rfl, .inr rfl⟩
    · rintro ⟨m, e, h | h⟩ <;> subst h
      · exact .inl ((zoneModeOfCode_iff _ _).1 e)
      · exact .inr ((zoneModeOfCode_iff _ _).1 e)
  rw [mode]
  unfold readPresence
  split
  · rename_i h; exact ⟨fun e => (nomatch e), fun e => absurd e.1 h⟩
  · rename_i h
    split
    · rename_i l m e1 e2
      rw [e1, e2]
      dsimp only
      split
      · rename_i c
        obtain ⟨link, digest, heard, ack, own⟩ := p
        simp only [Option.some.injEq, PresenceReport.mk.injEq]
        constructor
        · rintro ⟨rfl, rfl, rfl, rfl, rfl⟩
          exact ⟨Decidable.not_not.1 h, rfl, c.1, ⟨m, rfl, c.2.1⟩, c.2.2.1, c.2.2.2.1, c.2.2.2.2, rfl, rfl, rfl, rfl⟩
        · rintro ⟨_, rfl, _, _, _, _, _, rfl, rfl, rfl, rfl⟩
          exact ⟨rfl, rfl, rfl, rfl, rfl⟩
      · rename_i c
        refine ⟨fun e => (nomatch e), fun e => absurd ?_ c⟩
        obtain ⟨_, e1, e2, ⟨m', e3, e4⟩, e5, e6, e7, _⟩ := e
        rw [Option.some.injEq] at e1 e3
        subst e1; subst e3
        exact ⟨e2, e4, e5, e6, e7⟩
    · rename_i g
      refine ⟨fun e => (nomatch e), fun e => ?_⟩
      obtain ⟨_, e1, _, ⟨m, e2, _⟩, _⟩ := e
      exact (g _ _ e1 e2).elim

/-- Whether a payload passes the form test does not hang on the numbers it is read with (R74). -/
theorem readPresence_isSome (me sender : Station) : (readPresence me sender payload).isSome = true ↔ payload.length = 24 ∧
    (field payload 0 = 2 ∨ field payload 0 = 3) ∧ (field payload 1 = 1 ∨ field payload 1 = 2) ∧ field payload 20 ≤ 8 ∧
    field payload 21 ≤ 9 ∧ field payload 22 ≤ 6 := by
  rw [Option.isSome_iff_exists]
  constructor
  · rintro ⟨p, h⟩
    obtain ⟨h1, h2, h3, h4, h5, h6, h7, _⟩ := (readPresence_iff payload me sender p).1 h
    refine ⟨h1, ?_, h4, h5, h6, h7⟩
    rcases h3 with h3 | h3 <;> rw [h2, h3]
    · exact .inl rfl
    · exact .inr rfl
  · rintro ⟨h1, h2, h4, h5, h6, h7⟩
    refine ⟨{ link := if field payload 0 = 2 then .joining else .joined, digest := _, heard := _, ackOfMe := _, ownEntry := _ },
      (readPresence_iff payload me sender _).2 ⟨h1, ?_, ?_, h4, h5, h6, h7, rfl, rfl, rfl, rfl⟩⟩
    · rcases h2 with h2 | h2 <;> simp [h2, linkCode]
    · rcases h2 with h2 | h2 <;> simp [h2]

/-! ## The three tests (R70, R71, R73, R74) -/

variable (s : State)

theorem beq_iff_bits (a b : BitVec 12) : a = b ↔ ∀ i < 12, a.getLsbD i = b.getLsbD i :=
  ⟨fun h _ _ => h ▸ rfl, fun h => BitVec.eq_of_getLsbD_eq h⟩

/-- A group matches a filter that is enabled and agrees with its value in every bit of its mask (R71). -/
theorem accepts_iff (f : GroupFilter) (g : BitVec 12) :
    f.accepts g = true ↔ f.enable = true ∧ ∀ i < 12, f.mask.getLsbD i = true → g.getLsbD i = f.value.getLsbD i := by
  unfold GroupFilter.accepts
  rw [Bool.and_eq_true, beq_iff_eq, beq_iff_bits]
  refine and_congr_right fun _ => forall_congr' fun i => forall_congr' fun hi => ?_
  have z : (0 : BitVec 12).getLsbD i = false := BitVec.getLsbD_zero
  rw [BitVec.getLsbD_and, BitVec.getLsbD_xor, z]
  cases f.mask.getLsbD i <;> cases g.getLsbD i <;> cases f.value.getLsbD i <;> decide

/-- The bits of a filter, by the bytes of the image (R198). -/
theorem filter_bits (m : Memory) (n i : Nat) (hi : i < 12) :
    (m.filter n).value.getLsbD i = (if i < 8 then (m.read (84 + 4 * n)).getLsbD i else (m.read (83 + 4 * n)).getLsbD (i - 8)) ∧
    (m.filter n).mask.getLsbD i = (if i < 4 then (m.read (86 + 4 * n)).getLsbD (4 + i) else (m.read (85 + 4 * n)).getLsbD (i - 4)) := by
  have e1 : 83 + 4 * n + 1 = 84 + 4 * n := by omega
  have e2 : 83 + 4 * n + 2 = 85 + 4 * n := by omega
  have e3 : 83 + 4 * n + 3 = 86 + 4 * n := by omega
  unfold Memory.filter
  dsimp only
  rw [e1, e2, e3, BitVec.getLsbD_append, BitVec.getLsbD_append]
  constructor
  · split
    · rfl
    · simp; omega
  · split
    · rename_i h; simp [h]
    · rfl

theorem stationGroup_iff (g : BitVec 12) (n : BitVec 4) : g = stationGroup n.toNat ↔ g.toNat = 0x800 + n.toNat := by
  have := n.isLt
  unfold stationGroup
  rw [← BitVec.toNat_inj, BitVec.toNat_ofNat]
  have : (0x800 + n.toNat) % 2 ^ 12 = 0x800 + n.toNat := Nat.mod_eq_of_lt (by omega)
  rw [this]

theorem runMode_iff : s.runMode = true ↔ s.zoneMode = .inService ∨ s.zoneMode = .outOfService := by
  unfold State.runMode
  rw [Bool.or_eq_true, beq_iff_eq, beq_iff_eq]

theorem serviceMode_iff : s.serviceMode = true ↔ s.zoneMode = .setup ∨ s.zoneMode = .haltedConfig := by
  unfold State.serviceMode
  rw [Bool.or_eq_true, beq_iff_eq, beq_iff_eq]

theorem groupPasses_iff (g : BitVec 12) : s.groupPasses g = true ↔ g = 0xFFF ∨ g.toNat = 0x800 + s.cs.number.toNat ∨
    ((s.zoneMode = .inService ∨ s.zoneMode = .outOfService) ∧ ∃ n < 4, (s.image.read (83 + 4 * n)).getLsbD 7 = true ∧
      ∀ i < 12, (s.image.filter n).mask.getLsbD i = true → g.getLsbD i = (s.image.filter n).value.getLsbD i) := by
  unfold State.groupPasses groupAll
  rw [Bool.or_eq_true, Bool.or_eq_true, beq_iff_eq, beq_iff_eq, stationGroup_iff, or_assoc, Bool.and_eq_true, runMode_iff]
  refine or_congr_right (or_congr_right (and_congr_right fun _ => ?_))
  rw [List.any_eq_true]
  refine exists_congr fun n => and_congr ?_ (accepts_iff _ g)
  simp only [List.mem_cons, List.not_mem_nil, or_false]
  omega

theorem isPanel_iff (n : Nat) : s.isPanel n = true ↔ n = s.image.byteAt 2 ∧ n < 12 := by
  unfold State.isPanel
  rw [Bool.and_eq_true, beq_iff_eq, decide_eq_true_eq]
  rfl

theorem senderPasses_iff (kind : FrameKind) (h : Header) :
    let n := h.sender.toNat
    let panel := n = s.image.byteAt 2 ∧ n < 12
    s.senderPasses kind h = true ↔ (n < s.wheelSize ∨ n = 15) ∧ match kind with
      | .presence | .claim | .claimSet | .resync => n < s.wheelSize ∧ h.group = 0xFFF
      | .hazard => n < s.wheelSize
      | .program | .operator | .restart => panel
      | .query => panel ∨ n = 15
      | .setup => n = 15
      | .reply | .setupReply => True
      | .undefined _ => False := by
  intro n panel
  unfold State.senderPasses
  dsimp only
  rw [Bool.and_eq_true, Bool.or_eq_true, decide_eq_true_eq, beq_iff_eq]
  refine and_congr_right fun _ => ?_
  cases kind <;> simp only [Bool.and_eq_true, decide_eq_true_eq, beq_iff_eq, isPanel_iff, Bool.or_eq_true] <;> first | rfl | exact Iff.rfl | simp

theorem formPasses_iff (kind : FrameKind) :
    s.formPasses kind payload = true ↔ match kind with
      | .presence => ∃ p, readPresence s.me s.me payload = some p
      | .claim | .claimSet => payload.length ≤ 56
      | .resync => ∃ x, readResync payload = some x
      | .hazard => ∃ x, readHazard payload = some x
      | .program => ∃ x, readProgram payload = some x
      | .operator => ∃ x, readOperator payload = some x
      | .query => ∃ x, readQuery payload = some x
      | .setup => ∃ x, readSetup payload = some x
      | .restart => ∃ x, readRestart payload = some x
      | .reply | .setupReply => 1 ≤ payload.length ∧ payload.length ≤ 56
      | .undefined _ => False := by
  unfold State.formPasses
  cases kind <;> simp only [Option.isSome_iff_exists, decide_eq_true_eq, Bool.and_eq_true, Bool.false_eq_true]

/-- The tests in the order of R72: the first that fails decides. -/
theorem acceptance_cases (kind : FrameKind) (h : Header) :
    let a := s.acceptance kind h payload
    (h.sender = s.cs.number → a = .ownNumber) ∧
    (h.sender ≠ s.cs.number → h.version ≠ 1 ∨ (∃ code, kind = .undefined code) → a = .badFormat) ∧
    (h.sender ≠ s.cs.number → h.version = 1 → (∀ code, kind ≠ .undefined code) →
      (s.groupPasses h.group = false → a = .filtered) ∧
      (s.groupPasses h.group = true → s.senderPasses kind h = false → a = .badSender) ∧
      (s.groupPasses h.group = true → s.senderPasses kind h = true → s.formPasses kind payload = false → a = .badForm) ∧
      (s.groupPasses h.group = true → s.senderPasses kind h = true → s.formPasses kind payload = true → a = .accepted)) := by
  intro a
  have und : isUndefined kind = true ↔ ∃ code, kind = .undefined code := by
    cases kind <;> simp [isUndefined]
  refine ⟨fun e => if_pos e, fun n f => ?_, fun n v u => ?_⟩
  · show s.acceptance kind h payload = _
    unfold State.acceptance
    rw [if_neg n, if_pos (f.imp id und.2)]
  · have f : ¬ (h.version ≠ 1 ∨ isUndefined kind = true) := fun c => c.elim (fun x => x v) fun x => (und.1 x).elim fun code e => u code e
    have e : a = if (!s.groupPasses h.group) = true then .filtered else if (!s.senderPasses kind h) = true then .badSender
        else if (!s.formPasses kind payload) = true then .badForm else .accepted := by
      show s.acceptance kind h payload = _
      unfold State.acceptance
      rw [if_neg n, if_neg f]
    rw [e]
    cases s.groupPasses h.group <;> cases s.senderPasses kind h <;> cases s.formPasses kind payload <;> simp

end Sys2Proof.Machine
end

