-- ==== Sys2Proof/Laws/Internal.lean ====
section
/-! SUPPORT. What the blocks can do to one another within an event, said once: one relation, one lemma per shared operation. -/

namespace Sys2Proof.Machine

/-- The parts of the state that no operation within an event writes. -/
def kept (s : State) :=
  ((s.now, s.supply, s.zoneMode, s.lc, s.ms, s.cs, s.pending),
   (s.hz.memory, s.hz.gateStop, s.rp.slot, s.rp.inFlight),
   (s.lu.pins, s.lu.timers, s.lu.debounced, s.lu.testLevels),
   (s.oc.inFlight, s.oc.changeNumber, s.oc.restatedSinceStart),
   (s.mu.peers, s.mu.isolationReason, s.mu.duplicateLatch, s.mu.listenStart, s.mu.armedAt, s.mu.joinRequestDone),
   (s.pd.phase, s.pd.demand, s.pd.serial, s.pd.silencePause, s.pd.silenceTimer, s.pd.regulation))

/-- `t` comes from `s` by operations within an event: what is kept, the one move of the link state (R89), marks set, the entries of the
owners, the bounds, the elements out, the interval of R93 as it was or as the condition has it. -/
structure Internal (s t : State) : Prop where
  kept_eq : kept t = kept s
  link : t.mu.linkState = s.mu.linkState ∨ (s.joinEnds = true ∧ t.mu.linkState = .joined)
  due : t.oc.restatementDue = s.oc.restatementDue ∨ (s.joinEnds = true ∧ t.oc.restatementDue = true)
  entries : ∀ k : Station, t.ct[k].applied = s.ct[k].applied ∧ t.ct[k].stale = s.ct[k].stale
  others : ∀ k : Station, k ≠ s.me → t.ct[k].records.map unmarked = s.ct[k].records.map unmarked
  counters : ∀ c, c ≠ .incidentsRaised → c ≠ .relayDrops → t.counter c = s.counter c
  bounded : s.Bounded → t.Bounded
  out : ∀ e : Element, s.lu.elementOut[e] = true → t.lu.elementOut[e] = true
  watch : t.mu.notHeardBySince = s.mu.notHeardBySince ∨ t.mu.notHeardBySince = (watchNotHeard s).mu.notHeardBySince

variable {s t u : State}

theorem Internal.now (h : Internal s t) : t.now = s.now := congrArg (fun x => x.1.1) h.kept_eq
theorem Internal.supply (h : Internal s t) : t.supply = s.supply := congrArg (fun x => x.1.2.1) h.kept_eq
theorem Internal.zoneMode (h : Internal s t) : t.zoneMode = s.zoneMode := congrArg (fun x => x.1.2.2.1) h.kept_eq
theorem Internal.lc (h : Internal s t) : t.lc = s.lc := congrArg (fun x => x.1.2.2.2.1) h.kept_eq
theorem Internal.ms (h : Internal s t) : t.ms = s.ms := congrArg (fun x => x.1.2.2.2.2.1) h.kept_eq
theorem Internal.cs (h : Internal s t) : t.cs = s.cs := congrArg (fun x => x.1.2.2.2.2.2.1) h.kept_eq
theorem Internal.pending (h : Internal s t) : t.pending = s.pending := congrArg (fun x => x.1.2.2.2.2.2.2) h.kept_eq
theorem Internal.memory (h : Internal s t) : t.hz.memory = s.hz.memory := congrArg (fun x => x.2.1.1) h.kept_eq
theorem Internal.gateStop (h : Internal s t) : t.hz.gateStop = s.hz.gateStop := congrArg (fun x => x.2.1.2.1) h.kept_eq
theorem Internal.slot (h : Internal s t) : t.rp.slot = s.rp.slot := congrArg (fun x => x.2.1.2.2.1) h.kept_eq
theorem Internal.question (h : Internal s t) : t.rp.inFlight = s.rp.inFlight := congrArg (fun x => x.2.1.2.2.2) h.kept_eq
theorem Internal.pins (h : Internal s t) : t.lu.pins = s.lu.pins := congrArg (fun x => x.2.2.1.1) h.kept_eq
theorem Internal.timers (h : Internal s t) : t.lu.timers = s.lu.timers := congrArg (fun x => x.2.2.1.2.1) h.kept_eq
theorem Internal.debounced (h : Internal s t) : t.lu.debounced = s.lu.debounced := congrArg (fun x => x.2.2.1.2.2.1) h.kept_eq
theorem Internal.testLevels (h : Internal s t) : t.lu.testLevels = s.lu.testLevels := congrArg (fun x => x.2.2.1.2.2.2) h.kept_eq
theorem Internal.inFlight (h : Internal s t) : t.oc.inFlight = s.oc.inFlight := congrArg (fun x => x.2.2.2.1.1) h.kept_eq
theorem Internal.changeNumber (h : Internal s t) : t.oc.changeNumber = s.oc.changeNumber := congrArg (fun x => x.2.2.2.1.2.1) h.kept_eq
theorem Internal.peers (h : Internal s t) : t.mu.peers = s.mu.peers := congrArg (fun x => x.2.2.2.2.1.1) h.kept_eq
theorem Internal.isolationReason (h : Internal s t) : t.mu.isolationReason = s.mu.isolationReason :=
  congrArg (fun x => x.2.2.2.2.1.2.1) h.kept_eq
theorem Internal.duplicateLatch (h : Internal s t) : t.mu.duplicateLatch = s.mu.duplicateLatch :=
  congrArg (fun x => x.2.2.2.2.1.2.2.1) h.kept_eq
theorem Internal.listenStart (h : Internal s t) : t.mu.listenStart = s.mu.listenStart :=
  congrArg (fun x => x.2.2.2.2.1.2.2.2.1) h.kept_eq
theorem Internal.phase (h : Internal s t) : t.pd.phase = s.pd.phase := congrArg (fun x => x.2.2.2.2.2.1) h.kept_eq
theorem Internal.demand (h : Internal s t) : t.pd.demand = s.pd.demand := congrArg (fun x => x.2.2.2.2.2.2.1) h.kept_eq
theorem Internal.serial (h : Internal s t) : t.pd.serial = s.pd.serial := congrArg (fun x => x.2.2.2.2.2.2.2.1) h.kept_eq
theorem Internal.silencePause (h : Internal s t) : t.pd.silencePause = s.pd.silencePause :=
  congrArg (fun x => x.2.2.2.2.2.2.2.2.1) h.kept_eq
theorem Internal.silenceTimer (h : Internal s t) : t.pd.silenceTimer = s.pd.silenceTimer :=
  congrArg (fun x => x.2.2.2.2.2.2.2.2.2.1) h.kept_eq
theorem Internal.me (h : Internal s t) : t.me = s.me := by simp only [State.me, h.cs]
theorem Internal.image (h : Internal s t) : t.image = s.image := by simp only [State.image, h.cs]

theorem Internal.joinRequestDone (h : Internal s t) : t.mu.joinRequestDone = s.mu.joinRequestDone :=
  congrArg (fun x => x.2.2.2.2.1.2.2.2.2.2) h.kept_eq

/-- A JOINING wait that has ended at the later state had ended at the earlier one. -/
theorem Internal.joinEnds_of (h : Internal s t) (e : t.joinEnds = true) : s.joinEnds = true := by
  have l : t.mu.linkState = .joining := by
    simp only [State.joinEnds, Bool.and_eq_true, beq_iff_eq] at e; exact e.1
  have l' : s.mu.linkState = .joining := by
    rcases h.link with h1 | ⟨-, h2⟩
    · exact h1.symm.trans l
    · rw [l] at h2; cases h2
  simpa only [State.joinEnds, l, l', h.peers, h.joinRequestDone] using e

/-- The link state stays among JOINING and JOINED, or out of them. -/
theorem Internal.takesPart (h : Internal s t) : t.takesPart = s.takesPart := by
  unfold State.takesPart
  rcases h.link with h1 | ⟨h1, h2⟩
  · rw [h1]
  · simp only [State.joinEnds, Bool.and_eq_true, beq_iff_eq] at h1
    rw [h2, h1.1]; rfl

/-- The condition of R93 is the same before and after. -/
theorem Internal.notHeard (h : Internal s t) : t.notHeard = s.notHeard := by
  have form : ∀ u : State, u.notHeard = (fun (part : Bool) (peers : Vector PeerRecord 12) (me : Station) =>
      part && peers.toList.any (fun r => r.state == .present) &&
        peers.toList.all (fun r => r.state != .present || (match r.heardSet with
          | some set => !set[me]
          | none => true))) u.takesPart u.mu.peers u.me := fun _ => rfl
  rw [form, form, h.takesPart, h.peers, h.me]

theorem Internal.watched (h : Internal s t) : (watchNotHeard t).mu.notHeardBySince = (watchNotHeard s).mu.notHeardBySince := by
  unfold watchNotHeard
  dsimp only
  rw [h.notHeard]
  cases e : s.notHeard with
  | false => rfl
  | true =>
    rw [if_pos rfl, if_pos rfl, h.now]
    rcases h.watch with w | w
    · rw [w]
    · rw [w]; unfold watchNotHeard; rw [e]; rfl

theorem Internal.refl (s : State) : Internal s s :=
  ⟨rfl, .inl rfl, .inl rfl, fun _ => ⟨rfl, rfl⟩, fun _ _ => rfl, fun _ _ _ => rfl, id, fun _ => id, .inl rfl⟩

theorem Internal.trans (h : Internal s t) (k : Internal t u) : Internal s u where
  kept_eq := k.kept_eq.trans h.kept_eq
  link := by
    rcases k.link with k1 | ⟨k1, k2⟩
    · rcases h.link with h1 | ⟨h1, h2⟩
      · exact .inl (k1.trans h1)
      · exact .inr ⟨h1, k1.trans h2⟩
    · exact .inr ⟨h.joinEnds_of k1, k2⟩
  due := by
    rcases k.due with k1 | ⟨k1, k2⟩
    · rcases h.due with h1 | ⟨h1, h2⟩
      · exact .inl (k1.trans h1)
      · exact .inr ⟨h1, k1.trans h2⟩
    · exact .inr ⟨h.joinEnds_of k1, k2⟩
  entries := fun i => ⟨(k.entries i).1.trans (h.entries i).1, (k.entries i).2.trans (h.entries i).2⟩
  others := fun i hi => (k.others i (h.me ▸ hi)).trans (h.others i hi)
  counters := fun c h1 h2 => (k.counters c h1 h2).trans (h.counters c h1 h2)
  bounded := fun x => k.bounded (h.bounded x)
  out := fun e x => k.out e (h.out e x)
  watch := by
    rcases k.watch with k1 | k1
    · rcases h.watch with h1 | h1
      · exact .inl (k1.trans h1)
      · exact .inr (k1.trans h1)
    · exact .inr (k1.trans h.watched)

/-! ## Updates of one block -/

/-- An update that leaves the Claim Table, the link state and the kept parts as they are. -/
theorem Internal.of_kept (hk : kept t = kept s) (hl : t.mu.linkState = s.mu.linkState) (hd : t.oc.restatementDue = s.oc.restatementDue)
    (hc : t.ct = s.ct) (hr : t.rp.counters = s.rp.counters) (hb : s.Bounded → t.Bounded)
    (ho : ∀ e : Element, s.lu.elementOut[e] = true → t.lu.elementOut[e] = true := by exact fun _ h => h)
    (hw : t.mu.notHeardBySince = s.mu.notHeardBySince := by exact rfl) : Internal s t :=
  ⟨hk, .inl hl, Or.inl hd, fun k => by rw [hc]; exact ⟨rfl, rfl⟩, fun k _ => by rw [hc],
    fun c _ _ => by simp only [State.counter, hr], hb, ho, .inl hw⟩

theorem count_counter_le (c d : Counter) (h : ∀ c, s.counter c ≤ counterMax c) : (count c s).counter d ≤ counterMax d := by
  simp only [State.counter, count]
  by_cases e : counterPlace c = counterPlace d
  · have : c = d := by cases c <;> cases d <;> first | rfl | exact absurd e (by decide)
    subst this
    rw [setAt_same]; exact Nat.min_le_right _ _
  · rw [setAt_other _ _ _ _ e]; exact h d

theorem count_bounded (c : Counter) (b : s.Bounded) : (count c s).Bounded :=
  ⟨b.claims, b.waiting, b.incidents, b.nextId, b.hazards, b.carried, fun d => count_counter_le c d b.counters, b.records⟩

/-- A count leaves the other counters as they are. -/
theorem count_other (c d : Counter) (s : State) (h : d ≠ c) : (count c s).counter d = s.counter d := by
  have e : counterPlace c ≠ counterPlace d := by cases c <;> cases d <;> first | exact absurd rfl h | decide
  simp only [State.counter, count, setAt_other _ _ _ _ e]

theorem count_same (c : Counter) (s : State) : (count c s).counter c = min (s.counter c + 1) (counterMax c) := by
  simp only [State.counter, count, setAt_same]

theorem count_internal (c : Counter) (s : State) (h : c = .incidentsRaised ∨ c = .relayDrops) : Internal s (count c s) :=
  ⟨rfl, .inl rfl, .inl rfl, fun _ => ⟨rfl, rfl⟩, fun _ _ => rfl,
    fun d h1 h2 => count_other c d s (by rcases h with h | h <;> subst h <;> assumption), count_bounded c, fun _ => id, .inl rfl⟩

theorem updateRecord_internal (id : Nat) (f : Incident → Incident) (s : State) : Internal s (updateRecord id f s) :=
  .of_kept rfl rfl rfl rfl rfl fun b =>
    ⟨b.claims, b.waiting, by simpa [updateRecord] using b.incidents, b.nextId, b.hazards, b.carried, b.counters, b.records⟩

theorem removeRecord_internal (id : Nat) (s : State) : Internal s (removeRecord id s) :=
  .of_kept rfl rfl rfl rfl rfl fun b =>
    ⟨b.claims, b.waiting, Nat.le_trans (List.length_filter_le _ _) b.incidents, b.nextId, b.hazards, b.carried, b.counters, b.records⟩

/-- The id after any is one from 1 to 255 (R150). -/
theorem idAfter_range (id : Nat) : 1 ≤ idAfter id ∧ idAfter id ≤ 255 := by unfold idAfter; split <;> omega

/-- A record created on a state in which the list has room wherever the bounds held at the start. -/
theorem createRecord_internal (f : FaultId) (st : IncidentState) (n : Nat) (c : Bool) (h : Internal s t)
    (room : s.Bounded → t.rs.incidents.length < 8) : Internal s (createRecord f st n c t) where
  kept_eq := h.kept_eq
  link := h.link
  due := h.due
  entries := h.entries
  others := h.others
  counters := fun d h1 h2 => (count_other .incidentsRaised d _ h1).trans (h.counters d h1 h2)
  bounded := fun b => by
    have r := room b
    have b := h.bounded b
    refine ⟨b.claims, b.waiting, ?_, idAfter_range _, b.hazards, b.carried, fun d => count_counter_le .incidentsRaised d b.counters, b.records⟩
    simp only [createRecord, count, List.length_append, List.length_cons, List.length_nil]
    omega
  out := h.out
  watch := h.watch

theorem setDetector_internal (f : FaultId) (d : Detector) (s : State) : Internal s (setDetector f d s) :=
  .of_kept rfl rfl rfl rfl rfl fun b => ⟨b.claims, b.waiting, b.incidents, b.nextId, b.hazards, b.carried, b.counters, b.records⟩

theorem fd_internal (fd : FaultDetector) (s : State) : Internal s { s with fd := fd } :=
  .of_kept rfl rfl rfl rfl rfl fun b => ⟨b.claims, b.waiting, b.incidents, b.nextId, b.hazards, b.carried, b.counters, b.records⟩

/-- An update of the Sequencer that leaves the list no longer than it was, and the next id as it was. -/
theorem rs_internal (rs : Sequencer) (s : State) (h : rs.incidents.length ≤ s.rs.incidents.length)
    (hi : rs.nextId = s.rs.nextId := by rfl) : Internal s { s with rs := rs } :=
  .of_kept rfl rfl rfl rfl rfl fun b =>
    ⟨b.claims, b.waiting, Nat.le_trans h b.incidents, hi ▸ b.nextId, b.hazards, b.carried, b.counters, b.records⟩

theorem free_internal (n : Nat) (s : State) : Internal s { s with free := n } :=
  .of_kept rfl rfl rfl rfl rfl fun b => ⟨b.claims, b.waiting, b.incidents, b.nextId, b.hazards, b.carried, b.counters, b.records⟩

/-- An update of the Own Claim Unit that leaves its lists no longer, or a list of claims of six at most. -/
theorem oc_internal (oc : OwnClaimUnit) (s : State) (h1 : oc.inFlight = s.oc.inFlight) (h2 : oc.changeNumber = s.oc.changeNumber)
    (h3 : oc.restatedSinceStart = s.oc.restatedSinceStart) (h4 : oc.restatementDue = s.oc.restatementDue)
    (h5 : s.oc.claims.length ≤ 6 → oc.claims.length ≤ 6) (h6 : s.oc.waiting.length ≤ 8 → oc.waiting.length ≤ 8) :
    Internal s { s with oc := oc } :=
  .of_kept (by simp only [kept, h1, h2, h3]) rfl h4 rfl rfl fun b =>
    ⟨h5 b.claims, h6 b.waiting, b.incidents, b.nextId, b.hazards, b.carried, b.counters, b.records⟩

theorem pd_internal (pd : ProgramDrive) (s : State) (h : (pd.phase, pd.demand, pd.serial, pd.silencePause, pd.silenceTimer, pd.regulation) =
    (s.pd.phase, s.pd.demand, s.pd.serial, s.pd.silencePause, s.pd.silenceTimer, s.pd.regulation)) : Internal s { s with pd := pd } :=
  .of_kept (by simp only [kept]; rw [h]) rfl rfl rfl rfl fun b =>
    ⟨b.claims, b.waiting, b.incidents, b.nextId, b.hazards, b.carried, b.counters, b.records⟩

theorem outputs_internal (o : Vector Output 11) (s : State) : Internal s { s with lu := { s.lu with outputs := o } } :=
  .of_kept rfl rfl rfl rfl rfl fun b => ⟨b.claims, b.waiting, b.incidents, b.nextId, b.hazards, b.carried, b.counters, b.records⟩

theorem makeRoom_length (q : List HazardEntry) (_ : q.length ≠ 0) : (makeRoom q).length = q.length - 1 := by
  unfold makeRoom
  split
  · rename_i i hi
    have : i < q.length := (List.findIdx?_eq_some_iff_findIdx_eq.mp hi).1
    simp [List.length_eraseIdx, this]
  · simp

theorem pushHazard_internal (e : HazardEntry) (s : State) : Internal s (pushHazard e s) := by
  unfold pushHazard
  split
  · rename_i h
    refine .of_kept rfl rfl rfl rfl rfl fun b => ⟨b.claims, b.waiting, b.incidents, b.nextId, ?_, b.carried, b.counters, b.records⟩
    simp only [List.length_append, List.length_cons, List.length_nil, Config.maxHazards] at h ⊢
    omega
  · rename_i h
    refine .trans (t := { s with hz := { s.hz with queue := makeRoom s.hz.queue ++ [e] } }) (.of_kept rfl rfl rfl rfl rfl fun b => ?_) (count_internal _ _ (.inr rfl))
    refine ⟨b.claims, b.waiting, b.incidents, b.nextId, ?_, b.carried, b.counters, b.records⟩
    have := b.hazards
    simp only [Config.maxHazards] at h
    have hl := makeRoom_length s.hz.queue (by omega)
    simp only [List.length_append, List.length_cons, List.length_nil, hl]
    omega

theorem hz_internal (serial : Byte) (mark : Bool) (s : State) :
    Internal s { s with hz := { s.hz with serial := serial, stopMark := mark } } :=
  .of_kept rfl rfl rfl rfl rfl fun b => ⟨b.claims, b.waiting, b.incidents, b.nextId, b.hazards, b.carried, b.counters, b.records⟩

theorem queueNotice_internal (code : HazardCode) (s : State) : Internal s (queueNotice code s) :=
  (hz_internal (s.hz.serial + 1) (stopMarkAfter code s.hz.stopMark) s).trans (pushHazard_internal _ _)

/-! ## The Claim Table -/

theorem allStations_get (k : Station) : allStations[k.val]'(k.isLt) = k := by
  have h : ∀ k : Station, allStations[k.val]? = some k := by decide
  have := h k
  rw [List.getElem?_eq_getElem (show k.val < allStations.length from k.isLt)] at this
  exact Option.some.inj this

/-- The entry of one owner with its marks computed. -/
def remarked (image : Memory) (table : Vector OwnerEntry 12) (k : Station) : OwnerEntry :=
  { table[k] with records := table[k].records.map (fun r => { r with mark := markOf image table k r }) }

theorem remark_get (image : Memory) (table : Vector OwnerEntry 12) (k : Station) :
    (remark image table)[k] = remarked image table k := by
  have e : (remark image table)[k] = remarked image table (allStations[k.val]'(k.isLt)) := by
    show (allStations.map (remarked image table))[k.val]'(by simp [allStations]) = _
    rw [List.getElem_map]
    rfl
  rw [e, allStations_get]

theorem recomputeMarks_internal (s : State) : Internal s (recomputeMarks s) where
  kept_eq := rfl
  link := .inl rfl
  due := .inl rfl
  entries := fun k => by rw [recomputeMarks_ct, remark_get]; exact ⟨rfl, rfl⟩
  others := fun k _ => by
    rw [recomputeMarks_ct, remark_get]
    simp only [remarked, List.map_map]
    exact List.map_congr_left fun r _ => rfl
  counters := fun _ _ _ => rfl
  bounded := fun b => ⟨b.claims, b.waiting, b.incidents, b.nextId, b.hazards, b.carried, b.counters, fun k hk => by
    rw [recomputeMarks_ct, remark_get]
    simpa only [remarked, List.length_map] using b.records k hk⟩
  out := fun _ => id
  watch := .inl rfl

/-- The records of this station's own entry written. -/
theorem ownRecords_internal (j : Station) (e : OwnerEntry) (s : State) (hj : j = s.me) (ha : e.applied = s.ct[s.me].applied)
    (hs : e.stale = s.ct[s.me].stale) : Internal s (setOwner j e s) where
  kept_eq := rfl
  link := .inl rfl
  due := .inl rfl
  entries := fun k => by
    subst hj
    rw [setOwner_ct]
    by_cases h : s.me = k
    · subst h; rw [setAt_same]; exact ⟨ha, hs⟩
    · rw [setAt_other _ _ _ _ h]; exact ⟨rfl, rfl⟩
  others := fun k h => by subst hj; rw [setOwner_ct, setAt_other _ _ _ _ (Ne.symm h)]
  counters := fun _ _ _ => rfl
  bounded := fun b => ⟨b.claims, b.waiting, b.incidents, b.nextId, b.hazards, b.carried, b.counters, fun k h => by
    subst hj
    have h' : k ≠ s.me := h
    rw [setOwner_ct, setAt_other _ _ _ _ (Ne.symm h')]
    exact b.records k h'⟩
  out := fun _ => id
  watch := .inl rfl

theorem foldl_internal {α : Type} (f : State → α → State) (h : ∀ t a, Internal t (f t a)) :
    ∀ (l : List α) (s : State), Internal s (l.foldl f s)
  | [], s => .refl s
  | a :: l, s => (h s a).trans (foldl_internal f h l (f s a))

/-! ## Own claims -/

theorem insertOwn_length (c : OwnClaim) : ∀ l : List OwnClaim, (insertOwn c l).length = l.length + 1
  | [] => rfl
  | d :: l => by
    unfold insertOwn
    split
    · rfl
    · simp [insertOwn_length c l]

theorem makeChange_internal (c : Change) (s : State) : Internal s (makeChange c s) := by
  unfold makeChange
  refine .trans ?_ (recomputeMarks_internal _)
  refine .trans ?_ (ownRecords_internal _ _ _ rfl rfl rfl)
  exact oc_internal _ s rfl rfl rfl rfl id id

theorem createClaim_internal (r : Request) (t : Tag) (s : State) (h : s.hasRoom = true) : Internal s (createClaim r t s) := by
  refine (oc_internal { s.oc with claims := insertOwn (newClaim r t) s.oc.claims } s rfl rfl rfl rfl (fun _ => ?_) id).trans
    (makeChange_internal _ _)
  have : s.oc.claims.length < 6 := by
    simp only [State.hasRoom, Bool.and_eq_true, decide_eq_true_eq] at h; exact h.1
  simp only [insertOwn_length]; omega

theorem waitForRoom_internal (r : Request) (s : State) : Internal s (waitForRoom r s) := by
  unfold waitForRoom
  dsimp only
  split
  · rename_i h
    exact oc_internal _ s rfl rfl rfl rfl id (fun _ => h)
  · exact .refl s

theorem requestNew_internal (r : Request) (s : State) : Internal s (requestNew r s) := by
  unfold requestNew
  split
  · exact .refl s
  · split
    · rename_i h
      split
      · exact createClaim_internal _ _ _ h
      · exact .refl s
    · exact waitForRoom_internal r s

theorem replaceClaim_internal (c : OwnClaim) (s : State) : Internal s (replaceClaim c s) :=
  oc_internal _ s rfl rfl rfl rfl (fun h => (List.length_map _).symm ▸ h) id

theorem amendClaim_internal (old new : OwnClaim) (s : State) : Internal s (amendClaim old new s) := by
  unfold amendClaim
  split
  · exact replaceClaim_internal _ _
  · exact (replaceClaim_internal _ _).trans (makeChange_internal _ _)

theorem placeRequest_internal (r : Request) (s : State) : Internal s (placeRequest r s) := by
  unfold placeRequest
  split
  · exact requestNew_internal _ _
  · split
    · exact replaceClaim_internal _ _
    · exact amendClaim_internal _ _ _

theorem takeWaiting_internal : ∀ (n : Nat) (s : State), Internal s (takeWaiting n s)
  | 0, s => .refl s
  | n + 1, s => by
    unfold takeWaiting
    split
    · rename_i r _ _
      exact ((oc_internal { s.oc with waiting := s.oc.waiting.erase r } s rfl rfl rfl rfl id
        (fun h => Nat.le_trans (List.length_erase_le) h)).trans (placeRequest_internal _ _)).trans (takeWaiting_internal n _)
    · exact .refl s

theorem placeFreed_internal (s : State) : Internal s (placeFreed s) := takeWaiting_internal _ s

theorem removeClaim_internal (c : OwnClaim) (s : State) : Internal s (removeClaim c s) :=
  .trans (.trans (oc_internal { s.oc with claims := s.oc.claims.filter (fun d => d.tag != c.tag) } s rfl rfl rfl rfl
    (fun h => Nat.le_trans (List.length_filter_le _ _) h) id) (makeChange_internal { tag := c.tag, op := .release } _)) (placeFreed_internal _)

theorem withdraw_internal (resource : Resource) (purpose : Purpose) (s : State) : Internal s (withdraw resource purpose s) := by
  unfold withdraw
  split
  · exact removeClaim_internal _ _
  · exact oc_internal _ s rfl rfl rfl rfl id (fun h => Nat.le_trans (List.length_filter_le _ _) h)

theorem request_internal (r : Request) (s : State) : Internal s (request r s) := by
  unfold request
  dsimp only
  split
  · exact withdraw_internal _ _ _
  · split
    · exact placeRequest_internal _ _
    · exact .refl s

theorem withdrawHolder_internal (h : Holder) (s : State) : Internal s (withdrawHolder h s) := by
  unfold withdrawHolder
  split
  · dsimp only
    split
    · exact removeClaim_internal _ _
    · exact replaceClaim_internal _ _
  · exact oc_internal _ s rfl rfl rfl rfl id (fun h => Nat.le_trans (List.length_filterMap_le _ _) h)

theorem setBoost_internal (resource : Resource) (b : Bool) (s : State) : Internal s (setBoost resource b s) := by
  unfold setBoost
  split
  · exact amendClaim_internal _ _ _
  · exact .refl s

theorem refreshClaims_internal (s : State) : Internal s (refreshClaims s) :=
  oc_internal _ s rfl rfl rfl rfl (fun h => (List.length_map _).symm ▸ h) id

theorem keepBoost_internal (s : State) : Internal s (keepBoost s) := by
  unfold keepBoost
  split
  · exact setBoost_internal _ _ _
  · exact .refl s

/-! ## The Incident List and the Unrecorded set -/

theorem removeRecord_shorter (r : Incident) (s : State) (h : r ∈ s.rs.incidents) :
    (removeRecord r.id s).rs.incidents.length < s.rs.incidents.length := by
  rw [removeRecord, List.length_filter_lt_length_iff_exists]
  exact ⟨r, h, by simp⟩

theorem submitRecord_internal (f : FaultId) (s : State) : Internal s (submitRecord f s).1 := by
  unfold submitRecord
  split
  · exact updateRecord_internal _ _ _
  · split
    · rename_i h
      exact createRecord_internal _ _ _ _ (.refl s) (fun _ => h)
    · split
      · rename_i old h
        have shorter := removeRecord_shorter old s (List.mem_of_find?_eq_some h)
        refine createRecord_internal _ _ _ _ (removeRecord_internal _ s) (fun b => ?_)
        have := b.incidents
        omega
      · split
        · exact .refl s
        · exact fd_internal _ s

theorem latch_internal (f : FaultId) (s : State) : Internal s (latch f s) := by
  unfold latch
  split
  · exact .refl s
  · exact setDetector_internal _ _ _

theorem afterSubmit_internal (f : FaultId) (was : Bool) (o : Submitted) (s : State) : Internal s (afterSubmit f was o s) := by
  unfold afterSubmit
  split
  · split
    · exact (fd_internal _ s).trans (latch_internal _ _)
    · split
      · exact (queueNotice_internal _ _).trans (latch_internal _ _)
      · exact latch_internal _ _
  · exact latch_internal _ _
  · split
    · exact queueNotice_internal _ _
    · exact .refl s
  · exact .refl s

theorem submit_internal (f : FaultId) (s : State) : Internal s (submit f s) :=
  (submitRecord_internal f s).trans (afterSubmit_internal _ _ _ _)

theorem resubmitUnrecorded_internal (s : State) : Internal s (resubmitUnrecorded s) :=
  foldl_internal _ (fun t f => submit_internal f t) _ s

theorem reviewHolds_internal (s : State) : Internal s (reviewHolds s) := by
  unfold reviewHolds
  split
  · exact .refl s
  · exact (foldl_internal _ (fun t h => request_internal _ t) _ s).trans
      (foldl_internal _ (fun t h => withdrawHolder_internal h t) _ _)

/-! ## The Fault Detector -/

theorem evalAtOnce_internal (f : FaultId) (s : State) : Internal s (evalAtOnce f s) := by
  unfold evalAtOnce
  split
  · exact .refl s
  · split
    · exact submit_internal _ _
    · exact .refl s
  · split
    · exact setDetector_internal _ _ _
    · exact .refl s

theorem evalTimed_internal (f : FaultId) (s : State) : Internal s (evalTimed f s) := by
  unfold evalTimed
  dsimp only
  split
  · exact .refl s
  · split
    · split
      · exact setDetector_internal _ _ _
      · split
        · exact submit_internal _ _
        · exact .refl s
    · exact setDetector_internal _ _ _
  · split
    · exact .refl s
    · exact setDetector_internal _ _ _

theorem evalDetector_internal (f : FaultId) (s : State) : Internal s (evalDetector f s) := by
  unfold evalDetector
  split <;> first | exact evalAtOnce_internal _ _ | exact .refl s | exact evalTimed_internal _ _

theorem runDetector_internal (f : FaultId) (s : State) : Internal s (runDetector s f) := by
  unfold runDetector
  split
  · exact (setDetector_internal _ _ _).trans (evalDetector_internal _ _)
  · exact .refl s
  · exact .refl s
  · exact setDetector_internal _ _ _

theorem runDetectors_internal (s : State) : Internal s (runDetectors s) :=
  foldl_internal _ (fun t f => runDetector_internal f t) _ s

theorem evalOutputs_internal (before : Vector Output 11) (s : State) : Internal s (evalOutputs before s) := by
  have step : ∀ (p : Prop) [Decidable p] (f : FaultId) (t : State), Internal s t → Internal s (if p then evalDetector f t else t) := by
    intro p _ f t h
    split
    · exact h.trans (evalDetector_internal _ _)
    · exact h
  exact step _ _ _ (step _ _ _ (step _ _ _ (step _ _ _ (.refl s))))

theorem handOutputs_internal (s : State) : Internal s (handOutputs s) :=
  (outputs_internal _ s).trans (evalOutputs_internal _ _)

theorem evalSample_internal (f : FaultId) (x : Sample) (s : State) : Internal s (evalSample f x s) := by
  unfold evalSample
  dsimp only
  split
  · exact .refl s
  · split
    · split
      · exact (setDetector_internal _ _ s).trans (submit_internal _ _)
      · exact setDetector_internal _ _ s
    · exact setDetector_internal _ _ s
  · split
    · exact .refl s
    · exact setDetector_internal _ _ s

theorem evalLine_internal (f : LineFunction) (s : State) : Internal s (evalLine f s) :=
  foldl_internal _ (fun t k => evalDetector_internal k t) _ s

theorem evalArrival_internal (c : Channel) (x : Sample) (s : State) : Internal s (evalArrival c x s) := by
  unfold evalArrival
  split
  · exact (evalSample_internal _ _ _).trans (evalSample_internal _ _ _)
  · split
    · exact (evalSample_internal _ _ _).trans (evalTimed_internal _ _)
    · exact evalTimed_internal _ _

theorem countValid_internal (c : Channel) (x : Sample) (s : State) : Internal s (countValid c x s) := by
  unfold countValid
  split
  · split
    · exact rs_internal _ s (Nat.le_refl _)
    · exact .refl s
  · exact .refl s

/-! ## The Program Drive -/

theorem judgeDrained_internal (s : State) : Internal s (judgeDrained s) := by
  unfold judgeDrained
  split
  · exact pd_internal _ s rfl
  · exact .refl s

theorem withdrawUnneeded_internal (r : Resource) (a b : Option Nat) (s : State) : Internal s (withdrawUnneeded r a b s) := by
  unfold withdrawUnneeded
  split
  · exact withdraw_internal _ _ _
  · exact .refl s

theorem requestNeeded_internal (r : Resource) (a b : Option Nat) (s : State) : Internal s (requestNeeded r a b s) := by
  unfold requestNeeded
  split
  · split
    · exact .refl s
    · exact request_internal _ _
  · exact .refl s

theorem updateProgramClaims_internal (s : State) : Internal s (updateProgramClaims s) := by
  unfold updateProgramClaims
  split
  · exact pd_internal _ s rfl
  · exact ((((((withdrawUnneeded_internal _ _ _ _).trans (withdrawUnneeded_internal _ _ _ _)).trans
      (withdrawUnneeded_internal _ _ _ _)).trans (requestNeeded_internal _ _ _ _)).trans (requestNeeded_internal _ _ _ _)).trans
      (requestNeeded_internal _ _ _ _)).trans (pd_internal _ _ rfl)

theorem driveEvaluate_internal (s : State) : Internal s (driveEvaluate s) := by
  refine (judgeDrained_internal s).trans ?_
  unfold driveEvaluate
  dsimp only
  refine .trans ?_ (updateProgramClaims_internal _)
  exact pd_internal _ _ rfl

/-! ## The Recovery Sequencer -/

theorem stopStepTimers_internal (s : State) : Internal s (stopStepTimers s) := rs_internal _ s (Nat.le_refl _)

theorem requestStepClaims_internal (id : Nat) (step : Step) (s : State) : Internal s (requestStepClaims id step s) := by
  unfold requestStepClaims
  split
  · exact request_internal _ _
  · split
    · exact setBoost_internal _ _ _
    · exact .refl s

theorem startStep_internal (id : Nat) (step : Step) (s : State) : Internal s (startStep id step s) :=
  ((updateRecord_internal _ _ s).trans (stopStepTimers_internal _)).trans (requestStepClaims_internal _ _ _)

theorem endStep_internal (id : Nat) (step : Step) (s : State) : Internal s (endStep id step s) := by
  unfold endStep
  dsimp only
  split
  · exact (stopStepTimers_internal s).trans (withdraw_internal _ _ _)
  · split
    · exact (stopStepTimers_internal s).trans (setBoost_internal _ _ _)
    · exact stopStepTimers_internal s

theorem suspend_internal (s : State) : Internal s (suspend s) := by
  unfold suspend
  split
  · exact .refl s
  · exact (updateRecord_internal _ _ s).trans (endStep_internal _ _ _)

theorem activate_internal (r : Incident) (s : State) : Internal s (activate r s) := by
  unfold activate
  dsimp only
  refine .trans ?_ (startStep_internal _ _ _)
  refine .trans ?_ (rs_internal _ _ (Nat.le_refl _))
  exact updateRecord_internal r.id _ s

theorem arbitrate_internal (s : State) : Internal s (arbitrate s).1 := by
  unfold arbitrate
  split
  · split
    · exact activate_internal _ _
    · split
      · exact (suspend_internal s).trans (activate_internal _ _)
      · exact .refl s
    · exact .refl s
  · exact suspend_internal s

theorem failRecord_internal (id : Nat) (step : Step) (r : FailureReason) (s : State) : Internal s (failRecord id step r s) :=
  (updateRecord_internal _ _ s).trans (endStep_internal _ _ _)

theorem failAttempt_internal (id : Nat) (f : FaultId) (step : Step) (c : AttemptCause) (s : State) :
    Internal s (failAttempt id f step c s).1 := by
  refine .trans (rs_internal { s.rs with lastCause := some c } s (Nat.le_refl _)) ?_
  unfold failAttempt
  dsimp only
  split
  · exact .refl _
  · split
    · exact ((endStep_internal _ _ _).trans (updateRecord_internal _ _ _)).trans (startStep_internal _ _ _)
    · exact failRecord_internal _ _ _ _

theorem clearRecord_internal (id : Nat) (f : FaultId) (step : Step) (o : RecoveryOutcome) (s : State) :
    Internal s (clearRecord id f step o s) := by
  unfold clearRecord
  dsimp only
  have h := (updateRecord_internal id (fun r => { r with state := .cleared o }) s).trans (endStep_internal id step _)
  split
  · exact (h.trans (queueNotice_internal _ _)).trans (resubmitUnrecorded_internal _)
  · exact h.trans (resubmitUnrecorded_internal _)

theorem markOut_internal (e : Element) (s : State) : Internal s (markOut e s) :=
  .of_kept rfl rfl rfl rfl rfl (fun b => ⟨b.claims, b.waiting, b.incidents, b.nextId, b.hazards, b.carried, b.counters, b.records⟩) fun d h => by
    by_cases e1 : e = d
    · subst e1; exact setAt_same _ _ _
    · exact (setAt_other _ _ _ _ e1).trans h

theorem completeStep_internal (id : Nat) (f : FaultId) (step : Step) (s : State) : Internal s (completeStep id f step s).1 := by
  unfold completeStep
  split
  · exact (endStep_internal _ _ _).trans (startStep_internal _ _ _)
  · exact clearRecord_internal _ _ _ _ _

theorem carryOut_internal (id : Nat) (f : FaultId) (step : Step) (v : Verdict) (s : State) :
    Internal s (carryOut id f step v s).1 := by
  unfold carryOut
  split
  · exact .refl s
  · exact completeStep_internal _ _ _ _
  · exact failAttempt_internal _ _ _ _ _
  · exact failRecord_internal _ _ _ _
  · exact (markOut_internal _ _).trans (failRecord_internal _ _ _ _)
  · exact (markOut_internal _ _).trans (clearRecord_internal _ _ _ _ _)
  · exact clearRecord_internal _ _ _ _ _

theorem countFree_internal (step : Step) (tr : Trigger) (s : State) : Internal s (countFree step tr s) := by
  unfold countFree
  split
  · exact free_internal _ s
  · exact .refl s

theorem judgeStep_internal (tr : Trigger) (s : State) : Internal s (judgeStep tr s).1 := by
  unfold judgeStep
  split
  · exact .refl s
  · exact (countFree_internal _ _ _).trans (carryOut_internal _ _ _ _ _)

theorem stepTimers_internal (s : State) : Internal s (stepTimers s) := by
  unfold stepTimers
  split
  · exact .refl s
  · dsimp only
    split
    · exact rs_internal _ s (Nat.le_refl _)
    · exact rs_internal _ s (Nat.le_refl _)

/-! ## The end of an event -/

theorem watchNotHeard_internal (s : State) : Internal s (watchNotHeard s) :=
  ⟨rfl, .inl rfl, .inl rfl, fun _ => ⟨rfl, rfl⟩, fun _ _ => rfl, fun _ _ _ => rfl,
    fun b => ⟨b.claims, b.waiting, b.incidents, b.nextId, b.hazards, b.carried, b.counters, b.records⟩, fun _ => id, .inr rfl⟩

theorem judgeJoin_internal (s : State) : Internal s (judgeJoin s) := by
  unfold judgeJoin
  split
  · rename_i h
    exact ⟨rfl, .inr ⟨h, rfl⟩, .inr ⟨h, rfl⟩, fun _ => ⟨rfl, rfl⟩, fun _ _ => rfl, fun _ _ _ => rfl, fun b =>
      ⟨b.claims, b.waiting, b.incidents, b.nextId, b.hazards, b.carried, b.counters, b.records⟩, fun _ => id, .inl rfl⟩
  · exact .refl s

theorem claimsPass_internal (s : State) : Internal s (claimsPass s) :=
  (((((keepBoost_internal s).trans (recomputeMarks_internal _)).trans (refreshClaims_internal _)).trans
    (handOutputs_internal _)).trans (watchNotHeard_internal _)).trans (stepTimers_internal _)

theorem pass_internal (tr : Trigger) (s : State) : Internal s (pass tr s).1 := by
  have blocks : Internal s (blocksPass s) :=
    (((judgeJoin_internal s).trans (runDetectors_internal _)).trans (reviewHolds_internal _)).trans (driveEvaluate_internal _)
  unfold pass
  dsimp only
  exact ((blocks.trans (arbitrate_internal _)).trans (claimsPass_internal _)).trans (judgeStep_internal _ _)

theorem settle_internal : ∀ (n : Nat) (tr : Trigger) (s : State), Internal s (settle n tr s)
  | 0, _, s => .refl s
  | n + 1, tr, s => by
    unfold settle
    dsimp only
    split
    · exact .refl s
    · exact (pass_internal tr s).trans (settle_internal n _ _)

/-- Everything the end of an event can do. -/
theorem endEvent_internal (tr : Trigger) (s : State) : Internal s (endEvent tr s) := settle_internal _ tr s

/-- A pass of an event sets the interval of R93 as the condition has it. -/
theorem pass_watch (tr : Trigger) (s : State) : (pass tr s).1.mu.notHeardBySince = (watchNotHeard s).mu.notHeardBySince := by
  have blocks : Internal s (blocksPass s) :=
    (((judgeJoin_internal s).trans (runDetectors_internal _)).trans (reviewHolds_internal _)).trans (driveEvaluate_internal _)
  have before : Internal s (handOutputs (refreshClaims (recomputeMarks (keepBoost (arbitrate (blocksPass s)).1)))) :=
    (((blocks.trans (arbitrate_internal _)).trans (keepBoost_internal _)).trans
      ((recomputeMarks_internal _).trans (refreshClaims_internal _))).trans (handOutputs_internal _)
  unfold pass claimsPass
  dsimp only
  generalize handOutputs _ = w at *
  have after := (stepTimers_internal (watchNotHeard w)).trans
    (judgeStep_internal (if (arbitrate (blocksPass s)).2 = .start then .start else tr) (stepTimers (watchNotHeard w)))
  rcases after.watch with a | a
  · exact a.trans before.watched
  · exact (a.trans (watchNotHeard_internal w).watched).trans before.watched

/-- The end of an event starts, keeps or stops the interval of R93 as the condition has it. -/
theorem endEvent_watch (tr : Trigger) (s : State) :
    (endEvent tr s).mu.notHeardBySince = if s.notHeard then some (s.mu.notHeardBySince.getD s.now) else none := by
  have e : Config.passes = 255 + 1 := by decide
  unfold endEvent
  rw [e]
  generalize 255 = n
  show _ = (watchNotHeard s).mu.notHeardBySince
  have first := pass_watch tr s
  unfold settle
  dsimp only
  split
  · rename_i same
    rw [same.1] at first
    exact first
  · rcases (settle_internal n (pass tr s).2 (pass tr s).1).watch with k | k
    · exact k.trans first
    · exact k.trans (pass_internal tr s).watched

theorem pass_joined (tr : Trigger) (s : State) (h : s.joinEnds = true) :
    (pass tr s).1.mu.linkState = .joined ∧ (pass tr s).1.oc.restatementDue = true := by
  have j : (judgeJoin s).mu.linkState = .joined ∧ (judgeJoin s).oc.restatementDue = true := by
    simp only [judgeJoin, h, if_true, ownClaimsJoined, and_self]
  have rest : Internal (judgeJoin s) (pass tr s).1 := by
    have blocks : Internal (judgeJoin s) (blocksPass s) :=
      ((runDetectors_internal _).trans (reviewHolds_internal _)).trans (driveEvaluate_internal _)
    unfold pass
    dsimp only
    exact ((blocks.trans (arbitrate_internal _)).trans (claimsPass_internal _)).trans (judgeStep_internal _ _)
  exact ⟨rest.link.elim (fun r => r.trans j.1) And.right, rest.due.elim (fun r => r.trans j.2) And.right⟩

theorem settle_joined (n : Nat) (tr : Trigger) (s : State) (h : s.joinEnds = true) :
    (settle (n + 1) tr s).mu.linkState = .joined ∧ (settle (n + 1) tr s).oc.restatementDue = true := by
  have first := pass_joined tr s h
  have l : s.mu.linkState = .joining := by
    simp only [State.joinEnds, Bool.and_eq_true, beq_iff_eq] at h; exact h.1
  unfold settle
  dsimp only
  split
  · rename_i e
    rw [e.1, l] at first; cases first.1
  · have k := settle_internal n (pass tr s).2 (pass tr s).1
    exact ⟨k.link.elim (fun r => r.trans first.1) And.right, k.due.elim (fun r => r.trans first.2) And.right⟩

/-- A JOINING wait that has ended makes the station JOINED by the end of the event, a restatement due (R89, R91). -/
theorem endEvent_joined_due (tr : Trigger) (s : State) (h : s.joinEnds = true) :
    (endEvent tr s).mu.linkState = .joined ∧ (endEvent tr s).oc.restatementDue = true := by
  have e : Config.passes = 255 + 1 := by decide
  unfold endEvent
  rw [e]
  generalize 255 = n
  exact settle_joined n tr s h

theorem endEvent_joined (tr : Trigger) (s : State) (h : s.joinEnds = true) : (endEvent tr s).mu.linkState = .joined :=
  (endEvent_joined_due tr s h).1

end Sys2Proof.Machine
end

