-- ==== Sys2Proof/Laws/Opening.lean ====
section
/-! SUPPORT. What the beginning of an opening can do: it reads the clock into the opening, and it may start one own frame. -/

namespace Sys2Proof.Machine

/-- The parts of the state that the beginning of an opening leaves as they were. -/
def unopened (s : State) :=
  ((s.now, s.supply, s.zoneMode, s.mu, s.ct, s.lu, s.ms, s.pd, s.fd, s.rs, s.free, s.pending),
   (s.lc.position, s.lc.roundCount, s.lc.presenceAge, s.lc.receiverOn, s.lc.transmitCut, s.lc.idleStart, s.lc.lastPresence),
   (s.oc.claims, s.oc.awaiting, s.oc.waiting, s.oc.changeNumber, s.oc.restatementDue, s.oc.restatedSinceStart, s.oc.restatedSinceJoined),
   (s.hz.serial, s.hz.stopMark, s.hz.memory, s.hz.gateStop, s.hz.queue.length, s.rp.counters),
   ((s.cs.stored, s.cs.mixed), s.cs.working, s.cs.stage, s.cs.loadResult, s.cs.locked, s.cs.commit, s.cs.carryIncidents, s.cs.carryOutOfService,
    s.cs.straps, s.cs.number))

/-- `t` comes from `s` by the beginning of an opening, or by the start of an own frame on a quiet medium. -/
structure Opened (s t : State) : Prop where
  same : unopened t = unopened s
  medium : t.lc.medium = s.lc.medium ∨ (s.lc.medium = .quiet ∧ ∃ f, t.lc.medium = .own f ∧ f.start = s.now)
  quiet : t.lc.medium = s.lc.medium → t.oc = s.oc ∧ t.hz = s.hz ∧ t.rp = s.rp ∧ t.cs = s.cs

variable {s t : State}

theorem Opened.now (h : Opened s t) : t.now = s.now := congrArg (fun x => x.1.1) h.same
theorem Opened.supply (h : Opened s t) : t.supply = s.supply := congrArg (fun x => x.1.2.1) h.same
theorem Opened.zoneMode (h : Opened s t) : t.zoneMode = s.zoneMode := congrArg (fun x => x.1.2.2.1) h.same
theorem Opened.mu (h : Opened s t) : t.mu = s.mu := congrArg (fun x => x.1.2.2.2.1) h.same
theorem Opened.ct (h : Opened s t) : t.ct = s.ct := congrArg (fun x => x.1.2.2.2.2.1) h.same
theorem Opened.lu (h : Opened s t) : t.lu = s.lu := congrArg (fun x => x.1.2.2.2.2.2.1) h.same
theorem Opened.ms (h : Opened s t) : t.ms = s.ms := congrArg (fun x => x.1.2.2.2.2.2.2.1) h.same
theorem Opened.pd (h : Opened s t) : t.pd = s.pd := congrArg (fun x => x.1.2.2.2.2.2.2.2.1) h.same
theorem Opened.fd (h : Opened s t) : t.fd = s.fd := congrArg (fun x => x.1.2.2.2.2.2.2.2.2.1) h.same
theorem Opened.rs (h : Opened s t) : t.rs = s.rs := congrArg (fun x => x.1.2.2.2.2.2.2.2.2.2.1) h.same
theorem Opened.free (h : Opened s t) : t.free = s.free := congrArg (fun x => x.1.2.2.2.2.2.2.2.2.2.2.1) h.same
theorem Opened.pending (h : Opened s t) : t.pending = s.pending := congrArg (fun x => x.1.2.2.2.2.2.2.2.2.2.2.2) h.same
theorem Opened.position (h : Opened s t) : t.lc.position = s.lc.position := congrArg (fun x => x.2.1.1) h.same
theorem Opened.roundCount (h : Opened s t) : t.lc.roundCount = s.lc.roundCount := congrArg (fun x => x.2.1.2.1) h.same
theorem Opened.presenceAge (h : Opened s t) : t.lc.presenceAge = s.lc.presenceAge := congrArg (fun x => x.2.1.2.2.1) h.same
theorem Opened.receiverOn (h : Opened s t) : t.lc.receiverOn = s.lc.receiverOn := congrArg (fun x => x.2.1.2.2.2.1) h.same
theorem Opened.transmitCut (h : Opened s t) : t.lc.transmitCut = s.lc.transmitCut := congrArg (fun x => x.2.1.2.2.2.2.1) h.same
theorem Opened.claims (h : Opened s t) : t.oc.claims = s.oc.claims := congrArg (fun x => x.2.2.1.1) h.same
theorem Opened.waiting (h : Opened s t) : t.oc.waiting = s.oc.waiting := congrArg (fun x => x.2.2.1.2.2.1) h.same
theorem Opened.changeNumber (h : Opened s t) : t.oc.changeNumber = s.oc.changeNumber := congrArg (fun x => x.2.2.1.2.2.2.1) h.same
theorem Opened.restatementDue (h : Opened s t) : t.oc.restatementDue = s.oc.restatementDue :=
  congrArg (fun x => x.2.2.1.2.2.2.2.1) h.same
theorem Opened.memory (h : Opened s t) : t.hz.memory = s.hz.memory := congrArg (fun x => x.2.2.2.1.2.2.1) h.same
theorem Opened.gateStop (h : Opened s t) : t.hz.gateStop = s.hz.gateStop := congrArg (fun x => x.2.2.2.1.2.2.2.1) h.same
theorem Opened.queue (h : Opened s t) : t.hz.queue.length = s.hz.queue.length := congrArg (fun x => x.2.2.2.1.2.2.2.2.1) h.same
theorem Opened.counters (h : Opened s t) : t.rp.counters = s.rp.counters := congrArg (fun x => x.2.2.2.1.2.2.2.2.2) h.same
theorem Opened.stored (h : Opened s t) : t.cs.stored = s.cs.stored := congrArg (fun x => x.2.2.2.2.1.1) h.same
theorem Opened.mixed (h : Opened s t) : t.cs.mixed = s.cs.mixed := congrArg (fun x => x.2.2.2.2.1.2) h.same
theorem Opened.working (h : Opened s t) : t.cs.working = s.cs.working := congrArg (fun x => x.2.2.2.2.2.1) h.same
theorem Opened.locked (h : Opened s t) : t.cs.locked = s.cs.locked := congrArg (fun x => x.2.2.2.2.2.2.2.2.1) h.same
theorem Opened.commit (h : Opened s t) : t.cs.commit = s.cs.commit := congrArg (fun x => x.2.2.2.2.2.2.2.2.2.1) h.same
theorem Opened.carryIncidents (h : Opened s t) : t.cs.carryIncidents = s.cs.carryIncidents :=
  congrArg (fun x => x.2.2.2.2.2.2.2.2.2.2.1) h.same
theorem Opened.number (h : Opened s t) : t.cs.number = s.cs.number := congrArg (fun x => x.2.2.2.2.2.2.2.2.2.2.2.2.2) h.same

/-- What is bounded stays so: no list and no counter that the bounds speak of is written. -/
theorem Opened.bounded (h : Opened s t) (b : s.Bounded) : t.Bounded where
  claims := h.claims ▸ b.claims
  waiting := h.waiting ▸ b.waiting
  incidents := h.rs ▸ b.incidents
  nextId := h.rs ▸ b.nextId
  hazards := h.queue ▸ b.hazards
  carried := h.carryIncidents ▸ b.carried
  counters := fun c => by simpa only [State.counter, h.counters] using b.counters c
  records := fun k hk => by
    have e : t.me = s.me := by simp only [State.me, h.number]
    simpa only [h.ct] using b.records k (e ▸ hk)

theorem Opened.imagesWf (h : Opened s t) (w : s.ImagesWf) : t.ImagesWf := by
  unfold State.ImagesWf at *
  rw [h.stored, h.working, h.commit]
  exact w

/-- The start of an own frame on a quiet medium. -/
theorem started (q : s.lc.medium = .quiet) (h : unopened t = unopened s) (hm : ∃ f, t.lc.medium = .own f ∧ f.start = s.now) :
    Opened s t := by
  refine ⟨h, .inr ⟨q, hm⟩, fun e => ?_⟩
  obtain ⟨f, hf, -⟩ := hm
  rw [e, q] at hf
  cases hf

theorem unstarted (h : t = s) : Opened s t := h ▸ ⟨rfl, .inl rfl, fun _ => ⟨rfl, rfl, rfl, rfl⟩⟩

theorem sendHazard_opened (e : HazardEntry) (q : s.lc.medium = .quiet) : Opened s (sendHazard e s) := by
  refine started q ?_ ⟨_, rfl, by unfold markFirstOnWire; split <;> rfl⟩
  unfold sendHazard markFirstOnWire
  split
  · rfl
  · rename_i h; simp [unopened, startFrame, setMedium, h]

theorem chooseFrame_opened (q : s.lc.medium = .quiet) : Opened s (chooseFrame s) := by
  unfold chooseFrame
  repeat' split
  all_goals first
    | exact started q rfl ⟨_, rfl, rfl⟩
    | exact sendHazard_opened _ q
    | exact unstarted rfl

theorem chooseServiceFrame_opened (q : s.lc.medium = .quiet) : Opened s (chooseServiceFrame s) := by
  unfold chooseServiceFrame
  split
  all_goals first
    | exact started q rfl ⟨_, rfl, rfl⟩
    | exact unstarted rfl

/-- Everything the beginning of an opening can do. -/
theorem beginOpening_opened (s : State) : Opened s (beginOpening s) := by
  have set : Opened s { s with lc := { s.lc with openingStart := s.now } } := ⟨rfl, .inl rfl, fun _ => ⟨rfl, rfl, rfl, rfl⟩⟩
  have lift : ∀ t, Opened { s with lc := { s.lc with openingStart := s.now } } t → Opened s t :=
    fun t h => ⟨h.same, h.medium, h.quiet⟩
  unfold beginOpening
  dsimp only
  split
  · exact set
  · rename_i h
    have q : s.lc.medium = .quiet := by
      simp only [Bool.or_eq_true, not_or, bne_iff_ne, ne_eq, Decidable.not_not] at h; exact h.1.2
    split
    · split
      · exact lift _ (chooseServiceFrame_opened q)
      · exact set
    · split
      · exact lift _ (chooseFrame_opened q)
      · exact set

/-! ## The wheel -/

theorem setPosition_mu (p : Nat) (s : State) : (setPosition p s).mu = s.mu := by unfold setPosition; split <;> rfl
theorem setPosition_ct (p : Nat) (s : State) : (setPosition p s).ct = s.ct := by unfold setPosition; split <;> rfl
theorem setPosition_oc (p : Nat) (s : State) : (setPosition p s).oc = s.oc := by unfold setPosition; split <;> rfl
theorem setPosition_lu (p : Nat) (s : State) : (setPosition p s).lu = s.lu := by unfold setPosition; split <;> rfl
theorem setPosition_pd (p : Nat) (s : State) : (setPosition p s).pd = s.pd := by unfold setPosition; split <;> rfl
theorem setPosition_rs (p : Nat) (s : State) : (setPosition p s).rs = s.rs := by unfold setPosition; split <;> rfl
theorem setPosition_hz (p : Nat) (s : State) : (setPosition p s).hz = s.hz := by unfold setPosition; split <;> rfl
theorem setPosition_cs (p : Nat) (s : State) : (setPosition p s).cs = s.cs := by unfold setPosition; split <;> rfl
theorem setPosition_rp (p : Nat) (s : State) : (setPosition p s).rp = s.rp := by unfold setPosition; split <;> rfl
theorem setPosition_now (p : Nat) (s : State) : (setPosition p s).now = s.now := by unfold setPosition; split <;> rfl
theorem setPosition_medium (p : Nat) (s : State) : (setPosition p s).lc.medium = s.lc.medium := by
  unfold setPosition; split <;> rfl
theorem setPosition_supply (p : Nat) (s : State) : (setPosition p s).supply = s.supply := by unfold setPosition; split <;> rfl
theorem setPosition_zoneMode (p : Nat) (s : State) : (setPosition p s).zoneMode = s.zoneMode := by
  unfold setPosition; split <;> rfl
theorem setPosition_pending (p : Nat) (s : State) : (setPosition p s).pending = s.pending := by unfold setPosition; split <;> rfl

/-- A position set lies on the wheel (R48). -/
theorem setPosition_onWheel (p : Nat) (s : State) : (setPosition p s).lc.position ≤ s.wheelSize := by
  unfold setPosition
  split
  · exact Nat.zero_le _
  · rename_i h; exact Nat.le_of_not_lt h

end Sys2Proof.Machine
end

