-- ==== Sys2Proof/Laws/OwnClaims.lean ====
section
/-! SUPPORT. Requests, withdrawals and changes write the Own Claim Unit and the Claim Table and nothing else; what that leaves of the steps. -/

namespace Sys2Proof.Machine

/-- `t` is `s` with the Own Claim Unit and the Claim Table written. -/
def Claimed (s t : State) : Prop := t = { s with oc := t.oc, ct := t.ct }

variable {s t u : State}

theorem Claimed.refl (s : State) : Claimed s s := rfl
theorem Claimed.trans (h : Claimed s t) (k : Claimed t u) : Claimed s u := by
  unfold Claimed at *
  rw [k, h]
theorem Claimed.rs (h : Claimed s t) : t.rs = s.rs := by rw [h]
theorem Claimed.mu (h : Claimed s t) : t.mu = s.mu := by rw [h]
theorem Claimed.lu (h : Claimed s t) : t.lu = s.lu := by rw [h]
theorem Claimed.pd (h : Claimed s t) : t.pd = s.pd := by rw [h]
theorem Claimed.fd (h : Claimed s t) : t.fd = s.fd := by rw [h]
theorem Claimed.hz (h : Claimed s t) : t.hz = s.hz := by rw [h]
theorem Claimed.cs (h : Claimed s t) : t.cs = s.cs := by rw [h]
theorem Claimed.rp (h : Claimed s t) : t.rp = s.rp := by rw [h]
theorem Claimed.ms (h : Claimed s t) : t.ms = s.ms := by rw [h]
theorem Claimed.lc (h : Claimed s t) : t.lc = s.lc := by rw [h]
theorem Claimed.now (h : Claimed s t) : t.now = s.now := by rw [h]
theorem Claimed.zoneMode (h : Claimed s t) : t.zoneMode = s.zoneMode := by rw [h]
theorem Claimed.supply (h : Claimed s t) : t.supply = s.supply := by rw [h]
theorem Claimed.pending (h : Claimed s t) : t.pending = s.pending := by rw [h]
theorem Claimed.free (h : Claimed s t) : t.free = s.free := by rw [h]

theorem makeChange_claimed (c : Change) (s : State) : Claimed s (makeChange c s) := rfl
theorem createClaim_claimed (r : Request) (t : Tag) (s : State) : Claimed s (createClaim r t s) := rfl
theorem replaceClaim_claimed (c : OwnClaim) (s : State) : Claimed s (replaceClaim c s) := rfl

theorem waitForRoom_claimed (r : Request) (s : State) : Claimed s (waitForRoom r s) := by
  unfold waitForRoom; dsimp only; split <;> rfl

theorem requestNew_claimed (r : Request) (s : State) : Claimed s (requestNew r s) := by
  unfold requestNew
  split
  · rfl
  · split
    · split <;> rfl
    · exact waitForRoom_claimed r s

theorem amendClaim_claimed (old new : OwnClaim) (s : State) : Claimed s (amendClaim old new s) := by
  unfold amendClaim; split <;> rfl

theorem placeRequest_claimed (r : Request) (s : State) : Claimed s (placeRequest r s) := by
  unfold placeRequest
  split
  · exact requestNew_claimed r s
  · split
    · rfl
    · exact amendClaim_claimed _ _ _

theorem takeWaiting_claimed : ∀ (n : Nat) (s : State), Claimed s (takeWaiting n s)
  | 0, _ => rfl
  | n + 1, s => by
    unfold takeWaiting
    split
    · rename_i r _ _
      exact .trans (t := { s with oc := { s.oc with waiting := s.oc.waiting.erase r } }) rfl
        ((placeRequest_claimed r _).trans (takeWaiting_claimed n _))
    · rfl

theorem placeFreed_claimed (s : State) : Claimed s (placeFreed s) := takeWaiting_claimed _ s

theorem removeClaim_claimed (c : OwnClaim) (s : State) : Claimed s (removeClaim c s) := by
  unfold removeClaim
  refine .trans ?_ (placeFreed_claimed _)
  exact .trans (t := { s with oc := { s.oc with claims := s.oc.claims.filter (fun d => d.tag != c.tag) } }) rfl
    (makeChange_claimed _ _)

theorem withdraw_claimed (resource : Resource) (purpose : Purpose) (s : State) : Claimed s (withdraw resource purpose s) := by
  unfold withdraw
  split
  · exact removeClaim_claimed _ _
  · rfl

theorem request_claimed (r : Request) (s : State) : Claimed s (request r s) := by
  unfold request
  dsimp only
  split
  · exact withdraw_claimed _ _ _
  · split
    · exact placeRequest_claimed _ _
    · rfl

theorem withdrawHolder_claimed (h : Holder) (s : State) : Claimed s (withdrawHolder h s) := by
  unfold withdrawHolder
  split
  · dsimp only
    split
    · exact removeClaim_claimed _ _
    · rfl
  · rfl

theorem setBoost_claimed (resource : Resource) (b : Bool) (s : State) : Claimed s (setBoost resource b s) := by
  unfold setBoost
  split
  · exact amendClaim_claimed _ _ _
  · rfl

theorem refreshClaims_claimed (s : State) : Claimed s (refreshClaims s) := rfl
theorem recomputeMarks_claimed (s : State) : Claimed s (recomputeMarks s) := rfl

theorem foldl_claimed {α : Type} (f : State → α → State) (h : ∀ t a, Claimed t (f t a)) :
    ∀ (l : List α) (s : State), Claimed s (l.foldl f s)
  | [], _ => rfl
  | a :: l, s => (h s a).trans (foldl_claimed f h l (f s a))

theorem reviewHolds_claimed (s : State) : Claimed s (reviewHolds s) := by
  unfold reviewHolds
  split
  · rfl
  · exact (foldl_claimed _ (fun t h => request_claimed _ t) _ s).trans (foldl_claimed _ (fun t h => withdrawHolder_claimed h t) _ _)

/-! ## Steps -/

/-- The start of a step writes the record's step field, the timers, and the step's claims (R165). -/
theorem startStep_claimed (id : Nat) (step : Step) (s : State) :
    Claimed (stopStepTimers (updateRecord id (fun r => { r with state := .active step }) s)) (startStep id step s) := by
  unfold startStep requestStepClaims
  split
  · exact request_claimed _ _
  · split
    · exact setBoost_claimed _ _ _
    · rfl

/-- The end of a step stops the timers and withdraws the step's claims (R167). -/
theorem endStep_claimed (id : Nat) (step : Step) (s : State) : Claimed (stopStepTimers s) (endStep id step s) := by
  unfold endStep
  dsimp only
  split
  · exact withdraw_claimed _ _ _
  · split
    · exact setBoost_claimed _ _ _
    · rfl

/-- The records after the start of a step: the step field of the one record. -/
theorem startStep_incidents (id : Nat) (step : Step) (s : State) :
    (startStep id step s).rs.incidents = s.rs.incidents.map (fun r => if r.id = id then { r with state := .active step } else r) := by
  rw [(startStep_claimed id step s).rs]; rfl

/-- The end of a step leaves the records as they are. -/
theorem endStep_incidents (id : Nat) (step : Step) (s : State) : (endStep id step s).rs.incidents = s.rs.incidents := by
  rw [(endStep_claimed id step s).rs]; rfl

/-- The records after a record became FAILED (R170). -/
theorem failRecord_incidents (id : Nat) (step : Step) (reason : FailureReason) (s : State) :
    (failRecord id step reason s).rs.incidents =
      s.rs.incidents.map (fun r => if r.id = id then { r with state := .failed reason } else r) := by
  unfold failRecord
  rw [endStep_incidents]; rfl

end Sys2Proof.Machine
end

