-- ==== Sys2Proof/Laws/Frames.lean ====
section
/-! SUPPORT. Receiving a frame: what a delivered frame comes to, what an arrival record and the end of the event leave. -/

namespace Sys2Proof.Machine

variable {s t : State} {kind : FrameKind} {h : Header} {payload : List Byte}

theorem acceptance_mediumEnds (s : State) : (mediumEnds s).acceptance kind h payload = s.acceptance kind h payload := rfl

theorem runMode_not_service (r : s.runMode = true) : s.serviceMode = false := by
  simp only [State.runMode, State.serviceMode, Bool.or_eq_true, beq_iff_eq] at *
  rcases r with r | r <;> simp [r]

theorem serviceMode_not_run (r : s.serviceMode = true) : s.runMode = false := by
  simp only [State.runMode, State.serviceMode, Bool.or_eq_true, beq_iff_eq] at *
  rcases r with r | r <;> simp [r]

/-- A delivered frame: the owning block, the arrival record, the rest of the event, the wheel and the opening (R75, R76, R50). -/
theorem receiveFrame_delivers (d : s.Delivers kind h payload) :
    receiveFrame kind h payload s = afterFrame h (arrived h (deliverRun kind h payload s.asTaken)) := by
  obtain ⟨c, r, a, f⟩ := d
  have r' : (count .accepted (mediumEnds s)).runMode = true := r
  have a' : (mediumEnds s).acceptance kind h payload = .accepted := a
  have f' : ((count .accepted (mediumEnds s)).senderForeign h && kind != .presence) = false := by
    rcases f with f | f
    · subst f; simp
    · have : (count .accepted (mediumEnds s)).senderForeign h = false := f
      rw [this]; rfl
  unfold receiveFrame acceptFrame deliver
  rw [if_pos c, a']
  simp only [r', f', if_true, Bool.false_eq_true, if_false]
  rfl

/-- A frame delivered in a service mode: no arrival record (R76). -/
theorem receiveFrame_service (d : s.DeliversService kind h payload) :
    receiveFrame kind h payload s = afterFrame h (deliverService kind h payload s.asTaken) := by
  obtain ⟨c, r, a⟩ := d
  have r' : (count .accepted (mediumEnds s)).serviceMode = true := r
  have q' : (count .accepted (mediumEnds s)).runMode = false := serviceMode_not_run r'
  have a' : (mediumEnds s).acceptance kind h payload = .accepted := a
  unfold receiveFrame acceptFrame deliver
  rw [if_pos c, a']
  simp only [r', q', if_true, Bool.false_eq_true, if_false]
  rfl

/-- What follows a frame: the wheel and the opening after the end of the event. -/
theorem afterFrame_eq (h : Header) (s : State) : afterFrame h s = frameEnds h.sender.toNat (endEvent .none s) := rfl

/-! ## The state a frame is taken in -/

@[simp] theorem asTaken_now (s : State) : s.asTaken.now = s.now := rfl
@[simp] theorem asTaken_supply (s : State) : s.asTaken.supply = s.supply := rfl
@[simp] theorem asTaken_zoneMode (s : State) : s.asTaken.zoneMode = s.zoneMode := rfl
@[simp] theorem asTaken_mu (s : State) : s.asTaken.mu = s.mu := rfl
@[simp] theorem asTaken_ct (s : State) : s.asTaken.ct = s.ct := rfl
@[simp] theorem asTaken_oc (s : State) : s.asTaken.oc = s.oc := rfl
@[simp] theorem asTaken_lu (s : State) : s.asTaken.lu = s.lu := rfl
@[simp] theorem asTaken_ms (s : State) : s.asTaken.ms = s.ms := rfl
@[simp] theorem asTaken_pd (s : State) : s.asTaken.pd = s.pd := rfl
@[simp] theorem asTaken_fd (s : State) : s.asTaken.fd = s.fd := rfl
@[simp] theorem asTaken_rs (s : State) : s.asTaken.rs = s.rs := rfl
@[simp] theorem asTaken_hz (s : State) : s.asTaken.hz = s.hz := rfl
@[simp] theorem asTaken_cs (s : State) : s.asTaken.cs = s.cs := rfl
@[simp] theorem asTaken_slot (s : State) : s.asTaken.rp.slot = s.rp.slot := rfl
@[simp] theorem asTaken_inFlight (s : State) : s.asTaken.rp.inFlight = s.rp.inFlight := rfl
@[simp] theorem asTaken_free (s : State) : s.asTaken.free = s.free := rfl
@[simp] theorem asTaken_pending (s : State) : s.asTaken.pending = s.pending := rfl
theorem asTaken_me (s : State) : s.asTaken.me = s.me := rfl
theorem asTaken_image (s : State) : s.asTaken.image = s.image := rfl

theorem asTaken_accepted (s : State) : s.Counted s.asTaken .accepted := count_same .accepted (mediumEnds s)
theorem asTaken_counter (s : State) (c : Counter) (hc : c ≠ .accepted) : s.asTaken.counter c = s.counter c :=
  count_other .accepted c (mediumEnds s) hc

/-! ## The arrival record (R82) -/

/-- An arrival record writes the Membership Unit and nothing else. -/
theorem arrived_eq (h : Header) (s : State) : arrived h s = { s with mu := (arrived h s).mu } := by
  unfold arrived arrivalRecord
  split
  · dsimp only; split <;> rfl
  · rfl

theorem arrived_mu_of (h : Header) (s : State) (k : Station) (hk : headerStation h = some k)
    (l : s.mu.linkState ≠ .isolated ∨ s.mu.duplicateLatch = true) :
    (arrived h s).mu = { s.mu with peers := setAt s.mu.peers k { s.mu.peers[k] with lastAccepted := some s.now } } := by
  unfold arrived arrivalRecord
  rw [hk]
  dsimp only
  rw [if_neg]
  · rfl
  · rintro ⟨a, b⟩
    rcases l with l | l
    · exact l a
    · rw [l] at b; cases b

theorem arrived_peers (h : Header) (s : State) (k : Station) (hk : headerStation h = some k) :
    (arrived h s).mu.peers = setAt s.mu.peers k { s.mu.peers[k] with lastAccepted := some s.now } := by
  unfold arrived arrivalRecord
  rw [hk]
  dsimp only
  split <;> rfl

/-- What every entry has, every entry has after one is replaced by an entry that has it as the old one did. -/
theorem all_setAt {α : Type} {n : Nat} (p : α → Bool) (v : Vector α n) (k : Fin n) (x : α) (h : p x = p v[k]) :
    (setAt v k x).toList.all p = v.toList.all p := by
  have e : (setAt v k x).toList = v.toList.set k.val x := by simp [setAt, Vector.toList_set]
  rw [e, Bool.eq_iff_iff, List.all_eq_true, List.all_eq_true]
  have mem : v[k] ∈ v.toList := by simp
  constructor
  · intro all y hy
    obtain ⟨i, hi, rfl⟩ := List.mem_iff_getElem.1 hy
    by_cases ik : i = k.val
    · subst ik
      have := all x (List.mem_iff_getElem.2 ⟨k.val, by simp, by simp⟩)
      rw [h] at this
      simpa using this
    · exact all _ (List.mem_iff_getElem.2 ⟨i, by simpa using hi, by rw [List.getElem_set_ne (Ne.symm ik)]⟩)
  · intro all y hy
    rcases List.mem_or_eq_of_mem_set hy with hy | rfl
    · exact all y hy
    · exact h.trans (all _ mem)

/-- An arrival record has no part in the JOINING wait (R89). -/
theorem arrived_joinEnds (h : Header) (s : State) : (arrived h s).joinEnds = s.joinEnds := by
  unfold arrived
  split
  · rename_i k _
    unfold arrivalRecord
    dsimp only
    have peers : ∀ p : PeerRecord → Bool, (∀ r t, p { r with lastAccepted := t } = p r) →
        (setPeer k { s.mu.peers[k] with lastAccepted := some s.now } s).mu.peers.toList.all p = s.mu.peers.toList.all p :=
      fun p q => all_setAt p s.mu.peers k _ (q _ _)
    split
    · rename_i c
      have c := c.1
      simp only [State.joinEnds, c]
      rfl
    · unfold State.joinEnds
      rw [peers _ fun _ _ => rfl, peers _ fun _ _ => rfl]
      rfl
  · rfl

/-! ## What the end of an event leaves, in the words of the statements -/

theorem Internal.zoneSide (i : Internal s t) : s.SameZoneSide t :=
  ⟨i.supply, i.ms, i.pins, i.timers, i.debounced, i.testLevels, i.pending⟩
theorem Internal.mode (i : Internal s t) : s.SameMode t := ⟨i.cs, i.zoneMode⟩
theorem Internal.regulation (i : Internal s t) : t.pd.regulation = s.pd.regulation :=
  congrArg (fun x => x.2.2.2.2.2.2.2.2.2.2) i.kept_eq
theorem Internal.program (i : Internal s t) : s.SameProgram t :=
  ⟨i.phase, i.demand, i.serial, i.silencePause, i.silenceTimer, i.regulation⟩
theorem Internal.hazardMemory (i : Internal s t) : s.SameHazardMemory t := ⟨i.memory, i.gateStop⟩
theorem Internal.questions (i : Internal s t) : s.SameQuestions t := ⟨i.slot, i.question⟩
theorem Internal.samePeers (i : Internal s t) (but : Station → Prop) : s.SamePeers t but := fun _ _ => by rw [i.peers]
theorem Internal.sameOwners (i : Internal s t) (but : Station → Prop) : s.SameOwners t but := fun j _ =>
  ⟨(i.entries j).1, (i.entries j).2, i.others j⟩
theorem Internal.sameCounters (i : Internal s t) (but : List Counter) : s.SameCounters t but := fun c _ h1 h2 => i.counters c h1 h2

end Sys2Proof.Machine
end

