-- ==== Sys2Proof/Laws/Isolation.lean ====
section
/-! SUPPORT. What suspension, an own frame taken back and isolation leave and write, and what a notice queued does. -/

namespace Sys2Proof.Machine

variable {s v : State} {reason : IsolationReason}

/-! ## Suspension (R163) -/

/-- Suspension writes the incident list, the step's timers and claims, and nothing else of these. -/
theorem suspend_writes (s : State) : (suspend s).rs.incidents = (match s.activeStep with
      | some (id, _, _) => s.rs.incidents.map (fun r => if r.id = id then { r with state := .pending } else r)
      | none => s.rs.incidents) ∧
    suspend s = { s with rs := (suspend s).rs, oc := (suspend s).oc, ct := (suspend s).ct } := by
  unfold suspend
  cases s.activeStep with
  | none => exact ⟨rfl, rfl⟩
  | some x =>
    obtain ⟨id, f, step⟩ := x
    dsimp only
    have c := endStep_claimed id step (updateRecord id (fun r => { r with state := .pending }) s)
    refine ⟨endStep_incidents id step _, ?_⟩
    generalize endStep id step (updateRecord id (fun r => { r with state := .pending }) s) = t at *
    rw [c]
    rfl

/-- Suspension with no own claim and no waiting request leaves claims and table. -/
theorem suspend_bare (s : State) (c : s.oc.claims = []) (w : s.oc.waiting = []) : (suspend s).oc = s.oc ∧ (suspend s).ct = s.ct := by
  unfold suspend
  split
  · exact ⟨rfl, rfl⟩
  · rename_i id f step _
    unfold endStep
    dsimp only
    generalize hz : stopStepTimers (updateRecord id (fun r => { r with state := .pending }) s) = z
    have zoc : z.oc = s.oc := by rw [← hz]; rfl
    have zct : z.ct = s.ct := by rw [← hz]; rfl
    split
    · unfold withdraw
      rw [show z.ownClaim _ _ = none by unfold State.ownClaim; rw [zoc, c]; rfl]
      refine ⟨?_, zct⟩
      show ({ z.oc with waiting := List.filter _ z.oc.waiting } : OwnClaimUnit) = s.oc
      rw [zoc, w]
      show ({ s.oc with waiting := [] } : OwnClaimUnit) = s.oc
      have hf : [] = s.oc.waiting := w.symm
      rw [hf]
    · split
      · unfold setBoost
        rw [show z.ownClaim _ _ = none by unfold State.ownClaim; rw [zoc, c]; rfl]
        exact ⟨zoc, zct⟩
      · exact ⟨zoc, zct⟩

/-! ## An own frame taken back (R58, R60) -/

/-- What no block writes that takes its content back. -/
def outsideFrames (s : State) :=
  ((s.now, s.supply, s.zoneMode, s.lc, s.mu, s.lu, s.ms, s.pd, s.fd, s.rs, s.free, s.pending),
   (s.hz.memory, s.hz.gateStop, s.cs.stored, s.cs.working, s.oc.changeNumber, s.oc.restatedSinceStart))

theorem returnChanges_claimed (s : State) : Claimed s (returnChanges s) := by
  unfold returnChanges
  dsimp only
  exact Claimed.trans (t := { s with oc := _ }) rfl (placeFreed_claimed _)

theorem returnChanges_number (s : State) : (returnChanges s).oc.changeNumber = s.oc.changeNumber ∧
    (returnChanges s).oc.restatedSinceStart = s.oc.restatedSinceStart := by
  unfold returnChanges
  dsimp only
  generalize List.foldl _ _ s.oc.unsent = joined
  have i := placeFreed_internal { s with oc := { s.oc with unsent := joined.1, awaiting := joined.2, inFlight := [] } }
  exact ⟨i.changeNumber, congrArg (fun x => x.2.2.2.1.2.2) i.kept_eq⟩

theorem takeBack_leaves (c : OwnContent) (s : State) : outsideFrames (takeBack c s) = outsideFrames s ∧
    ∀ d, d ≠ .replyOverruns → (takeBack c s).counter d = s.counter d := by
  have changes : outsideFrames (returnChanges s) = outsideFrames s ∧
      ∀ d, d ≠ .replyOverruns → (returnChanges s).counter d = s.counter d := by
    have rc := returnChanges_claimed s
    have n := returnChanges_number s
    refine ⟨?_, fun d _ => by unfold State.counter; rw [rc.rp]⟩
    unfold outsideFrames
    rw [rc.now, rc.supply, rc.zoneMode, rc.lc, rc.mu, rc.lu, rc.ms, rc.pd, rc.fd, rc.rs, rc.free, rc.pending, rc.hz, rc.cs, n.1, n.2]
  cases c with
  | claim => exact changes
  | claimSet => exact changes
  | hazard => exact ⟨rfl, fun _ _ => rfl⟩
  | presence => exact ⟨rfl, fun _ _ => rfl⟩
  | resync => exact ⟨rfl, fun _ _ => rfl⟩
  | reply =>
    simp only [takeBack]
    unfold returnQuestion
    cases s.rp.slot
    · exact ⟨rfl, fun _ _ => rfl⟩
    · exact ⟨rfl, fun d e => count_other .replyOverruns d { s with rp := { s.rp with inFlight := none } } e⟩
  | setupReply =>
    simp only [takeBack]
    unfold returnSetupReply
    cases s.cs.reply <;> exact ⟨rfl, fun _ _ => rfl⟩

/-! ## Isolation (R94) -/

/-- No own frame is on the wire any more; the wheel and the rest are as they were. -/
theorem stopOwnFrame_leaves (s : State) : (∀ f, (stopOwnFrame s).lc.medium ≠ .own f) ∧
    outsideFrames { stopOwnFrame s with lc := s.lc } = outsideFrames s ∧
    (stopOwnFrame s).lc = { s.lc with medium := (stopOwnFrame s).lc.medium } ∧
    ∀ d, d ≠ .replyOverruns → (stopOwnFrame s).counter d = s.counter d := by
  unfold stopOwnFrame
  split
  · rename_i f hf
    obtain ⟨a, b⟩ := takeBack_leaves f.content s
    have l : (takeBack f.content s).lc = s.lc := congrArg (fun x => x.1.2.2.2.1) a
    refine ⟨fun g e => (nomatch e), ?_, ?_, b⟩
    · rw [← a]; unfold outsideFrames setMedium; rw [l]
    · rw [← l]; rfl
  · rename_i hf
    exact ⟨hf, rfl, rfl, fun _ _ => rfl⟩

/-- Isolation does what R94 lists. -/
theorem isolate_isolates (reason : IsolationReason) (s : State) : s.Isolates (isolate reason s) reason := by
  obtain ⟨m, o, l, n⟩ := stopOwnFrame_leaves s
  unfold isolate
  generalize hw : stopOwnFrame s = w at *
  generalize hy : clearOwnClaims (clearTable (isolateMembership reason w)) = y
  have rs : w.rs = s.rs := congrArg (fun x => x.1.2.2.2.2.2.2.2.2.2.1) o
  have ia : y.activeStep = s.activeStep := by
    rw [← hy]
    show w.activeStep = _
    unfold State.activeStep State.activeIncident
    rw [rs]
  have yrs : y.rs = s.rs := by rw [← hy]; exact rs
  obtain ⟨inc, only⟩ := suspend_writes y
  obtain ⟨b1, b2⟩ := suspend_bare y (by rw [← hy]; rfl) (by rw [← hy]; rfl)
  have e : suspend y = { y with rs := (suspend y).rs } := by rw [only, b1, b2]
  generalize suspend y = z at *
  subst hy
  rw [e]
  rw [ia, yrs] at inc
  exact
    { link := ⟨rfl, rfl⟩
      peers := rfl
      timers := ⟨rfl, rfl, rfl, rfl⟩
      table := rfl
      ownClaims := ⟨rfl, rfl, rfl, rfl, rfl, rfl, rfl⟩
      sequence := ⟨congrArg (fun x => x.2.2.2.2.2.1) o, congrArg (fun x => x.2.2.2.2.2.2) o⟩
      suspended := inc.trans (by cases s.activeStep <;> rfl)
      detectors := fun f => by
        have fd : w.fd = s.fd := congrArg (fun x => x.1.2.2.2.2.2.2.2.2.1) o
        have d : (mapAll (fun (d : Detector) => { d with count := 0, timer := none }) w.fd.detectors)[detectorPlace f] =
            { s.detector f with count := 0, timer := none } := by
          rw [fd]; exact mapAll_get _ _ _
        show (mapAll (fun (d : Detector) => { d with count := 0, timer := none }) w.fd.detectors)[detectorPlace f].state = _ ∧
          (mapAll (fun (d : Detector) => { d with count := 0, timer := none }) w.fd.detectors)[detectorPlace f].count = _ ∧
          (mapAll (fun (d : Detector) => { d with count := 0, timer := none }) w.fd.detectors)[detectorPlace f].timer = _
        rw [d]; exact ⟨rfl, rfl, rfl⟩
      silent := m
      kept := ⟨congrArg (fun x => x.2.2.1) o, congrArg (fun x => x.2.1) o, by show w.lc.position = _; rw [l],
        by show w.lc.roundCount = _; rw [l], congrArg (fun x => x.2.2.2.1) o, congrArg (fun x => x.2.2.2.2.1) o,
        congrArg (fun x => x.1.2.2.1) o, congrArg (fun x => x.1.2.2.2.2.2.2.2.1) o, congrArg (fun x => x.1.2.2.2.2.2.2.1) o,
        congrArg (fun x => x.1.2.2.2.2.2.1) o, congrArg (fun x => x.1.2.1) o, congrArg (fun x => x.1.2.2.2.2.2.2.2.2.2.2.2) o,
        n .sent (by decide), n .collisions (by decide)⟩ }

theorem isolate_now (reason : IsolationReason) (s : State) : (isolate reason s).now = s.now := by
  unfold isolate
  show (suspend _).now = _
  rw [(suspend_writes _).2]
  exact congrArg (fun x => x.1.1) (stopOwnFrame_leaves s).2.1

theorem isolate_latch (reason : IsolationReason) (s : State) : (isolate reason s).mu.duplicateLatch = s.mu.duplicateLatch := by
  unfold isolate
  show (suspend _).mu.duplicateLatch = _
  rw [(suspend_writes _).2]
  exact congrArg (fun x => x.1.2.2.2.2.1.duplicateLatch) (stopOwnFrame_leaves s).2.1

theorem isolate_counter (reason : IsolationReason) (s : State) (c : Counter) (hc : c ≠ .replyOverruns) :
    (isolate reason s).counter c = s.counter c := by
  unfold isolate
  show (suspend _).counter c = _
  rw [(suspend_writes _).2]
  exact (stopOwnFrame_leaves s).2.2.2 c hc

/-- The end of the event leaves the link ISOLATED. -/
theorem State.Isolates.stays (i : s.Isolates v reason) (tr : Trigger) : (endEvent tr v).mu.linkState = .isolated := by
  have j := endEvent_internal tr v
  rcases j.link with l | ⟨l, -⟩
  · exact l.trans i.link.1
  · simp [State.joinEnds, i.link.1] at l

/-- What isolation does counts from the state before the clock moved on. -/
theorem State.Isolates.before (d : Nat) (i : (advanceTo d s).Isolates v reason) : s.Isolates v reason :=
  ⟨i.link, i.peers, i.timers, i.table, i.ownClaims, i.sequence, i.suspended, i.detectors, i.silent, i.kept⟩

/-! ## Notices (R188, R189) -/

theorem queueNotice_writes (code : HazardCode) (s : State) : (queueNotice code s).hz.serial = s.hz.serial + 1 ∧
    ((queueNotice code s).hz.queue.getLast?).map HazardEntry.code = some code ∧
    queueNotice code s = { s with hz := (queueNotice code s).hz, rp := (queueNotice code s).rp } := by
  unfold queueNotice pushHazard
  dsimp only
  split <;> refine ⟨rfl, ?_, rfl⟩ <;> simp [count]

theorem pushHazard_writes (e : HazardEntry) (s : State) :
    pushHazard e s = { s with hz := (pushHazard e s).hz, rp := (pushHazard e s).rp } ∧ s.SameHazardMemory (pushHazard e s) ∧
    s.SameQuestions (pushHazard e s) ∧ ∀ c, c ≠ .relayDrops → (pushHazard e s).counter c = s.counter c := by
  unfold pushHazard
  split
  · exact ⟨rfl, ⟨rfl, rfl⟩, ⟨rfl, rfl⟩, fun _ _ => rfl⟩
  · exact ⟨rfl, ⟨rfl, rfl⟩, ⟨rfl, rfl⟩, fun c hc => count_other .relayDrops c _ hc⟩

end Sys2Proof.Machine
end

