-- ==== Sys2Proof/Laws/Arbitration.lean ====
section
/-! SUPPORT. What arbitration does with the Incident List (R161 to R164). -/

namespace Sys2Proof.Machine

variable {s : State} {r a : Incident}

/-- One step of the search of bestPending. -/
def lowerRank (best : Option Incident) (r : Incident) : Option Incident :=
  match best with
  | none => some r
  | some b => if faultRank r.fault < faultRank b.fault then some r else some b

theorem bestPending_fold (records : List Incident) :
    bestPending records = (records.filter (fun r => r.state == .pending)).foldl lowerRank none := rfl

/-- Ranks none of which is below that of the best leave it. -/
theorem lowerRank_stays (l : List Incident) (h : ∀ q ∈ l, faultRank r.fault ≤ faultRank q.fault) : l.foldl lowerRank (some r) = some r := by
  induction l with
  | nil => rfl
  | cons q l ih =>
    rw [List.foldl_cons]
    have step : lowerRank (some r) q = some r := if_neg (Nat.not_lt.2 (h q (List.mem_cons_self ..)))
    rw [step]
    exact ih fun x m => h x (List.mem_cons_of_mem _ m)

/-- The best of a list is one of it, or what stood before. -/
theorem lowerRank_mem (l : List Incident) : ∀ (o : Option Incident) (b : Incident), l.foldl lowerRank o = some b → b ∈ l ∨ o = some b := by
  induction l with
  | nil => exact fun o b h => .inr h
  | cons q l ih =>
    intro o b h
    rcases ih _ _ h with m | e
    · exact .inl (List.mem_cons_of_mem _ m)
    · unfold lowerRank at e
      split at e
      · cases e; exact .inl (List.mem_cons_self ..)
      · split at e <;> cases e
        · exact .inl (List.mem_cons_self ..)
        · exact .inr rfl

/-- The PENDING record below every one before it, and not above one behind it, is the one arbitration takes. -/
theorem bestPending_first (before behind : List Incident) (p : r.state = .pending)
    (lower : ∀ q ∈ before, q.state = .pending → faultRank r.fault < faultRank q.fault)
    (least : ∀ q ∈ behind, q.state = .pending → faultRank r.fault ≤ faultRank q.fault) :
    bestPending (before ++ r :: behind) = some r := by
  rw [bestPending_fold, List.filter_append, List.filter_cons_of_pos (by simp [p]), List.foldl_append, List.foldl_cons]
  have taken : lowerRank ((before.filter (fun r => r.state == .pending)).foldl lowerRank none) r = some r := by
    cases e : (before.filter (fun r => r.state == .pending)).foldl lowerRank none with
    | none => rfl
    | some b =>
      rcases lowerRank_mem _ _ _ e with m | m
      · obtain ⟨m, q⟩ := List.mem_filter.1 m
        exact if_pos (lower b m (by simpa using q))
      · cases m
  rw [taken]
  exact lowerRank_stays _ fun q m => by
    obtain ⟨m, p⟩ := List.mem_filter.1 m
    exact least q m (by simpa using p)

theorem bestPending_none (records : List Incident) (h : ∀ q ∈ records, q.state ≠ .pending) : bestPending records = none := by
  rw [bestPending_fold, List.filter_eq_nil_iff.2 (fun q m => by simpa using h q m)]
  rfl

/-- A record made ACTIVE (R162). -/
theorem activate_incidents (r : Incident) (s : State) : (activate r s).rs.incidents = s.rs.incidents.map (fun q => if q.id = r.id then
    { q with attempts := if q.attempts < s.image.attempts then q.attempts + 1 else q.attempts, state := .active (firstStep r.fault) }
    else q) := by
  unfold activate
  dsimp only
  rw [startStep_incidents]
  show List.map _ (List.map _ s.rs.incidents) = _
  rw [List.map_map]
  refine List.map_congr_left fun q _ => ?_
  by_cases h : q.id = r.id
  · simp [Function.comp, h]
  · simp [Function.comp, h]

theorem activeStep_of (h : s.activeIncident = some a) {step : Step} (e : a.state = .active step) :
    s.activeStep = some (a.id, a.fault, step) := by
  unfold State.activeStep
  rw [h]
  dsimp only [Option.bind]
  rw [e]

theorem suspend_incidents (h : s.activeIncident = some a) {step : Step} (e : a.state = .active step) :
    (suspend s).rs.incidents = s.rs.incidents.map (fun q => if q.id = a.id then { q with state := .pending } else q) := by
  rw [(suspend_writes s).1, activeStep_of h e]

theorem suspend_none (h : s.activeIncident = none) : suspend s = s := by
  unfold suspend State.activeStep
  rw [h]
  rfl

/-! ## The five outcomes of arbitration -/

theorem arbitrate_starts (run : s.mayRecover = true) (best : bestPending s.rs.incidents = some r) (h : s.activeIncident = none) :
    arbitrate s = (activate r s, .start) := by
  unfold arbitrate
  rw [if_pos run, h, best]

theorem arbitrate_replaces (run : s.mayRecover = true) (best : bestPending s.rs.incidents = some r) (h : s.activeIncident = some a)
    {step : Step} (e : a.state = .active step) (rank : faultRank r.fault < faultRank a.fault) :
    arbitrate s = (activate r (endStep a.id step (updateRecord a.id (fun q => { q with state := .pending }) s)), .start) := by
  unfold arbitrate
  rw [if_pos run, h, best]
  dsimp only
  rw [if_pos rank]
  unfold suspend
  rw [activeStep_of h e]

theorem arbitrate_keeps (run : s.mayRecover = true) (best : bestPending s.rs.incidents = some r) (h : s.activeIncident = some a)
    (rank : faultRank a.fault ≤ faultRank r.fault) : arbitrate s = (s, .none) := by
  unfold arbitrate
  rw [if_pos run, h, best]
  exact if_neg (by omega)

theorem arbitrate_idle (run : s.mayRecover = true) (none : bestPending s.rs.incidents = none) : arbitrate s = (s, .none) := by
  unfold arbitrate
  rw [if_pos run, none]
  cases s.activeIncident <;> rfl

theorem arbitrate_barred (run : s.mayRecover = false) (h : s.activeIncident = none) : arbitrate s = (s, .none) := by
  unfold arbitrate
  rw [run, suspend_none h]
  rfl

theorem arbitrate_suspends (run : s.mayRecover = false) (h : s.activeIncident = some a) {step : Step} (e : a.state = .active step) :
    arbitrate s = (endStep a.id step (updateRecord a.id (fun q => { q with state := .pending }) s), .none) := by
  unfold arbitrate suspend
  rw [run, activeStep_of h e]
  rfl

end Sys2Proof.Machine
end

