-- ==== Sys2Proof/Laws/Changes.lean ====
section
/-! SUPPORT. The changes of a CLAIM and the records of a CLAIM_SET, one by one (R10, R14, R15, R18, R67). -/

namespace Sys2Proof.Machine

/-- The record an owner holds under a tag number. -/
def standing (n : Nat) (records : List ClaimRecord) : Option ClaimRecord := records.find? (fun r => r.tag.val == n)

theorem amountInRange_iff (resource : Resource) (n : Nat) : amountInRange resource n = true ↔ match resource with
    | .heat => 1 ≤ n ∧ n ≤ 255
    | .fill | .drain => 1 ≤ n ∧ n ≤ 7
    | .hold => n = 1 := by
  cases resource <;> simp [amountInRange]

theorem atOrAfter_iff (a b : Byte) : atOrAfter a b = true ↔ (a - b).toNat < 128 := by simp [atOrAfter]
theorem after_iff (a b : Byte) : after a b = true ↔ (a - b).toNat < 128 ∧ a ≠ b := by simp [after, atOrAfter]

theorem tableTakes_iff (s : State) (k : Station) : s.tableTakes k = true ↔
    (s.mu.linkState = .listening ∨ s.mu.linkState = .joining ∨ s.mu.linkState = .joined) ∧ k ≠ s.me ∧ s.mu.peers[k].state ≠ .foreign := by
  simp [State.tableTakes, and_assoc, or_assoc]

/-! ## Tags -/

variable {tag : Tag} {records : List ClaimRecord} {raw : RawChange} {rest : List RawChange}

theorem standing_tag (tag : Tag) (records : List ClaimRecord) : standing tag.val records = records.find? (fun r => r.tag == tag) :=
  congrArg (fun p : ClaimRecord → Bool => records.find? p) (funext fun r => by
    rw [Bool.eq_iff_iff, beq_iff_eq, beq_iff_eq, Fin.ext_iff])

theorem hasTag_standing (tag : Tag) (records : List ClaimRecord) : hasTag tag records = (standing tag.val records).isSome := by
  rw [standing_tag, List.isSome_find?]
  rfl

/-- A record placed by its tag stands behind those of no higher tag and before the next. -/
theorem insertRecord_place (r : ClaimRecord) (behind : List ClaimRecord) (h : ∀ q, behind.head? = some q → r.tag < q.tag) :
    ∀ before : List ClaimRecord, (∀ q ∈ before, q.tag ≤ r.tag) → insertRecord r (before ++ behind) = before ++ r :: behind
  | [], _ => by
    cases behind with
    | nil => rfl
    | cons q rest => exact if_pos (h q rfl)
  | p :: before, l => by
    show (if r.tag < p.tag then _ else _) = _
    rw [if_neg (Fin.not_lt.2 (l p (List.mem_cons_self ..)))]
    exact congrArg (p :: ·) (insertRecord_place r behind h before (fun q m => l q (List.mem_cons_of_mem _ m)))

theorem insertRecord_perm (r : ClaimRecord) : ∀ records : List ClaimRecord, (insertRecord r records).Perm (r :: records)
  | [] => .refl _
  | q :: rest => by
    unfold insertRecord
    split
    · exact .refl _
    · exact ((insertRecord_perm r rest).cons q).trans (.swap r q rest)

theorem insertRecord_sorted (r : ClaimRecord) : ∀ records : List ClaimRecord, records.Pairwise (fun a b => a.tag < b.tag) →
    hasTag r.tag records = false → (insertRecord r records).Pairwise (fun a b => a.tag < b.tag)
  | [], _, _ => List.pairwise_singleton _ _
  | q :: rest, p, n => by
    have ⟨first, below⟩ := List.pairwise_cons.1 p
    simp only [hasTag, List.any_cons, Bool.or_eq_false_iff, beq_eq_false_iff_ne] at n
    unfold insertRecord
    split
    · rename_i l
      refine List.pairwise_cons.2 ⟨fun x m => ?_, p⟩
      rcases List.mem_cons.1 m with rfl | m
      · exact l
      · exact Fin.lt_trans l (first x m)
    · rename_i l
      refine List.pairwise_cons.2 ⟨fun x m => ?_, insertRecord_sorted r rest below n.2⟩
      rcases List.mem_cons.1 ((insertRecord_perm r rest).mem_iff.1 m) with rfl | m
      · exact Nat.lt_of_le_of_ne (Fin.not_lt.1 l) (fun e => n.1 (Fin.ext e))
      · exact first x m

/-! ## One change -/

theorem applyRaw_fails (h : checkChange raw records = none) : applyRaw (raw :: rest) records = none := by rw [applyRaw, h]

theorem applyRaw_passes {c : Change} (h : checkChange raw records = some c) :
    applyRaw (raw :: rest) records = applyRaw rest (applyChange c records) := by rw [applyRaw, h]

/-- A change whose op or tag is not defined fails (R14). -/
theorem checkChange_undefined (h : 2 < raw.op ∨ 7 < raw.tag) : checkChange raw records = none := by
  unfold checkChange tagOf
  split
  · rfl
  · rename_i t e
    have : raw.tag < 8 := by
      apply Decidable.byContradiction
      intro l
      rw [dif_neg l] at e
      cases e
    split <;> first | omega | rfl

/-- The check of a NEW (R14). -/
theorem checkChange_new (op : raw.op = 0) (t : raw.tag = tag.val) : checkChange raw records =
    match resourceOfCode raw.resource, classOfCode raw.cls with
    | some resource, some cls => if standing raw.tag records = none ∧ records.length < 6 ∧ amountInRange resource raw.amount = true
      then some { tag := tag, op := .new resource cls raw.amount } else none
    | _, _ => none := by
  unfold checkChange
  rw [(tagOf_iff _ _).2 t, op, t]
  show (match resourceOfCode raw.resource, classOfCode raw.cls with
    | some resource, some cls =>
      if hasTag tag records || records.length ≥ Config.maxClaims || !amountInRange resource raw.amount then none
      else some ({ tag := tag, op := .new resource cls raw.amount } : Change)
    | _, _ => none) = _
  split
  · rename_i resource cls e1 e2
    rw [hasTag_standing]
    cases standing tag.val records <;> cases amountInRange resource raw.amount <;> by_cases l : records.length < 6 <;>
      simp [Config.maxClaims, l, Nat.not_le.2, Nat.not_lt.1] <;> omega
  · rfl

/-- The check of an AMEND (R14). -/
theorem checkChange_amend (op : raw.op = 1) (t : raw.tag = tag.val) : checkChange raw records =
    match standing raw.tag records, classOfCode raw.cls with
    | some r, some cls => if amountInRange r.resource raw.amount = true then some { tag := tag, op := .amend cls raw.amount } else none
    | _, _ => none := by
  unfold checkChange
  rw [(tagOf_iff _ _).2 t, op, t, standing_tag]
  rfl

/-- The check of a RELEASE (R14). -/
theorem checkChange_release (op : raw.op = 2) (t : raw.tag = tag.val) : checkChange raw records =
    if standing raw.tag records = none then none else some { tag := tag, op := .release } := by
  unfold checkChange
  rw [(tagOf_iff _ _).2 t, op, t]
  show (if hasTag tag records = true then some ({ tag := tag, op := .release } : Change) else none) = _
  rw [hasTag_standing]
  cases standing tag.val records <;> rfl

theorem resourceOfCode_none (h : 3 < raw.resource) : resourceOfCode raw.resource = none := by
  cases e : resourceOfCode raw.resource with
  | none => rfl
  | some x =>
    have := (resourceOfCode_iff _ x).1 e
    cases x <;> simp only [resourceCode] at this <;> omega

theorem classOfCode_none (h : 2 < raw.cls) : classOfCode raw.cls = none := by
  cases e : classOfCode raw.cls with
  | none => rfl
  | some x =>
    have := (classOfCode_iff _ x).1 e
    cases x <;> simp only [classCode] at this <;> omega

/-- A NEW that fails (R14). -/
theorem new_fails (op : raw.op = 0) (h : standing raw.tag records ≠ none ∨ 6 ≤ records.length ∨ 3 < raw.resource ∨ 2 < raw.cls ∨
    ∃ resource, raw.resource = resourceCode resource ∧ amountInRange resource raw.amount = false) :
    checkChange raw records = none := by
  by_cases l : raw.tag < 8
  · rw [checkChange_new (tag := ⟨raw.tag, l⟩) op rfl]
    split
    · rename_i resource cls e1 e2
      refine if_neg fun p => ?_
      rcases h with h | h | h | h | ⟨x, h, range⟩
      · exact h p.1
      · omega
      · rw [resourceOfCode_none h] at e1; cases e1
      · rw [classOfCode_none h] at e2; cases e2
      · rw [(resourceOfCode_iff _ x).2 h] at e1
        cases e1
        rw [range] at p
        cases p.2.2
    · rfl
  · exact checkChange_undefined (.inr (by omega))

/-- An AMEND that fails (R14). -/
theorem amend_fails (op : raw.op = 1) (h : standing raw.tag records = none ∨ 2 < raw.cls ∨
    ∃ r, standing raw.tag records = some r ∧ amountInRange r.resource raw.amount = false) : checkChange raw records = none := by
  by_cases l : raw.tag < 8
  · rw [checkChange_amend (tag := ⟨raw.tag, l⟩) op rfl]
    split
    · rename_i r cls e1 e2
      refine if_neg fun p => ?_
      rcases h with h | h | ⟨x, h, range⟩
      · rw [h] at e1; cases e1
      · rw [classOfCode_none h] at e2; cases e2
      · rw [h] at e1
        cases e1
        rw [range] at p
        cases p
    · rfl
  · exact checkChange_undefined (.inr (by omega))

/-- A RELEASE that fails (R14). -/
theorem release_fails (op : raw.op = 2) (h : standing raw.tag records = none) : checkChange raw records = none := by
  by_cases l : raw.tag < 8
  · rw [checkChange_release (tag := ⟨raw.tag, l⟩) op rfl, if_pos h]
  · exact checkChange_undefined (.inr (by omega))

/-! ## The items of a claim frame -/

/-- A field of a restated record outside its range (R18). -/
def RawChange.sound (raw : RawChange) : Prop :=
  raw.tag ≤ 7 ∧ raw.cls ≤ 2 ∧ ∃ resource, raw.resource = resourceCode resource ∧ amountInRange resource raw.amount = true

/-- A record as a CLAIM_SET carries it (R67). -/
def ClaimRecord.asRaw (r : ClaimRecord) : RawChange :=
  { op := 0, tag := r.tag.val, resource := resourceCode r.resource, cls := classCode r.cls, amount := r.amount }

/-- A restated record stands for itself. -/
theorem restatedRecord_some {r : ClaimRecord} (op : raw.op = 0) (h : restatedRecord raw = some r) : r.asRaw = raw ∧ raw.sound := by
  unfold restatedRecord at h
  split at h
  · rename_i t resource cls e1 e2 e3
    rw [tagOf_iff] at e1
    rw [resourceOfCode_iff] at e2
    rw [classOfCode_iff] at e3
    split at h
    · rename_i range
      cases h
      refine ⟨?_, by omega, ?_, resource, e2, range⟩
      · cases raw
        simp only [ClaimRecord.asRaw] at *
        rw [op, e1, e2, e3]
      · rw [e3]; cases cls <;> decide
    · cases h
  · cases h

theorem restatedRecord_sound (h : raw.sound) : ∃ r, restatedRecord raw = some r := by
  obtain ⟨tag, cls, resource, code, range⟩ := h
  have ⟨x, e⟩ : ∃ x, classOfCode raw.cls = some x := by
    have : raw.cls = 0 ∨ raw.cls = 1 ∨ raw.cls = 2 := by omega
    rcases this with e | e | e <;> rw [e] <;> exact ⟨_, rfl⟩
  unfold restatedRecord
  rw [(tagOf_iff _ ⟨raw.tag, by omega⟩).2 rfl, (resourceOfCode_iff _ resource).2 code, e]
  exact ⟨_, if_pos range⟩

/-- What a restatement that passes R18 gives: its records in the order of their tags. -/
theorem restatedRecords_some : ∀ (raws : List RawChange) (records : List ClaimRecord), (∀ raw ∈ raws, raw.op = 0) →
    restatedRecords raws = some records → (∀ raw ∈ raws, raw.sound) ∧ (raws.map RawChange.tag).Nodup ∧
      records.Pairwise (fun a b => a.tag < b.tag) ∧ (records.map ClaimRecord.asRaw).Perm raws
  | [], records, _, h => by
    cases h
    exact ⟨fun _ m => (nomatch m), List.nodup_nil, .nil, .refl _⟩
  | raw :: raws, records, op, h => by
    unfold restatedRecords at h
    split at h
    · rename_i r tail e1 e2
      split at h
      · cases h
      · rename_i fresh
        cases h
        have ⟨sound, distinct, sorted, perm⟩ := restatedRecords_some raws tail (fun x m => op x (List.mem_cons_of_mem _ m)) e2
        have ⟨code, ok⟩ := restatedRecord_some (op raw (List.mem_cons_self ..)) e1
        refine ⟨List.forall_mem_cons.2 ⟨ok, sound⟩, List.nodup_cons.2 ⟨fun m => ?_, distinct⟩,
          insertRecord_sorted r tail sorted (by simpa using fresh), ?_⟩
        · obtain ⟨x, mx, ex⟩ := List.mem_map.1 m
          obtain ⟨q, mq, eq⟩ := List.mem_map.1 (perm.mem_iff.2 mx)
          refine fresh (List.any_eq_true.2 ⟨q, mq, ?_⟩)
          rw [beq_iff_eq, Fin.ext_iff]
          show q.asRaw.tag = r.asRaw.tag
          rw [eq, code, ex]
        · refine ((insertRecord_perm r tail).map ClaimRecord.asRaw).trans ?_
          rw [List.map_cons, code]
          exact perm.cons raw
    · cases h

theorem restatedRecords_sound : ∀ raws : List RawChange, (∀ raw ∈ raws, raw.op = 0) → (∀ raw ∈ raws, raw.sound) →
    (raws.map RawChange.tag).Nodup → ∃ records, restatedRecords raws = some records
  | [], _, _, _ => ⟨[], rfl⟩
  | raw :: raws, op, sound, distinct => by
    have ⟨out, below⟩ := List.nodup_cons.1 distinct
    have ⟨tail, e⟩ := restatedRecords_sound raws (fun x m => op x (List.mem_cons_of_mem _ m))
      (fun x m => sound x (List.mem_cons_of_mem _ m)) below
    have ⟨r, er⟩ := restatedRecord_sound (sound raw (List.mem_cons_self ..))
    have ⟨_, _, _, perm⟩ := restatedRecords_some raws tail (fun x m => op x (List.mem_cons_of_mem _ m)) e
    have ⟨code, _⟩ := restatedRecord_some (op raw (List.mem_cons_self ..)) er
    refine ⟨insertRecord r tail, ?_⟩
    unfold restatedRecords
    rw [er, e]
    refine if_neg fun held => ?_
    obtain ⟨q, mq, eq⟩ := List.any_eq_true.1 held
    rw [beq_iff_eq, Fin.ext_iff] at eq
    refine out (List.mem_map.2 ⟨q.asRaw, perm.mem_iff.1 (List.mem_map_of_mem mq), ?_⟩)
    show q.tag.val = raw.tag
    rw [eq, ← code]
    rfl

theorem rawRecords_op : ∀ (items : List Byte), ∀ raw ∈ rawRecords items, raw.op = 0
  | [], _, m => (nomatch m)
  | [_], _, m => (nomatch m)
  | [_, _], _, m => (nomatch m)
  | _ :: _ :: _ :: rest, raw, m => by
    rcases List.mem_cons.1 m with rfl | m
    · rfl
    · exact rawRecords_op rest raw m

/-- When a restatement passes (R18). -/
def restatementPasses (items : List Byte) : Prop :=
  items.length % 3 = 0 ∧ items.length ≤ 18 ∧ ((rawRecords items).map RawChange.tag).Nodup ∧ ∀ raw ∈ rawRecords items, raw.sound

variable {number fresh : Byte} {items : List Byte}

theorem readRestatement_cons : readRestatement (number :: fresh :: items) =
    if items.length % 3 ≠ 0 || Config.maxClaims < items.length / 3 then none
    else (restatedRecords (rawRecords items)).map (fun records => (number, fresh != 0, records)) := rfl

theorem readRestatement_fails (h : ¬ restatementPasses items) : readRestatement (number :: fresh :: items) = none := by
  rw [readRestatement_cons]
  split
  · rfl
  · rename_i g
    simp only [Bool.or_eq_true, decide_eq_true_eq, not_or, ne_eq, Decidable.not_not] at g
    have six : Config.maxClaims = 6 := rfl
    cases e : restatedRecords (rawRecords items) with
    | none => rfl
    | some records =>
      have p := restatedRecords_some _ _ (rawRecords_op items) e
      exact absurd ⟨g.1, by omega, p.2.1, p.1⟩ h

theorem readRestatement_passes (h : restatementPasses items) : ∃ records,
    readRestatement (number :: fresh :: items) = some (number, fresh != 0, records) ∧
      records.Pairwise (fun a b => a.tag < b.tag) ∧ (records.map ClaimRecord.asRaw).Perm (rawRecords items) := by
  obtain ⟨whole, few, distinct, sound⟩ := h
  have ⟨records, e⟩ := restatedRecords_sound _ (rawRecords_op items) sound distinct
  have p := restatedRecords_some _ _ (rawRecords_op items) e
  have six : Config.maxClaims = 6 := rfl
  refine ⟨records, ?_, p.2.2⟩
  rw [readRestatement_cons, if_neg (by simp only [Bool.or_eq_true, decide_eq_true_eq]; omega), e]
  rfl

end Sys2Proof.Machine
end

