-- ==== Sys2Proof/Laws/Memory.lean ====
section
/-! SUPPORT. The addressed buffer: reading back, and the canonical form kept by every memory operation. -/

namespace Sys2Proof.Machine

/-! ## The canonical form -/

theorem Memory.wfFrom_mono : ∀ (m : Memory) (low high : Nat), low ≤ high → Memory.wfFrom high m = true → Memory.wfFrom low m = true
  | [], _, _, _, _ => rfl
  | (k, v) :: rest, low, high, h, w => by
    simp only [Memory.wfFrom, Bool.and_eq_true, decide_eq_true_eq] at w ⊢
    exact ⟨⟨⟨Nat.le_trans h w.1.1.1, w.1.1.2⟩, w.1.2⟩, w.2⟩

theorem Memory.write_wfFrom (a : Nat) (v : Byte) (ha : a < imageSize) :
    ∀ (m : Memory) (low : Nat), low ≤ a → Memory.wfFrom low m = true → Memory.wfFrom low (m.write a v) = true
  | [], low, h, _ => by
    unfold Memory.write
    split
    · rfl
    · rename_i nv
      simp [Memory.wfFrom, h, ha, nv]
  | (k, w) :: rest, low, h, hw => by
    have hw' := hw
    simp only [Memory.wfFrom, Bool.and_eq_true, decide_eq_true_eq] at hw'
    obtain ⟨⟨⟨lk, ks⟩, wn⟩, wr⟩ := hw'
    unfold Memory.write
    split
    · rename_i ak
      split
      · exact hw
      · rename_i nv
        simp only [Memory.wfFrom, Bool.and_eq_true, decide_eq_true_eq]
        exact ⟨⟨⟨h, ha⟩, by simpa using nv⟩, ⟨⟨by omega, ks⟩, wn⟩, wr⟩
    · split
      · rename_i e
        split
        · exact Memory.wfFrom_mono rest low (k + 1) (by omega) wr
        · rename_i nv
          simp only [Memory.wfFrom, Bool.and_eq_true, decide_eq_true_eq]
          exact ⟨⟨⟨h, ha⟩, by simpa using nv⟩, e ▸ wr⟩
      · simp only [Memory.wfFrom, Bool.and_eq_true, decide_eq_true_eq]
        exact ⟨⟨⟨lk, ks⟩, wn⟩, Memory.write_wfFrom a v ha rest (k + 1) (by omega) wr⟩

/-- A write inside the image keeps the canonical form. -/
theorem Memory.write_wf (m : Memory) (a : Nat) (v : Byte) (ha : a < imageSize) (h : m.wf = true) : (m.write a v).wf = true :=
  Memory.write_wfFrom a v ha m 0 (Nat.zero_le _) h

/-- Bytes written inside the image keep the canonical form. -/
theorem Memory.writeBytes_wf : ∀ (data : List Byte) (m : Memory) (a : Nat), a + data.length ≤ imageSize → m.wf = true →
    (m.writeBytes a data).wf = true
  | [], _, _, _, h => h
  | v :: rest, m, a, b, h => by
    simp only [List.length_cons] at b
    exact Memory.writeBytes_wf rest _ _ (by omega) (Memory.write_wf m a v (by omega) h)

/-! ## Reading back -/

theorem Memory.read_below : ∀ (m : Memory) (low a : Nat), a < low → Memory.wfFrom low m = true → m.read a = blankByte
  | [], _, _, _, _ => rfl
  | (k, v) :: rest, low, a, h, w => by
    simp only [Memory.wfFrom, Bool.and_eq_true, decide_eq_true_eq] at w
    unfold Memory.read
    rw [if_neg (by omega)]
    exact Memory.read_below rest (k + 1) a (by omega) w.2

theorem Memory.read_write_from (a b : Nat) (v : Byte) : ∀ (m : Memory) (low : Nat), Memory.wfFrom low m = true →
    (m.write a v).read b = if b = a then v else m.read b
  | [], low, _ => by
    unfold Memory.write
    split
    · rename_i e; subst e; by_cases h : b = a <;> simp [Memory.read, h]
    · by_cases h : b = a
      · simp [Memory.read, h]
      · simp [Memory.read, h, Ne.symm h]
  | (k, w) :: rest, low, hw => by
    have hw' := hw
    simp only [Memory.wfFrom, Bool.and_eq_true, decide_eq_true_eq] at hw'
    obtain ⟨⟨⟨lk, ks⟩, wn⟩, wr⟩ := hw'
    unfold Memory.write
    split
    · rename_i ak
      have below : Memory.read ((k, w) :: rest) a = blankByte := by
        unfold Memory.read
        rw [if_neg (by omega)]
        exact Memory.read_below rest (k + 1) a (by omega) wr
      split
      · rename_i e
        by_cases h : b = a
        · subst h; rw [if_pos rfl, below, e]
        · rw [if_neg h]
      · by_cases h : b = a
        · subst h; simp [Memory.read]
        · rw [if_neg h]
          conv => lhs; unfold Memory.read
          rw [if_neg (Ne.symm h)]
    · split
      · rename_i e
        subst e
        split
        · rename_i e
          by_cases h : b = a
          · subst h; rw [if_pos rfl, e]; exact Memory.read_below rest (b + 1) b (by omega) wr
          · rw [if_neg h]
            conv => rhs; unfold Memory.read
            rw [if_neg (Ne.symm h)]
        · by_cases h : b = a
          · subst h; simp [Memory.read]
          · rw [if_neg h]
            simp [Memory.read, Ne.symm h]
      · rename_i na ne
        have ih := Memory.read_write_from a b v rest (k + 1) wr
        by_cases h : k = b
        · subst h; rw [if_neg (Ne.symm ne)]; simp [Memory.read]
        · simp only [Memory.read, if_neg h]; exact ih

/-- What a byte reads as after a write. -/
theorem Memory.read_write (m : Memory) (a b : Nat) (v : Byte) (h : m.wf = true) :
    (m.write a v).read b = if b = a then v else m.read b :=
  Memory.read_write_from a b v m 0 h

/-- What a byte reads as after bytes are written: the byte laid there, or what it read as. -/
theorem Memory.read_writeBytes : ∀ (data : List Byte) (m : Memory) (a b : Nat), a + data.length ≤ imageSize → m.wf = true →
    (m.writeBytes a data).read b = if a ≤ b ∧ b < a + data.length then data.getD (b - a) 0 else m.read b
  | [], m, a, b, _, _ => by rw [if_neg (by simp)]; rfl
  | v :: rest, m, a, b, hb, h => by
    simp only [List.length_cons] at hb
    unfold Memory.writeBytes
    rw [Memory.read_writeBytes rest _ _ b (by omega) (Memory.write_wf m a v (by omega) h), Memory.read_write m a b v h]
    simp only [List.length_cons]
    by_cases e : b = a
    · subst e
      rw [if_neg (by omega), if_pos rfl, if_pos (by omega)]; simp
    · by_cases c : a ≤ b ∧ b < a + (rest.length + 1)
      · rw [if_pos (by omega), if_pos c]
        have : b - a = (b - (a + 1)) + 1 := by omega
        rw [this, List.getD_cons_succ]
      · rw [if_neg (by omega), if_neg e, if_neg c]

theorem Memory.bytes_length (m : Memory) : ∀ (count a : Nat), (m.bytes a count).length = count
  | 0, _ => rfl
  | count + 1, a => by simp only [Memory.bytes, List.length_cons, Memory.bytes_length m count]

theorem keepMasked_length (image : Memory) (keep : Byte) : ∀ (data : List Byte) (a : Nat), (keepMasked image keep a data).length = data.length
  | [], _ => rfl
  | _ :: rest, a => by simp only [keepMasked, List.length_cons, keepMasked_length image keep rest]

/-! ## The images -/

theorem programRow_wf (row : Nat) (cs : ConfigStore) (hr : row ≤ 7) (h : cs.stored.wf = true) : (programRow row cs).wf = true :=
  Memory.writeBytes_wf _ _ _ (by rw [Memory.bytes_length, rowAddress, imageSize]; omega) h

theorem freeRow_wf (n row : Nat) (cs : ConfigStore) (hr : row ≤ 7) (h : cs.stored.wf = true) : (freeRow n row cs).wf = true :=
  Memory.writeBytes_wf _ _ _ (by simp only [List.length_map, List.length_range, rowAddress, imageSize]; omega) h

/-- A byte of a row that changes lies in the row, and its old and new values differ. -/
theorem changedByte_some {row a : Nat} {cs : ConfigStore} (h : changedByte row cs = some a) :
    32 * row ≤ a ∧ a < 32 * row + 32 ∧ cs.working.read a ≠ cs.stored.read a := by
  unfold changedByte at h
  have p := List.find?_some h
  have m := List.mem_of_find?_eq_some h
  simp only [List.mem_map, List.mem_range, rowAddress] at m
  obtain ⟨i, hi, e⟩ := m
  exact ⟨by omega, by omega, by simpa using p⟩

theorem tornRow_wf (n row : Nat) (cs : ConfigStore) (hr : row ≤ 7) (h : cs.stored.wf = true) : (tornRow n row cs).wf = true := by
  unfold tornRow
  dsimp only
  split
  · rename_i e
    have := changedByte_some e
    exact Memory.write_wf _ _ _ (by unfold imageSize; omega) (freeRow_wf n row cs hr h)
  · exact freeRow_wf n row cs hr h

/-- The check value written into an image keeps its canonical form. -/
theorem stamped_wf (m : Memory) (a b : Byte) (h : m.wf = true) : (m.writeBytes 254 [a, b]).wf = true :=
  Memory.writeBytes_wf _ _ _ (by simp [imageSize]) h

theorem abandonCommit_imagesWf (s : State) (w : s.ImagesWf) : (abandonCommit s).ImagesWf := by
  obtain ⟨w1, w2, w3⟩ := w
  unfold abandonCommit State.ImagesWf
  split
  · exact ⟨w1, w2, w3⟩
  · rename_i p h
    have t := tornRow_wf s.free p.row s.cs (w3 p h) w1
    generalize tornRow s.free p.row s.cs = m at t
    split
    · exact ⟨t, w2, fun _ e => nomatch e⟩
    · exact ⟨w1, w2, fun _ e => nomatch e⟩

end Sys2Proof.Machine
end

