-- ==== Sys2Proof/Laws/Setup.lean ====
section
/-! SUPPORT. The SETUP commands, case by case: what each writes, what it replies; the bytes of an image as a list. -/

namespace Sys2Proof.Machine

variable {s u v : State} {h : Header} {payload : List Byte}

/-! ## Bytes -/

theorem Memory.bytes_eq_map (m : Memory) : ∀ (n a : Nat), m.bytes a n = (List.range n).map (fun i => m.read (a + i))
  | 0, _ => rfl
  | n + 1, a => by
    rw [List.range_succ_eq_map]
    simp only [Memory.bytes, Memory.bytes_eq_map m n (a + 1), List.map_cons, List.map_map]
    congr 1
    refine List.map_congr_left fun i _ => ?_
    simp only [Function.comp]
    congr 1
    omega

/-- Two images have the same bytes as lists where every address reads the same. -/
theorem Memory.bytes_eq_iff (m n : Memory) : m.bytes 0 imageSize = n.bytes 0 imageSize ↔ ∀ b, b < 256 → m.read b = n.read b := by
  rw [Memory.bytes_eq_map, Memory.bytes_eq_map]
  constructor
  · intro e b hb
    have := (List.map_inj_left.mp e) b (by simp [imageSize, hb])
    simpa using this
  · intro e
    refine List.map_congr_left fun i hi => ?_
    have := e i (by simpa [imageSize] using hi)
    simpa using this

/-- The byte a WRITE lays at one place of its data (R205). -/
theorem keepMasked_getD (image : Memory) (keep : Byte) : ∀ (data : List Byte) (a i : Nat), i < data.length →
    (keepMasked image keep a data).getD i 0 =
      if a + i = 253 then image.read (a + i) else (image.read (a + i) &&& keep) ||| (data.getD i 0 &&& ~~~ keep)
  | d :: rest, a, 0, _ => by simp [keepMasked]
  | d :: rest, a, i + 1, hi => by
    simp only [keepMasked, List.getD_cons_succ]
    rw [keepMasked_getD image keep rest (a + 1) i (by simpa using hi)]
    have : a + 1 + i = a + (i + 1) := by omega
    rw [this]

/-! ## A delivered SETUP frame -/

theorem receiveFrame_setup (d : s.DeliversService .setup h payload) (target : Station) (c : SetupCommand)
    (hr : readSetup payload = some (target, c)) (ht : target.val = s.cs.number.toNat) :
    receiveFrame .setup h payload s = frameEnds h.sender.toNat (endEvent .none (deliverSetup c s.asTaken)) := by
  have e := receiveFrame_service d
  have : deliverService .setup h payload s.asTaken = deliverSetup c s.asTaken := by
    unfold deliverService
    simp only [hr]
    exact if_pos ht
  rw [this] at e
  exact e

/-- The counters after a SETUP command, which counts nothing itself. -/
theorem setup_counts (i : Internal v u) (e : v.rp = s.asTaken.rp) : s.Counted u .accepted ∧ s.SameCounters u [.accepted] := by
  have c : ∀ c, v.counter c = s.asTaken.counter c := fun c => by unfold State.counter; rw [e]
  constructor
  · unfold State.Counted
    rw [i.counters _ (by decide) (by decide), c]
    exact asTaken_accepted s
  · intro x a1 a2 a3
    rw [i.counters x a2 a3, c]
    exact asTaken_counter s x (by simpa using a1)

/-! ## COMMIT and LOCK (R207, R208) -/

theorem takeCommit_cases (s : State) : (takeCommit s).rp = s.rp ∧
    (s.cs.locked = true → takeCommit s = reply .refusedLocked [] s) ∧
    (s.cs.locked = false → s.cs.commit ≠ none → takeCommit s = reply .busy [] s) ∧
    (s.cs.locked = false → s.cs.commit = none → validity s.cs.working s.cs.straps.number ≠ .ok →
      takeCommit s = replyInvalid (validity s.cs.working s.cs.straps.number) s) ∧
    (s.cs.locked = false → s.cs.commit = none → validity s.cs.working s.cs.straps.number = .ok →
      takeCommit s = beginProgramming false s.cs.working s) := by
  unfold takeCommit
  generalize validity s.cs.working s.cs.straps.number = r
  cases s.cs.locked <;> cases s.cs.commit <;> cases r <;> simp [reply, replyInvalid, beginProgramming]

theorem takeLock_cases (s : State) : (takeLock s).rp = s.rp ∧
    (s.cs.locked = true → takeLock s = reply .refusedLocked [] s) ∧
    (s.cs.locked = false → s.cs.commit ≠ none → takeLock s = reply .busy [] s) ∧
    (s.cs.locked = false → s.cs.commit = none → ¬ (∀ b, b < 256 → s.cs.working.read b = s.cs.stored.read b) →
      takeLock s = reply .notEqual [] s) ∧
    (s.cs.locked = false → s.cs.commit = none → (∀ b, b < 256 → s.cs.working.read b = s.cs.stored.read b) →
      validity (s.cs.working.write 253 0x5A) s.cs.straps.number ≠ .ok →
      takeLock s = replyInvalid (validity (s.cs.working.write 253 0x5A) s.cs.straps.number) s) ∧
    (s.cs.locked = false → s.cs.commit = none → (∀ b, b < 256 → s.cs.working.read b = s.cs.stored.read b) →
      validity (s.cs.working.write 253 0x5A) s.cs.straps.number = .ok →
      takeLock s = beginProgramming true (s.cs.working.write 253 0x5A) s) := by
  unfold takeLock
  rw [← Memory.bytes_eq_iff]
  generalize s.cs.working.write 253 0x5A = image
  dsimp only
  generalize validity image s.cs.straps.number = r
  by_cases e : s.cs.working.bytes 0 imageSize = s.cs.stored.bytes 0 imageSize
  · simp only [e, ne_eq, not_true_eq_false, if_false]
    cases s.cs.locked <;> cases s.cs.commit <;> cases r <;> simp [reply, replyInvalid, beginProgramming]
  · simp only [e, ne_eq, not_false_eq_true, if_true]
    cases s.cs.locked <;> cases s.cs.commit <;> simp [reply, replyInvalid, beginProgramming]

theorem beginProgramming_cs (byLock : Bool) (image : Memory) (s : State) (w : image.wf = true) :
    let t := beginProgramming byLock image s
    t.cs = { s.cs with working := t.cs.working, commit := some { row := 0, start := s.now, byLock := byLock } } ∧
    (∀ b, b < 254 → t.cs.working.read b = image.read b) ∧
    t.cs.working.read 254 = highByte image.checkValue ∧ t.cs.working.read 255 = lowByte image.checkValue := by
  have r := fun b => Memory.read_writeBytes [highByte image.checkValue, lowByte image.checkValue] image 254 b (by simp [imageSize]) w
  refine ⟨rfl, fun b hb => (r b).trans (if_neg ?_), (r 254).trans ?_, (r 255).trans ?_⟩
  · simp only [List.length_cons, List.length_nil]
    omega
  · simp
  · simp

/-! ## The completion of a row (R207, R208) -/

theorem rowDone_only_cs (p : Programming) (t : State) : rowDone p t = { t with cs := (rowDone p t).cs } := by
  unfold rowDone
  by_cases hr : p.row < 7
  · simp only [if_pos hr]
  · simp only [if_neg hr, reply]

theorem rowDone_stored (p : Programming) (t : State) : (rowDone p t).cs.stored = programRow p.row t.cs := by
  unfold rowDone
  by_cases hr : p.row < 7
  · simp only [if_pos hr]
  · simp only [if_neg hr, reply]

theorem rowDone_before (p : Programming) (t : State) (hr : p.row < 7) : (rowDone p t).cs = { t.cs with
    stored := programRow p.row t.cs, commit := some { p with row := p.row + 1, start := p.start + 5000 } } := by
  unfold rowDone
  simp only [if_pos hr, Config.rowTime]

theorem rowDone_last (p : Programming) (t : State) (hr : p.row = 7) : (rowDone p t).cs = { t.cs with
    stored := programRow p.row t.cs, mixed := false, commit := none, locked := t.cs.locked || p.byLock
    reply := some { status := .done, data := [] } } := by
  unfold rowDone
  simp only [hr, Nat.lt_irrefl, if_false, reply]

/-- A row programmed: its 32 bytes are the working image's. -/
theorem programRow_read (row : Nat) (cs : ConfigStore) (b : Nat) (hr : row ≤ 7) (w : cs.stored.wf = true) :
    (programRow row cs).read b = if 32 * row ≤ b ∧ b < 32 * row + 32 then cs.working.read b else cs.stored.read b := by
  unfold programRow rowAddress
  rw [Memory.read_writeBytes _ _ _ _ (by rw [Memory.bytes_length]; unfold imageSize; omega) w, Memory.bytes_length]
  by_cases c : 32 * row ≤ b ∧ b < 32 * row + 32
  · rw [if_pos c, if_pos c, Memory.bytes_eq_map]
    simp only [List.getD_eq_getElem?_getD]
    rw [List.getElem?_map, List.getElem?_range (by omega)]
    simp only [Option.map_some, Option.getD_some]
    congr 1
    omega
  · rw [if_neg c, if_neg c]

end Sys2Proof.Machine
end

