-- ==== Sys2Proof/Laws/Preserves.lean ====
section
/-! SUPPORT. What every operation of a command keeps: the queue, the canonical form of the images, the bounds. -/

namespace Sys2Proof.Machine

/-- `t` has the queue of `s`, its images are canonical where those of `s` are, and it is within bounds where `s` is. -/
structure Preserves (s t : State) : Prop where
  pending : t.pending = s.pending
  images : s.ImagesWf → t.ImagesWf
  bounds : s.Bounded → t.Bounded

variable {s t u : State}

theorem Preserves.refl (s : State) : Preserves s s := ⟨rfl, id, id⟩
theorem Preserves.trans (h : Preserves s t) (k : Preserves t u) : Preserves s u :=
  ⟨k.pending.trans h.pending, fun x => k.images (h.images x), fun x => k.bounds (h.bounds x)⟩

theorem Internal.preserves (i : Internal s t) : Preserves s t :=
  ⟨i.pending, fun w => by unfold State.ImagesWf at *; rw [i.cs]; exact w, i.bounded⟩

theorem Opened.preserves (o : Opened s t) : Preserves s t := ⟨o.pending, o.imagesWf, o.bounded⟩

theorem Claimed.same_pending (h : Claimed s t) : t.pending = s.pending := h.pending

/-- An update that leaves the lists and counters that the bounds speak of, the number and the images as they are. -/
theorem Preserves.of_same (hp : t.pending = s.pending) (ho : t.oc.claims = s.oc.claims) (hw : t.oc.waiting = s.oc.waiting)
    (hr : t.rs.incidents = s.rs.incidents) (hq : t.hz.queue.length = s.hz.queue.length) (hc : t.cs = s.cs)
    (hn : t.rp.counters = s.rp.counters) (ht : t.ct = s.ct) (hi : t.rs.nextId = s.rs.nextId := by rfl) : Preserves s t where
  pending := hp
  images := fun w => by unfold State.ImagesWf at *; rw [hc]; exact w
  bounds := fun b => ⟨ho ▸ b.claims, hw ▸ b.waiting, hr ▸ b.incidents, hi ▸ b.nextId, hq ▸ b.hazards, hc ▸ b.carried,
    fun c => by simpa only [State.counter, hn] using b.counters c,
    fun k hk => by
      have e : t.me = s.me := by simp only [State.me, hc]
      rw [ht]; exact b.records k (e ▸ hk)⟩

/-- An update of the Configuration Store that leaves the carry-over record and the number as they are. -/
theorem Preserves.of_store (cs : ConfigStore) (hi : s.ImagesWf → ({ s with cs := cs } : State).ImagesWf)
    (hn : cs.number = s.cs.number) (hc : cs.carryIncidents = s.cs.carryIncidents) : Preserves s { s with cs := cs } where
  pending := rfl
  images := hi
  bounds := fun b => ⟨b.claims, b.waiting, b.incidents, b.nextId, b.hazards,
      by rw [show ({ s with cs := cs } : State).cs.carryIncidents = _ from hc]; exact b.carried,
    b.counters, fun k hk => b.records k (by
      have e : ({ s with cs := cs } : State).me = s.me := by simp only [State.me, hn]
      exact e ▸ hk)⟩

/-! ## The clock, the link, the counters -/

theorem advanceTo_preserves (d : Nat) (s : State) : Preserves s (advanceTo d s) := .of_same rfl rfl rfl rfl rfl rfl rfl rfl
theorem lc_preserves (lc : LinkController) (s : State) : Preserves s { s with lc := lc } := .of_same rfl rfl rfl rfl rfl rfl rfl rfl
theorem mu_preserves (mu : Membership) (s : State) : Preserves s { s with mu := mu } := .of_same rfl rfl rfl rfl rfl rfl rfl rfl
theorem lu_preserves (lu : LineUnit) (s : State) : Preserves s { s with lu := lu } := .of_same rfl rfl rfl rfl rfl rfl rfl rfl
theorem ms_preserves (ms : Measurement) (s : State) : Preserves s { s with ms := ms } := .of_same rfl rfl rfl rfl rfl rfl rfl rfl
theorem pd_preserves (pd : ProgramDrive) (s : State) : Preserves s { s with pd := pd } := .of_same rfl rfl rfl rfl rfl rfl rfl rfl
theorem fd_preserves (fd : FaultDetector) (s : State) : Preserves s { s with fd := fd } := .of_same rfl rfl rfl rfl rfl rfl rfl rfl
theorem zoneMode_preserves (m : ZoneMode) (s : State) : Preserves s { s with zoneMode := m } := .of_same rfl rfl rfl rfl rfl rfl rfl rfl

theorem count_preserves (c : Counter) (s : State) : Preserves s (count c s) := ⟨rfl, id, count_bounded c⟩

theorem setMedium_preserves (m : Medium) (s : State) : Preserves s (setMedium m s) := lc_preserves _ s
theorem mediumEnds_preserves (s : State) : Preserves s (mediumEnds s) := lc_preserves _ s
theorem setPeer_preserves (k : Station) (r : PeerRecord) (s : State) : Preserves s (setPeer k r s) := mu_preserves _ s

theorem setPosition_eq (p : Nat) (s : State) : setPosition p s = { s with lc := (setPosition p s).lc } := by
  unfold setPosition; split <;> rfl

theorem setPosition_preserves (p : Nat) (s : State) : Preserves s (setPosition p s) := by
  rw [setPosition_eq]; exact lc_preserves _ s

theorem beginOpening_preserves (s : State) : Preserves s (beginOpening s) := (beginOpening_opened s).preserves
theorem endEvent_preserves (tr : Trigger) (s : State) : Preserves s (endEvent tr s) := (endEvent_internal tr s).preserves

theorem frameEnds_preserves (sender : Nat) (s : State) : Preserves s (frameEnds sender s) :=
  (setPosition_preserves _ s).trans (beginOpening_preserves _)

theorem failureEnds_preserves (s : State) : Preserves s (failureEnds s) :=
  (setPosition_preserves _ s).trans (beginOpening_preserves _)

theorem afterFrame_preserves (h : Header) (s : State) : Preserves s (afterFrame h s) :=
  (endEvent_preserves _ s).trans (frameEnds_preserves _ _)

/-! ## The Claim Table -/

/-- An owner entry whose records stay within six. -/
theorem setOwner_preserves (k : Station) (e : OwnerEntry) (s : State)
    (h : k ≠ s.me → s.ct[k].records.length ≤ 6 → e.records.length ≤ 6) : Preserves s (setOwner k e s) where
  pending := rfl
  images := id
  bounds := fun b => ⟨b.claims, b.waiting, b.incidents, b.nextId, b.hazards, b.carried, b.counters, fun j hj => by
    show (setAt s.ct k e)[j].records.length ≤ 6
    by_cases ek : k = j
    · subst ek; rw [setAt_same]; exact h hj (b.records k hj)
    · rw [setAt_other _ _ _ _ ek]; exact b.records j hj⟩

theorem markStale_preserves (k : Station) (s : State) : Preserves s (markStale k s) := setOwner_preserves _ _ s fun _ h => h
theorem removeOwner_preserves (k : Station) (s : State) : Preserves s (removeOwner k s) :=
  setOwner_preserves _ _ s fun _ _ => Nat.zero_le _
theorem claimRefused_preserves (k : Station) (s : State) : Preserves s (claimRefused k s) :=
  (count_preserves _ s).trans (markStale_preserves _ _)

theorem recomputeMarks_preserves (s : State) : Preserves s (recomputeMarks s) := (recomputeMarks_internal s).preserves

theorem insertRecord_length (r : ClaimRecord) : ∀ l : List ClaimRecord, (insertRecord r l).length = l.length + 1
  | [] => rfl
  | q :: rest => by
    unfold insertRecord
    split
    · rfl
    · simp only [List.length_cons, insertRecord_length r rest]

/-- A change that has been checked leaves at most six records. -/
theorem checkChange_length (raw : RawChange) (records : List ClaimRecord) (c : Change) (h : checkChange raw records = some c)
    (b : records.length ≤ 6) : (applyChange c records).length ≤ 6 := by
  have release : ∀ tag, (applyChange { tag := tag, op := .release } records).length ≤ 6 := fun tag =>
    Nat.le_trans (List.length_filter_le _ _) b
  have amend : ∀ tag cls n, (applyChange { tag := tag, op := .amend cls n } records).length ≤ 6 := fun tag cls n => by
    unfold applyChange; rw [List.length_map]; exact b
  unfold checkChange at h
  repeat' split at h
  all_goals first
    | (cases h; done)
    | (obtain rfl := Option.some.inj h; exact amend _ _ _)
    | (obtain rfl := Option.some.inj h; exact release _)
    | skip
  rename_i n
  obtain rfl := Option.some.inj h
  have six : Config.maxClaims = 6 := rfl
  have n2 : ¬ records.length ≥ Config.maxClaims := fun c => n (by simp [c])
  show (insertRecord _ records).length ≤ 6
  rw [insertRecord_length]
  omega

theorem applyRaw_length : ∀ (l : List RawChange) (records out : List ClaimRecord), applyRaw l records = some out →
    records.length ≤ 6 → out.length ≤ 6
  | [], records, out, h, b => by injection h with h; exact h ▸ b
  | raw :: rest, records, out, h, b => by
    unfold applyRaw at h
    split at h
    · cases h
    · rename_i c hc
      exact applyRaw_length rest _ out h (checkChange_length raw records c hc b)

theorem applySelected_preserves (k : Station) (l : List RawChange) (n : Byte) (s : State) : Preserves s (applySelected k l n s) := by
  unfold applySelected
  split
  · exact claimRefused_preserves k s
  · rename_i records h
    exact (setOwner_preserves k _ s fun _ b => applyRaw_length _ _ _ h b).trans (recomputeMarks_preserves _)

theorem takeClaim_preserves (k : Station) (payload : List Byte) (s : State) : Preserves s (takeClaim k payload s) := by
  unfold takeClaim
  split
  · exact claimRefused_preserves k s
  · dsimp only
    split
    · exact claimRefused_preserves k s
    · split
      · split
        · exact applySelected_preserves k _ _ s
        · split
          · exact markStale_preserves k s
          · split
            · exact .refl s
            · exact applySelected_preserves k _ _ s
      · exact markStale_preserves k s

theorem restatedRecords_length : ∀ (l : List RawChange) (out : List ClaimRecord), restatedRecords l = some out → out.length = l.length
  | [], out, h => by injection h with h; subst h; rfl
  | raw :: rest, out, h => by
    unfold restatedRecords at h
    split at h
    · rename_i r records _ e
      split at h
      · cases h
      · injection h with h; subst h
        rw [insertRecord_length, restatedRecords_length rest records e, List.length_cons]
    · cases h

theorem rawRecords_length : ∀ l : List Byte, (rawRecords l).length = l.length / 3
  | [] => rfl
  | [_] => by simp [rawRecords]
  | [_, _] => by simp [rawRecords]
  | a :: b :: c :: rest => by
    simp only [rawRecords, List.length_cons, rawRecords_length rest]
    omega

theorem readRestatement_length (payload : List Byte) (number : Byte) (fresh : Bool) (records : List ClaimRecord)
    (h : readRestatement payload = some (number, fresh, records)) : records.length ≤ 6 := by
  unfold readRestatement at h
  split at h
  · split at h
    · cases h
    · rename_i items n
      simp only [Option.map_eq_some_iff] at h
      obtain ⟨r, hr, e⟩ := h
      have e' : r = records := congrArg (fun x => x.2.2) e
      subst e'
      have six : Config.maxClaims = 6 := rfl
      have n2 : ¬ Config.maxClaims < items.length / 3 := fun c => n (by simp [c])
      rw [restatedRecords_length _ _ hr, rawRecords_length]
      omega
  · cases h

/-! ## The Own Claim Unit and own frames -/

theorem placeFreed_preserves (s : State) : Preserves s (placeFreed s) := (placeFreed_internal s).preserves

theorem oc_preserves (oc : OwnClaimUnit) (s : State) (hc : oc.claims.length ≤ s.oc.claims.length) (hw : oc.waiting.length ≤ s.oc.waiting.length) :
    Preserves s { s with oc := oc } where
  pending := rfl
  images := id
  bounds := fun b => ⟨Nat.le_trans hc b.claims, Nat.le_trans hw b.waiting, b.incidents, b.nextId, b.hazards, b.carried, b.counters, b.records⟩

theorem returnChanges_preserves (s : State) : Preserves s (returnChanges s) := by
  unfold returnChanges
  dsimp only
  refine .trans ?_ (placeFreed_preserves _)
  exact oc_preserves _ s (Nat.le_refl _) (Nat.le_refl _)

theorem returnQuestion_preserves (s : State) : Preserves s (returnQuestion s) := by
  unfold returnQuestion
  split
  · exact .of_same rfl rfl rfl rfl rfl rfl rfl rfl
  · exact .trans (t := { s with rp := { s.rp with inFlight := none } }) (.of_same rfl rfl rfl rfl rfl rfl rfl rfl) (count_preserves _ _)

theorem returnSetupReply_preserves (s : State) : Preserves s (returnSetupReply s) := by
  unfold returnSetupReply
  split <;> exact .of_store _ id rfl rfl

theorem takeBack_preserves (content : OwnContent) (s : State) : Preserves s (takeBack content s) := by
  unfold takeBack
  split
  · exact returnChanges_preserves s
  · exact returnChanges_preserves s
  · exact .of_same rfl rfl rfl rfl (by simp [clearOnWire]) rfl rfl rfl
  · exact returnQuestion_preserves s
  · exact returnSetupReply_preserves s
  · exact .refl s
  · exact .refl s

theorem startForestalled_preserves (f : OwnFrame) (s : State) : Preserves s (startForestalled f s) :=
  (takeBack_preserves _ s).trans ((setMedium_preserves _ _).trans (endEvent_preserves _ _))

theorem stopOwnFrame_preserves (s : State) : Preserves s (stopOwnFrame s) := by
  unfold stopOwnFrame
  split
  · exact (takeBack_preserves _ s).trans (setMedium_preserves _ _)
  · exact .refl s

theorem isolate_preserves (reason : IsolationReason) (s : State) : Preserves s (isolate reason s) := by
  unfold isolate
  refine .trans ?_ (fd_preserves _ _)
  refine .trans ?_ (suspend_internal _).preserves
  refine .trans ?_ (oc_preserves _ _ (Nat.zero_le _) (Nat.zero_le _))
  refine .trans (t := isolateMembership reason (stopOwnFrame s)) ((stopOwnFrame_preserves s).trans (mu_preserves _ _)) ?_
  exact ⟨rfl, id, fun b => ⟨b.claims, b.waiting, b.incidents, b.nextId, b.hazards, b.carried, b.counters, fun k _ => by
    show (Vector.replicate 12 OwnerEntry.empty)[k.val].records.length ≤ 6
    rw [Vector.getElem_replicate]; exact Nat.zero_le _⟩⟩

theorem duplicateNumber_preserves (s : State) : Preserves s (duplicateNumber s) := by
  unfold duplicateNumber
  dsimp only
  split
  · exact .of_same rfl rfl rfl rfl rfl rfl rfl rfl
  · split
    · exact .refl s
    · exact (mu_preserves _ s).trans (isolate_preserves _ _)

theorem completeChanges_preserves (n : Byte) (f : Nat → Byte) (s : State) : Preserves s (completeChanges n f s) := by
  unfold completeChanges
  refine .trans ?_ (placeFreed_preserves _)
  refine .trans ?_ (setOwner_preserves _ _ _ fun _ h => h)
  exact oc_preserves _ s (by simp) (Nat.le_refl _)

theorem clearCounters_preserves (s : State) : Preserves s (clearCounters s) where
  pending := rfl
  images := id
  bounds := fun b => ⟨b.claims, b.waiting, b.incidents, b.nextId, b.hazards, b.carried, fun c => by
    show ((Vector.replicate 13 0).set 12 (s.counter .restarts))[counterPlace c] ≤ counterMax c
    have r := b.counters .restarts
    cases c <;> first | exact Nat.zero_le _ | exact r, b.records⟩

theorem replySent_preserves (s : State) : Preserves s (replySent s) := by
  have done : ∀ t : State, Preserves t { t with rp := { t.rp with inFlight := none } } :=
    fun t => .of_same rfl rfl rfl rfl rfl rfl rfl rfl
  have used : Preserves s { s with free := s.free + 1 } := .of_same rfl rfl rfl rfl rfl rfl rfl rfl
  unfold replySent
  dsimp only
  split
  · split
    · exact used.trans ((clearCounters_preserves _).trans ((count_preserves _ _).trans (done _)))
    · exact used.trans ((count_preserves _ _).trans ((clearCounters_preserves _).trans (done _)))
  · exact (count_preserves _ s).trans (done _)

theorem sentEntry_length (l : List HazardEntry) : (sentEntry l).length ≤ l.length := List.length_filterMap_le _ _

theorem joinRequestSent_preserves (s : State) : Preserves s (joinRequestSent s) := mu_preserves _ s
theorem hazardSent_preserves (s : State) : Preserves s (hazardSent s) :=
  ⟨rfl, id, fun b => ⟨b.claims, b.waiting, b.incidents, b.nextId, Nat.le_trans (sentEntry_length _) b.hazards, b.carried, b.counters, b.records⟩⟩
theorem completeClaimSet_preserves (n : Byte) (s : State) : Preserves s (completeClaimSet n s) := by
  unfold completeClaimSet
  refine .trans ?_ (completeChanges_preserves _ _ _)
  exact oc_preserves _ s (Nat.le_refl _) (Nat.le_refl _)

theorem completionEffects_preserves (content : OwnContent) (s : State) : Preserves s (completionEffects content s) := by
  have sent := count_preserves .sent s
  unfold completionEffects
  split
  · exact sent.trans (lc_preserves _ (count .sent s))
  · exact sent.trans (completeChanges_preserves _ _ _)
  · exact sent.trans (completeClaimSet_preserves _ _)
  · have asked := sent.trans (count_preserves .resyncsSent _)
    dsimp only
    split
    · exact asked.trans (joinRequestSent_preserves _)
    · exact asked
  · exact sent.trans (hazardSent_preserves _)
  · exact replySent_preserves s
  · exact sent.trans (.of_store { (count .sent s).cs with replyInFlight := none } id rfl rfl)

/-! ## Delivery -/

theorem takeAppliedEntry_preserves (k : Station) (e : Option Byte) (s : State) : Preserves s (takeAppliedEntry k e s) := by
  unfold takeAppliedEntry
  repeat' split
  all_goals first
    | exact .refl s
    | exact markStale_preserves k s

theorem takeMatching_preserves (k : Station) (p : PresenceReport) (s : State) : Preserves s (takeMatching k p s) := by
  unfold takeMatching
  dsimp only
  refine .trans ?_ (takeAppliedEntry_preserves k _ _)
  have lag : Preserves s (if s.lagging k = true then markStale k s else s) := by
    split
    · exact markStale_preserves k s
    · exact .refl s
  have peer := fun r => lag.trans (setPeer_preserves k r _)
  split <;> split
  · exact (peer _).trans (markStale_preserves k _)
  · exact peer _
  · exact ((peer _).trans (markStale_preserves k _)).trans (mu_preserves _ _)
  · exact (peer _).trans (mu_preserves _ _)

theorem takeDiffering_preserves (k : Station) (p : PresenceReport) (s : State) : Preserves s (takeDiffering k p s) := by
  unfold takeDiffering
  dsimp only
  split
  · exact setPeer_preserves k _ s
  · exact (setPeer_preserves k _ s).trans ((count_preserves _ _).trans ((removeOwner_preserves k _).trans (recomputeMarks_preserves _)))

theorem takePresence_preserves (k : Station) (p : PresenceReport) (s : State) : Preserves s (takePresence k p s) := by
  unfold takePresence
  split
  · split
    · exact takeMatching_preserves k p s
    · exact takeDiffering_preserves k p s
  · exact .refl s

theorem deliverClaim_preserves (k : Station) (payload : List Byte) (s : State) : Preserves s (deliverClaim k payload s) := by
  unfold deliverClaim
  split
  · exact takeClaim_preserves k payload s
  · exact .refl s

theorem reportRestated_preserves (k : Station) (fresh : Bool) (s : State) : Preserves s (reportRestated k fresh s) := by
  unfold reportRestated
  dsimp only
  split
  · exact (setPeer_preserves k _ s).trans (.of_same rfl rfl rfl rfl rfl rfl rfl rfl)
  · exact setPeer_preserves k _ s

theorem deliverClaimSet_preserves (k : Station) (payload : List Byte) (s : State) : Preserves s (deliverClaimSet k payload s) := by
  unfold deliverClaimSet
  split
  · split
    · exact claimRefused_preserves k s
    · rename_i h
      refine .trans ?_ (reportRestated_preserves k _ _)
      exact (setOwner_preserves k _ s fun _ _ => readRestatement_length _ _ _ _ h).trans (recomputeMarks_preserves _)
  · exact .refl s

theorem takeHazard_preserves (origin : Station) (serial : Byte) (code : HazardCode) (hops : Nat) (s : State) :
    Preserves s (takeHazard origin serial code hops s) := by
  have hz : ∀ (memory : Vector (Option Byte) 12) (set : StationSet) (t : State),
      Preserves t { t with hz := { t.hz with memory := memory, gateStop := set } } := fun _ _ _ => .of_same rfl rfl rfl rfl rfl rfl rfl rfl
  unfold takeHazard
  split
  · exact .refl s
  · split
    · exact .refl s
    · dsimp only
      split
      · unfold answerNotice
        dsimp only
        split
        · exact (hz _ _ s).trans (pushHazard_internal _ _).preserves
        · exact hz _ _ s
      · exact hz _ _ s

theorem judgeRegulation_eq (s : State) : judgeRegulation s = { s with pd := (judgeRegulation s).pd } := by
  unfold judgeRegulation; split <;> rfl
theorem judgeDrained_eq (s : State) : judgeDrained s = { s with pd := (judgeDrained s).pd } := by
  unfold judgeDrained; split <;> rfl

/-- A phase change writes the Program Drive (R122). -/
theorem changePhase_eq (phase : Phase) (s : State) : changePhase phase s = { s with pd := (changePhase phase s).pd } := by
  unfold changePhase
  split
  · rfl
  · dsimp only
    split
    · rw [judgeDrained_eq, judgeRegulation_eq]
    · rw [judgeDrained_eq]

theorem judgeRegulation_preserves (s : State) : Preserves s (judgeRegulation s) := by
  rw [judgeRegulation_eq]; exact pd_preserves _ s
theorem changePhase_preserves (phase : Phase) (s : State) : Preserves s (changePhase phase s) := by
  rw [changePhase_eq]; exact pd_preserves _ s

theorem phaseEvaluated_preserves (before : Phase) (s : State) : Preserves s (phaseEvaluated before s) := by
  unfold phaseEvaluated
  split
  · exact .refl s
  · exact (evalTimed_internal _ s).preserves

theorem panelSilent_preserves (s : State) : Preserves s (panelSilent s) := by
  have h : ∀ pd, Preserves s (changePhase .pause { s with pd := pd }) := fun pd => (pd_preserves pd s).trans (changePhase_preserves _ _)
  unfold panelSilent
  dsimp only
  split
  · exact h _
  · exact h _
  · exact h _
  · exact pd_preserves _ s

theorem queueNotice_preserves (code : HazardCode) (s : State) : Preserves s (queueNotice code s) :=
  (queueNotice_internal code s).preserves

theorem changeZoneMode_preserves (mode : ZoneMode) (s : State) : Preserves s (changeZoneMode mode s) :=
  (zoneMode_preserves mode s).trans (fd_preserves _ _)

theorem acknowledge_preserves (id : Nat) (s : State) : Preserves s (acknowledge id s) := by
  unfold acknowledge
  split
  · exact count_preserves _ s
  · split
    · exact (updateRecord_internal _ _ s).preserves
    · exact ((removeRecord_internal id s).trans (resubmitUnrecorded_internal _)).preserves
    · exact count_preserves _ s

theorem outOfService_preserves (s : State) : Preserves s (outOfService s) :=
  (changeZoneMode_preserves _ s).trans ((pd_preserves _ _).trans (queueNotice_preserves _ _))

theorem leaveService_preserves (s : State) : Preserves s (leaveService s) := by
  unfold leaveService
  split
  · exact (outOfService_preserves s).trans (clearRecord_internal _ _ _ _ _).preserves
  · exact (suspend_internal s).preserves.trans (outOfService_preserves _)

theorem abandon_preserves (id : Nat) (s : State) : Preserves s (abandon id s) := by
  unfold abandon
  split
  · exact count_preserves _ s
  · split
    · dsimp only
      have u := fun f => (updateRecord_internal id f s).preserves
      split
      · exact (u _).trans (leaveService_preserves _)
      · exact u _
    · exact count_preserves _ s

theorem resumeZone_preserves (s : State) : Preserves s (resumeZone s) := by
  unfold resumeZone
  split
  · dsimp only
    refine .trans ?_ (queueNotice_preserves _ _)
    refine .trans ?_ (judgeRegulation_preserves _)
    refine .trans ?_ (changeZoneMode_preserves _ _)
    exact (rs_internal _ s (by simp)).preserves
  · exact count_preserves _ s

theorem takeQuery_preserves (q : Question) (s : State) : Preserves s (takeQuery q s) := by
  have slot : Preserves s { s with rp := { s.rp with slot := some q } } := .of_same rfl rfl rfl rfl rfl rfl rfl rfl
  unfold takeQuery
  split
  · exact slot
  · exact slot.trans (count_preserves _ _)

/-! ## The Configuration Store -/

theorem reply_preserves (status : SetupStatus) (data : List Byte) (s : State) : Preserves s (reply status data s) :=
  .of_store _ id rfl rfl

theorem beginProgramming_preserves (byLock : Bool) (image : Memory) (s : State) (h : s.ImagesWf → image.wf = true) :
    Preserves s (beginProgramming byLock image s) :=
  .of_store _ (fun w => ⟨w.1, stamped_wf image _ _ (h w), fun p e => by
    obtain rfl := Option.some.inj e; exact Nat.zero_le _⟩) rfl rfl

theorem takeWrite_preserves (a : Nat) (keep : Byte) (data : List Byte) (s : State) : Preserves s (takeWrite a keep data s) := by
  unfold takeWrite
  split
  · exact reply_preserves _ _ s
  · split
    · exact reply_preserves _ _ s
    · split
      · exact reply_preserves _ _ s
      · rename_i n
        refine .trans ?_ (lu_preserves _ _)
        refine .trans ?_ (reply_preserves _ _ _)
        exact .of_store _ (fun w => ⟨w.1, Memory.writeBytes_wf _ _ _ (by rw [keepMasked_length, imageSize]; omega) w.2.1, w.2.2⟩) rfl rfl

theorem takeRead_preserves (a n : Nat) (s : State) : Preserves s (takeRead a n s) := by
  unfold takeRead; split <;> exact reply_preserves _ _ s

theorem takeCommit_preserves (s : State) : Preserves s (takeCommit s) := by
  unfold takeCommit
  split
  · exact reply_preserves _ _ s
  · split
    · exact reply_preserves _ _ s
    · split
      · exact beginProgramming_preserves _ _ s fun w => w.2.1
      · exact reply_preserves _ _ s

theorem takeLock_preserves (s : State) : Preserves s (takeLock s) := by
  unfold takeLock
  split
  · exact reply_preserves _ _ s
  · split
    · exact reply_preserves _ _ s
    · split
      · exact reply_preserves _ _ s
      · dsimp only
        split
        · exact beginProgramming_preserves _ _ s fun w => Memory.write_wf _ _ _ (by decide) w.2.1
        · exact reply_preserves _ _ s

theorem deliverSetup_preserves (command : SetupCommand) (s : State) : Preserves s (deliverSetup command s) := by
  unfold deliverSetup
  split
  · exact takeWrite_preserves _ _ _ s
  · exact takeRead_preserves _ _ s
  · exact takeCommit_preserves s
  · exact takeLock_preserves s
  · exact .trans (lu_preserves _ s) (reply_preserves _ _ _)

/-- The store with another stored image and another commit state. -/
theorem stored_preserves (stored : Memory) (mixed : Bool) (commit : Option Programming) (locked : Bool) (s : State)
    (h : s.ImagesWf → stored.wf = true ∧ ∀ p, commit = some p → p.row ≤ 7) :
    Preserves s { s with cs := { s.cs with stored := stored, mixed := mixed, commit := commit, locked := locked } } :=
  .of_store _ (fun w => ⟨(h w).1, w.2.1, (h w).2⟩) rfl rfl

theorem rowDone_preserves (p : Programming) (s : State) (h : s.ImagesWf → p.row ≤ 7) : Preserves s (rowDone p s) := by
  have w7 : s.ImagesWf → (programRow p.row s.cs).wf = true := fun w => programRow_wf _ _ (h w) w.1
  unfold rowDone
  generalize programRow p.row s.cs = m at *
  dsimp only
  split
  · refine stored_preserves m s.cs.mixed (some { p with row := p.row + 1, start := p.start + Config.rowTime }) s.cs.locked s fun w => ⟨w7 w, fun q e => ?_⟩
    obtain rfl := Option.some.inj e
    assumption
  · refine .trans ?_ (reply_preserves _ _ _)
    exact stored_preserves m false none (s.cs.locked || p.byLock) s fun w => ⟨w7 w, fun q e => by cases e⟩

theorem abandonCommit_preserves (s : State) : Preserves s (abandonCommit s) where
  pending := by unfold abandonCommit; split <;> (try split) <;> rfl
  images := abandonCommit_imagesWf s
  bounds := fun b => by
    unfold abandonCommit
    split
    · exact b
    · rename_i p _
      generalize tornRow s.free p.row s.cs = m
      split <;> exact ⟨b.claims, b.waiting, b.incidents, b.nextId, b.hazards, b.carried, b.counters, b.records⟩

theorem carried_length (l : List Incident) : (carried l).length ≤ 4 := List.length_take_le _ _

/-! ## Acceptance and the frame -/

theorem arrived_preserves (h : Header) (s : State) : Preserves s (arrived h s) := by
  rw [arrived_eq]; exact mu_preserves _ s

theorem deliverRun_preserves (kind : FrameKind) (h : Header) (payload : List Byte) (s : State) :
    Preserves s (deliverRun kind h payload s) := by
  unfold deliverRun
  split
  case h_1 =>
    split
    · split
      · exact takePresence_preserves _ _ s
      · exact .refl s
    · exact .refl s
  case h_2 =>
    split
    · exact deliverClaim_preserves _ _ s
    · exact .refl s
  case h_3 =>
    split
    · exact deliverClaimSet_preserves _ _ s
    · exact .refl s
  case h_4 =>
    split
    · split
      · unfold takeResync
        split
        · exact oc_preserves _ s (Nat.le_refl _) (Nat.le_refl _)
        · exact .refl s
      · exact .refl s
    · exact .refl s
  case h_5 =>
    split
    · exact takeHazard_preserves _ _ _ _ s
    · exact .refl s
  case h_6 =>
    split
    · exact ((pd_preserves _ s).trans (changePhase_preserves _ _)).trans (phaseEvaluated_preserves _ _)
    · exact .refl s
  case h_7 =>
    split
    · split
      · unfold deliverOperator
        split
        · exact acknowledge_preserves _ s
        · exact abandon_preserves _ s
        · exact resumeZone_preserves s
      · exact .refl s
    · exact .refl s
  case h_8 =>
    split
    · split
      · exact takeQuery_preserves _ s
      · exact .refl s
    · exact .refl s
  case h_9 => exact .refl s

theorem deliverService_preserves (kind : FrameKind) (h : Header) (payload : List Byte) (s : State) :
    Preserves s (deliverService kind h payload s) := by
  unfold deliverService
  repeat' split
  all_goals first
    | exact .refl s
    | exact takeQuery_preserves _ s
    | exact deliverSetup_preserves _ s

theorem acceptFrame_preserves (kind : FrameKind) (h : Header) (payload : List Byte) (s : State) :
    Preserves s (acceptFrame kind h payload s) := by
  unfold acceptFrame
  split
  case h_1 =>
    split
    · exact .refl s
    · exact duplicateNumber_preserves s
  case h_6 =>
    refine .trans (count_preserves .accepted s) ?_
    unfold deliver
    split
    · refine .trans ?_ (arrived_preserves h _)
      split
      · exact .refl _
      · exact deliverRun_preserves _ _ _ _
    · split
      · exact deliverService_preserves _ _ _ _
      · exact .refl _
  all_goals exact count_preserves _ s

theorem ignoredEnds_preserves (s : State) : Preserves s (ignoredEnds s) := by
  unfold ignoredEnds
  split
  · exact mediumEnds_preserves s
  · exact .refl s

theorem receiveFrame_preserves (kind : FrameKind) (h : Header) (payload : List Byte) (s : State) :
    Preserves s (receiveFrame kind h payload s) := by
  unfold receiveFrame
  split
  · exact (mediumEnds_preserves s).trans ((acceptFrame_preserves _ _ _ _).trans (afterFrame_preserves _ _))
  · exact ignoredEnds_preserves s

theorem receiveQuery_preserves (h : Header) (payload : List Byte) (s : State) : Preserves s (receiveQuery h payload s) := by
  have used : ∀ t : State, Preserves t { t with free := t.free + 1 } := fun t => (free_internal _ t).preserves
  unfold receiveQuery
  split
  · dsimp only
    split
    · exact ((mediumEnds_preserves s).trans ((frameEnds_preserves _ _).trans
        ((acceptFrame_preserves _ _ _ _).trans (endEvent_preserves _ _)))).trans (used _)
    · exact (used s).trans (receiveFrame_preserves _ _ _ _)
  · exact receiveFrame_preserves _ _ _ _

/-! ## Starts -/

theorem start_pending (stored : Memory) (mx : Bool) (c : List CarriedIncident) (o : Bool) (r : Nat) (x : Straps) (s : State) :
    (start stored mx c o r x s).pending = s.pending := by
  unfold start load; dsimp only; split <;> rfl
theorem start_images (stored : Memory) (mx : Bool) (c : List CarriedIncident) (o : Bool) (r : Nat) (x : Straps) (s : State) (h : stored.wf = true) :
    (start stored mx c o r x s).ImagesWf := by
  unfold start load; dsimp only
  split <;> exact ⟨h, h, fun p e => by cases e⟩
theorem start_bounded (stored : Memory) (mx : Bool) (c : List CarriedIncident) (o : Bool) (r : Nat) (x : Straps) (s : State) (h : c.length ≤ 4) (hr : r ≤ 255) :
    (start stored mx c o r x s).Bounded := by
  have cs : ∀ t : State, t.rp = ReportUnit.reset r → ∀ d, t.counter d ≤ counterMax d := by
    intro t e d
    unfold State.counter
    rw [e]
    cases d <;> first | exact Nat.zero_le _ | exact hr
  have em : ∀ t : State, t.ct = Vector.replicate 12 OwnerEntry.empty → ∀ k : Station, k ≠ t.me → t.ct[k].records.length ≤ 6 := by
    intro t e k _
    rw [e]; show (Vector.replicate 12 OwnerEntry.empty)[k.val].records.length ≤ 6
    rw [Vector.getElem_replicate]; exact Nat.zero_le _
  have first : 1 ≤ 1 ∧ 1 ≤ 255 := by decide
  unfold start load; dsimp only
  split
  · exact ⟨Nat.zero_le _, Nat.zero_le _, Nat.zero_le _, first, Nat.zero_le _, h, cs _ rfl, em _ rfl⟩
  · exact ⟨Nat.zero_le _, Nat.zero_le _, Nat.zero_le _, first, Nat.zero_le _, h, cs _ rfl, em _ rfl⟩

theorem abandon_stored (s : State) (w : s.ImagesWf) : (abandonCommit s).cs.stored.wf = true := (abandonCommit_imagesWf s w).1

theorem restartTaken_preserves (x : Straps) (s : State) : Preserves s (restartTaken x s) := by
  have ab := (abandonCommit_preserves s).trans (count_preserves .restarts _)
  unfold restartTaken
  dsimp only
  split
  · exact ⟨(start_pending ..).trans ab.pending, fun w => start_images _ _ _ _ _ _ _ (ab.images w).1,
      fun b => start_bounded _ _ _ _ _ _ _ (carried_length _) ((ab.bounds b).counters .restarts)⟩
  · exact ⟨(start_pending ..).trans ab.pending, fun w => start_images _ _ _ _ _ _ _ (ab.images w).1,
      fun b => start_bounded _ _ _ _ _ _ _ b.carried ((ab.bounds b).counters .restarts)⟩

theorem restoreOne_preserves (s : State) (c : CarriedIncident) : Preserves s (restoreOne s c) := by
  unfold restoreOne
  split
  · rename_i h
    have cr : Preserves s (createRecord c.fault (.failed c.reason) c.recurrences true s) :=
      (createRecord_internal _ _ _ _ (.refl s) (fun b => by have := b.incidents; unfold Config.maxIncidents at h; omega)).preserves
    dsimp only
    split
    · exact cr.trans (queueNotice_preserves _ _)
    · exact cr
  · exact .refl s

theorem restoreCarried_preserves (s : State) : Preserves s (restoreCarried s) := by
  have f : ∀ (l : List CarriedIncident) (s : State), Preserves s (l.foldl restoreOne s) := by
    intro l; induction l with
    | nil => exact fun s => .refl s
    | cons c l ih => exact fun s => (restoreOne_preserves s c).trans (ih _)
  unfold restoreCarried
  dsimp only
  have g := f s.cs.carryIncidents s
  generalize s.cs.carryIncidents.foldl restoreOne s = t at g
  have k : Preserves t { t with cs := { t.cs with carryIncidents := [] } } := by
    refine ⟨rfl, fun w => w, fun b => ?_⟩
    exact ⟨b.claims, b.waiting, b.incidents, b.nextId, b.hazards, Nat.zero_le _, b.counters, b.records⟩
  exact g.trans k

theorem settleEnds_preserves (s : State) : Preserves s (settleEnds s) := by
  have ro : ∀ u, Preserves u (receiverOn u) := fun u => lc_preserves _ u
  have bl : ∀ u, Preserves u (becomeListening u) := fun u => mu_preserves _ u
  unfold settleEnds
  dsimp only
  refine .trans ?_ (ro _)
  refine .trans ?_ (bl _)
  unfold enterService
  dsimp only
  have r := (restoreCarried_preserves s).trans (reviewHolds_internal _).preserves
  generalize reviewHolds (restoreCarried s) = w at *
  have q : Preserves s (runDetectors { w with cs := { w.cs with stage := .entered } }) := by
    refine .trans ?_ (runDetectors_internal _).preserves
    exact r.trans (.of_store _ id rfl rfl)
  generalize runDetectors { w with cs := { w.cs with stage := .entered } } = u at *
  have v : Preserves s { u with cs := { u.cs with carryOutOfService := false } } := q.trans (.of_store _ id rfl rfl)
  split
  · exact v.trans ((changeZoneMode_preserves _ _).trans (queueNotice_preserves _ _))
  · exact v.trans (changeZoneMode_preserves _ _)

theorem brownOut_preserves (s : State) : Preserves s (brownOut s) := by
  unfold brownOut outputsOff
  dsimp only
  have a := (stopOwnFrame_preserves s).trans (abandonCommit_preserves _)
  generalize abandonCommit (stopOwnFrame s) = u at *
  exact a.trans (.of_same rfl rfl rfl rfl rfl rfl rfl rfl)


end Sys2Proof.Machine
end

