-- ==== Sys2Proof/Laws/Safe.lean ====
section
/-! SUPPORT. After the end of any event the outputs and the shares are safe off the link and out of service (R40, R107). -/

namespace Sys2Proof.Machine

/-- No own claim has a usable amount. -/
def NoShares (s : State) : Prop := ∀ c ∈ s.oc.claims, c.usable = 0

/-- `t` has the zone mode, the link state and the resolved levels of `s`, and no share where `s` has none. -/
structure Still (s t : State) : Prop where
  zone : t.zoneMode = s.zoneMode
  link : t.mu.linkState = s.mu.linkState
  outputs : t.lu.outputs = s.lu.outputs
  shares : NoShares s → NoShares t

variable {s t u : State}

theorem Still.refl (s : State) : Still s s := ⟨rfl, rfl, rfl, id⟩
theorem Still.trans (h : Still s t) (k : Still t u) : Still s u :=
  ⟨k.zone.trans h.zone, k.link.trans h.link, k.outputs.trans h.outputs, fun x => k.shares (h.shares x)⟩

theorem Still.safe (h : Still s t) (x : s.SafeOff) : t.SafeOff where
  outputs := fun c f hf => by
    rw [h.zone, h.link] at c
    simp only [State.output, h.outputs]
    exact x.outputs c f hf
  shares := fun c => h.shares (x.shares (h.link ▸ c))

/-- An update that leaves the own claims as they are. -/
theorem Still.of_same (hz : t.zoneMode = s.zoneMode) (hl : t.mu.linkState = s.mu.linkState) (ho : t.lu.outputs = s.lu.outputs)
    (hc : t.oc.claims = s.oc.claims) : Still s t := ⟨hz, hl, ho, fun n => by unfold NoShares; rw [hc]; exact n⟩

theorem Claimed.still (h : Claimed s t) (n : NoShares s → NoShares t) : Still s t := ⟨h.zoneMode, by rw [h.mu], by rw [h.lu], n⟩

/-! ## Requests -/

theorem insertOwn_noShares (c : OwnClaim) (hc : c.usable = 0) : ∀ l : List OwnClaim, (∀ d ∈ l, d.usable = 0) →
    ∀ d ∈ insertOwn c l, d.usable = 0
  | [], _, d, hd => by
    simp only [insertOwn, List.mem_singleton] at hd
    exact hd ▸ hc
  | e :: rest, h, d, hd => by
    unfold insertOwn at hd
    split at hd
    · rcases List.mem_cons.1 hd with rfl | hd
      · exact hc
      · exact h d hd
    · rcases List.mem_cons.1 hd with rfl | hd
      · exact h d (List.mem_cons_self ..)
      · exact insertOwn_noShares c hc rest (fun x hx => h x (List.mem_cons_of_mem _ hx)) d hd

theorem createClaim_noShares (r : Request) (t : Tag) (s : State) (h : NoShares s) : NoShares (createClaim r t s) :=
  insertOwn_noShares (newClaim r t) rfl s.oc.claims h

theorem replaceClaim_noShares (c : OwnClaim) (s : State) (hc : c.usable = 0) (h : NoShares s) : NoShares (replaceClaim c s) := by
  intro d hd
  simp only [replaceClaim, List.mem_map] at hd
  obtain ⟨e, he, rfl⟩ := hd
  split
  · exact hc
  · exact h e he

theorem amendClaim_noShares (old new : OwnClaim) (s : State) (hc : new.usable = 0) (h : NoShares s) : NoShares (amendClaim old new s) := by
  unfold amendClaim
  split
  · exact replaceClaim_noShares new s hc h
  · exact replaceClaim_noShares { new with sent := .unsent } s hc h

theorem ownClaim_mem (r : Resource) (p : Purpose) (c : OwnClaim) (h : s.ownClaim r p = some c) : c ∈ s.oc.claims :=
  List.mem_of_find?_eq_some h

theorem requestNew_noShares (r : Request) (s : State) (h : NoShares s) : NoShares (requestNew r s) := by
  unfold requestNew
  split
  · exact h
  · split
    · split
      · exact createClaim_noShares r _ s h
      · exact h
    · unfold waitForRoom; dsimp only; split <;> exact h

theorem placeRequest_noShares (r : Request) (s : State) (h : NoShares s) : NoShares (placeRequest r s) := by
  unfold placeRequest
  split
  · exact requestNew_noShares r s h
  · rename_i c e
    have hc := h c (ownClaim_mem _ _ c e)
    split
    · exact replaceClaim_noShares _ s hc h
    · exact amendClaim_noShares _ _ s hc h

theorem takeWaiting_noShares : ∀ (n : Nat) (s : State), NoShares s → NoShares (takeWaiting n s)
  | 0, _, h => h
  | n + 1, s, h => by
    unfold takeWaiting
    split
    · exact takeWaiting_noShares n _ (placeRequest_noShares _ _ h)
    · exact h

theorem placeFreed_still (s : State) : Still s (placeFreed s) := (placeFreed_claimed s).still (takeWaiting_noShares _ s)

theorem removeClaim_noShares (c : OwnClaim) (s : State) (h : NoShares s) : NoShares (removeClaim c s) := by
  unfold removeClaim
  refine (placeFreed_still _).shares ?_
  intro d hd
  exact h d (List.mem_filter.1 hd).1

theorem withdraw_noShares (r : Resource) (p : Purpose) (s : State) (h : NoShares s) : NoShares (withdraw r p s) := by
  unfold withdraw
  split
  · exact removeClaim_noShares _ s h
  · exact h

theorem request_still (r : Request) (s : State) : Still s (request r s) := by
  refine (request_claimed r s).still fun h => ?_
  unfold request
  dsimp only
  split
  · exact withdraw_noShares _ _ s h
  · split
    · exact placeRequest_noShares _ s h
    · exact h

theorem withdraw_still (r : Resource) (p : Purpose) (s : State) : Still s (withdraw r p s) :=
  (withdraw_claimed r p s).still (withdraw_noShares r p s)

theorem setBoost_still (r : Resource) (b : Bool) (s : State) : Still s (setBoost r b s) := by
  refine (setBoost_claimed r b s).still fun h => ?_
  unfold setBoost
  split
  · rename_i c e
    exact amendClaim_noShares _ _ s (h c (ownClaim_mem _ _ c e)) h
  · exact h

/-! ## What follows the resolution of the outputs within a pass -/

theorem rs_still (rs : Sequencer) (s : State) : Still s { s with rs := rs } := ⟨rfl, rfl, rfl, id⟩
theorem fd_still (fd : FaultDetector) (s : State) : Still s { s with fd := fd } := ⟨rfl, rfl, rfl, id⟩
theorem count_still (c : Counter) (s : State) : Still s (count c s) := ⟨rfl, rfl, rfl, id⟩

theorem pushHazard_still (e : HazardEntry) (s : State) : Still s (pushHazard e s) := by
  unfold pushHazard; split <;> exact ⟨rfl, rfl, rfl, id⟩

theorem queueNotice_still (code : HazardCode) (s : State) : Still s (queueNotice code s) :=
  .trans (t := { s with hz := { s.hz with serial := s.hz.serial + 1, stopMark := stopMarkAfter code s.hz.stopMark } })
    ⟨rfl, rfl, rfl, id⟩ (pushHazard_still _ _)

theorem submitRecord_still (f : FaultId) (s : State) : Still s (submitRecord f s).1 := by
  unfold submitRecord
  split
  · exact rs_still _ s
  · split
    · exact ⟨rfl, rfl, rfl, id⟩
    · split
      · exact ⟨rfl, rfl, rfl, id⟩
      · split
        · exact .refl s
        · exact fd_still _ s

theorem latch_still (f : FaultId) (s : State) : Still s (latch f s) := by
  unfold latch
  split
  · exact .refl s
  · exact fd_still _ s

theorem submit_still (f : FaultId) (s : State) : Still s (submit f s) := by
  unfold submit afterSubmit
  refine .trans (submitRecord_still f s) ?_
  split
  · split
    · exact (fd_still _ _).trans (latch_still f _)
    · refine .trans ?_ (latch_still f _)
      split
      · exact queueNotice_still _ _
      · exact .refl _
  · exact latch_still f _
  · split
    · exact queueNotice_still _ _
    · exact .refl _
  · exact .refl _

theorem resubmitUnrecorded_still (s : State) : Still s (resubmitUnrecorded s) := by
  unfold resubmitUnrecorded
  generalize s.fd.unrecorded = l
  induction l generalizing s with
  | nil => exact .refl s
  | cons f l ih => exact (submit_still f s).trans (ih _)

theorem startStep_still (id : Nat) (step : Step) (s : State) : Still s (startStep id step s) := by
  unfold startStep requestStepClaims
  refine .trans (t := stopStepTimers (updateRecord id (fun r => { r with state := .active step }) s)) ⟨rfl, rfl, rfl, fun h => h⟩ ?_
  split
  · exact request_still _ _
  · split
    · exact setBoost_still _ _ _
    · exact .refl _

theorem endStep_still (id : Nat) (step : Step) (s : State) : Still s (endStep id step s) := by
  unfold endStep
  dsimp only
  refine .trans (t := stopStepTimers s) (rs_still _ s) ?_
  split
  · exact withdraw_still _ _ _
  · split
    · exact setBoost_still _ _ _
    · exact .refl _

theorem failRecord_still (id : Nat) (step : Step) (reason : FailureReason) (s : State) : Still s (failRecord id step reason s) :=
  .trans (t := updateRecord id (fun r => { r with state := .failed reason }) s) (rs_still _ s) (endStep_still _ _ _)

theorem failAttempt_still (id : Nat) (f : FaultId) (step : Step) (c : AttemptCause) (s : State) :
    Still s (failAttempt id f step c s).1 := by
  have cause : Still s { s with rs := { s.rs with lastCause := some c } } := rs_still _ s
  unfold failAttempt
  dsimp only
  split
  · exact cause
  · split
    · refine cause.trans ((endStep_still id step _).trans (.trans ?_ (startStep_still _ _ _)))
      exact rs_still _ _
    · exact cause.trans (failRecord_still _ _ _ _)

theorem clearRecord_still (id : Nat) (f : FaultId) (step : Step) (o : RecoveryOutcome) (s : State) :
    Still s (clearRecord id f step o s) := by
  unfold clearRecord
  dsimp only
  refine .trans ?_ (resubmitUnrecorded_still _)
  have e : Still s (endStep id step (updateRecord id (fun r => { r with state := .cleared o }) s)) :=
    .trans (t := updateRecord id (fun r => { r with state := .cleared o }) s) (rs_still _ s) (endStep_still _ _ _)
  split
  · exact e.trans (queueNotice_still _ _)
  · exact e

theorem markOut_still (e : Element) (s : State) : Still s (markOut e s) := ⟨rfl, rfl, rfl, id⟩

theorem carryOut_still (id : Nat) (f : FaultId) (step : Step) (v : Verdict) (s : State) : Still s (carryOut id f step v s).1 := by
  unfold carryOut
  split
  · exact .refl s
  · unfold completeStep
    split
    · exact (endStep_still _ _ s).trans (startStep_still _ _ _)
    · exact clearRecord_still _ _ _ _ s
  · exact failAttempt_still _ _ _ _ s
  · exact failRecord_still _ _ _ s
  · exact (markOut_still _ s).trans (failRecord_still _ _ _ _)
  · exact (markOut_still _ s).trans (clearRecord_still _ _ _ _ _)
  · exact clearRecord_still _ _ _ _ s

theorem judgeStep_still (tr : Trigger) (s : State) : Still s (judgeStep tr s).1 := by
  unfold judgeStep
  split
  · exact .refl s
  · refine .trans ?_ (carryOut_still _ _ _ _ _)
    unfold countFree
    split
    · exact ⟨rfl, rfl, rfl, id⟩
    · exact .refl s

theorem stepTimers_still (s : State) : Still s (stepTimers s) := by
  unfold stepTimers
  split
  · exact .refl s
  · dsimp only
    split <;> exact rs_still _ s

theorem watchNotHeard_still (s : State) : Still s (watchNotHeard s) := ⟨rfl, rfl, rfl, id⟩

theorem evalTimed_still (f : FaultId) (s : State) : Still s (evalTimed f s) := by
  unfold evalTimed
  dsimp only
  split
  · exact .refl s
  · split
    · split
      · exact fd_still _ s
      · split
        · exact submit_still f s
        · exact .refl s
    · exact fd_still _ s
  · split
    · exact .refl s
    · exact fd_still _ s

theorem evalAtOnce_still (f : FaultId) (s : State) : Still s (evalAtOnce f s) := by
  unfold evalAtOnce
  split
  · exact .refl s
  · split
    · exact submit_still f s
    · exact .refl s
  · split
    · exact fd_still _ s
    · exact .refl s

theorem evalDetector_still (f : FaultId) (s : State) : Still s (evalDetector f s) := by
  unfold evalDetector
  split
  · exact evalAtOnce_still _ s
  · exact evalAtOnce_still _ s
  · exact .refl s
  · exact .refl s
  · exact .refl s
  · exact evalTimed_still _ s

theorem evalOutputs_still (before : Vector Output 11) (s : State) : Still s (evalOutputs before s) := by
  have one : ∀ (p : Prop) [Decidable p] (f : FaultId) (t : State), Still s t → Still s (if p then evalDetector f t else t) := by
    intro p _ f t h
    split
    · exact h.trans (evalDetector_still f t)
    · exact h
  unfold evalOutputs
  dsimp only
  exact one _ _ _ (one _ _ _ (one _ _ _ (one _ _ _ (.refl s))))

/-! ## The resolution itself -/

theorem resolve_off (s : State) (h : s.zoneMode ≠ .inService ∨ s.mu.linkState ≠ .joined) (f : OutputFunction) (hf : f ≠ .alert) :
    s.resolve f = { active := false, source := .forced } := by
  have forced : ∀ g, s.forces g = true := by
    intro g
    unfold State.forces
    rcases h with h | h <;> simp [h]
  unfold State.resolve
  split
  · exact absurd rfl hf
  · rw [if_pos]; simp [State.elementForced, forced]
  · rw [if_pos (forced f)]

theorem resolveOutputs_output (s : State) (f : OutputFunction) : (resolveOutputs s).output f = s.resolve f := by
  cases f
  case heat e => match e with
    | 0 => rfl
    | 1 => rfl
    | 2 => rfl
  all_goals rfl

theorem usableOf_off (s : State) (c : OwnClaim) (h : s.mu.linkState ≠ .joined) : usableOf s c = 0 := by
  unfold usableOf
  rw [if_neg]
  exact fun x => h x.1

theorem refreshClaims_noShares (s : State) (h : s.mu.linkState ≠ .joined) : NoShares (refreshClaims s) := by
  intro c hc
  simp only [refreshClaims, List.mem_map] at hc
  obtain ⟨d, -, rfl⟩ := hc
  exact usableOf_off s _ h

/-- Outputs resolved on a state whose shares are safe. -/
theorem resolveOutputs_safe (s : State) (h : s.mu.linkState ≠ .joined → NoShares s) : (resolveOutputs s).SafeOff where
  outputs := fun c f hf => by
    rw [resolveOutputs_output, resolve_off s c f hf]
  shares := h

theorem handOutputs_safe (s : State) (h : s.mu.linkState ≠ .joined → NoShares s) : (handOutputs s).SafeOff :=
  (evalOutputs_still _ _).safe (resolveOutputs_safe s h)

theorem claimsPass_safe (s : State) : (claimsPass s).SafeOff := by
  unfold claimsPass
  refine ((watchNotHeard_still _).trans (stepTimers_still _)).safe (handOutputs_safe _ fun h => ?_)
  exact refreshClaims_noShares _ h

theorem pass_safe (tr : Trigger) (s : State) : (pass tr s).1.SafeOff := by
  unfold pass
  dsimp only
  exact (judgeStep_still _ _).safe (claimsPass_safe _)

theorem settle_safe : ∀ (n : Nat) (tr : Trigger) (s : State), (settle (n + 1) tr s).SafeOff
  | 0, tr, s => by
    unfold settle
    dsimp only
    split
    · rename_i h; rw [← h.1]; exact pass_safe tr s
    · exact pass_safe tr s
  | n + 1, tr, s => by
    unfold settle
    dsimp only
    split
    · rename_i h; rw [← h.1]; exact pass_safe tr s
    · exact settle_safe n _ _

/-- Whatever the event did, its end leaves the outputs and the shares safe. -/
theorem endEvent_safe (tr : Trigger) (s : State) : (endEvent tr s).SafeOff := settle_safe 255 tr s

theorem Opened.safe (o : Opened s t) (x : s.SafeOff) : t.SafeOff :=
  (Still.of_same o.zoneMode (by rw [o.mu]) (by rw [o.lu]) o.claims).safe x

theorem setPosition_safe (p : Nat) (s : State) (x : s.SafeOff) : (setPosition p s).SafeOff := by
  rw [setPosition_eq]
  exact (Still.of_same rfl rfl rfl rfl : Still s { s with lc := (setPosition p s).lc }).safe x

theorem frameEnds_safe (sender : Nat) (s : State) (x : s.SafeOff) : (frameEnds sender s).SafeOff :=
  (beginOpening_opened _).safe (setPosition_safe _ s x)

theorem afterFrame_safe (h : Header) (s : State) : (afterFrame h s).SafeOff := frameEnds_safe _ _ (endEvent_safe _ _)

/-! ## Operations that do not end an event -/

theorem start_safe (stored : Memory) (mx : Bool) (c : List CarriedIncident) (o : Bool) (r : Nat) (x : Straps) (s : State) :
    (start stored mx c o r x s).SafeOff := by
  unfold start
  refine resolveOutputs_safe _ fun _ => ?_
  unfold load; dsimp only
  split <;> exact fun d hd => by cases hd

theorem receiveFrame_safe (k : FrameKind) (h : Header) (p : List Byte) (s : State) (x : s.SafeOff) : (receiveFrame k h p s).SafeOff := by
  unfold receiveFrame
  split
  · exact afterFrame_safe _ _
  · unfold ignoredEnds
    split
    · exact (Still.of_same rfl rfl rfl rfl : Still s (mediumEnds s)).safe x
    · exact x

theorem receiveQuery_safe (h : Header) (p : List Byte) (s : State) (x : s.SafeOff) : (receiveQuery h p s).SafeOff := by
  have used : ∀ t : State, t.SafeOff → ({ t with free := t.free + 1 } : State).SafeOff := fun t y =>
    (Still.of_same rfl rfl rfl rfl : Still t { t with free := t.free + 1 }).safe y
  unfold receiveQuery
  split
  · dsimp only
    split
    · exact used _ (endEvent_safe _ _)
    · exact receiveFrame_safe _ _ _ _ (used s x)
  · exact receiveFrame_safe _ _ _ _ x

theorem takeBack_still (c : OwnContent) (s : State) : Still s (takeBack c s) := by
  have ret : ∀ s : State, Still s (returnChanges s) := by
    intro s
    unfold returnChanges
    dsimp only
    refine .trans ?_ (placeFreed_still _)
    exact Still.of_same rfl rfl rfl rfl
  unfold takeBack
  split
  case h_1 => exact ret s
  case h_2 => exact ret s
  case h_3 => exact Still.of_same rfl rfl rfl rfl
  case h_4 => unfold returnQuestion; split <;> exact Still.of_same rfl rfl rfl rfl
  case h_5 => unfold returnSetupReply; split <;> exact Still.of_same rfl rfl rfl rfl
  all_goals exact .refl s

theorem brownOut_safe (s : State) (x : s.SafeOff) : (brownOut s).SafeOff := by
  have a : Still s (abandonCommit (stopOwnFrame s)) := by
    refine .trans (t := stopOwnFrame s) ?_ ?_
    · unfold stopOwnFrame
      split
      · exact (takeBack_still _ s).trans (Still.of_same rfl rfl rfl rfl)
      · exact .refl s
    · unfold abandonCommit
      split <;> (try split) <;> exact Still.of_same rfl rfl rfl rfl
  have y := a.safe x
  unfold brownOut outputsOff
  generalize abandonCommit (stopOwnFrame s) = u at *
  exact ⟨fun _ f hf => by
    show (LineUnit.resetOutputs[outputPlace f]).active = false
    cases f
    case heat e => match e with
      | 0 => rfl
      | 1 => rfl
      | 2 => rfl
    all_goals rfl, y.shares⟩


end Sys2Proof.Machine
end

