-- ==== Sys2Proof/Laws/Validity.lean ====
section
/-! SUPPORT. The validity check test by test: what each of its conditions says of the bytes of an image (R198, R199, R200). -/

namespace Sys2Proof.Machine

/-- The number of R199, bit by bit: the strap where STRAP_SELECT has the bit, NUMBER_BASE otherwise. -/
theorem serviceNumber_bit (m : Memory) (straps : BitVec 4) (i : Nat) (hi : i < 4) :
    (serviceNumber m straps).getLsbD i = if (m.read 64).getLsbD i = true then straps.getLsbD i else (m.read 64).getLsbD (4 + i) := by
  unfold serviceNumber Memory.strapSelect Memory.numberBase
  cases h : (m.read 64).getLsbD i <;> simp [hi, h]

theorem between_iff (low high n : Nat) : between low high n = true ↔ low ≤ n ∧ n ≤ high := by
  unfold between; rw [Bool.and_eq_true, decide_eq_true_eq, decide_eq_true_eq]

theorem betweenInt_iff (low high n : Int) : betweenInt low high n = true ↔ low ≤ n ∧ n ≤ high := by
  unfold betweenInt; rw [Bool.and_eq_true, decide_eq_true_eq, decide_eq_true_eq]

theorem ranks_range (m : Memory) :
    allStations.all (fun k => between 0 11 (m.rank k)) = true ↔ ∀ k : Station, m.byteAt (17 + k.val) ≤ 11 := by
  have all : ∀ k : Station, k ∈ allStations := by decide
  simp only [List.all_eq_true, between_iff, Nat.zero_le, true_and]
  exact ⟨fun h k => h k (all k), fun h k _ => h k⟩

theorem actions_range (m : Memory) :
    ([0, 1, 2, 3, 4, 5, 6, 7] : List Nat).all (fun n => m.byteAt (99 + 4 * n) / 16 % 4 ≤ 2) = true ↔
      ∀ n < 8, m.byteAt (99 + 4 * n) / 16 % 4 ≤ 2 := by
  simp only [List.all_eq_true, decide_eq_true_eq]
  refine ⟨fun h i hi => h i ?_, fun h i hi => h i ?_⟩
  · simp only [List.mem_cons, List.not_mem_nil, or_false]; omega
  · simp only [List.mem_cons, List.not_mem_nil, or_false] at hi; omega

theorem mem_elementsOf (m : Memory) (e : Element) : e ∈ elementsOf m ↔ e.val < m.byteAt 148 := by
  have all : ∀ e : Element, e ∈ allElements := by decide
  unfold elementsOf
  rw [List.mem_filter, decide_eq_true_eq]
  exact and_iff_right (all e)

theorem ratings_range (m : Memory) :
    (elementsOf m).all (fun e => between 1 40 (m.rating e)) = true ↔
      ∀ e : Element, e.val < m.byteAt 148 → 1 ≤ m.byteAt (149 + e.val) ∧ m.byteAt (149 + e.val) ≤ 40 := by
  simp only [List.all_eq_true, between_iff, mem_elementsOf, Memory.rating]

theorem rangesHold_iff {n : Nat} (m : Memory) : rangesHold m = false ↔ ImageFails m n .fieldRange := by
  rw [← Bool.not_eq_true]
  refine not_congr ?_
  unfold rangesHold itemRanges
  rw [Bool.and_eq_true]
  simp only [List.all_cons (f := id), List.all_nil, id, Bool.and_eq_true, Bool.and_true, ranks_range, actions_range, ratings_range,
    List.mem_cons, List.not_mem_nil, or_false, forall_eq_or_imp, forall_eq, Bool.or_eq_true, beq_iff_eq, between_iff, betweenInt_iff,
    Memory.wheelSize, Memory.presencePeriod, Memory.panel, Memory.capacity, Memory.role, Memory.hopLimit,
    Memory.setpoint, Memory.tempMin, Memory.hysteresis, Memory.dpLimit, Memory.elementCount, Memory.iOnMin, Memory.iOffMax,
    Memory.attempts, Memory.lockByte]
  constructor
  · rintro ⟨⟨a1, a2, a3, a4, a5, a6, a7, a8, a9, a10, a11, a12, a13, a14, a15, a16, a17⟩,
      b1, b2, b3, b4, b5, b6, b7, b8, b9, b10, b11, b12, b13, b14, b15, b16⟩
    refine ⟨?_, a11, a13, b7, b16⟩
    clear a11 a13 b7 b16
    omega
  · rintro ⟨h1, h2, h3, h4, h5⟩
    refine ⟨⟨?_, ?_, ?_, ?_, ?_, ?_, ?_, ?_, ?_, ?_, h2, ?_, h3, ?_, ?_, ?_, ?_⟩, ?_, ?_, ?_, ?_, ?_, ?_, h4, ?_, ?_, ?_, ?_, ?_, ?_, ?_, ?_, h5⟩
    all_goals (clear h2 h3 h4 h5; omega)

theorem numberHolds_iff (m : Memory) (number : BitVec 4) : numberHolds m number = false ↔ ImageFails m number.toNat .stationNumber := by
  rw [← Bool.not_eq_true]
  unfold numberHolds ImageFails Memory.wheelSize Memory.panel
  simp only [Bool.and_eq_true, decide_eq_true_eq, bne_iff_ne, ne_eq]
  omega

theorem ranksHold_iff {n : Nat} (m : Memory) : ranksHold m = false ↔ ImageFails m n .ranks := by
  rw [← Bool.not_eq_true]
  unfold ranksHold ImageFails Memory.rank
  have all : ∀ k : Station, k ∈ allStations := by decide
  simp only [List.all_eq_true, Bool.or_eq_true, beq_iff_eq, bne_iff_ne, ne_eq]
  constructor
  · intro h
    refine Classical.byContradiction fun c => ?_
    refine h fun j _ k _ => ?_
    by_cases e : j = k
    · exact .inl e
    · exact .inr fun q => c ⟨j, k, e, q⟩
  · rintro ⟨j, k, e, q⟩ h
    exact (h j (all j) k (all k)).elim e fun x => x q

theorem lineCount_eq (m : Memory) (f : LineFunction) (code : Nat) (h : ∀ c, c < 16 → (lineFunctionOfCode c = f ↔ c = code)) :
    lineCount m f = linesWithCode m code := by
  unfold lineCount linesOf linesWithCode
  congr 1
  refine List.filter_congr fun i _ => ?_
  rw [Bool.eq_iff_iff, beq_iff_eq, beq_iff_eq]
  have : m.byteAt (67 + i.val) < 256 := (m.read (67 + i.val)).isLt
  exact h _ (by omega)

theorem le_oneIf {p : Prop} [Decidable p] (n : Nat) : n ≤ (if p then 1 else 0) ↔ n ≤ 1 ∧ (¬ p → n = 0) := by
  split <;> simp_all

theorem lineCountsHold_iff {n : Nat} (m : Memory) : lineCountsHold m = false ↔ ImageFails m n .lineCounts := by
  rw [← Bool.not_eq_true]
  have c : ∀ f code, (∀ c, c < 16 → (lineFunctionOfCode c = f ↔ c = code)) → lineCount m f = linesWithCode m code := lineCount_eq m
  have le : lineCount m .unused ≤ 16 := List.length_filter_le _ _
  unfold lineCountsHold allLineFunctions ImageFails
  simp only [List.all_cons, List.all_nil, Bool.and_true, Bool.and_eq_true, decide_eq_true_eq]
  simp only [lineLimit]
  rw [c .leakProbe 1 (by decide), c .levelLow 2 (by decide), c .levelNormal 3 (by decide), c .levelHigh 4 (by decide),
    c .fillValve 5 (by decide), c .drainValve 6 (by decide), c .pumpRun 7 (by decide), c .pumpReverse 8 (by decide), c .heat1 9 (by decide),
    c .heat2 10 (by decide), c .heat3 11 (by decide), c .heatIsolate 12 (by decide), c .cascadeGate 13 (by decide),
    c .conveyorEnable 14 (by decide), c .alert 15 (by decide)]
  simp only [le_oneIf]
  simp only [Memory.elementCount]
  constructor
  · intro h
    refine Classical.byContradiction fun g => h ?_
    simp only [not_or, not_exists, not_and] at g
    obtain ⟨g1, g2, g3, g4⟩ := g
    have k := fun code a b => g2 code a b
    have := k 2 (by omega) (by omega); have := k 3 (by omega) (by omega); have := k 4 (by omega) (by omega)
    have := k 5 (by omega) (by omega); have := k 6 (by omega) (by omega); have := k 7 (by omega) (by omega)
    have := k 8 (by omega) (by omega); have := k 9 (by omega) (by omega); have := k 10 (by omega) (by omega)
    have := k 11 (by omega) (by omega); have := k 12 (by omega) (by omega); have := k 13 (by omega) (by omega)
    have := k 14 (by omega) (by omega); have := k 15 (by omega) (by omega)
    clear k g2 h
    omega
  · intro g h
    rcases g with g | ⟨code, a, b, g⟩ | g | g
    · omega
    · have : code = 2 ∨ code = 3 ∨ code = 4 ∨ code = 5 ∨ code = 6 ∨ code = 7 ∨ code = 8 ∨ code = 9 ∨ code = 10 ∨ code = 11 ∨ code = 12 ∨
        code = 13 ∨ code = 14 ∨ code = 15 := by omega
      rcases this with e | e | e | e | e | e | e | e | e | e | e | e | e | e <;> subst e <;> omega
    · omega
    · omega

theorem heaterLinesHold_iff {n : Nat} (m : Memory) : heaterLinesHold m = false ↔ ImageFails m n .heaterLines := by
  rw [← Bool.not_eq_true]
  unfold heaterLinesHold ImageFails
  rw [lineCount_eq m .heat1 9 (by decide), lineCount_eq m .heat2 10 (by decide), lineCount_eq m .heat3 11 (by decide)]
  simp only [Bool.and_eq_true, beq_iff_eq, and_assoc]
  rfl

theorem ratings_iff {n : Nat} (m : Memory) : (elementsOf m).any (fun e => m.capacity .heat < m.rating e) = true ↔ ImageFails m n .rating := by
  unfold ImageFails
  simp only [List.any_eq_true, mem_elementsOf, decide_eq_true_eq]
  rfl

/-- The check value test (R200, code 1). -/
theorem checkPasses_iff {n : Nat} (m : Memory) : checkPasses m = true ↔ ¬ ImageFails m n .checkValue := by
  unfold checkPasses
  rw [beq_iff_eq]
  exact Decidable.not_not.symm

theorem loadCheck_mixed (m : Memory) (straps : BitVec 4) : loadCheck true m straps = .checkValue := rfl

theorem loadCheck_whole (m : Memory) (straps : BitVec 4) :
    loadCheck false m straps = if checkPasses m then validity m straps else .checkValue := rfl

theorem loadCode_inj {q r : LoadResult} (h : loadCode q = loadCode r) : q = r := by
  cases q <;> cases r <;> first | rfl | exact absurd h (by decide)

/-- A reason that is the first among those that hold, in the order of the codes, is no other. -/
theorem firstReason_cases {fails : LoadResult → Prop} {v : LoadResult} (hv : 2 ≤ loadCode v) (holds : fails v)
    (before : ∀ q, 2 ≤ loadCode q → loadCode q < loadCode v → ¬ fails q) :
    (∀ r, 2 ≤ loadCode r → (v = r ↔ fails r ∧ ∀ q, 2 ≤ loadCode q → loadCode q < loadCode r → ¬ fails q)) ∧
    (v = .ok ↔ ∀ q, 2 ≤ loadCode q → ¬ fails q) ∧ v ≠ .checkValue := by
  refine ⟨fun r hr => ⟨fun e => e ▸ ⟨holds, before⟩, fun e => loadCode_inj ?_⟩, ⟨fun e => ?_, fun e => absurd holds (e v hv)⟩, fun e => ?_⟩
  · exact Nat.le_antisymm (Nat.not_lt.1 fun h => before r hr h e.1) (Nat.not_lt.1 fun h => e.2 v hv h holds)
  · subst e; exact absurd hv (by decide)
  · subst e; exact absurd hv (by decide)

/-- The validity check answers a reason where its test is the first in the order of the codes that the image fails, and OK where it fails
none. -/
theorem validity_cases (m : Memory) (straps : BitVec 4) :
    let fails := ImageFails m (serviceNumber m straps).toNat
    (∀ r, 2 ≤ loadCode r → (validity m straps = r ↔ fails r ∧ ∀ q, 2 ≤ loadCode q → loadCode q < loadCode r → ¬ fails q)) ∧
    (validity m straps = .ok ↔ ∀ q, 2 ≤ loadCode q → ¬ fails q) ∧ validity m straps ≠ .checkValue := by
  intro fails
  have not_eq {b : Bool} : (!b) = true ↔ b = false := by rw [Bool.not_eq_true']
  have e2 : fails .fieldRange ↔ (!rangesHold m) = true := (rangesHold_iff ..).symm.trans not_eq.symm
  have e3 : fails .stationNumber ↔ (!numberHolds m (serviceNumber m straps)) = true := (numberHolds_iff ..).symm.trans not_eq.symm
  have e4 : fails .ranks ↔ (!ranksHold m) = true := (ranksHold_iff ..).symm.trans not_eq.symm
  have e5 : fails .quorum ↔ (m.quorum = 0 || m.wheelSize < m.quorum) = true := by
    rw [Bool.or_eq_true, decide_eq_true_eq, decide_eq_true_eq]; rfl
  have e6 : fails .timerOrder ↔ (m.wordAt 4 ≤ m.wordAt 8 || m.wordAt 6 ≤ m.wordAt 4) = true := by
    rw [Bool.or_eq_true, decide_eq_true_eq, decide_eq_true_eq, ← Nat.not_lt, ← Nat.not_lt]; rfl
  have e7 : fails .timerMargin ↔ m.wordAt 6 < m.wordAt 8 + 250 := by
    show (m.wordAt 6 : Int) - m.wordAt 8 < 250 ↔ _
    omega
  have e8 : fails .currentLimits ↔ m.iOnMin ≤ m.iOffMax := by
    show ¬ m.wordAt 154 < m.wordAt 152 ↔ (m.wordAt 152 : Int) ≤ m.wordAt 154
    omega
  have e9 : fails .lineCounts ↔ (!lineCountsHold m) = true := (lineCountsHold_iff ..).symm.trans not_eq.symm
  have e10 : fails .heaterLines ↔ (!heaterLinesHold m) = true := (heaterLinesHold_iff ..).symm.trans not_eq.symm
  have e11 : fails .criticalFlag ↔ (m.role = 4 && !m.tempCritical) = true := by
    rw [Bool.and_eq_true, decide_eq_true_eq, Bool.not_eq_true']; rfl
  have e12 : fails .capacity ↔ (m.capacity .heat = 0 || m.capacity .fill = 0 || m.capacity .drain = 0) = true := by
    simp only [Bool.or_eq_true, decide_eq_true_eq, or_assoc]; rfl
  have e13 : fails .rating ↔ (elementsOf m).any (fun e => m.capacity .heat < m.rating e) = true := (ratings_iff m).symm
  clear_value fails
  unfold validity
  by_cases h2 : fails .fieldRange
  · rw [if_pos (e2.1 h2)]; exact firstReason_cases (by decide) h2 fun q a b => by cases q <;> first | assumption | exact absurd a (by decide) | exact absurd b (by decide)
  rw [if_neg (mt e2.2 h2)]
  by_cases h3 : fails .stationNumber
  · rw [if_pos (e3.1 h3)]; exact firstReason_cases (by decide) h3 fun q a b => by cases q <;> first | assumption | exact absurd a (by decide) | exact absurd b (by decide)
  rw [if_neg (mt e3.2 h3)]
  by_cases h4 : fails .ranks
  · rw [if_pos (e4.1 h4)]; exact firstReason_cases (by decide) h4 fun q a b => by cases q <;> first | assumption | exact absurd a (by decide) | exact absurd b (by decide)
  rw [if_neg (mt e4.2 h4)]
  by_cases h5 : fails .quorum
  · rw [if_pos (e5.1 h5)]; exact firstReason_cases (by decide) h5 fun q a b => by cases q <;> first | assumption | exact absurd a (by decide) | exact absurd b (by decide)
  rw [if_neg (mt e5.2 h5)]
  by_cases h6 : fails .timerOrder
  · rw [if_pos (e6.1 h6)]; exact firstReason_cases (by decide) h6 fun q a b => by cases q <;> first | assumption | exact absurd a (by decide) | exact absurd b (by decide)
  rw [if_neg (mt e6.2 h6)]
  by_cases h7 : fails .timerMargin
  · rw [if_pos (e7.1 h7)]; exact firstReason_cases (by decide) h7 fun q a b => by cases q <;> first | assumption | exact absurd a (by decide) | exact absurd b (by decide)
  rw [if_neg (mt e7.2 h7)]
  by_cases h8 : fails .currentLimits
  · rw [if_pos (e8.1 h8)]; exact firstReason_cases (by decide) h8 fun q a b => by cases q <;> first | assumption | exact absurd a (by decide) | exact absurd b (by decide)
  rw [if_neg (mt e8.2 h8)]
  by_cases h9 : fails .lineCounts
  · rw [if_pos (e9.1 h9)]; exact firstReason_cases (by decide) h9 fun q a b => by cases q <;> first | assumption | exact absurd a (by decide) | exact absurd b (by decide)
  rw [if_neg (mt e9.2 h9)]
  by_cases h10 : fails .heaterLines
  · rw [if_pos (e10.1 h10)]; exact firstReason_cases (by decide) h10 fun q a b => by cases q <;> first | assumption | exact absurd a (by decide) | exact absurd b (by decide)
  rw [if_neg (mt e10.2 h10)]
  by_cases h11 : fails .criticalFlag
  · rw [if_pos (e11.1 h11)]; exact firstReason_cases (by decide) h11 fun q a b => by cases q <;> first | assumption | exact absurd a (by decide) | exact absurd b (by decide)
  rw [if_neg (mt e11.2 h11)]
  by_cases h12 : fails .capacity
  · rw [if_pos (e12.1 h12)]; exact firstReason_cases (by decide) h12 fun q a b => by cases q <;> first | assumption | exact absurd a (by decide) | exact absurd b (by decide)
  rw [if_neg (mt e12.2 h12)]
  by_cases h13 : fails .rating
  · rw [if_pos (e13.1 h13)]; exact firstReason_cases (by decide) h13 fun q a b => by cases q <;> first | assumption | exact absurd a (by decide) | exact absurd b (by decide)
  rw [if_neg (mt e13.2 h13)]
  have none : ∀ q, 2 ≤ loadCode q → ¬ fails q := fun q a => by cases q <;> first | assumption | exact absurd a (by decide)
  refine ⟨fun r hr => ⟨fun e => ?_, fun e => absurd e.1 (none r hr)⟩, ⟨fun _ => none, fun _ => rfl⟩, by decide⟩
  subst e
  exact absurd hr (by decide)

end Sys2Proof.Machine
end

