-- ==== Sys2Proof/Laws/Supply.lean ====
section
/-! SUPPORT. What a start, an own frame taken back, an abandoned commit and a brown-out leave (R58, R60, R207, R210). -/

namespace Sys2Proof.Machine

theorem start_reset (stored : Memory) (mx : Bool) (ci : List CarriedIncident) (o : Bool) (r : Nat) (x : Straps) (s : State) :
    (start stored mx ci o r x s).BlocksReset ∧ (start stored mx ci o r x s).cs.carryIncidents = ci ∧
        (start stored mx ci o r x s).cs.carryOutOfService = o ∧
    (start stored mx ci o r x s).counter .restarts = r ∧ (start stored mx ci o r x s).cs.stored = stored := by
  have safe := start_safe stored mx ci o r x s
  have l : (start stored mx ci o r x s).mu.linkState = .offline := by
    unfold start load; dsimp only; split <;> rfl
  have out := safe.outputs (.inr (by rw [l]; exact fun h => by cases h))
  clear safe
  have cnt : ∀ c, c ≠ .restarts → (start stored mx ci o r x s).counter c = 0 := by
    unfold start load; dsimp only
    split <;> (intro c hc; cases c <;> first | rfl | exact absurd rfl hc)
  refine ⟨?_, ?_⟩
  · constructor
    case outputs => exact out
    case counters => exact cnt
    all_goals (clear out cnt; unfold start load; dsimp only; split <;> first | rfl | exact ⟨rfl, rfl⟩ | exact ⟨rfl, rfl, rfl, rfl⟩ | exact ⟨rfl, rfl, rfl, rfl, rfl⟩)
  · clear out cnt
    unfold start load; dsimp only
    split <;> exact ⟨rfl, rfl, rfl, rfl⟩

/-- LOAD judges the image it is given with its mark, and does what R199, R201 and R202 say. -/
theorem start_loaded (stored : Memory) (mx : Bool) (ci : List CarriedIncident) (o : Bool) (r : Nat) (x : Straps) (s : State) :
    (start stored mx ci o r x s).Loaded x ∧ (start stored mx ci o r x s).cs.mixed = mx := by
  have lock : (loadPasses mx stored && stored.lockByte == 0x5A) = true ↔
      mx = false ∧ ¬ ImageFails stored 0 .checkValue ∧ stored.read 253 = 0x5A := by
    rw [← checkPasses_iff]
    unfold loadPasses Memory.lockByte Memory.byteAt
    rw [Bool.and_eq_true, Bool.and_eq_true, Bool.not_eq_true', beq_iff_eq, and_assoc]
    exact and_congr_right fun _ => and_congr_right fun _ => ⟨fun h => BitVec.eq_of_toNat_eq h, fun h => congrArg _ h⟩
  unfold start load
  dsimp only
  generalize hl : loadCheck _ _ _ = result
  replace hl : loadCheck mx stored x.number = result := hl
  split
  · rename_i c
    have c' : x.setup = true ∨ result ≠ .ok := by simpa using c
    refine ⟨⟨rfl, hl.symm, lock, rfl, fun h => ?_, fun h _ => ?_, fun _ => ⟨rfl, rfl, rfl⟩, fun h e => ?_⟩, rfl⟩
    · exact if_pos h
    · exact if_neg (by rw [h]; decide)
    · exact absurd e (c'.resolve_left (by rw [h]; decide))
  · rename_i c
    have c' : x.setup = false ∧ result = .ok := by simpa using c
    refine ⟨⟨rfl, hl.symm, lock, rfl, fun h => ?_, fun _ h => absurd c'.2 h, fun h => ?_, fun _ _ => ⟨rfl, rfl, rfl, rfl, ?_, rfl⟩⟩, rfl⟩
    · rw [c'.1] at h; cases h
    · rcases h with h | h
      · rw [c'.1] at h; cases h
      · exact absurd c'.2 h
    · exact fun i => lines_get _ i

/-- A start from a store with a commit in progress: the mark is set, the LOAD answers CHECK_VALUE and the lock state is OPEN (R207, R208). -/
theorem Loaded.mixed {t : State} {x : Straps} (h : t.Loaded x) (m : t.cs.mixed = true) : t.cs.loadResult = .checkValue ∧ t.cs.locked = false := by
  refine ⟨by rw [h.result, m]; rfl, ?_⟩
  rw [← Bool.not_eq_true, h.lock, m]
  exact fun e => by cases e.1

theorem abandonCommit_none (s : State) (h : s.cs.commit = none) : (abandonCommit s).cs.stored = s.cs.stored := by
  unfold abandonCommit; rw [h]

/-- An abandoned commit leaves the row in progress mixed, and a row not begun as it was (R207, R212). -/
theorem abandonCommit_some (s : State) (p : Programming) (h : s.cs.commit = some p) :
    (abandonCommit s).cs.stored = (if s.rowBegun p then tornRow s.free p.row s.cs else s.cs.stored) ∧ (abandonCommit s).cs.mixed = true := by
  unfold abandonCommit
  rw [h]
  dsimp only
  generalize tornRow s.free p.row s.cs = m
  by_cases b : s.rowBegun p = true
  · rw [if_pos b, if_pos b]; exact ⟨rfl, rfl⟩
  · rw [if_neg b, if_neg b]; exact ⟨rfl, rfl⟩

theorem abandonCommit_mixed (s : State) : (abandonCommit s).cs.mixed = (s.cs.mixed || s.cs.commit.isSome) := by
  cases h : s.cs.commit with
  | none => unfold abandonCommit; rw [h]; exact (Bool.or_false _).symm
  | some p => rw [(abandonCommit_some s p h).2]; exact (Bool.or_true _).symm

theorem takeBack_counters (c : OwnContent) (s : State) (k : Counter) (hk : k ≠ .replyOverruns) (h2 : k ≠ .incidentsRaised) (h3 : k ≠ .relayDrops) : (takeBack c s).counter k = s.counter k := by
  have ret : (returnChanges s).counter k = s.counter k := by
    unfold returnChanges; dsimp only
    rw [(placeFreed_internal _).counters k h2 h3]; rfl
  unfold takeBack
  split
  · exact ret
  · exact ret
  · rfl
  · unfold returnQuestion
    split
    · rfl
    · exact count_other _ _ _ hk
  · unfold returnSetupReply; split <;> rfl
  all_goals rfl

theorem takeBack_stored (c : OwnContent) (s : State) : (takeBack c s).cs.stored = s.cs.stored ∧ (takeBack c s).cs.commit = s.cs.commit ∧
    (takeBack c s).cs.working = s.cs.working ∧ (takeBack c s).free = s.free := by
  have ret : (returnChanges s).cs = s.cs ∧ (returnChanges s).free = s.free := by
    unfold returnChanges; dsimp only
    exact ⟨by rw [(placeFreed_claimed _).cs], by rw [(placeFreed_claimed _).free]⟩
  unfold takeBack
  split
  · rw [ret.1, ret.2]; exact ⟨rfl, rfl, rfl, rfl⟩
  · rw [ret.1, ret.2]; exact ⟨rfl, rfl, rfl, rfl⟩
  · exact ⟨rfl, rfl, rfl, rfl⟩
  · unfold returnQuestion; split <;> exact ⟨rfl, rfl, rfl, rfl⟩
  · unfold returnSetupReply; split <;> exact ⟨rfl, rfl, rfl, rfl⟩
  all_goals exact ⟨rfl, rfl, rfl, rfl⟩

theorem stopOwnFrame_stored (s : State) : (stopOwnFrame s).cs.stored = s.cs.stored ∧ (stopOwnFrame s).cs.commit = s.cs.commit ∧
    (stopOwnFrame s).cs.working = s.cs.working ∧ (stopOwnFrame s).free = s.free := by
  unfold stopOwnFrame
  split
  · exact takeBack_stored _ s
  · exact ⟨rfl, rfl, rfl, rfl⟩

theorem stopOwnFrame_counters (s : State) (k : Counter) (hk : k ≠ .replyOverruns) (h2 : k ≠ .incidentsRaised) (h3 : k ≠ .relayDrops) : (stopOwnFrame s).counter k = s.counter k := by
  unfold stopOwnFrame
  split
  · exact takeBack_counters _ s k hk h2 h3
  · rfl

theorem brownOut_cs (s : State) : (brownOut s).cs = (abandonCommit (stopOwnFrame s)).cs := rfl

theorem tornRow_congr (n row : Nat) (a b : ConfigStore) (h1 : a.stored = b.stored) (h2 : a.working = b.working) : tornRow n row a = tornRow n row b := by
  unfold tornRow freeRow changedByte; rw [h1, h2]

/-- A byte of a row an abandoned commit left mixed reads as one of its two values; outside the row every byte reads as before (R207). -/
theorem tornRow_read (n row a : Nat) (cs : ConfigStore) (hr : row ≤ 7) (w : cs.stored.wf = true) :
    ((tornRow n row cs).read a = cs.stored.read a ∨ (tornRow n row cs).read a = cs.working.read a) ∧
    (a < 32 * row ∨ 32 * row + 32 ≤ a → (tornRow n row cs).read a = cs.stored.read a) := by
  have free : ((freeRow n row cs).read a = cs.stored.read a ∨ (freeRow n row cs).read a = cs.working.read a) ∧
      (a < 32 * row ∨ 32 * row + 32 ≤ a → (freeRow n row cs).read a = cs.stored.read a) := by
    unfold freeRow rowAddress
    rw [Memory.read_writeBytes _ _ _ _ (by simp [imageSize]; omega) w]
    simp only [List.length_map, List.length_range]
    by_cases c : 32 * row ≤ a ∧ a < 32 * row + 32
    · rw [if_pos c]
      refine ⟨?_, fun o => absurd o (by omega)⟩
      rw [List.getD_eq_getElem?_getD, List.getElem?_map, List.getElem?_range (by omega)]
      simp only [Option.map_some, Option.getD_some, Nat.add_sub_cancel' c.1]
      split
      · exact .inr rfl
      · exact .inl rfl
    · rw [if_neg c]; exact ⟨.inl rfl, fun _ => rfl⟩
  have wf := freeRow_wf n row cs hr w
  unfold tornRow
  dsimp only
  split
  · rename_i b _ e
    have hb := changedByte_some e
    rw [Memory.read_write _ _ _ _ wf]
    by_cases h : a = b
    · subst h
      rw [if_pos rfl]
      refine ⟨?_, fun o => absurd o (by omega)⟩
      split
      · exact .inr rfl
      · exact .inl rfl
    · rw [if_neg h]; exact free
  · exact free

theorem brownOut_stored (s : State) (w : s.ImagesWf) (a : Nat) (ha : ∀ p, s.cs.commit = some p → a < 32 * p.row ∨ 32 * p.row + 32 ≤ a) :
    (brownOut s).cs.stored.read a = s.cs.stored.read a := by
  obtain ⟨e1, e2, e3, e4⟩ := stopOwnFrame_stored s
  cases hc : s.cs.commit with
  | none =>
    have e : (brownOut s).cs.stored = s.cs.stored := by
      rw [brownOut_cs, abandonCommit_none _ (e2.trans hc), e1]
    rw [e]
  | some p =>
    have ep := w.2.2 p hc
    rw [brownOut_cs, (abandonCommit_some _ p (e2.trans hc)).1, e4, tornRow_congr _ _ _ _ e1 e3, e1]
    split
    case isFalse => rfl
    exact (tornRow_read _ _ _ _ ep w.1).2 (ha p hc)

/-! ## Content taken back -/

/-- What the taking back of an own frame's content leaves (R58, R60). -/
structure TakenBack (content : OwnContent) (s t : State) : Prop where
  now : t.now = s.now
  lc : t.lc = s.lc
  number : t.oc.changeNumber = s.oc.changeNumber
  zone : t.zoneMode = s.zoneMode
  cs : { t.cs with reply := s.cs.reply, replyInFlight := s.cs.replyInFlight } = s.cs
  pd : t.pd = s.pd
  side : t.supply = s.supply ∧ t.ms = s.ms ∧ t.lu = s.lu ∧ t.pending = s.pending ∧ t.rs = s.rs ∧ t.fd = s.fd
  mem : t.hz.memory = s.hz.memory ∧ t.hz.gateStop = s.hz.gateStop
  mu : t.mu = s.mu
  flight : content = .claim ∨ (∃ n, content = .claimSet n) → t.oc.inFlight = []
  counters : ∀ c, c ≠ .replyOverruns → t.counter c = s.counter c

theorem returnChanges_taken (c : OwnContent) (s : State) : TakenBack c s (returnChanges s) := by
  unfold returnChanges
  dsimp only
  generalize hj : (s.oc.unsent.foldl _ _ : List Change × Vector Bool 8) = j
  have k := placeFreed_claimed { s with oc := { s.oc with unsent := j.1, awaiting := j.2, inFlight := [] } }
  have i := placeFreed_internal { s with oc := { s.oc with unsent := j.1, awaiting := j.2, inFlight := [] } }
  generalize placeFreed { s with oc := { s.oc with unsent := j.1, awaiting := j.2, inFlight := [] } } = t at *
  refine ⟨k.now, k.lc, i.changeNumber, k.zoneMode, by rw [k.cs], k.pd, ⟨k.supply, k.ms, k.lu, k.pending, k.rs, k.fd⟩, ⟨by rw [k.hz],
      by rw [k.hz]⟩, k.mu, fun _ => i.inFlight, fun c _ => ?_⟩
  unfold State.counter; rw [k.rp]

theorem takeBack_taken (c : OwnContent) (s : State) : TakenBack c s (takeBack c s) := by
  have triv : ∀ c' : OwnContent, c' ≠ .claim → (∀ n, c' ≠ .claimSet n) → ∀ t : State, (c' = .claim ∨ (∃ n, c' = .claimSet n) →
      t.oc.inFlight = []) := by
    intro c' h1 h2 t h
    rcases h with h | ⟨n, h⟩
    · exact absurd h h1
    · exact absurd h (h2 n)
  unfold takeBack
  split
  · exact returnChanges_taken _ s
  · exact returnChanges_taken _ s
  · exact ⟨rfl, rfl, rfl, rfl, rfl, rfl, ⟨rfl, rfl, rfl, rfl, rfl, rfl⟩, ⟨rfl, rfl⟩, rfl, triv _ (by simp) (by simp) _, fun _ _ => rfl⟩
  · unfold returnQuestion
    split
    · exact ⟨rfl, rfl, rfl, rfl, rfl, rfl, ⟨rfl, rfl, rfl, rfl, rfl, rfl⟩, ⟨rfl, rfl⟩, rfl, triv _ (by simp) (by simp) _, fun _ _ => rfl⟩
    · exact ⟨rfl, rfl, rfl, rfl, rfl, rfl, ⟨rfl, rfl, rfl, rfl, rfl, rfl⟩, ⟨rfl, rfl⟩, rfl, triv _ (by simp) (by simp) _,
          fun c hc => count_other _ _ _ hc⟩
  · unfold returnSetupReply
    split
    · exact ⟨rfl, rfl, rfl, rfl, rfl, rfl, ⟨rfl, rfl, rfl, rfl, rfl, rfl⟩, ⟨rfl, rfl⟩, rfl, triv _ (by simp) (by simp) _, fun _ _ => rfl⟩
    · exact ⟨rfl, rfl, rfl, rfl, rfl, rfl, ⟨rfl, rfl, rfl, rfl, rfl, rfl⟩, ⟨rfl, rfl⟩, rfl, triv _ (by simp) (by simp) _, fun _ _ => rfl⟩
  · exact ⟨rfl, rfl, rfl, rfl, rfl, rfl, ⟨rfl, rfl, rfl, rfl, rfl, rfl⟩, ⟨rfl, rfl⟩, rfl, triv _ (by simp) (by simp) _, fun _ _ => rfl⟩
  · exact ⟨rfl, rfl, rfl, rfl, rfl, rfl, ⟨rfl, rfl, rfl, rfl, rfl, rfl⟩, ⟨rfl, rfl⟩, rfl, triv _ (by simp) (by simp) _, fun _ _ => rfl⟩

theorem placeChange_new (c : Change) : ∀ l : List Change, (∀ d ∈ l, d.tag ≠ c.tag) → placeChange c l = (l ++ [c], false)
  | [], _ => rfl
  | d :: l, h => by
    unfold placeChange
    rw [if_neg (h d (List.mem_cons_self ..)), placeChange_new c l (fun x hx => h x (List.mem_cons_of_mem _ hx))]
    rfl

theorem takeWaiting_nil (n : Nat) (s : State) (h : s.oc.waiting = []) : takeWaiting n s = s := by
  cases n with
  | zero => rfl
  | succ n =>
    unfold takeWaiting
    have : nextWaiting s.oc.waiting = none := by rw [h]; rfl
    rw [this]
    split <;> first | rfl | (rename_i a b; cases b)

theorem placeFreed_nil (s : State) (h : s.oc.waiting = []) : placeFreed s = s := takeWaiting_nil _ s h

/-! ## The end of SETTLE -/

theorem restoreCarried_fields (s : State) : (restoreCarried s).cs = { s.cs with carryIncidents := [] } ∧ (restoreCarried s).now = s.now ∧
    (restoreCarried s).ms = s.ms ∧ (restoreCarried s).lu = s.lu ∧ s.SameHazardMemory (restoreCarried s) ∧
    s.SameQuestions (restoreCarried s) ∧ s.SameCounters (restoreCarried s) [] ∧ (restoreCarried s).mu = s.mu ∧
    (restoreCarried s).lc = s.lc := by
  have q : ∀ (code) (t : State), (queueNotice code t).cs = t.cs ∧ (queueNotice code t).now = t.now ∧ (queueNotice code t).ms = t.ms ∧
      (queueNotice code t).lu = t.lu ∧ (queueNotice code t).hz.memory = t.hz.memory ∧ (queueNotice code t).hz.gateStop = t.hz.gateStop ∧
      (queueNotice code t).rp.slot = t.rp.slot ∧ (queueNotice code t).rp.inFlight = t.rp.inFlight ∧ (∀ c, c ≠ .relayDrops →
      (queueNotice code t).counter c = t.counter c) ∧ (queueNotice code t).mu = t.mu ∧ (queueNotice code t).lc = t.lc := by
    intro code t
    unfold queueNotice pushHazard
    dsimp only
    split
    · exact ⟨rfl, rfl, rfl, rfl, rfl, rfl, rfl, rfl, fun c _ => rfl, rfl, rfl⟩
    · exact ⟨rfl, rfl, rfl, rfl, rfl, rfl, rfl, rfl, fun c hc => count_other _ _ _ hc, rfl, rfl⟩
  have one : ∀ (t : State) (c), (restoreOne t c).cs = t.cs ∧ (restoreOne t c).now = t.now ∧ (restoreOne t c).ms = t.ms ∧
      (restoreOne t c).lu = t.lu ∧ t.SameHazardMemory (restoreOne t c) ∧ t.SameQuestions (restoreOne t c) ∧
      t.SameCounters (restoreOne t c) [] ∧ (restoreOne t c).mu = t.mu ∧ (restoreOne t c).lc = t.lc := by
    intro t c
    unfold restoreOne
    split
    · dsimp only
      have cc : ∀ d, d ≠ .incidentsRaised → (createRecord c.fault (.failed c.reason) c.recurrences true t).counter d = t.counter d := by
        intro d hd; unfold createRecord; dsimp only; rw [count_other _ _ _ hd]; rfl
      split
      · obtain ⟨a1, a2, a3, a4, a5, a6, a7, a8, a9, a10, a11⟩ := q .inflowStop (createRecord c.fault (.failed c.reason) c.recurrences true t)
        exact ⟨a1, a2, a3, a4, ⟨a5, a6⟩, ⟨a7, a8⟩, fun d _ h1 h2 => (a9 d h2).trans (cc d h1), a10, a11⟩
      · exact ⟨rfl, rfl, rfl, rfl, ⟨rfl, rfl⟩, ⟨rfl, rfl⟩, fun d _ h1 _ => cc d h1, rfl, rfl⟩
    · exact ⟨rfl, rfl, rfl, rfl, ⟨rfl, rfl⟩, ⟨rfl, rfl⟩, fun _ _ _ _ => rfl, rfl, rfl⟩
  have fold : ∀ (l : List CarriedIncident) (t : State), (l.foldl restoreOne t).cs = t.cs ∧ (l.foldl restoreOne t).now = t.now ∧
      (l.foldl restoreOne t).ms = t.ms ∧ (l.foldl restoreOne t).lu = t.lu ∧ t.SameHazardMemory (l.foldl restoreOne t) ∧
      t.SameQuestions (l.foldl restoreOne t) ∧ t.SameCounters (l.foldl restoreOne t) [] ∧ (l.foldl restoreOne t).mu = t.mu ∧
      (l.foldl restoreOne t).lc = t.lc := by
    intro l
    induction l with
    | nil => exact fun t => ⟨rfl, rfl, rfl, rfl, ⟨rfl, rfl⟩, ⟨rfl, rfl⟩, fun _ _ _ _ => rfl, rfl, rfl⟩
    | cons c l ih =>
      intro t
      obtain ⟨a1, a2, a3, a4, a5, a6, a7, a8, a9⟩ := one t c
      obtain ⟨b1, b2, b3, b4, b5, b6, b7, b8, b9⟩ := ih (restoreOne t c)
      exact ⟨b1.trans a1, b2.trans a2, b3.trans a3, b4.trans a4, ⟨b5.1.trans a5.1, b5.2.trans a5.2⟩, ⟨b6.1.trans a6.1, b6.2.trans a6.2⟩,
        fun d h h1 h2 => (b7 d h h1 h2).trans (a7 d h h1 h2), b8.trans a8, b9.trans a9⟩
  obtain ⟨b1, b2, b3, b4, b5, b6, b7, b8, b9⟩ := fold s.cs.carryIncidents s
  unfold restoreCarried
  generalize s.cs.carryIncidents.foldl restoreOne s = t at *
  refine ⟨?_, b2, b3, b4, b5, b6, b7, b8, b9⟩
  show { t.cs with carryIncidents := [] } = _
  rw [b1]


/-- `t` is `s` after the stages SETTLE and ENTRY (R202). -/
structure Settled (s t : State) : Prop where
  cs : t.cs = { s.cs with stage := .entered, carryIncidents := [], carryOutOfService := false }
  zone : t.zoneMode = if s.cs.carryOutOfService then .outOfService else .inService
  link : t.mu.linkState = .listening ∧ t.mu.listenStart = some s.now
  lc : t.lc.receiverOn = true ∧ t.lc.position = 0
  now : t.now = s.now
  ms : t.ms = s.ms
  debounced : t.lu.debounced = s.lu.debounced
  memory : s.SameHazardMemory t
  questions : s.SameQuestions t
  counters : s.SameCounters t []

theorem settleEnds_settled (s : State) : Settled s (settleEnds s) := by
  obtain ⟨a1, a2, a3, a4, a5, a6, a7, a8, a9⟩ := restoreCarried_fields s
  unfold settleEnds
  dsimp only
  generalize restoreCarried s = u at *
  have r := reviewHolds_internal u
  generalize reviewHolds u = w at *
  have k := runDetectors_internal { w with cs := { w.cs with stage := .entered } }
  generalize runDetectors { w with cs := { w.cs with stage := .entered } } = v at *
  have vcs : v.cs = { s.cs with stage := .entered, carryIncidents := [] } := by
    rw [k.cs]; show { w.cs with stage := StartStage.entered } = _; rw [r.cs, a1]
  have vnow : v.now = s.now := k.now.trans (r.now.trans a2)
  have vms : v.ms = s.ms := k.ms.trans (r.ms.trans a3)
  have vdeb : v.lu.debounced = s.lu.debounced := k.debounced.trans (r.debounced.trans (by rw [a4]))
  have vmem : s.SameHazardMemory v := ⟨k.memory.trans (r.memory.trans a5.1), k.gateStop.trans (r.gateStop.trans a5.2)⟩
  have vq : s.SameQuestions v := ⟨k.slot.trans (r.slot.trans a6.1), k.question.trans (r.question.trans a6.2)⟩
  have vc : s.SameCounters v [] := fun c h h1 h2 => (k.counters c h1 h2).trans ((r.counters c h1 h2).trans (a7 c h h1 h2))
  have oos : v.cs.carryOutOfService = s.cs.carryOutOfService := by rw [vcs]
  clear k r a1 a2 a3 a4 a5 a6 a7 a8 a9
  unfold enterService
  dsimp only
  rw [oos]
  split
  · have q := queueNotice_internal .zoneDown (changeZoneMode .outOfService { v with cs := { v.cs with carryOutOfService := false } })
    generalize queueNotice .zoneDown (changeZoneMode .outOfService { v with cs := { v.cs with carryOutOfService := false } }) = x at *
    refine ⟨?_, by rw [if_pos (by assumption)]; exact q.zoneMode, ⟨rfl, ?_⟩, ⟨rfl, rfl⟩, q.now.trans vnow, q.ms.trans vms,
        q.debounced.trans vdeb, ⟨q.memory.trans vmem.1, q.gateStop.trans vmem.2⟩,
      ⟨q.slot.trans vq.1, q.question.trans vq.2⟩, fun c h h1 h2 => (q.counters c h1 h2).trans (vc c h h1 h2)⟩
    · refine q.cs.trans ?_
      show { v.cs with carryOutOfService := false } = _
      rw [vcs]
    · exact congrArg some (q.now.trans vnow)
  · refine ⟨?_, by rw [if_neg (by assumption)]; rfl, ⟨rfl, congrArg some vnow⟩, ⟨rfl, rfl⟩, vnow, vms, vdeb, vmem, vq, vc⟩
    show { v.cs with carryOutOfService := false } = _
    rw [vcs]

end Sys2Proof.Machine
end

