-- ==== Sys2Proof/Laws/CheckValue.lean ====
section
/-! SUPPORT. The check value tells two images apart that differ in one byte, and so does not match on a row an abandoned commit left mixed
(R197, R207). -/

namespace Sys2Proof.Machine

/-! ## The register -/

/-- One bit of the check value taken back: the bit that left stands in the lowest place, since the polynomial ends in 1. -/
def crcBitBack (c : Word16) : Word16 :=
  if c.getLsbD 0 then ((c ^^^ 0x1021#16) >>> 1) ||| BitVec.twoPow 16 15 else c >>> 1

theorem crcBitBack_crcBit (c : Word16) : crcBitBack (crcBit c) = c := by
  have top : c.msb = c.getLsbD 15 := BitVec.msb_eq_getLsbD_last c
  unfold crcBitBack crcBit
  by_cases h : c.msb = true
  · simp only [h, if_true]
    rw [if_pos (by simp), BitVec.xor_assoc, BitVec.xor_self, BitVec.xor_zero]
    rw [h] at top
    refine BitVec.eq_of_getLsbD_eq fun i hi => ?_
    by_cases e : i = 15
    · subst e; simp [← top]
    · have : ¬ 15 < i + 1 := by omega
      have : 15 ≠ i := fun h => e h.symm
      simp [BitVec.getLsbD_or, BitVec.getLsbD_ushiftRight, BitVec.getLsbD_shiftLeft, BitVec.getLsbD_twoPow, this]; omega
  · simp only [if_neg h]
    rw [if_neg (by simp)]
    refine BitVec.eq_of_getLsbD_eq fun i hi => ?_
    by_cases e : i = 15
    · subst e; rw [← top]; simpa using h
    · simp [BitVec.getLsbD_ushiftRight, BitVec.getLsbD_shiftLeft]; omega

theorem crcBit_inj {c d : Word16} (h : crcBit c = crcBit d) : c = d := by
  have := congrArg crcBitBack h
  rwa [crcBitBack_crcBit, crcBitBack_crcBit] at this

theorem crcByte_inj {c d : Word16} {a b : Byte} (h : crcByte c a = crcByte d b) : c ^^^ (a ++ 0#8) = d ^^^ (b ++ 0#8) := by
  unfold crcByte at h
  exact crcBit_inj (crcBit_inj (crcBit_inj (crcBit_inj (crcBit_inj (crcBit_inj (crcBit_inj (crcBit_inj h)))))))

theorem crcRegister_cons (b : Byte) (rest : List Byte) (c : Word16) : crcRegister (b :: rest) c = crcRegister rest (crcByte c b) := by
  rw [crcRegister]
  generalize crcByte c b = r
  have e := BitVec.ofNat_toNat 16 r
  rw [BitVec.setWidth_eq] at e
  split
  · rename_i z; rw [z] at e; exact congrArg _ e
  · rename_i z; rw [z] at e; exact congrArg _ e

theorem crcRegister_inj : ∀ (l : List Byte) {c d : Word16}, crcRegister l c = crcRegister l d → c = d
  | [], _, _, h => h
  | b :: l, c, d, h => by
    rw [crcRegister_cons, crcRegister_cons] at h
    have := crcByte_inj (crcRegister_inj l h)
    rwa [BitVec.xor_left_inj] at this

theorem crcRegister_append (l m : List Byte) : ∀ c : Word16, crcRegister (l ++ m) c = crcRegister m (crcRegister l c) := by
  induction l with
  | nil => exact fun _ => rfl
  | cons b l ih => intro c; rw [List.cons_append, crcRegister_cons, crcRegister_cons, ih]

/-- Two lists that differ in one byte have different check values. -/
theorem crc16_one_byte (l m : List Byte) (a b : Byte) (h : crc16 (l ++ a :: m) = crc16 (l ++ b :: m)) : a = b := by
  unfold crc16 at h
  rw [crcRegister_append, crcRegister_append, crcRegister_cons, crcRegister_cons] at h
  have e := crcByte_inj (crcRegister_inj m h)
  rw [BitVec.xor_right_inj] at e
  refine BitVec.eq_of_getLsbD_eq fun i hi => ?_
  have := congrArg (fun w : BitVec (8 + 8) => BitVec.getLsbD w (i + 8)) e
  rw [BitVec.getLsbD_append, BitVec.getLsbD_append, if_neg (by omega), if_neg (by omega), Nat.add_sub_cancel] at this
  exact this

/-! ## The image -/

theorem Memory.bytes_split (m : Memory) (a i n : Nat) (h : i < n) :
    m.bytes a n = m.bytes a i ++ m.read (a + i) :: m.bytes (a + i + 1) (n - i - 1) := by
  rw [Memory.bytes_eq_map, Memory.bytes_eq_map, Memory.bytes_eq_map]
  apply List.ext_getElem
  · simp; omega
  · intro k h1 h2
    simp only [List.getElem_map, List.getElem_range]
    by_cases c : k < i
    · rw [List.getElem_append_left (by simpa using c)]; simp
    · rw [List.getElem_append_right (by simpa using c)]
      simp only [List.length_map, List.length_range]
      by_cases e : k = i
      · subst e; simp
      · obtain ⟨j, hj⟩ : ∃ j, k - i = j + 1 := ⟨k - i - 1, by omega⟩
        simp only [hj, List.getElem_cons_succ, List.getElem_map, List.getElem_range]
        congr 1
        omega

theorem Memory.bytes_congr (m n : Memory) (a c : Nat) (h : ∀ b, a ≤ b → b < a + c → m.read b = n.read b) : m.bytes a c = n.bytes a c := by
  rw [Memory.bytes_eq_map, Memory.bytes_eq_map]
  exact List.map_congr_left fun i hi => h _ (by omega) (by have := List.mem_range.mp hi; omega)

/-- Of two images that differ in one byte, at most one has the right check value. -/
theorem checkPasses_one_byte (m n : Memory) (a : Nat) (ha : a < 256) (differ : m.read a ≠ n.read a)
    (same : ∀ b, b ≠ a → m.read b = n.read b) (h : checkPasses m = true) : checkPasses n = false := by
  rw [Bool.eq_false_iff]
  intro g
  unfold checkPasses at h g
  rw [beq_iff_eq] at h g
  unfold Memory.checkValue at h g
  by_cases c : a < 254
  · have w : m.wordAt 254 = n.wordAt 254 := by
      unfold Memory.wordAt Memory.byteAt; rw [same 254 (by omega), same 255 (by omega)]
    have e : crc16 (m.bytes 0 254) = crc16 (n.bytes 0 254) := BitVec.eq_of_toNat_eq (by rw [← h, ← g, w])
    rw [Memory.bytes_split m 0 a 254 c, Memory.bytes_split n 0 a 254 c,
      Memory.bytes_congr m n 0 a (fun b _ _ => same b (by omega)),
      Memory.bytes_congr m n (0 + a + 1) (254 - a - 1) (fun b _ _ => same b (by omega))] at e
    have := crc16_one_byte _ _ _ _ e
    rw [Nat.zero_add] at this
    exact differ this
  · have e : m.bytes 0 254 = n.bytes 0 254 := Memory.bytes_congr m n 0 254 (fun b _ _ => same b (by omega))
    rw [e] at h
    have w : m.wordAt 254 = n.wordAt 254 := h.trans g.symm
    unfold Memory.wordAt Memory.byteAt at w
    have b1 : ∀ (k : Memory) (i : Nat), (k.read i).toNat < 256 := fun k i => (k.read i).isLt
    have := b1 m 254
    have := b1 m 255
    have := b1 n 254
    have := b1 n 255
    apply differ
    apply BitVec.eq_of_toNat_eq
    rcases (by omega : a = 254 ∨ a = 255) with r | r <;> subst r <;> simp only [Nat.reduceAdd] at w <;> omega

/-- A row in progress with a byte that changes is left such that the check value does not match (R207). -/
theorem tornRow_fails (n row a : Nat) (cs : ConfigStore) (hr : row ≤ 7) (w : cs.stored.wf = true) (ha : 32 * row ≤ a ∧ a < 32 * row + 32)
    (differ : cs.working.read a ≠ cs.stored.read a) : checkPasses (tornRow n row cs) = false := by
  have some : ∃ b, changedByte row cs = some b := by
    cases e : changedByte row cs with
    | some b => exact ⟨b, rfl⟩
    | none =>
      unfold changedByte at e
      rw [List.find?_eq_none] at e
      have := e a (by simp only [List.mem_map, List.mem_range, rowAddress]; exact ⟨a - 32 * row, by omega, by omega⟩)
      simp [differ] at this
  obtain ⟨b, hb⟩ := some
  have ch := changedByte_some hb
  have wf := freeRow_wf n row cs hr w
  unfold tornRow
  simp only [hb]
  cases p : checkPasses (freeRow n row cs) with
  | false => exact p
  | true =>
    dsimp only
    refine checkPasses_one_byte _ _ b (by omega) ?_ (fun c hc => ?_) p
    · rw [Memory.read_write _ _ _ _ wf, if_pos rfl]
      split
      · rename_i e; rw [e]; exact fun h => ch.2.2 h.symm
      · assumption
    · rw [Memory.read_write _ _ _ _ wf, if_neg hc]

/-! ## A brown-out with a commit in progress -/

theorem stopOwnFrame_taken (s : State) : (stopOwnFrame s).now = s.now ∧ (stopOwnFrame s).cs.mixed = s.cs.mixed := by
  unfold stopOwnFrame
  split
  · rename_i f _
    have k := takeBack_taken f.content s
    have m : (takeBack f.content s).cs.mixed = s.cs.mixed := by
      rw [← k.cs]
    exact ⟨k.now, m⟩
  · exact ⟨rfl, rfl⟩

theorem brownOut_mixed (s : State) : (brownOut s).cs.mixed = (s.cs.mixed || s.cs.commit.isSome) := by
  rw [brownOut_cs, abandonCommit_mixed, (stopOwnFrame_taken s).2, (stopOwnFrame_stored s).2.1]

/-- The row in progress at a brown-out, where one of its bytes changes, leaves a check value that does not match (R207). -/
theorem brownOut_torn (s : State) (p : Programming) (a : Nat) (w : s.ImagesWf) (hc : s.cs.commit = some p)
    (begun : p.row = 0 ∨ p.start < s.now) (h1 : 32 * p.row ≤ a) (h2 : a < 32 * p.row + 32)
    (differ : s.cs.working.read a ≠ s.cs.stored.read a) : ImageFails (brownOut s).cs.stored 0 .checkValue := by
  obtain ⟨e1, e2, e3, e4⟩ := stopOwnFrame_stored s
  rw [brownOut_cs, (abandonCommit_some _ p (e2.trans hc)).1, e4, tornRow_congr _ _ _ _ e1 e3, if_pos]
  · have f := tornRow_fails s.free p.row a _ (w.2.2 p hc) w.1 ⟨h1, h2⟩ differ
    exact Classical.byContradiction fun c => by rw [(checkPasses_iff _).2 c] at f; cases f
  · unfold State.rowBegun
    rw [(stopOwnFrame_taken s).1]
    rcases begun with h | h <;> simp [h]

end Sys2Proof.Machine
end

