-- ==== Sys2Proof/Laws/Delivered.lean ====
section
/-! SUPPORT. A delivered frame: what the block that owns it leaves alone is still so after the arrival record and the end of the event. -/

namespace Sys2Proof.Machine

variable {s v u t : State} {h : Header} {kind : FrameKind} {payload : List Byte}

/-- `v` stands where the owning block left it, which wrote none of this since `s` but ACCEPTED and the counters set aside. -/
structure LeftAlone (s v : State) : Prop where
  now : v.now = s.now
  zone : s.SameZoneSide v
  mode : s.SameMode v
  program : s.SameProgram v
  questions : s.SameQuestions v
  counters : ∀ c, c ≠ .protocolErrors → c ≠ .incidentsRaised → c ≠ .relayDrops → v.counter c = s.asTaken.counter c

theorem asTaken_leftAlone (s : State) : LeftAlone s s.asTaken :=
  ⟨rfl, ⟨rfl, rfl, rfl, rfl, rfl, rfl, rfl⟩, ⟨rfl, rfl⟩, ⟨rfl, rfl, rfl, rfl, rfl, rfl⟩, ⟨rfl, rfl⟩, fun _ _ _ _ => rfl⟩

/-- What `endEvent` answers after the arrival record, in the words of the statements. -/
theorem LeftAlone.ends (b : LeftAlone s v) (i : Internal (arrived h v) u) :
    LeftAlone s u ∧ s.Counted u .accepted ∧ s.SameCounters u [.accepted, .protocolErrors] := by
  have z := i.zoneSide; have m := i.mode; have p := i.program; have q := i.questions; have n := i.now; have c := i.counters
  rw [arrived_eq h v] at z m p q n c
  obtain ⟨z1, z2, z3, z4, z5, z6, z7⟩ := b.zone
  obtain ⟨p1, p2, p3, p4, p5, p6⟩ := b.program
  have cc : ∀ c, c ≠ .protocolErrors → c ≠ .incidentsRaised → c ≠ .relayDrops → u.counter c = s.asTaken.counter c :=
    fun k a1 a2 a3 => (c k a2 a3).trans (b.counters k a1 a2 a3)
  refine ⟨⟨n.trans b.now, ⟨z.1.trans z1, z.2.1.trans z2, z.2.2.1.trans z3, z.2.2.2.1.trans z4, z.2.2.2.2.1.trans z5,
      z.2.2.2.2.2.1.trans z6, z.2.2.2.2.2.2.trans z7⟩, ⟨m.1.trans b.mode.1, m.2.trans b.mode.2⟩,
      ⟨p.1.trans p1, p.2.1.trans p2, p.2.2.1.trans p3, p.2.2.2.1.trans p4, p.2.2.2.2.1.trans p5, p.2.2.2.2.2.trans p6⟩,
      ⟨q.1.trans b.questions.1, q.2.trans b.questions.2⟩, cc⟩, ?_, fun k a1 a2 a3 => ?_⟩
  · unfold State.Counted
    rw [cc _ (by decide) (by decide) (by decide)]
    exact asTaken_accepted s
  · simp only [List.mem_cons, List.not_mem_nil, or_false, not_or] at a1
    rw [cc k a1.2 a2 a3]
    exact asTaken_counter s k a1.1

theorem ends_peers (i : Internal (arrived h v) u) (k : Station) (hk : headerStation h = some k) :
    u.mu.peers = setAt v.mu.peers k { v.mu.peers[k] with lastAccepted := some v.now } := i.peers.trans (arrived_peers h v k hk)

theorem ends_samePeers (i : Internal (arrived h v) u) (k : Station) (hk : headerStation h = some k) (e : s.SamePeers v (· = k)) :
    s.SamePeers u (· = k) := by
  intro j hj
  rw [ends_peers i k hk, setAt_other _ _ _ _ (Ne.symm hj)]
  exact e j hj

theorem ends_owners (i : Internal (arrived h v) u) (j : Station) : u.ct[j].applied = v.ct[j].applied ∧ u.ct[j].stale = v.ct[j].stale ∧
    (j ≠ v.me → u.ct[j].records.map unmarked = v.ct[j].records.map unmarked) := by
  have e := i.entries j; have o := i.others j
  have hc : (arrived h v).ct = v.ct := by rw [arrived_eq h v]
  have hm : (arrived h v).me = v.me := by rw [arrived_eq h v]; rfl
  rw [hc] at e o; rw [hm] at o
  exact ⟨e.1, e.2, o⟩

theorem ends_hazardMemory (i : Internal (arrived h v) u) : v.SameHazardMemory u := by
  have m := i.hazardMemory
  rw [arrived_eq h v] at m
  exact m

theorem ends_sameHazardMemory (i : Internal (arrived h v) u) (e : v.hz = s.hz) : s.SameHazardMemory u := by
  have m := ends_hazardMemory i
  unfold State.SameHazardMemory at *
  rw [e] at m
  exact m

theorem ends_sameOwners (i : Internal (arrived h v) u) (e : v.ct = s.ct) (m : v.me = s.me) (but : Station → Prop) :
    s.SameOwners u but := by
  intro j _
  have o := ends_owners i j
  rw [e, m] at o
  exact o

theorem ends_counter (i : Internal (arrived h v) u) (c : Counter) (h1 : c ≠ .incidentsRaised) (h2 : c ≠ .relayDrops) :
    u.counter c = v.counter c := by
  have m := i.counters c h1 h2
  rw [arrived_eq h v] at m
  exact m

theorem ends_armedAt (i : Internal (arrived h v) u) : u.mu.armedAt = v.mu.armedAt := by
  have e : u.mu.armedAt = (arrived h v).mu.armedAt := congrArg (fun x => x.2.2.2.2.1.2.2.2.2.1) i.kept_eq
  rw [e]
  unfold arrived arrivalRecord
  split
  · dsimp only; split <;> rfl
  · rfl

/-! ## Blocks that take a frame -/

/-- A phase change writes the Program Drive only; the phase is the new one, and a phase that does not regulate clears the request (R122). -/
theorem changePhase_writes (phase : Phase) (s : State) : changePhase phase s = { s with pd := (changePhase phase s).pd } ∧
    (changePhase phase s).pd.phase = phase ∧ (changePhase phase s).pd.demand = s.pd.demand ∧
    (changePhase phase s).pd.serial = s.pd.serial ∧ (changePhase phase s).pd.silencePause = s.pd.silencePause ∧
    (changePhase phase s).pd.silenceTimer = s.pd.silenceTimer ∧ (phase = s.pd.phase → changePhase phase s = s) ∧
    (regulates phase = false → phase ≠ s.pd.phase → (changePhase phase s).pd.regulation = false) := by
  unfold changePhase
  split
  · rename_i h; subst h; exact ⟨rfl, rfl, rfl, rfl, rfl, rfl, fun _ => rfl, fun _ a => absurd rfl a⟩
  · rename_i h
    dsimp only
    unfold judgeRegulation judgeDrained
    dsimp only
    (repeat' split) <;> refine ⟨rfl, rfl, rfl, rfl, rfl, rfl, fun a => absurd a h, fun a _ => ?_⟩
    all_goals simp_all

/-- `t` comes from `s` by marks and the Membership Unit: the stale mark of owner k is `b`, the other entries are as they were. -/
def StaleIs (k : Station) (s t : State) (b : Bool) : Prop :=
  t.ct = setAt s.ct k { s.ct[k] with stale := b } ∧ t = { s with mu := t.mu, ct := t.ct }

theorem staleIs_refl (k : Station) (s : State) : StaleIs k s s s.ct[k].stale := by
  refine ⟨?_, rfl⟩
  show s.ct = s.ct.set k.val s.ct[k.val] _
  simp

theorem staleIs_mark (k : Station) {b : Bool} (e : StaleIs k s t b) : StaleIs k s (markStale k t) true ∧ (markStale k t).mu = t.mu := by
  obtain ⟨e1, e2⟩ := e
  refine ⟨⟨?_, ?_⟩, rfl⟩
  · unfold markStale setOwner; dsimp only; rw [e1, setAt_same]; unfold setAt; simp
  · unfold markStale setOwner; rw [e2]

theorem staleIs_mu (k : Station) {b : Bool} (e : StaleIs k s t b) (m : Membership) : StaleIs k s { t with mu := m } b := by
  obtain ⟨e1, e2⟩ := e
  exact ⟨e1, by rw [e2]⟩

theorem staleIs_entry (k : Station) {b : Bool} (e : StaleIs k s t b) (o : Option Byte) :
    StaleIs k s (takeAppliedEntry k o t) (b || match o, s.ct[k].applied with
        | some n, some a => after n a
        | some _, none => true
        | none, _ => false) ∧ (takeAppliedEntry k o t).mu = t.mu := by
  have hm := staleIs_mark k e
  have h1 : t.ct[k].stale = b ∧ t.ct[k].applied = s.ct[k].applied := by rw [e.1, setAt_same]; exact ⟨rfl, rfl⟩
  unfold takeAppliedEntry
  rw [h1.1, h1.2]
  cases o with
  | none => simp; exact e
  | some n =>
    cases b with
    | true => simp; exact e
    | false =>
      cases s.ct[k].applied with
      | none => simp; exact hm
      | some a => 
        by_cases ha : after n a = true
        · simp [ha]; exact hm
        · simp [ha]; exact e

/-- A PRESENCE with a matching digest writes the peer's record, the contact timer and the stale mark (R80, R90, R21). -/
theorem takeMatching_writes (k : Station) (p : PresenceReport) (s : State) :
    takeMatching k p s = { s with mu := (takeMatching k p s).mu, ct := (takeMatching k p s).ct } ∧
    (takeMatching k p s).mu.peers = setAt s.mu.peers k { s.mu.peers[k] with
        state := .present, reportedLink := some p.link, digest := some p.digest, heardSet := some p.heard, ackOfMe := p.ackOfMe
        lastPresence := some s.now } ∧
    (takeMatching k p s).mu.armedAt = (if s.mu.peers[k].state = .present then s.mu.armedAt else some s.now) ∧
    (takeMatching k p s).ct = setAt s.ct k { s.ct[k] with stale := (s.ct[k].stale || s.lagging k || s.mu.peers[k].state == .foreign ||
        match p.ownEntry, s.ct[k].applied with
        | some n, some a => after n a
        | some _, none => true
        | none, _ => false) } := by
  unfold takeMatching
  dsimp only
  have a1 : StaleIs k s (if s.lagging k then markStale k s else s) (s.ct[k].stale || s.lagging k) ∧
      (if s.lagging k then markStale k s else s).mu = s.mu := by
    split <;> rename_i hl
    · rw [hl]; simp; exact ⟨(staleIs_mark k (staleIs_refl k s)).1, rfl⟩
    · simp at hl; rw [hl]; simp; exact staleIs_refl k s
  generalize (if s.lagging k then markStale k s else s) = s1 at *
  obtain ⟨b1, m1⟩ := a1
  have b2 := staleIs_mu k b1 { s1.mu with peers := setAt s1.mu.peers k { s.mu.peers[k] with state := .present, reportedLink := some p.link, digest := some p.digest, heardSet := some p.heard, ackOfMe := p.ackOfMe, lastPresence := some s.now } }
  have b3 : ∀ s2, StaleIs k s s2 (s.ct[k].stale || s.lagging k) →
      StaleIs k s (if s.mu.peers[k].state = .foreign then markStale k s2 else s2) (s.ct[k].stale || s.lagging k || s.mu.peers[k].state == .foreign) ∧ (if s.mu.peers[k].state = .foreign then markStale k s2 else s2).mu = s2.mu := by
    intro s2 e2
    split <;> rename_i hl
    · rw [hl]; simp; exact ⟨(staleIs_mark k e2).1, rfl⟩
    · have : (s.mu.peers[k].state == PeerState.foreign) = false := by simpa using hl
      rw [this, Bool.or_false]; exact ⟨e2, rfl⟩
  unfold setPeer
  have b3' := b3 _ b2
  rw [m1] at b3' ⊢
  generalize (if s.mu.peers[k].state = .foreign then markStale k _ else _) = s3 at *
  obtain ⟨c3, m3⟩ := b3'
  have c4 : StaleIs k s (if s.mu.peers[k].state = .present then s3 else { s3 with mu := { s3.mu with armedAt := some s.now } }) (s.ct[k].stale || s.lagging k || s.mu.peers[k].state == .foreign) := by
    split
    · exact c3
    · exact staleIs_mu k c3 _
  have m4 : (if s.mu.peers[k].state = .present then s3 else { s3 with mu := { s3.mu with armedAt := some s.now } }).mu.peers = s3.mu.peers := by split <;> rfl
  have m5 : (if s.mu.peers[k].state = .present then s3 else { s3 with mu := { s3.mu with armedAt := some s.now } }).mu.armedAt = (if s.mu.peers[k].state = .present then s3.mu.armedAt else some s.now) := by split <;> rfl
  generalize (if s.mu.peers[k].state = .present then s3 else { s3 with mu := { s3.mu with armedAt := some s.now } }) = s4 at *
  obtain ⟨c5, m6⟩ := staleIs_entry k c4 p.ownEntry
  refine ⟨c5.2, ?_, ?_, c5.1⟩
  · rw [m6, m4, m3]
  · rw [m6, m5, m3]

end Sys2Proof.Machine
end

