-- ==== Sys2Proof/Laws/ClaimFrames.lean ====
section
/-! SUPPORT. The Claim Table after a claim frame: marked, refused, or with the changes applied. -/

namespace Sys2Proof.Machine

variable {s v u : State} {h : Header} {k : Station}

/-- The table after a claim frame of owner k, from the state `s` before it: the entry of k, the other entries, the error counted. -/
structure ClaimStored (k : Station) (s v : State) (applied : Option Byte) (stale : Bool) (records : List ClaimRecord) (err : Bool) : Prop where
  la : LeftAlone s v
  mu : v.mu = s.mu
  hz : v.hz = s.hz
  me : v.me = s.me
  others : s.SameOwners v (· = k)
  app : v.ct[k].applied = applied
  st : v.ct[k].stale = stale
  recs : v.ct[k].records.map unmarked = records.map unmarked
  cnt : if err then s.Counted v .protocolErrors else v.counter .protocolErrors = s.counter .protocolErrors

theorem claimStored_unchanged (s : State) (k : Station) : ClaimStored k s s.asTaken s.ct[k].applied s.ct[k].stale s.ct[k].records false :=
  ⟨asTaken_leftAlone s, rfl, rfl, rfl, fun _ _ => ⟨rfl, rfl, fun _ => rfl⟩, rfl, rfl, rfl, asTaken_counter s _ (by decide)⟩

theorem markStale_claimStored (s : State) (k : Station) : ClaimStored k s (markStale k s.asTaken) s.ct[k].applied true s.ct[k].records false := by
  have e : (markStale k s.asTaken).ct = setAt s.ct k { s.ct[k] with stale := true } := rfl
  refine ⟨⟨rfl, ⟨rfl, rfl, rfl, rfl, rfl, rfl, rfl⟩, ⟨rfl, rfl⟩, ⟨rfl, rfl, rfl, rfl, rfl, rfl⟩, ⟨rfl, rfl⟩, fun _ _ _ _ => rfl⟩, rfl,
      rfl, rfl, fun j hj => ?_, ?_, ?_, ?_, asTaken_counter s _ (by decide)⟩
  · rw [e, setAt_other _ _ _ _ (Ne.symm hj)]; exact ⟨rfl, rfl, fun _ => rfl⟩
  all_goals rw [e, setAt_same]

theorem claimRefused_claimStored (s : State) (k : Station) : ClaimStored k s (claimRefused k s.asTaken) s.ct[k].applied true s.ct[k].records true := by
  have e : (claimRefused k s.asTaken).ct = setAt s.ct k { s.ct[k] with stale := true } := rfl
  refine ⟨⟨rfl, ⟨rfl, rfl, rfl, rfl, rfl, rfl, rfl⟩, ⟨rfl, rfl⟩, ⟨rfl, rfl, rfl, rfl, rfl, rfl⟩, ⟨rfl, rfl⟩,
      fun c h _ _ => count_other .protocolErrors c s.asTaken h⟩, rfl, rfl, rfl, fun j hj => ?_, ?_, ?_, ?_, ?_⟩
  · rw [e, setAt_other _ _ _ _ (Ne.symm hj)]; exact ⟨rfl, rfl, fun _ => rfl⟩
  · rw [e, setAt_same]
  · rw [e, setAt_same]
  · rw [e, setAt_same]
  · have a := count_same .protocolErrors s.asTaken
    rw [asTaken_counter s _ (by decide)] at a; exact a

theorem setOwner_claimStored (s : State) (k : Station) (en : OwnerEntry) (hm : k ≠ s.me) : ClaimStored k s (recomputeMarks (setOwner k en s.asTaken)) en.applied en.stale en.records false := by
  have i := recomputeMarks_internal (setOwner k en s.asTaken)
  have e : (setOwner k en s.asTaken).ct = setAt s.ct k en := rfl
  have i1 := i.entries; have i2 := i.others
  rw [e] at i1 i2
  refine ⟨⟨rfl, ⟨rfl, rfl, rfl, rfl, rfl, rfl, rfl⟩, ⟨rfl, rfl⟩, ⟨rfl, rfl, rfl, rfl, rfl, rfl⟩, ⟨rfl, rfl⟩, fun _ _ _ _ => rfl⟩, rfl,
      rfl, rfl, fun j hj => ?_, ?_, ?_, ?_, asTaken_counter s _ (by decide)⟩
  · have a := i1 j; have b := i2 j
    rw [setAt_other _ _ _ _ (Ne.symm hj)] at a b
    exact ⟨a.1, a.2, b⟩
  · have a := i1 k; rw [setAt_same] at a; exact a.1
  · have a := i1 k; rw [setAt_same] at a; exact a.2
  · have a := i2 k hm; rw [setAt_same] at a; exact a

/-- The same at the end of the event, in the words of the statements. -/
structure ClaimTaken (h : Header) (k : Station) (s u : State) (applied : Option Byte) (stale : Bool) (records : List ClaimRecord) (err : Bool) : Prop where
  app : u.ct[k].applied = applied
  st : u.ct[k].stale = stale
  recs : u.ct[k].records.map unmarked = records.map unmarked
  cnt : if err then s.Counted u .protocolErrors else u.counter .protocolErrors = s.counter .protocolErrors
  peer : u.mu.peers[k] = { s.mu.peers[k] with lastAccepted := some s.now }
  ow : s.SameOwners u (· = k)
  pe : s.SamePeers u (· = k)
  acc : s.Counted u .accepted
  sc : s.SameCounters u [.accepted, .protocolErrors]
  m : s.SameMode u
  z : s.SameZoneSide u
  p : s.SameProgram u
  hm : s.SameHazardMemory u
  q : s.SameQuestions u

theorem ClaimStored.ends {a : Option Byte} {b : Bool} {c : List ClaimRecord} {d : Bool} (sh : ClaimStored k s v a b c d) (hk : headerStation h = some k) (hm : k ≠ s.me) (i : Internal (arrived h v) u) : ClaimTaken h k s u a b c d := by
  obtain ⟨l, acc, sc⟩ := sh.la.ends i
  have ow := ends_owners i
  refine ⟨(ow k).1.trans sh.app, (ow k).2.1.trans sh.st, ((ow k).2.2 (sh.me ▸ hm)).trans sh.recs, ?_, ?_, ?_, ?_, acc, sc, l.mode,
      l.zone, l.program, ends_sameHazardMemory i sh.hz, l.questions⟩
  · have e := ends_counter i .protocolErrors (by decide) (by decide)
    have := sh.cnt
    unfold State.Counted at *; rw [e]; exact this
  · rw [ends_peers i k hk, setAt_same, sh.mu, sh.la.now]
  · intro j hj
    have o := sh.others j hj
    exact ⟨(ow j).1.trans o.1, (ow j).2.1.trans o.2.1, fun hm => ((ow j).2.2 (sh.me ▸ hm)).trans (o.2.2 hm)⟩
  · refine ends_samePeers i k hk ?_
    intro j _; rw [sh.mu]

theorem tableTakes_ne_me (ht : s.tableTakes k = true) : k ≠ s.me := by
  simp only [State.tableTakes, Bool.and_eq_true, bne_iff_ne] at ht
  exact ht.1.2

theorem applySelected_claimStored (ht : s.tableTakes k = true) (sel : List RawChange) (last : Byte) :
    (∀ records, applyRaw sel s.ct[k].records = some records → ClaimStored k s (applySelected k sel last s.asTaken) (some last) s.ct[k].stale records false) ∧
    (applyRaw sel s.ct[k].records = none → ClaimStored k s (applySelected k sel last s.asTaken) s.ct[k].applied true s.ct[k].records true) := by
  unfold applySelected
  rw [asTaken_ct]
  constructor
  · intro r hr; rw [hr]; exact setOwner_claimStored s k _ (tableTakes_ne_me ht)
  · intro hr; rw [hr]; exact claimRefused_claimStored s k

theorem rawChanges_length : ∀ (n : Nat) (l : List Byte), l.length = 3 * n → (rawChanges l).length = n
  | 0, l, h => by
    cases l with
    | nil => rfl
    | cons => simp at h
  | n+1, a :: b :: c :: rest, h => by
    have := rawChanges_length n rest (by simp at h; omega)
    simp only [rawChanges, List.length_cons, this]
  | n+1, [], h => by simp at h
  | n+1, [_], h => by simp at h; omega
  | n+1, [_, _], h => by simp at h; omega

end Sys2Proof.Machine
end

