-- ==== Sys2Proof/Laws/Contact.lean ====
section
/-! SUPPORT. The two intervals of the loss of contact: where the one of R92 ends, and when the one of R93 runs. -/

namespace Sys2Proof.Machine

variable (s : State)

theorem mem_peerNumbers (k : Station) : k ∈ s.peerNumbers ↔ k ≠ s.me := by
  have all : ∀ k : Station, k ∈ allStations := by decide
  unfold State.peerNumbers
  rw [List.mem_filter, bne_iff_ne]
  exact and_iff_right (all k)

/-- The greatest of the times of a list, from a time on. -/
theorem foldl_max {α : Type} (f : α → Nat) : ∀ (l : List α) (a : Nat),
    a ≤ l.foldl (fun t k => max t (f k)) a ∧ (∀ k ∈ l, f k ≤ l.foldl (fun t k => max t (f k)) a) ∧
    (l.foldl (fun t k => max t (f k)) a = a ∨ ∃ k ∈ l, l.foldl (fun t k => max t (f k)) a = f k)
  | [], a => ⟨Nat.le_refl _, fun _ h => (nomatch h), .inl rfl⟩
  | x :: l, a => by
    obtain ⟨h1, h2, h3⟩ := foldl_max f l (max a (f x))
    rw [List.foldl_cons]
    refine ⟨Nat.le_trans (Nat.le_max_left ..) h1, fun k hk => ?_, ?_⟩
    · rcases List.mem_cons.1 hk with e | m
      · subst e; exact Nat.le_trans (Nat.le_max_right ..) h1
      · exact h2 k m
    · rcases h3 with h3 | ⟨k, m, h3⟩
      · rcases Nat.le_total a (f x) with h | h
        · exact .inr ⟨x, List.mem_cons_self .., h3.trans (Nat.max_eq_right h)⟩
        · exact .inl (h3.trans (Nat.max_eq_left h))
      · exact .inr ⟨k, List.mem_cons_of_mem _ m, h3⟩

/-- The interval of R92 ends T_isolate after the later of the event that armed the rule and the last arrival record of any peer. -/
theorem contactDeadline_armed (a : Nat) (h : s.mu.armedAt = some a) : ∃ last, s.contactDeadline = some (last + s.image.tIsolate) ∧ a ≤ last ∧
    (∀ (k : Station) (x : Nat), k ≠ s.me → s.mu.peers[k].lastAccepted = some x → x ≤ last) ∧
    (last = a ∨ ∃ k : Station, k ≠ s.me ∧ s.mu.peers[k].lastAccepted = some last) := by
  obtain ⟨-, h2, h3⟩ := foldl_max (fun k : Station => s.mu.peers[k].lastAccepted.getD 0) s.peerNumbers 0
  refine ⟨max a s.lastArrival, by unfold State.contactDeadline; rw [h]; rfl, Nat.le_max_left .., fun k x hk e => ?_, ?_⟩
  · refine Nat.le_trans ?_ (Nat.le_max_right ..)
    have := h2 k ((mem_peerNumbers s k).2 hk)
    rw [e] at this
    exact this
  · rcases Nat.le_total s.lastArrival a with le | le
    · exact .inl (Nat.max_eq_left le)
    · rw [Nat.max_eq_right le]
      rcases h3 with h3 | ⟨k, m, h3⟩
      · exact .inl (by have : s.lastArrival = 0 := h3; omega)
      · have e : s.lastArrival = (s.mu.peers[k].lastAccepted).getD 0 := h3
        cases c : s.mu.peers[k].lastAccepted with
        | none => rw [c] at e; exact .inl (by have : s.lastArrival = 0 := e; omega)
        | some x => rw [c] at e; exact .inr ⟨k, (mem_peerNumbers s k).1 m, by rw [c]; exact congrArg some e.symm⟩

theorem contactDeadline_disarmed (h : s.mu.armedAt = none) : s.contactDeadline = none := by
  unfold State.contactDeadline; rw [h]; rfl

theorem any_peers (p : PeerRecord → Bool) : s.mu.peers.toList.any p = true ↔ ∃ k : Station, p s.mu.peers[k] = true := by
  simp only [List.any_eq_true, Vector.mem_toList_iff, Vector.mem_iff_getElem]
  constructor
  · rintro ⟨r, ⟨i, hi, e⟩, h⟩; exact ⟨⟨i, hi⟩, by subst e; exact h⟩
  · rintro ⟨k, h⟩; exact ⟨_, ⟨k.val, k.isLt, rfl⟩, h⟩

theorem all_peers (p : PeerRecord → Bool) : s.mu.peers.toList.all p = true ↔ ∀ k : Station, p s.mu.peers[k] = true := by
  simp only [List.all_eq_true, Vector.mem_toList_iff, Vector.mem_iff_getElem]
  constructor
  · exact fun h k => h _ ⟨k.val, k.isLt, rfl⟩
  · rintro h r ⟨i, hi, e⟩; subst e; exact h ⟨i, hi⟩

/-- The condition of R93. -/
theorem notHeard_iff : s.notHeard = true ↔ (s.mu.linkState = .joining ∨ s.mu.linkState = .joined) ∧
    (∃ k : Station, s.mu.peers[k].state = .present) ∧
    ∀ (k : Station) (heard : StationSet), s.mu.peers[k].state = .present → s.mu.peers[k].heardSet = some heard → heard[s.me] = false := by
  unfold State.notHeard State.takesPart
  rw [Bool.and_eq_true, Bool.and_eq_true, Bool.or_eq_true, beq_iff_eq, beq_iff_eq, any_peers, all_peers, and_assoc]
  refine and_congr_right fun _ => and_congr (exists_congr fun k => beq_iff_eq) (forall_congr' fun k => ?_)
  rw [Bool.or_eq_true, bne_iff_ne]
  cases s.mu.peers[k].heardSet with
  | none => exact ⟨fun _ _ _ e => (nomatch e), fun _ => .inr rfl⟩
  | some set =>
    dsimp only
    rw [Bool.not_eq_true']
    exact ⟨fun h x p e => h.elim (fun n => absurd p n) (fun r => Option.some.inj e ▸ r),
      fun h => (Decidable.em (s.mu.peers[k].state = .present)).elim (fun p => .inr (h set p rfl)) .inl⟩

end Sys2Proof.Machine
end

