-- ==== Sys2Proof/Laws/Conditions.lean ====
section
/-! SUPPORT. The conditions the blocks read, one by one: probes and samples (R100 to R105), what is due and what has ended (R55, R89, R90,
R202), claims and faults that match (R5, R28, R31, R40, R151). -/

namespace Sys2Proof.Machine

variable (s : State)

/-! ## The link -/

theorem joinEnds_iff : s.joinEnds = true ↔ s.mu.linkState = .joining ∧ ((∀ k : Station, s.mu.peers[k].state ≠ .present) ∨
    (s.mu.joinRequestDone ≠ none ∧ ∀ k : Station, s.mu.peers[k].state = .present → s.mu.peers[k].restated = true)) := by
  unfold State.joinEnds
  rw [Bool.and_eq_true, Bool.or_eq_true, Bool.and_eq_true, all_peers, all_peers]
  simp [Option.isSome_iff_ne_none, ← Decidable.imp_iff_not_or]

theorem lagging_iff (k : Station) : s.lagging k = true ↔ s.mu.linkState = .joining ∧ s.mu.peers[k].restated = false ∧
    s.mu.peers[k].state = .present ∧
    ∃ done last, s.mu.joinRequestDone = some done ∧ s.mu.peers[k].lastPresence = some last ∧ done ≤ last := by
  unfold State.lagging
  cases s.mu.joinRequestDone <;> cases s.mu.peers[k].lastPresence <;> simp [and_assoc]

theorem takesPart_iff : s.takesPart = true ↔ s.mu.linkState = .joining ∨ s.mu.linkState = .joined := by simp [State.takesPart]

theorem activeRank_eq : s.activeRank = match s.activeIncident with
    | some r => faultRank r.fault
    | none => 0 := by
  unfold State.activeRank
  cases s.activeIncident <;> rfl

theorem appliedVector_iff (v : Vector (Option Byte) 12) : v = s.appliedVector ↔ ∀ k : Station, v[k] = s.ct[k].applied := by
  have get : ∀ k : Station, s.appliedVector[k] = s.ct[k].applied := fun k => by simp [State.appliedVector, mapAll]
  constructor
  · intro h k; rw [h, get]
  · intro h
    apply Vector.ext
    intro i l
    exact (h ⟨i, l⟩).trans (get ⟨i, l⟩).symm

/-- No PRESENCE is due: every field R55 names is as the last one carried it. -/
theorem presenceDue_iff : s.presenceDue = false ↔ ∃ p, s.lc.lastPresence = some p ∧ p.linkState = s.mu.linkState ∧
    p.zoneMode = s.zoneMode ∧ p.gateStop = s.hz.stopMark ∧ p.failedCount = (s.rs.incidents.filter isFailed).length ∧
    p.activeRank = (match s.activeIncident with
      | some r => faultRank r.fault
      | none => 0) ∧ ∀ k : Station, p.applied[k] = s.ct[k].applied := by
  rw [← activeRank_eq]
  unfold State.presenceDue
  cases s.lc.lastPresence with
  | none => simp
  | some p =>
    rw [show (∃ q, some p = some q ∧ _) ↔ _ from ⟨fun ⟨q, e, h⟩ => (Option.some.inj e) ▸ h, fun h => ⟨p, rfl, h⟩⟩,
      ← appliedVector_iff]
    simp only [Bool.or_eq_false_iff, bne_eq_false_iff_eq, State.failedCount]
    constructor
    · rintro ⟨⟨⟨⟨⟨a, b⟩, c⟩, d⟩, e⟩, f⟩; exact ⟨b, c, f, d, e, a⟩
    · rintro ⟨b, c, f, d, e, a⟩; exact ⟨⟨⟨⟨⟨a, b⟩, c⟩, d⟩, e⟩, f⟩

/-! ## Lines and samples -/

theorem isInputLine_iff (i : Line) : s.isInputLine i = true ↔ s.image.lineFunction i ∈ [.leakProbe, .levelLow, .levelNormal, .levelHigh] := by
  unfold State.isInputLine
  cases s.image.lineFunction i <;> decide

theorem mem_linesOf (image : Memory) (f : LineFunction) (i : Line) : i ∈ linesOf image f ↔ image.lineFunction i = f := by
  have all : ∀ i : Line, i ∈ allLines := by decide
  unfold linesOf
  rw [List.mem_filter, beq_iff_eq]
  exact and_iff_right (all i)

theorem wet_iff (f : LineFunction) : s.wet f = true ↔ ∃ i : Line, s.image.lineFunction i = f ∧ s.lu.debounced[i] = some true := by
  unfold State.wet
  rw [List.any_eq_true]
  exact exists_congr fun i => and_congr (mem_linesOf s.image f i) beq_iff_eq

theorem dry_carried (f : LineFunction) (h : ∃ i : Line, s.image.lineFunction i = f) :
    s.dry f = true ↔ ∀ i : Line, s.image.lineFunction i = f → s.lu.debounced[i] = some false := by
  obtain ⟨i, h⟩ := h
  have m := (mem_linesOf s.image f i).2 h
  have n : (linesOf s.image f).isEmpty = false := by
    cases e : linesOf s.image f with
    | nil => rw [e] at m; cases m
    | cons _ _ => rfl
  unfold State.dry
  rw [n]
  show (linesOf s.image f).all _ = true ↔ _
  rw [List.all_eq_true]
  exact forall_congr' fun i => imp_congr (mem_linesOf s.image f i) beq_iff_eq

theorem dry_uncarried (f : LineFunction) (h : ∀ i : Line, s.image.lineFunction i ≠ f) : s.dry f = true ↔ s.cs.stage = .entered := by
  have n : linesOf s.image f = [] := List.filter_eq_nil_iff.2 fun i _ => by simpa using h i
  unfold State.dry
  rw [n]
  simp

theorem settled_iff : s.settled = true ↔
    (∀ i : Line, s.isInputLine i = true → s.lu.debounced[i] ≠ none) ∧ ∀ c : Channel, 10 ≤ s.ms.counts[c] := by
  have lines : ∀ i : Line, i ∈ allLines := by decide
  have channels : ∀ c : Channel, c ∈ allChannels := by decide
  simp only [State.settled, Bool.and_eq_true, List.all_eq_true, decide_eq_true_eq, Bool.or_eq_true, Bool.not_eq_true',
    Option.isSome_iff_ne_none]
  refine and_congr ⟨fun h i e => ?_, fun h i _ => ?_⟩ ⟨fun h c => h c (channels c), fun h c _ => h c⟩
  · exact (h i (lines i)).resolve_left (by simp [e])
  · cases e : s.isInputLine i with
    | false => exact .inl rfl
    | true => exact .inr (h i e)

theorem validValue_iff (c : Channel) (x : Sample) (n : Int) : validValue c x = some n ↔ x = .value n ∧
    if c = 0 then -100 ≤ n ∧ n ≤ 1200 else if c = 1 then 0 ≤ n ∧ n ≤ 1000 else 0 ≤ n ∧ n ≤ 400 := by
  have range : ((channelRange c).1 ≤ n ∧ n ≤ (channelRange c).2) ↔
      if c = 0 then -100 ≤ n ∧ n ≤ 1200 else if c = 1 then 0 ≤ n ∧ n ≤ 1000 else 0 ≤ n ∧ n ≤ 400 := by
    unfold channelRange
    split
    · rfl
    · split <;> rfl
  rw [← range]
  cases x with
  | value v =>
    unfold validValue
    dsimp only
    rw [Sample.value.injEq]
    constructor
    · intro h
      split at h
      · rename_i ok; cases h; exact ⟨rfl, ok⟩
      · cases h
    · rintro ⟨rfl, ok⟩; exact if_pos ok
  | _ => exact ⟨fun h => (nomatch h), fun h => (nomatch h.1)⟩

/-! ## Claims and faults -/

theorem grantBefore_iff (image : Memory) (a b : Claim) : grantBefore image a b = true ↔ classOrder a.2.cls < classOrder b.2.cls ∨
    (a.2.cls = b.2.cls ∧ (image.byteAt (17 + a.1.val) < image.byteAt (17 + b.1.val) ∨
      (image.byteAt (17 + a.1.val) = image.byteAt (17 + b.1.val) ∧ a.2.tag < b.2.tag))) := by
  have same : classOrder a.2.cls = classOrder b.2.cls ↔ a.2.cls = b.2.cls := by cases a.2.cls <;> cases b.2.cls <;> decide
  unfold grantBefore Memory.rank
  simp only [Bool.or_eq_true, Bool.and_eq_true, decide_eq_true_eq, beq_iff_eq, same]

theorem matchesFault_iff (f : FaultId) (r : Incident) : matchesFault f r = true ↔ r.fault = f ∧ ∀ outcome, r.state ≠ .cleared outcome := by
  unfold matchesFault isCleared
  rw [Bool.and_eq_true, beq_iff_eq]
  refine and_congr .rfl ?_
  cases r.state <;> simp

theorem tagFree_iff (t : Tag) : s.tagFree t = true ↔ (∀ c ∈ s.oc.claims, c.tag ≠ t) ∧ s.oc.awaiting[t] = false := by
  simp [State.tagFree]

theorem ownGranted_iff (t : Tag) : s.ownGranted t = true ↔ ∃ r ∈ s.ct[s.me].records, r.tag = t ∧ r.mark = .granted := by
  simp [State.ownGranted]

theorem samePurpose_iff (a b : Purpose) : samePurpose a b = true ↔
    (a = .program ∧ b = .program) ∨ (∃ id, a = .step id ∧ b = .step id) ∨ ∃ hs more, a = .contain hs ∧ b = .contain more := by
  constructor
  · intro h
    unfold samePurpose at h
    split at h
    · exact .inl ⟨rfl, rfl⟩
    · exact .inr (.inr ⟨_, _, rfl, rfl⟩)
    · exact .inr (.inl ⟨_, rfl, congrArg Purpose.step (beq_iff_eq.1 h).symm⟩)
    · cases h
  · rintro (⟨rfl, rfl⟩ | ⟨id, rfl, rfl⟩ | ⟨hs, more, rfl, rfl⟩)
    · rfl
    · exact beq_iff_eq.2 rfl
    · rfl

theorem mem_addHolders (hs more : List Holder) (h : Holder) : h ∈ addHolders hs more ↔ h ∈ hs ∨ h ∈ more := by
  simp only [addHolders, List.mem_append, List.mem_filter, Bool.not_eq_true', List.contains_eq_mem, decide_eq_false_iff_not]
  constructor
  · rintro (h | h)
    · exact .inl h
    · exact .inr h.1
  · intro m
    by_cases n : h ∈ hs
    · exact .inl n
    · exact .inr ⟨m.resolve_left n, n⟩

/-- An own claim placed by its tag stands behind those of no higher tag and before the next. -/
theorem insertOwn_place (c : OwnClaim) (behind : List OwnClaim) (h : ∀ d, behind.head? = some d → c.tag < d.tag) :
    ∀ before : List OwnClaim, (∀ d ∈ before, d.tag ≤ c.tag) → insertOwn c (before ++ behind) = before ++ c :: behind
  | [], _ => by
    cases behind with
    | nil => rfl
    | cons d rest => exact if_pos (h d rfl)
  | p :: before, l => by
    show (if c.tag < p.tag then _ else _) = _
    rw [if_neg (Fin.not_lt.2 (l p (List.mem_cons_self ..)))]
    exact congrArg (p :: ·) (insertOwn_place c behind h before (fun q m => l q (List.mem_cons_of_mem _ m)))

theorem elementForced_iff (e : Element) : s.elementForced e = true ↔ s.forces (.heat e) = true ∨ s.forces .heatIsolate = true ∨
    s.lu.elementOut[e] = true ∨ s.image.elementCount ≤ e.val := by
  simp [State.elementForced, or_assoc]

end Sys2Proof.Machine
end

