-- ==== Sys2Proof/Laws/Submitted.lean ====
section
/-! SUPPORT. What a submission does (R139, R140, R151, R152, R155), and the end of a record (R170, R171). -/

namespace Sys2Proof.Machine

variable {s t u : State}

/-- `t` is `s` with the Fault Detector, the Sequencer, the Hazard Unit and the counters written. -/
def Submits (s t : State) : Prop := t = { s with fd := t.fd, rs := t.rs, hz := t.hz, rp := t.rp }

theorem Submits.refl (s : State) : Submits s s := rfl
theorem Submits.trans (h : Submits s t) (k : Submits t u) : Submits s u := by
  unfold Submits at *
  rw [k, h]
theorem Submits.lu (h : Submits s t) : t.lu = s.lu := by rw [h]
theorem Submits.kept (h : Submits s t) :
    t.now = s.now ∧ t.oc = s.oc ∧ t.ct = s.ct ∧ t.mu = s.mu ∧ t.cs = s.cs ∧ t.pd = s.pd ∧ t.ms = s.ms ∧ t.lu = s.lu := by
  rw [h]; exact ⟨rfl, rfl, rfl, rfl, rfl, rfl, rfl, rfl⟩

theorem queueNotice_submits (code : HazardCode) (s : State) : Submits s (queueNotice code s) := by
  rw [(queueNotice_writes code s).2.2]; rfl

theorem submitRecord_submits (f : FaultId) (s : State) : Submits s (submitRecord f s).1 := by
  unfold submitRecord; (repeat' split) <;> rfl

theorem latch_submits (f : FaultId) (s : State) : Submits s (latch f s) := by unfold latch; split <;> rfl

theorem afterSubmit_submits (f : FaultId) (was : Bool) (o : Submitted) (s : State) : Submits s (afterSubmit f was o s) := by
  unfold afterSubmit
  split
  · split
    · exact .trans (t := { s with fd := { s.fd with unrecorded := s.fd.unrecorded.erase f } }) rfl (latch_submits f _)
    · refine .trans ?_ (latch_submits f _)
      split
      · exact queueNotice_submits _ s
      · exact .refl s
  · exact latch_submits f s
  · split
    · exact queueNotice_submits _ s
    · exact .refl s
  · exact .refl s

theorem submit_submits (f : FaultId) (s : State) : Submits s (submit f s) := (submitRecord_submits f s).trans (afterSubmit_submits _ _ _ _)

theorem resubmitUnrecorded_submits (s : State) : Submits s (resubmitUnrecorded s) := by
  unfold resubmitUnrecorded
  generalize s.fd.unrecorded = l
  induction l generalizing s with
  | nil => exact .refl s
  | cons f l ih => exact (submit_submits f s).trans (ih _)

theorem resubmitUnrecorded_none (h : s.fd.unrecorded = []) : resubmitUnrecorded s = s := by unfold resubmitUnrecorded; rw [h]; rfl

/-! ## The end of a record -/

/-- The notice queued depends on the number, the working image and the Hazard Unit alone. -/
theorem queueNotice_hz_of (code : HazardCode) (hz : t.hz = s.hz) (me : t.me = s.me) (image : t.image = s.image) :
    (queueNotice code t).hz = (queueNotice code s).hz := by
  unfold queueNotice pushHazard
  dsimp only
  rw [hz, me, image]
  split <;> rfl

/-- The notice queued is read from the Hazard Unit and the Configuration Store alone. -/
theorem queueNotice_hz (code : HazardCode) (hz : t.hz = s.hz) (cs : t.cs = s.cs) : (queueNotice code t).hz = (queueNotice code s).hz := by
  exact queueNotice_hz_of code hz (Fin.ext (congrArg (fun c => c.number.toNat % 12) cs)) (by unfold State.image; rw [cs])

/-- An own notice stands last in the queue (R188, R189). -/
theorem queueNotice_last (code : HazardCode) (s : State) : (queueNotice code s).hz.queue.getLast? = some {
    origin := s.me, serial := s.hz.serial + 1, code := code, hops := s.image.hopLimit, group := s.image.feederGroup
    sends := 3, relay := false, onWire := false } := by
  unfold queueNotice pushHazard
  dsimp only
  split <;> exact List.getLast?_concat

/-- The zone mode at the end of SETTLE queues a ZONE_DOWN, or nothing (R188, R202). -/
theorem enterService_hz (s : State) :
    (enterService s).hz = if s.cs.carryOutOfService then (queueNotice .zoneDown s).hz else s.hz := by
  unfold enterService
  dsimp only
  split
  · exact queueNotice_hz_of .zoneDown rfl rfl rfl
  · rfl

/-- What the end of a record can write (R171). -/
theorem clearRecord_writes (id : Nat) (f : FaultId) (step : Step) (o : RecoveryOutcome) (s : State) :
    ∃ oc ct fd rs hz rp, clearRecord id f step o s = { s with oc := oc, ct := ct, fd := fd, rs := rs, hz := hz, rp := rp } := by
  have e := endStep_claimed id step (updateRecord id (fun r => { r with state := .cleared o }) s)
  unfold clearRecord
  dsimp only
  rw [resubmitUnrecorded_submits (if f = .leak then _ else _)]
  split
  · rw [queueNotice_submits .inflowResume (endStep id step _), e]; exact ⟨_, _, _, _, _, _, rfl⟩
  · rw [e]; exact ⟨_, _, _, _, _, _, rfl⟩

/-- With nothing unrecorded the end of a record writes that record alone, and a LEAK queues its INFLOW_RESUME (R171). -/
theorem clearRecord_alone (id : Nat) (f : FaultId) (step : Step) (o : RecoveryOutcome) (h : s.fd.unrecorded = []) :
    (clearRecord id f step o s).rs.incidents = s.rs.incidents.map (fun q => if q.id = id then { q with state := .cleared o } else q) ∧
    (clearRecord id f step o s).hz = if f = .leak then (queueNotice .inflowResume s).hz else s.hz := by
  have e := endStep_claimed id step (updateRecord id (fun r => { r with state := .cleared o }) s)
  have records := endStep_incidents id step (updateRecord id (fun r => { r with state := .cleared o }) s)
  have none := (congrArg FaultDetector.unrecorded e.fd).trans h
  unfold clearRecord
  dsimp only
  split
  · have q := (queueNotice_writes .inflowResume (endStep id step (updateRecord id (fun r => { r with state := .cleared o }) s))).2.2
    rw [resubmitUnrecorded_none (by rw [q]; exact none)]
    exact ⟨(congrArg (fun t : State => t.rs.incidents) q).trans records, queueNotice_hz _ e.hz e.cs⟩
  · rw [resubmitUnrecorded_none none]
    exact ⟨records, e.hz⟩

/-- Room made in a queue leaves its last entry where that is an own notice with another before it (R189). -/
theorem makeRoom_last (l : List HazardEntry) (e : HazardEntry) (own : e.relay = false) (more : l ≠ []) :
    ∃ before, makeRoom (l ++ [e]) = before ++ [e] := by
  unfold makeRoom
  split
  · rename_i i found
    rw [List.findIdx?_append] at found
    cases earlier : l.findIdx? (fun e => e.relay) with
    | some j =>
      rw [earlier] at found
      obtain rfl : j = i := by simpa using found
      have lt : j < l.length := (List.findIdx?_eq_some_iff_getElem.1 earlier).1
      exact ⟨l.eraseIdx j, List.eraseIdx_append_of_lt_length lt _⟩
    | none => rw [earlier] at found; simp [own] at found
  · cases l with
    | nil => exact absurd rfl more
    | cons d l => exact ⟨l, rfl⟩

/-- Two notices queued one after the other stand at the end of the queue in that order (R188, R189). -/
theorem queueNotice_twice (first second : HazardCode) (s : State) :
    ∃ before, (queueNotice second (queueNotice first s)).hz.queue.map HazardEntry.code = before ++ [first, second] := by
  have last : ∀ (c : HazardCode) (u : State), ∃ l e, (queueNotice c u).hz.queue = l ++ [e] ∧ e.code = c ∧ e.relay = false := by
    intro c u
    unfold queueNotice pushHazard
    dsimp only
    split <;> exact ⟨_, _, rfl, rfl, rfl⟩
  obtain ⟨l, e, q, c, own⟩ := last first s
  generalize queueNotice first s = u at *
  unfold queueNotice pushHazard
  dsimp only
  split
  · exact ⟨l.map HazardEntry.code, by simp [q, c]⟩
  · rename_i full
    obtain ⟨before, r⟩ := makeRoom_last l e own (by
      rintro rfl
      rw [q] at full
      exact full (show 1 < Config.maxHazards by decide))
    refine ⟨before.map HazardEntry.code, ?_⟩
    show (makeRoom u.hz.queue ++ [_]).map HazardEntry.code = _
    rw [q, r]
    simp [c]

/-! ## The id of a new record (R150) -/

theorem idHeld_iff (l : List Incident) (id : Nat) : idHeld l id = true ↔ ∃ r ∈ l, r.id = id := by simp [idHeld]

/-- The id `m` places after `a`, 255 followed by 1. -/
def laterId (a m : Nat) : Nat := (a - 1 + m) % 255 + 1

theorem idAfter_later (a m : Nat) : idAfter (laterId a m) = laterId a (m + 1) := by
  unfold idAfter laterId
  split <;> omega

/-- The search for a free id ends at the first that no record holds, or out of tries. -/
theorem freeId_first (l : List Incident) (a : Nat) : ∀ fuel k : Nat, ∃ n ≤ fuel, freeId l fuel (laterId a k) = laterId a (k + n) ∧
    (∀ m < n, idHeld l (laterId a (k + m)) = true) ∧ (n < fuel → idHeld l (laterId a (k + n)) = false)
  | 0, k => ⟨0, Nat.le_refl _, rfl, fun _ h => absurd h (Nat.not_lt_zero _), fun h => absurd h (Nat.lt_irrefl _)⟩
  | fuel + 1, k => by
    unfold freeId
    cases e : idHeld l (laterId a k) with
    | false => exact ⟨0, Nat.zero_le _, rfl, fun _ h => absurd h (Nat.not_lt_zero _), fun _ => e⟩
    | true =>
      obtain ⟨n, le, found, held, free⟩ := freeId_first l a fuel (k + 1)
      refine ⟨n + 1, by omega, ?_, fun m hm => ?_, fun h => ?_⟩
      · rw [if_pos rfl, idAfter_later, found, show k + 1 + n = k + (n + 1) by omega]
      · match m with
        | 0 => exact e
        | m + 1 => rw [show k + (m + 1) = k + 1 + m by omega]; exact held m (by omega)
      · rw [show k + (n + 1) = k + 1 + n by omega]; exact free (by omega)

/-- Distinct members of a list are no more than it is long. -/
theorem nodup_length_le {α : Type} [DecidableEq α] : ∀ xs ys : List α, xs.Nodup → (∀ x ∈ xs, x ∈ ys) → xs.length ≤ ys.length
  | [], _, _, _ => Nat.zero_le _
  | x :: xs, ys, d, sub => by
    obtain ⟨out, d⟩ := List.nodup_cons.1 d
    have is := sub x (List.mem_cons_self ..)
    have le := nodup_length_le xs (ys.erase x) d fun y m =>
      (List.mem_erase_of_ne (show y ≠ x from fun e => out (e ▸ m))).2 (sub y (List.mem_cons_of_mem _ m))
    rw [List.length_erase_of_mem is] at le
    have := List.length_pos_of_mem is
    rw [List.length_cons]
    omega

/-- As many ids held in a row are as many records. -/
theorem held_length_le (l : List Incident) (a n : Nat) (small : n ≤ 255) (held : ∀ m < n, idHeld l (laterId a m) = true) :
    n ≤ l.length := by
  have distinct : ((List.range n).map (laterId a)).Nodup := by
    refine List.pairwise_map.2 (List.Pairwise.imp_of_mem ?_ List.nodup_range)
    intro x y hx hy ne e
    have := List.mem_range.1 hx
    have := List.mem_range.1 hy
    unfold laterId at e
    omega
  have le := nodup_length_le _ (l.map Incident.id) distinct fun x hx => by
    obtain ⟨m, hm, rfl⟩ := List.mem_map.1 hx
    obtain ⟨r, hr, e⟩ := (idHeld_iff _ _).1 (held m (List.mem_range.1 hm))
    exact List.mem_map.2 ⟨r, hr, e⟩
  simpa using le

/-- A new record takes the next id, or the first after it that no record holds (R150). -/
theorem newId_first (s : State) (low : 1 ≤ s.rs.nextId) (high : s.rs.nextId ≤ 255) (few : s.rs.incidents.length ≤ 8) :
    ∃ n ≤ 8, s.newId = (s.rs.nextId - 1 + n) % 255 + 1 ∧ (∀ r ∈ s.rs.incidents, r.id ≠ s.newId) ∧
      ∀ m < n, ∃ r ∈ s.rs.incidents, r.id = (s.rs.nextId - 1 + m) % 255 + 1 := by
  obtain ⟨n, le, found, held, free⟩ := freeId_first s.rs.incidents s.rs.nextId 9 0
  simp only [Nat.zero_add] at found held free
  rw [show laterId s.rs.nextId 0 = s.rs.nextId by unfold laterId; omega] at found
  have n8 : n ≤ 8 := Nat.le_trans (held_length_le _ _ n (by omega) held) few
  refine ⟨n, n8, found, fun r hr e => ?_, fun m hm => (idHeld_iff _ _).1 (held m hm)⟩
  have free := free (by omega)
  rw [(idHeld_iff _ _).2 ⟨r, hr, e.trans found⟩] at free
  cases free

/-! ## A detection -/

theorem setDetector_get (f : FaultId) (d : Detector) (s : State) : (setDetector f d s).detector f = d := setAt_same _ _ _

theorem latch_latched (f : FaultId) (runs : (s.detector f).state ≠ .stopped) : ((latch f s).detector f).state = .latched := by
  unfold latch
  rw [if_neg runs, setDetector_get]
  rfl

theorem latch_rs (f : FaultId) (s : State) : (latch f s).rs = s.rs := by unfold latch; split <;> rfl
theorem latch_hz (f : FaultId) (s : State) : (latch f s).hz = s.hz := by unfold latch; split <;> rfl

theorem createRecord_any (f : FaultId) (n : Nat) (c : Bool) (s : State) :
    (createRecord f .pending n c s).rs.incidents.any (matchesFault f) = true := by
  show (s.rs.incidents ++ [_]).any (matchesFault f) = true
  rw [List.any_append]
  simp [matchesFault, isCleared]

/-- A submission of a fault that is not in the Unrecorded set is a detection (R139, R140). -/
theorem submit_detects (f : FaultId) (runs : (s.detector f).state ≠ .stopped) (fresh : s.fd.unrecorded.contains f = false) :
    s.Detects (submit f s) f := by
  have kept := (submit_submits f s).kept
  have created : ∀ t : State, Submits s t → t.fd = s.fd → t.hz = s.hz → s.rs.incidents.any (matchesFault f) = false →
      t.rs.incidents.any (matchesFault f) = true → submitRecord f s = (t, .created) → s.Detects (submit f s) f := by
    intro t w fd hz none some e
    have d : t.detector f = s.detector f := by unfold State.detector; rw [fd]
    have cs : t.cs = s.cs := w.kept.2.2.2.2.1
    have shape : submit f s = latch f (if f = .leak then queueNotice .inflowStop t else t) := by
      unfold submit afterSubmit; rw [e, fresh]; rfl
    by_cases l : f = .leak
    · rw [if_pos l] at shape
      have q := (queueNotice_writes .inflowStop t).2.2
      have qrs : (queueNotice .inflowStop t).rs = t.rs := by rw [q]
      have qd : (queueNotice .inflowStop t).detector f = s.detector f := by rw [← d]; unfold State.detector; rw [q]
      refine ⟨by rw [shape, latch_rs, qrs, e], .inl ⟨by rw [shape, latch_rs, qrs]; exact some,
          by rw [shape]; exact latch_latched f (by rw [qd]; exact runs)⟩, ?_, kept⟩
      rw [shape, latch_hz, if_pos ⟨l, none⟩]
      exact queueNotice_hz _ hz cs
    · rw [if_neg l] at shape
      refine ⟨by rw [shape, latch_rs, e], .inl ⟨by rw [shape, latch_rs]; exact some,
          by rw [shape]; exact latch_latched f (by rw [d]; exact runs)⟩, ?_, kept⟩
      rw [shape, latch_hz, if_neg (fun h => l h.1)]
      exact hz
  cases found : s.rs.incidents.find? (matchesFault f) with
  | some r =>
    have e : submitRecord f s = (updateRecord r.id (fun q => { q with recurrences := min (q.recurrences + 1) 255 }) s, .recurred) := by
      unfold submitRecord; rw [found]
    have shape : submit f s = latch f (updateRecord r.id (fun q => { q with recurrences := min (q.recurrences + 1) 255 }) s) := by
      unfold submit afterSubmit; rw [e]
    have is := List.mem_of_find?_eq_some found
    have m : matchesFault f r = true := List.find?_some found
    have any : s.rs.incidents.any (matchesFault f) = true := List.any_eq_true.2 ⟨r, is, m⟩
    refine ⟨by rw [shape, latch_rs, e], .inl ⟨?_, by rw [shape]; exact latch_latched f runs⟩, ?_, kept⟩
    · rw [shape, latch_rs]
      refine List.any_eq_true.2 ⟨{ r with recurrences := min (r.recurrences + 1) 255 }, List.mem_map.2 ⟨r, is, if_pos rfl⟩, m⟩
    · rw [shape, latch_hz, if_neg (by rw [any]; simp)]
      rfl
  | none =>
    have any : s.rs.incidents.any (matchesFault f) = false := by
      rw [List.any_eq_false]; exact fun x hx => by simpa using List.find?_eq_none.1 found x hx
    by_cases room : s.rs.incidents.length < Config.maxIncidents
    · exact created (createRecord f .pending 0 false s) rfl rfl rfl any (createRecord_any _ _ _ _)
        (by unfold submitRecord; rw [found]; dsimp only; rw [if_pos room])
    · cases old : s.rs.incidents.find? isCleared with
      | some o =>
        exact created (createRecord f .pending 0 false (removeRecord o.id s)) rfl rfl rfl any (createRecord_any _ _ _ _)
          (by unfold submitRecord; rw [found]; dsimp only; rw [if_neg room, old])
      | none =>
        have e : submitRecord f s = ({ s with fd := { s.fd with unrecorded := s.fd.unrecorded ++ [f] } }, .joined) := by
          unfold submitRecord; rw [found]; dsimp only; rw [if_neg room, old]; dsimp only; rw [if_neg (by rw [fresh]; simp)]
        have shape : submit f s = if f = .leak then queueNotice .inflowStop { s with fd := { s.fd with unrecorded := s.fd.unrecorded ++ [f] } }
            else { s with fd := { s.fd with unrecorded := s.fd.unrecorded ++ [f] } } := by
          unfold submit afterSubmit; rw [e]
        have q := (queueNotice_writes .inflowStop { s with fd := { s.fd with unrecorded := s.fd.unrecorded ++ [f] } }).2.2
        have joined : (s.fd.unrecorded ++ [f]).contains f = true := by simp
        refine ⟨?_, .inr ⟨?_, any, Nat.not_lt.1 room⟩, ?_, kept⟩
        · rw [shape, e]; split
          · rw [q]
          · rfl
        · rw [shape]; split
          · rw [q]; exact joined
          · exact joined
        · rw [shape]
          by_cases l : f = .leak
          · rw [if_pos l, if_pos ⟨l, any⟩]
            exact queueNotice_hz _ rfl rfl
          · rw [if_neg l, if_neg (fun h => l h.1)]

end Sys2Proof.Machine
end

