-- ==== Sys2Proof/Laws/Detectors.lean ====
section
/-! SUPPORT. How the detectors without a timer judge (R139, R141 to R145), and which detectors run (R137, R138). -/

namespace Sys2Proof.Machine

variable {s t : State}

/-- A submission is placed whatever the detectors hold. -/
theorem submitRecord_setDetector (f : FaultId) (d : Detector) (s : State) :
    (submitRecord f (setDetector f d s)).1.rs = (submitRecord f s).1.rs := by
  unfold submitRecord
  rw [show (setDetector f d s).rs = s.rs from rfl, show (setDetector f d s).fd.unrecorded = s.fd.unrecorded from rfl]
  split
  · rfl
  · split
    · rfl
    · split
      · rfl
      · split <;> rfl

/-- A detection on a state whose detector was written is a detection on the state before. -/
theorem State.Detects.of_written {f : FaultId} {v : State} (d : Detector) (h : (setDetector f d s).Detects v f) : s.Detects v f where
  placed := h.placed.trans (submitRecord_setDetector f d s)
  latched := h.latched
  notice := by
    refine h.notice.trans ?_
    by_cases l : f = .leak ∧ s.rs.incidents.any (matchesFault f) = false
    · rw [if_pos l]
      exact (if_pos l).trans (queueNotice_hz .inflowStop rfl rfl)
    · rw [if_neg l]
      exact if_neg l
  kept := h.kept

/-- LEAK and DRY_HEAT (R139, R141, R143). -/
theorem evalAtOnce_judges (f : FaultId) (s : State) :
    s.JudgesAtOnce (evalAtOnce f s) f (s.atOnce f = true) (s.lapsed f = true) where
  stopped := fun d => by unfold evalAtOnce; rw [d]
  detects := fun d holds fresh => by
    have e : evalAtOnce f s = submit f s := by unfold evalAtOnce; rw [d]; exact if_pos holds
    rw [e]
    exact submit_detects f (by rw [d]; simp) fresh
  resubmits := fun d holds _ => by unfold evalAtOnce; rw [d]; exact if_pos holds
  watches := fun d n => by unfold evalAtOnce; rw [d]; exact if_neg n
  unlatches := fun d l => by unfold evalAtOnce; rw [d]; exact if_pos l
  stays := fun d n => by unfold evalAtOnce; rw [d]; exact if_neg n

/-- The sample detectors (R139, R142, R144, R145). -/
theorem evalSample_judges (f : FaultId) (x : Sample) (s : State) :
    s.JudgesSample (evalSample f x s) f (sampleThreshold f) (s.sampleMeets f x = true) where
  stopped := fun d => by unfold evalSample; dsimp only; rw [d]
  restarts := fun d n => by unfold evalSample; dsimp only; rw [d]; exact if_neg n
  counts := fun d holds below => by
    unfold evalSample
    dsimp only
    rw [d]
    dsimp only
    rw [if_pos holds, Nat.min_eq_left (Nat.le_of_lt below), if_neg (Nat.not_le.2 below)]
  detects := fun d holds reached fresh => by
    have e : evalSample f x s = submit f (setDetector f { s.detector f with count := sampleThreshold f } s) := by
      unfold evalSample
      dsimp only
      rw [d]
      dsimp only
      rw [if_pos holds, Nat.min_eq_right reached, if_pos (Nat.le_refl _)]
    rw [e]
    exact .of_written _ (submit_detects f (by rw [setDetector_get]; show (s.detector f).state ≠ _; rw [d]; simp) fresh)
  resubmits := fun d holds reached _ => by
    unfold evalSample
    dsimp only
    rw [d]
    dsimp only
    rw [if_pos holds, Nat.min_eq_right reached, if_pos (Nat.le_refl _)]
  unlatches := fun d n => by unfold evalSample; dsimp only; rw [d]; exact if_neg n
  stays := fun d holds => by unfold evalSample; dsimp only; rw [d]; exact if_pos holds

/-- A line change event: the debounced level is taken and the line's detectors judge it (R103). -/
theorem lineChange_runs (i : Line) (start : Nat) (s : State) (up : s.supply = true) (running : s.lu.timers[i] = some start)
    (changed : s.lu.debounced[i] ≠ some (s.pinActive i)) :
    exec (.lineChangeEvent i) s = .next (endEvent .none (evalLine (s.image.lineFunction i) { s with
      now := max s.now (start + s.image.debounce i)
      lu := { s.lu with timers := setAt s.lu.timers i none, debounced := setAt s.lu.debounced i (some (s.pinActive i)) } })) := by
  have e : exec (.lineChangeEvent i) s = .next (debounceEnds i start s) := by
    show Host.Outcome.next _ = _
    rw [up, running]
  rw [e]
  unfold debounceEnds
  dsimp only
  rw [if_neg changed]
  unfold lineChanged advanceTo
  dsimp only
  rfl

/-- The end of the timer of a timed detector: its fault is submitted at that end, again where it is in the Unrecorded set (R146, R155). -/
theorem detectorTimer_runs (c : Instr) (f : FaultId) (s : State) (start : Nat) (ends : timerFault c = some f) (up : s.supply = true)
    (watching : (s.detector f).state = .watching) (running : (s.detector f).timer = some start) :
    exec c s = .next (endEvent .none (submit f { s with now := max s.now (start + detectorTime s.image f) })) := by
  have e : exec c s = .next (detectorTimer f s) := by
    cases c <;> simp [timerFault] at ends <;> subst ends <;> rfl
  rw [e]
  unfold detectorTimer timerDetects advanceTo
  rw [up, watching, running]
  simp [watching, running]

theorem storeSample_image (c : Channel) (x : Sample) (s : State) : (storeSample c x s).image = s.image := rfl

theorem evalSample_image (f : FaultId) (x : Sample) (s : State) : (evalSample f x s).image = s.image := (evalSample_internal f x s).image

/-! ## Run conditions -/

/-- One detector's evaluation: no other detector changes, no run condition changes, and the detector does not stop. -/
structure Evaluates (f : FaultId) (s t : State) : Prop where
  others : ∀ g, g ≠ f → t.detector g = s.detector g
  runs : ∀ g, t.detectorRuns g = s.detectorRuns g
  goesOn : (s.detector f).state ≠ .stopped → (t.detector f).state ≠ .stopped

theorem Evaluates.refl (f : FaultId) (s : State) : Evaluates f s s := ⟨fun _ _ => rfl, fun _ => rfl, id⟩
theorem Evaluates.trans {u : State} {f : FaultId} (h : Evaluates f s t) (k : Evaluates f t u) : Evaluates f s u where
  others := fun g n => (k.others g n).trans (h.others g n)
  runs := fun g => (k.runs g).trans (h.runs g)
  goesOn := fun n => k.goesOn (h.goesOn n)

theorem mem_allFaults (f : FaultId) : f ∈ allFaults := by
  cases f with
  | elementStuck e => revert e; decide
  | elementOpen e => revert e; decide
  | _ => decide

theorem detectorPlace_inj : ∀ f g : FaultId, detectorPlace f = detectorPlace g → f = g := by
  have d : ∀ f ∈ allFaults, ∀ g ∈ allFaults, detectorPlace f = detectorPlace g → f = g := by decide
  exact fun f g => d f (mem_allFaults f) g (mem_allFaults g)

theorem setDetector_other {f g : FaultId} (n : g ≠ f) (d : Detector) (s : State) : (setDetector f d s).detector g = s.detector g :=
  setAt_other _ _ _ _ fun h => n (detectorPlace_inj g f h.symm)

/-- A detector written to a state that runs. -/
theorem setDetector_evaluates (f : FaultId) (d : Detector) (s : State) (n : d.state ≠ .stopped) : Evaluates f s (setDetector f d s) where
  others := fun _ m => setDetector_other m d s
  runs := fun _ => rfl
  goesOn := fun _ => by rw [setDetector_get]; exact n

theorem latch_evaluates (f : FaultId) (s : State) : Evaluates f s (latch f s) := by
  unfold latch
  split
  · exact .refl f s
  · exact setDetector_evaluates f _ s (by decide)

/-- What a state shares with another that no detector's state or run condition depends on. -/
theorem Evaluates.of_same {f : FaultId} (d : t.fd.detectors = s.fd.detectors) (z : t.zoneMode = s.zoneMode) (l : t.mu = s.mu) (c : t.cs = s.cs) :
    Evaluates f s t where
  others := fun g _ => by unfold State.detector; rw [d]
  runs := fun g => by unfold State.detectorRuns State.image State.serviceMode; rw [z, l, c]
  goesOn := fun n => by unfold State.detector; rw [d]; exact n

theorem queueNotice_evaluates (f : FaultId) (code : HazardCode) (s : State) : Evaluates f s (queueNotice code s) := by
  have q := (queueNotice_writes code s).2.2
  exact .of_same (by rw [q]) (by rw [q]) (by rw [q]) (by rw [q])

theorem submitRecord_evaluates (f : FaultId) (s : State) : Evaluates f s (submitRecord f s).1 := by
  unfold submitRecord
  split
  · exact .of_same rfl rfl rfl rfl
  · split
    · exact .of_same rfl rfl rfl rfl
    · split
      · exact .of_same rfl rfl rfl rfl
      · split
        · exact .refl f s
        · exact .of_same rfl rfl rfl rfl

theorem afterSubmit_evaluates (f : FaultId) (was : Bool) (o : Submitted) (s : State) : Evaluates f s (afterSubmit f was o s) := by
  unfold afterSubmit
  split
  · split
    · have e : Evaluates f s { s with fd := { s.fd with unrecorded := s.fd.unrecorded.erase f } } := .of_same rfl rfl rfl rfl
      exact e.trans (latch_evaluates f _)
    · split
      · exact (queueNotice_evaluates f _ s).trans (latch_evaluates f _)
      · exact latch_evaluates f s
  · exact latch_evaluates f s
  · split
    · exact queueNotice_evaluates f _ s
    · exact .refl f s
  · exact .refl f s

theorem submit_evaluates (f : FaultId) (s : State) : Evaluates f s (submit f s) :=
  (submitRecord_evaluates f s).trans (afterSubmit_evaluates f _ _ _)

theorem evalAtOnce_evaluates (f : FaultId) (s : State) : Evaluates f s (evalAtOnce f s) := by
  unfold evalAtOnce
  split
  · exact .refl f s
  · split
    · exact submit_evaluates f s
    · exact .refl f s
  · split
    · exact setDetector_evaluates f _ s (by decide)
    · exact .refl f s

theorem evalTimed_evaluates (f : FaultId) (s : State) : Evaluates f s (evalTimed f s) := by
  unfold evalTimed
  dsimp only
  split
  · exact .refl f s
  · rename_i w
    split
    · split
      · exact setDetector_evaluates f _ s (by dsimp only; rw [w]; decide)
      · split
        · exact submit_evaluates f s
        · exact .refl f s
    · exact setDetector_evaluates f _ s (by dsimp only; rw [w]; decide)
  · split
    · exact .refl f s
    · exact setDetector_evaluates f _ s (by decide)

theorem evalDetector_evaluates (f : FaultId) (s : State) : Evaluates f s (evalDetector f s) := by
  unfold evalDetector
  split
  all_goals first
    | exact evalAtOnce_evaluates _ s
    | exact evalTimed_evaluates _ s
    | exact .refl _ s

/-- A detector started or stopped: it runs where its run condition holds; nothing else of the detectors changes (R138). -/
theorem runDetector_runs (s : State) (f : FaultId) : (((runDetector s f).detector f).state = .stopped ↔ s.detectorRuns f = false) ∧
    (∀ g, g ≠ f → (runDetector s f).detector g = s.detector g) ∧ ∀ g, (runDetector s f).detectorRuns g = s.detectorRuns g := by
  unfold runDetector
  split
  · rename_i r
    have e := evalDetector_evaluates f (setDetector f Detector.fresh s)
    refine ⟨⟨fun h => absurd h (e.goesOn (by rw [setDetector_get]; decide)), fun h => by rw [r] at h; cases h⟩, fun g n => ?_, e.runs⟩
    exact (e.others g n).trans (setDetector_other n _ s)
  · rename_i w r
    exact ⟨⟨fun _ => r, fun _ => w⟩, fun _ _ => rfl, fun _ => rfl⟩
  · rename_i w r _
    exact ⟨⟨fun h => absurd h (by assumption), fun h => by rw [r] at h; cases h⟩, fun _ _ => rfl, fun _ => rfl⟩
  · rename_i r _
    exact ⟨⟨fun _ => r, fun _ => by rw [setDetector_get]; rfl⟩, fun g n => setDetector_other n _ s, fun _ => rfl⟩

/-- A detector runs exactly where its run condition holds, once every one has been started or stopped (R137, R138). -/
theorem runDetectors_stopped (s : State) (f : FaultId) : ((runDetectors s).detector f).state = .stopped ↔ s.detectorRuns f = false := by
  have fold : ∀ (l : List FaultId) (t : State), (∀ g, t.detectorRuns g = s.detectorRuns g) →
      (f ∈ l ∨ ((t.detector f).state = .stopped ↔ s.detectorRuns f = false)) →
      (((l.foldl runDetector t).detector f).state = .stopped ↔ s.detectorRuns f = false) := by
    intro l
    induction l with
    | nil => exact fun t _ h => h.resolve_left (by simp)
    | cons g l ih =>
      intro t r h
      have x := runDetector_runs t g
      refine ih (runDetector t g) (fun k => (x.2.2 k).trans (r k)) ?_
      by_cases e : f = g
      · subst e
        exact .inr (by rw [← r]; exact x.1)
      · rcases h with h | h
        · exact .inl ((List.mem_cons.1 h).resolve_left e)
        · exact .inr (by rw [x.2.1 f e]; exact h)
  exact fold allFaults s (fun _ => rfl) (.inl (mem_allFaults f))

end Sys2Proof.Machine
end

