-- ==== Sys2Proof/Laws/Drive.lean ====
section
/-! SUPPORT. What the Program Drive's evaluation writes: the drained mark, the requests and the program claims (R122, R125 to R130). -/

namespace Sys2Proof.Machine

variable {s : State}

theorem withdrawUnneeded_claimed (resource : Resource) (held wanted : Option Nat) (s : State) :
    Claimed s (withdrawUnneeded resource held wanted s) := by
  unfold withdrawUnneeded
  split
  · exact withdraw_claimed _ _ _
  · exact .refl s

theorem requestNeeded_claimed (resource : Resource) (held wanted : Option Nat) (s : State) :
    Claimed s (requestNeeded resource held wanted s) := by
  unfold requestNeeded
  split
  · split
    · exact .refl s
    · exact request_claimed _ _
  · exact .refl s

/-- The program claims the drive has requested or withdrawn: the Own Claim Unit, the Claim Table and the three marks are written (R129, R130). -/
theorem updateProgramClaims_writes (s : State) : updateProgramClaims s = { s with
    oc := (updateProgramClaims s).oc, ct := (updateProgramClaims s).ct
    pd := { s.pd with
      heatClaim := (updateProgramClaims s).pd.heatClaim
      fillClaim := (updateProgramClaims s).pd.fillClaim
      drainClaim := (updateProgramClaims s).pd.drainClaim } } := by
  unfold updateProgramClaims
  split
  · rfl
  · have c := (((((withdrawUnneeded_claimed .heat s.pd.heatClaim s.heatWanted s).trans
      (withdrawUnneeded_claimed .fill s.pd.fillClaim (if s.pd.fillRequest then some 1 else none) _)).trans
      (withdrawUnneeded_claimed .drain s.pd.drainClaim (if s.pd.drainRequest then some 1 else none) _)).trans
      (requestNeeded_claimed .heat s.pd.heatClaim s.heatWanted _)).trans
      (requestNeeded_claimed .fill s.pd.fillClaim (if s.pd.fillRequest then some 1 else none) _)).trans
      (requestNeeded_claimed .drain s.pd.drainClaim (if s.pd.drainRequest then some 1 else none) _)
    dsimp only
    rw [c.pd]
    exact congrArg (fun t : State => { t with pd := { s.pd with
      heatClaim := s.heatWanted
      fillClaim := if s.pd.fillRequest then some 1 else none
      drainClaim := if s.pd.drainRequest then some 1 else none } }) c

/-- LEVEL_LOW dry in DRAIN_DOWN sets the drained mark; nothing clears it here (R126). -/
theorem judgeDrained_marks (s : State) :
    judgeDrained s = { s with pd := { s.pd with drained := s.pd.drained || (s.pd.phase == .drainDown && s.dry .levelLow) } } := by
  unfold judgeDrained
  split
  · rename_i h
    rw [h.2, h.1]
    simp
  · rename_i h
    have : (s.pd.phase == .drainDown && s.dry .levelLow) = false := by
      cases e : (s.pd.phase == .drainDown && s.dry .levelLow) with
      | false => rfl
      | true => simp at e; exact absurd e h
    rw [this, Bool.or_false]

/-- No HOLD indication: no record of any owner is a HOLD (R7). -/
theorem holdIndication_iff : s.holdIndication = false ↔ ∀ (k : Station), ∀ r ∈ s.ct[k].records, r.resource ≠ .hold := by
  constructor
  · intro h k r m e
    have : s.holdIndication = true := by
      unfold State.holdIndication
      rw [List.any_eq_true]
      exact ⟨s.ct[k], by simp, List.any_eq_true.2 ⟨r, m, by simp [e]⟩⟩
    rw [h] at this; cases this
  · intro h
    cases e : s.holdIndication with
    | false => rfl
    | true =>
      unfold State.holdIndication at e
      obtain ⟨x, hx, e⟩ := List.any_eq_true.1 e
      obtain ⟨r, m, w⟩ := List.any_eq_true.1 e
      rw [Vector.mem_toList_iff, Vector.mem_iff_getElem] at hx
      obtain ⟨i, hi, rfl⟩ := hx
      exact absurd (by simpa using w) (h ⟨i, hi⟩ r m)

end Sys2Proof.Machine
end

