-- ==== Sys2Proof/Laws/Requests.lean ====
section
/-! SUPPORT. What a request, a withdrawal and a change made do to the Own Claim Unit and to the own records (R28 to R33, R42). -/

namespace Sys2Proof.Machine

variable {s : State} {r : Request} {c : OwnClaim} {t : Tag}

/-! ## A change made -/

theorem makeChange_oc (c : Change) (s : State) : (makeChange c s).oc = { s.oc with
    unsent := (placeChange c s.oc.unsent).1
    awaiting := match c.op with
      | .release => setAt s.oc.awaiting c.tag (!(placeChange c s.oc.unsent).2)
      | _ => s.oc.awaiting } := rfl

/-- The records of an owner written, the marks computed again (R8, R10). -/
theorem recomputeMarks_records (k : Station) (e : OwnerEntry) (u : State) :
    (recomputeMarks (setOwner k e u)).ct[k].records.map unmarked = e.records.map unmarked := by
  rw [recomputeMarks_ct, remark_get, show (setOwner k e u).ct = setAt u.ct k e from rfl]
  unfold remarked
  rw [setAt_same]
  exact List.map_map ..

/-- The own records after a change, their marks aside (R10). -/
theorem makeChange_records (c : Change) (s : State) :
    (makeChange c s).ct[s.me].records.map unmarked = (applyChange c s.ct[s.me].records).map unmarked :=
  recomputeMarks_records s.me { s.ct[s.me] with records := applyChange c s.ct[s.me].records } { s with oc := (makeChange c s).oc }

/-- A change coalesces with the one of its tag, in that one's place (R33). -/
theorem placeChange_behind (c : Change) (rest : List Change) : ∀ before : List Change, (∀ d ∈ before, d.tag ≠ c.tag) →
    placeChange c (before ++ rest) = (before ++ (placeChange c rest).1, (placeChange c rest).2)
  | [], _ => rfl
  | d :: before, h => by
    have step : placeChange c (d :: (before ++ rest)) = (d :: (placeChange c (before ++ rest)).1, (placeChange c (before ++ rest)).2) := by
      rw [placeChange, if_neg (h d (List.mem_cons_self ..))]
    rw [List.cons_append, step, placeChange_behind c rest before (fun x m => h x (List.mem_cons_of_mem _ m))]
    rfl

/-! ## Requests -/

/-- A request of an amount in range, HOLD at SAFETY, is placed as it is (R28). -/
theorem request_placed (n : r.amount ≠ 0) (range : amountInRange r.resource r.amount = true) (hold : r.resource = .hold → r.cls = .safety) :
    request r s = placeRequest r s := by
  have taken : asTaken r = r := by
    unfold asTaken
    split
    · rename_i h
      have amount : r.amount = 1 := by rw [h] at range; simpa [amountInRange] using range
      obtain ⟨resource, cls, purpose, amount'⟩ := r
      simp_all
    · rfl
  unfold request
  dsimp only
  rw [taken, if_neg n, if_pos range]

theorem placeRequest_new (h : s.ownClaim r.resource r.purpose = none) : placeRequest r s = requestNew r s := by
  unfold placeRequest; rw [h]

/-- The lowest free tag is taken (R31). -/
theorem freeTag_lowest (free : s.tagFree t = true) (lowest : ∀ i : Tag, i < t → s.tagFree i = false) : s.freeTag = some t := by
  have split : ∀ i : Tag, allTags = allTags.take i ++ i :: allTags.drop (i + 1) := by decide
  have below : ∀ i : Tag, ∀ j ∈ allTags.take i, j < i := by decide
  unfold State.freeTag
  rw [List.find?_eq_some_iff_append]
  exact ⟨free, _, _, split t, fun j m => by rw [lowest j (below t j m)]; rfl⟩

theorem freeTag_none (h : ∀ i : Tag, s.tagFree i = false) : s.freeTag = none := by
  unfold State.freeTag
  rw [List.find?_eq_none]
  exact fun i _ => by simp [h i]

theorem requestNew_isolated (h : s.mu.linkState = .isolated) : requestNew r s = s := by
  unfold requestNew; rw [if_pos h]

theorem requestNew_created (l : s.mu.linkState ≠ .isolated) (room : s.oc.claims.length < 6) (free : s.tagFree t = true)
    (lowest : ∀ i : Tag, i < t → s.tagFree i = false) : requestNew r s = createClaim r t s := by
  have f := freeTag_lowest free lowest
  have h : s.hasRoom = true := by simp [State.hasRoom, f, Config.maxClaims, room]
  unfold requestNew
  rw [if_neg l, if_pos h, f]

/-- With no place or no tag free a request waits (R32). -/
theorem requestNew_waits (l : s.mu.linkState ≠ .isolated) (full : 6 ≤ s.oc.claims.length ∨ ∀ i : Tag, s.tagFree i = false) :
    requestNew r s = waitForRoom r s := by
  have h : s.hasRoom = false := by
    rcases full with f | f
    · simp [State.hasRoom, Config.maxClaims, Nat.not_lt.2 f]
    · simp [State.hasRoom, freeTag_none f]
  unfold requestNew
  rw [if_neg l, if_neg (by simp [h])]

/-- A request of a claim that stands (R28, R29). -/
theorem placeRequest_standing {c : OwnClaim} (h : s.ownClaim r.resource r.purpose = some c) (plain : ∀ hs, c.purpose ≠ .contain hs) :
    placeRequest r s = amendClaim c { c with requested := r.cls, amount := r.amount } s := by
  unfold placeRequest
  rw [h]
  dsimp only
  split
  · rename_i hs e; exact absurd e (plain hs)
  · rfl

theorem placeRequest_contain {c : OwnClaim} {hs : List Holder} (h : s.ownClaim r.resource r.purpose = some c) (p : c.purpose = .contain hs) :
    placeRequest r s = replaceClaim { c with purpose := .contain (addHolders hs (holdersOf r.purpose)) } s := by
  unfold placeRequest
  rw [h]
  dsimp only
  rw [p]

end Sys2Proof.Machine
end

