-- ==== Sys2Proof/Laws/Waiting.lean ====
section
/-! SUPPORT. The waiting request list, what a freed place takes from it, and the containment HOLD (R29, R30, R32, R42). -/

namespace Sys2Proof.Machine

variable {s : State} {r : Request} {c : OwnClaim} {t : Tag}

/-! ## Values amended, claims released -/

theorem amendClaim_amends (old new : OwnClaim) (tag : new.tag = old.tag) (s : State) : s.Amends (amendClaim old new s) old new where
  equal h k := by
    unfold amendClaim replaceClaim
    rw [if_pos ⟨h, k⟩, tag]
  differs h := by
    have n : ¬ (new.cls = old.cls ∧ new.amount = old.amount) := fun ⟨a, b⟩ => h.elim (· a) (· b)
    unfold amendClaim
    rw [if_neg n]
    refine ⟨?_, makeChange_records _ (replaceClaim { new with sent := .unsent } s)⟩
    rw [makeChange_oc]
    unfold replaceClaim
    dsimp only
    rw [tag]
  kept := by unfold amendClaim; split <;> rfl

theorem removeClaim_releases (c : OwnClaim) (s : State) : ∃ u, removeClaim c s = placeFreed u ∧ s.Releases u c :=
  ⟨_, rfl, ⟨rfl, makeChange_records _ { s with oc := { s.oc with claims := s.oc.claims.filter (fun d => d.tag != c.tag) } }, rfl⟩⟩

/-! ## The boost of BOOST (R178) -/

theorem keepBoost_other (s : State) (h : ∀ id fault, s.activeStep ≠ some (id, fault, .boost)) : keepBoost s = s := by
  unfold keepBoost
  split
  · rename_i id fault e
    exact absurd e (h id fault)
  · rfl

theorem keepBoost_none {s : State} {id : Nat} {fault : FaultId} (h : s.activeStep = some (id, fault, .boost))
    (n : s.ownClaim .heat .program = none) : keepBoost s = s := by
  unfold keepBoost setBoost
  rw [h, n]

/-- The boost stands on the PROGRAM HEAT claim while BOOST runs. -/
theorem keepBoost_amends {s : State} {id : Nat} {fault : FaultId} (h : s.activeStep = some (id, fault, .boost))
    (e : s.ownClaim .heat .program = some c) : s.Amends (keepBoost s) c { c with boosted := true } := by
  unfold keepBoost setBoost
  rw [h, e]
  exact amendClaim_amends c { c with boosted := true } rfl s

/-! ## Entering the list -/

theorem enterWaiting_new : ∀ list : List Request, (∀ q ∈ list, ¬ (q.resource = r.resource ∧ samePurpose q.purpose r.purpose = true)) →
    enterWaiting r list = list ++ [r]
  | [], _ => rfl
  | q :: list, h => by
    rw [enterWaiting, if_neg (h q (List.mem_cons_self ..)), enterWaiting_new list fun p m => h p (List.mem_cons_of_mem _ m)]
    rfl

theorem enterWaiting_same {q : Request} {behind : List Request} (same : q.resource = r.resource ∧ samePurpose q.purpose r.purpose = true) :
    ∀ before : List Request, (∀ p ∈ before, ¬ (p.resource = r.resource ∧ samePurpose p.purpose r.purpose = true)) →
    enterWaiting r (before ++ q :: behind) = before ++ mergeRequest q r :: behind
  | [], _ => if_pos same
  | p :: before, h => by
    rw [List.cons_append, enterWaiting, if_neg (h p (List.mem_cons_self ..)),
      enterWaiting_same same before fun p m => h p (List.mem_cons_of_mem _ m)]
    rfl

theorem waitForRoom_new (new : ∀ q ∈ s.oc.waiting, ¬ (q.resource = r.resource ∧ samePurpose q.purpose r.purpose = true)) :
    waitForRoom r s = { s with oc := { s.oc with
      waiting := if s.oc.waiting.length < 8 then s.oc.waiting ++ [r] else s.oc.waiting } } := by
  unfold waitForRoom
  dsimp only
  rw [enterWaiting_new _ new, List.length_append]
  by_cases h : s.oc.waiting.length < 8
  · rw [if_pos (show s.oc.waiting.length + [r].length ≤ Config.maxWaiting from h), if_pos h]
  · rw [if_neg (show ¬ s.oc.waiting.length + [r].length ≤ Config.maxWaiting from h), if_neg h]

theorem waitForRoom_same {before behind : List Request} {q : Request} (list : s.oc.waiting = before ++ q :: behind)
    (few : s.oc.waiting.length ≤ 8) (new : ∀ p ∈ before, ¬ (p.resource = r.resource ∧ samePurpose p.purpose r.purpose = true))
    (same : q.resource = r.resource ∧ samePurpose q.purpose r.purpose = true) :
    waitForRoom r s = { s with oc := { s.oc with waiting := before ++ mergeRequest q r :: behind } } := by
  unfold waitForRoom
  dsimp only
  rw [list, enterWaiting_same same before new, if_pos]
  rw [list] at few
  simpa [Config.maxWaiting] using few

/-! ## Taking from the list -/

theorem hasRoom_iff (s : State) : s.hasRoom = true ↔ s.oc.claims.length < 6 ∧ ∃ t, s.tagFree t = true := by
  have all : ∀ t : Tag, t ∈ allTags := by decide
  unfold State.hasRoom State.freeTag
  simp only [Bool.and_eq_true, decide_eq_true_eq, List.find?_isSome]
  exact and_congr_right fun _ => ⟨fun ⟨t, _, f⟩ => ⟨t, f⟩, fun ⟨t, f⟩ => ⟨t, all t, f⟩⟩

/-- A request taken where there is room leaves the list. -/
theorem placeRequest_waiting (room : s.hasRoom = true) : (placeRequest r s).oc.waiting = s.oc.waiting := by
  unfold placeRequest
  split
  · unfold requestNew
    rw [if_pos room]
    split
    · rfl
    · split <;> rfl
  · split
    · rfl
    · unfold amendClaim
      split <;> rfl

/-- The fuel of takeWaiting is enough where it is the length of the list. -/
theorem takeWaiting_fuel : ∀ (n m : Nat) (s : State), s.oc.waiting.length ≤ n → s.oc.waiting.length ≤ m → takeWaiting n s = takeWaiting m s
  | n, 0, s, _, h => by
    have e := List.length_eq_zero_iff.1 (Nat.le_zero.1 h)
    rw [takeWaiting_nil n s e, takeWaiting_nil 0 s e]
  | 0, m, s, h, _ => by
    have e := List.length_eq_zero_iff.1 (Nat.le_zero.1 h)
    rw [takeWaiting_nil 0 s e, takeWaiting_nil m s e]
  | n + 1, m + 1, s, hn, hm => by
    unfold takeWaiting
    cases room : s.hasRoom with
    | false => rfl
    | true =>
      cases next : nextWaiting s.oc.waiting with
      | none => rfl
      | some r =>
        dsimp only
        have is : r ∈ s.oc.waiting := by
          unfold nextWaiting at next
          split at next
          · rename_i x e; cases next; exact List.mem_of_find?_eq_some e
          · split at next
            · rename_i x e; cases next; exact List.mem_of_find?_eq_some e
            · exact List.mem_of_mem_head? next
        have less := List.length_erase_of_mem is
        have pos := List.length_pos_of_mem is
        have left : (placeRequest r { s with oc := { s.oc with waiting := s.oc.waiting.erase r } }).oc.waiting = s.oc.waiting.erase r :=
          placeRequest_waiting room
        exact takeWaiting_fuel n m _ (by rw [left]; omega) (by rw [left]; omega)

theorem placeFreed_full (full : s.hasRoom = false) : placeFreed s = s := by
  show takeWaiting (7 + 1) s = s
  unfold takeWaiting
  rw [full]

/-- The request of the highest class, the oldest of its class, is taken next (R32). -/
theorem nextWaiting_first {before behind : List Request} (higher : ∀ q ∈ before, classOrder r.cls < classOrder q.cls)
    (high : ∀ q ∈ behind, classOrder r.cls ≤ classOrder q.cls) : nextWaiting (before ++ r :: behind) = some r := by
  have none_before : ∀ cls, classOrder cls ≤ classOrder r.cls → before.find? (fun q => q.cls == cls) = none := by
    intro cls le
    refine List.find?_eq_none.2 fun q m e => ?_
    have lt := higher q m
    rw [beq_iff_eq.1 e] at lt
    omega
  have none_all : ∀ cls, classOrder cls < classOrder r.cls → (before ++ r :: behind).find? (fun q => q.cls == cls) = none := by
    intro cls lt
    refine List.find?_eq_none.2 fun q m e => ?_
    have e := beq_iff_eq.1 e
    rcases List.mem_append.1 m with m | m
    · have := higher q m; rw [e] at this; omega
    · rcases List.mem_cons.1 m with rfl | m
      · rw [e] at lt; omega
      · have := high q m; rw [e] at this; omega
  have found : (before ++ r :: behind).find? (fun q => q.cls == r.cls) = some r := by
    rw [List.find?_append, none_before _ (Nat.le_refl _)]
    simp
  unfold nextWaiting
  cases cls : r.cls with
  | safety => rw [cls] at found; rw [found]
  | recovery => rw [cls] at found; rw [none_all .safety (by rw [cls]; decide), found]
  | process =>
    rw [none_all .safety (by rw [cls]; decide), none_all .recovery (by rw [cls]; decide)]
    cases before with
    | nil => rfl
    | cons q before =>
      have := higher q (List.mem_cons_self ..)
      rw [cls] at this
      cases h : q.cls <;> rw [h] at this <;> simp [classOrder] at this

/-- A freed place is given to that request, taken as a new one; then the list is looked at again (R32). -/
theorem placeFreed_next {before behind : List Request} (list : s.oc.waiting = before ++ r :: behind) (few : s.oc.waiting.length ≤ 8)
    (room : s.hasRoom = true) (higher : ∀ q ∈ before, classOrder r.cls < classOrder q.cls)
    (high : ∀ q ∈ behind, classOrder r.cls ≤ classOrder q.cls) :
    placeFreed s = placeFreed (placeRequest r { s with oc := { s.oc with waiting := before ++ behind } }) := by
  have gone : s.oc.waiting.erase r = before ++ behind := by
    have out : r ∉ before := fun m => Nat.lt_irrefl _ (higher r m)
    rw [list, List.erase_append_right _ out, List.erase_cons_head]
  have shorter : (before ++ behind).length + 1 = s.oc.waiting.length := by rw [list]; simp; omega
  have left : (placeRequest r { s with oc := { s.oc with waiting := before ++ behind } }).oc.waiting = before ++ behind :=
    placeRequest_waiting room
  show takeWaiting (7 + 1) s = takeWaiting 8 _
  rw [takeWaiting]
  rw [room, list, nextWaiting_first higher high, ← list]
  dsimp only
  rw [gone]
  exact takeWaiting_fuel 7 8 _ (by rw [left]; omega) (by rw [left]; omega)

/-- A change number is acknowledged when every JOINED peer that must hold it has acknowledged it or a later one (R38). -/
theorem acknowledged_iff (s : State) (n : Byte) : s.acknowledged n = true ↔ ∀ k : Station, k ≠ s.me → s.mu.peers[k].state = .present →
       s.mu.peers[k].reportedLink = some .joined → ∃ a, s.mu.peers[k].ackOfMe = some a ∧ (a - n).toNat < 128 := by
  have all : ∀ k : Station, k ∈ allStations := by decide
  unfold State.acknowledged State.requiredSet State.peerNumbers
  simp only [List.all_eq_true, List.mem_filter, Bool.and_eq_true, beq_iff_eq, bne_iff_ne]
  constructor
  · intro h k k1 k2 k3
    have := h k ⟨⟨all k, k1⟩, k2, k3⟩
    cases e : s.mu.peers[k].ackOfMe with
    | none => rw [e] at this; cases this
    | some a => rw [e] at this; exact ⟨a, rfl, by simpa [atOrAfter] using this⟩
  · intro h k hk
    obtain ⟨a, e, lt⟩ := h k hk.1.2 hk.2.1 hk.2.2
    rw [e]; simpa [atOrAfter] using lt

end Sys2Proof.Machine
end

