-- ==== Sys2Proof/Laws/Holds.lean ====
section
/-! SUPPORT. The review of the containment HOLD: the holder set of the claim, or of its waiting request, becomes the holders that need one (R29,
R147, R148). -/

namespace Sys2Proof.Machine

variable {s t u : State} {c : OwnClaim} {held : List Holder}

/-! ## The CONTAIN claim -/

/-- The containment request of one holder (R148). -/
abbrev holdRequest (held : List Holder) : Request := { resource := .hold, cls := .safety, amount := 1, purpose := .contain held }

theorem isFor_contain (hs : List Holder) (d : OwnClaim) : d.isFor .hold (.contain hs) = d.isFor .hold (.contain []) := by
  unfold OwnClaim.isFor samePurpose
  cases d.purpose <;> rfl

theorem ownClaim_contain (hs : List Holder) (s : State) : s.ownClaim .hold (.contain hs) = s.ownClaim .hold (.contain []) := by
  unfold State.ownClaim
  exact congrArg (fun p => s.oc.claims.find? p) (funext (isFor_contain hs))

theorem holdRequest_placed (h : List Holder) (s : State) : request (holdRequest h) s = placeRequest (holdRequest h) s :=
  request_placed Nat.one_ne_zero rfl fun _ => rfl

/-- A search that found a claim finds what replaces it. -/
theorem find?_replaced (p : OwnClaim → Bool) (new : OwnClaim) (yes : p new = true) : ∀ l : List OwnClaim, l.find? p = some c →
    (l.map (fun d => if d.tag = c.tag then new else d)).find? p = some new
  | d :: l, found => by
    rw [List.map_cons]
    by_cases tag : d.tag = c.tag
    · rw [if_pos tag, List.find?_cons_of_pos yes]
    · rw [if_neg tag]
      cases q : p d with
      | true => rw [List.find?_cons_of_pos q] at found; cases found; exact absurd rfl tag
      | false =>
        have q : ¬ p d = true := by simp [q]
        rw [List.find?_cons_of_neg q] at found
        rw [List.find?_cons_of_neg q]
        exact find?_replaced p new yes l found

/-- `t` is `s` with these holders in the holder set of its CONTAIN claim `c`, and nothing else written. -/
def HolderSet (c : OwnClaim) (held : List Holder) (s t : State) : Prop :=
  (t = s ∧ c.purpose = .contain held) ∨ t = replaceClaim { c with purpose := .contain held } s

theorem HolderSet.claim (found : s.ownClaim .hold (.contain []) = some c) (h : HolderSet c held s t) :
    t.ownClaim .hold (.contain []) = some { c with purpose := .contain held } := by
  rcases h with ⟨rfl, p⟩ | rfl
  · rw [found, ← p]
  · refine find?_replaced (c := c) _ _ ?_ _ found
    have is := List.find?_some found
    unfold OwnClaim.isFor at is ⊢
    rw [Bool.and_eq_true] at is
    rw [is.1]
    rfl

theorem HolderSet.replace (h : HolderSet c held s t) (more : List Holder) :
    HolderSet c more s (replaceClaim { c with purpose := .contain more } t) := by
  refine .inr ?_
  rcases h with ⟨rfl, -⟩ | rfl
  · rfl
  · unfold replaceClaim
    dsimp only
    rw [List.map_map]
    congr 3
    funext d
    by_cases e : d.tag = c.tag <;> simp [Function.comp, e]

theorem HolderSet.heldFor (found : s.ownClaim .hold (.contain []) = some c) (h : HolderSet c held s t) : t.heldFor = held := by
  unfold State.heldFor
  rw [h.claim found]
  rfl

theorem HolderSet.request (found : s.ownClaim .hold (.contain []) = some c) (h : HolderSet c held s t) (new : Holder) :
    HolderSet c (addHolders held [new]) s (request (holdRequest [new]) t) := by
  rw [holdRequest_placed, placeRequest_contain ((ownClaim_contain [new] t).trans (h.claim found)) rfl]
  exact h.replace _

/-- The CONTAIN claim goes with its last holder (R29, R42). -/
theorem HolderSet.releases (h : HolderSet c held s t) : ∃ u, removeClaim { c with purpose := .contain held } t = placeFreed u ∧ s.Releases u c := by
  obtain ⟨u, e, l, r, k⟩ := removeClaim_releases { c with purpose := .contain held } t
  refine ⟨u, e, ?_⟩
  rcases h with ⟨rfl, -⟩ | rfl
  · exact ⟨l, r, k⟩
  · refine ⟨l.trans ?_, r, k⟩
    have kept : (s.oc.claims.map (fun d => if d.tag = c.tag then { c with purpose := .contain held } else d)).filter (fun d => d.tag != c.tag) =
        s.oc.claims.filter (fun d => d.tag != c.tag) := by
      generalize s.oc.claims = l
      induction l with
      | nil => rfl
      | cons d l ih =>
        rw [List.map_cons]
        by_cases e : d.tag = c.tag
        · rw [if_pos e, List.filter_cons_of_neg (by simp), List.filter_cons_of_neg (by simp [e]), ih]
        · rw [if_neg e, List.filter_cons_of_pos (by simp [e]), List.filter_cons_of_pos (by simp [e]), ih]
    exact congrArg (fun l => ({ s.oc with
      claims := l
      unsent := (placeChange { tag := c.tag, op := .release } s.oc.unsent).1
      awaiting := setAt s.oc.awaiting c.tag (!(placeChange { tag := c.tag, op := .release } s.oc.unsent).2) } : OwnClaimUnit)) kept

theorem HolderSet.withdraw (found : s.ownClaim .hold (.contain []) = some c) (h : HolderSet c held s t) (old : Holder) :
    (held.erase old ≠ [] → HolderSet c (held.erase old) s (withdrawHolder old t)) ∧
    (held.erase old = [] → ∃ u, withdrawHolder old t = placeFreed u ∧ s.Releases u c) := by
  unfold withdrawHolder
  rw [h.claim found]
  dsimp only [holdersOf]
  refine ⟨fun more => ?_, fun empty => ?_⟩
  · rw [if_neg (by simpa using more)]
    exact h.replace _
  · rw [if_pos (by simp [empty])]
    exact h.releases

/-! ## Requests and withdrawals, one after the other -/

theorem addHolders_mem (hs : List Holder) (new h : Holder) : h ∈ addHolders hs [new] ↔ h ∈ hs ∨ h = new := by
  unfold addHolders
  by_cases m : new ∈ hs
  · simp [m]
    rintro rfl
    exact m
  · simp [m]

theorem requestHolders (found : s.ownClaim .hold (.contain []) = some c) : ∀ (l : List Holder) (held : List Holder) (t : State),
    HolderSet c held s t → ∃ now, HolderSet c now s (l.foldl (fun t h => request (holdRequest [h]) t) t) ∧ ∀ h, h ∈ now ↔ h ∈ held ∨ h ∈ l
  | [], held, _, e => ⟨held, e, by simp⟩
  | new :: l, held, t, e => by
    obtain ⟨now, e, m⟩ := requestHolders found l _ _ (e.request found new)
    refine ⟨now, e, fun h => ?_⟩
    rw [m, addHolders_mem, List.mem_cons, or_assoc]

theorem foldl_erase_nil (l : List Holder) : l.foldl List.erase [] = [] := by
  induction l with
  | nil => rfl
  | cons h l ih => exact ih

theorem withdrawHolders (found : s.ownClaim .hold (.contain []) = some c) : ∀ (l : List Holder) (held : List Holder) (t : State),
    HolderSet c held s t → l.foldl List.erase held ≠ [] →
    HolderSet c (l.foldl List.erase held) s (l.foldl (fun t h => withdrawHolder h t) t)
  | [], _, _, e, _ => e
  | old :: l, held, t, e, more => by
    refine withdrawHolders found l _ _ ((e.withdraw found old).1 fun empty => ?_) more
    rw [List.foldl_cons, empty] at more
    exact more (foldl_erase_nil l)

theorem withdrawAll (found : s.ownClaim .hold (.contain []) = some c) (held : List Holder) : ∀ t : State, HolderSet c held s t → held ≠ [] →
    ∃ u, held.foldl (fun t h => withdrawHolder h t) t = placeFreed u ∧ s.Releases u c := by
  induction held with
  | nil => exact fun _ _ n => absurd rfl n
  | cons h held ih =>
    intro t e _
    have w := e.withdraw found h
    rw [List.erase_cons_head] at w
    rw [List.foldl_cons]
    generalize withdrawHolder h t = t at *
    cases held with
    | nil => exact w.2 rfl
    | cons k held => exact ih t (w.1 (by simp)) (by simp)

theorem foldl_erase_count (h : Holder) (l : List Holder) : ∀ held : List Holder, (l.foldl List.erase held).count h = held.count h - l.count h := by
  induction l with
  | nil => exact fun _ => rfl
  | cons k l ih =>
    intro held
    rw [List.foldl_cons, ih, List.count_erase, List.count_cons]
    omega

/-- The holders that are not wanted taken out one by one leave the others. -/
theorem foldl_erase_mem (p : Holder → Bool) (held : List Holder) (h : Holder) :
    h ∈ (held.filter (fun h => !p h)).foldl List.erase held ↔ h ∈ held ∧ p h = true := by
  rw [← List.count_pos_iff, foldl_erase_count, ← List.count_pos_iff (l := held)]
  cases e : p h with
  | true =>
    have out : h ∉ held.filter (fun h => !p h) := fun m => by simpa [e] using (List.mem_filter.1 m).2
    rw [List.count_eq_zero.2 out]
    simp
  | false => rw [List.count_filter (by simp [e])]; simp

/-! ## The review (R148) -/

/-- The holder set of a CONTAIN claim becomes the holders that need it. -/
theorem reviewHolds_claim (on : s.mu.linkState ≠ .isolated) (found : s.ownClaim .hold (.contain []) = some c) (p : c.purpose = .contain held) :
    (s.neededHolders ≠ [] → ∃ now, (∀ h, h ∈ now ↔ h ∈ s.neededHolders) ∧ HolderSet c now s (reviewHolds s)) ∧
    (s.neededHolders = [] → held ≠ [] → ∃ u, reviewHolds s = placeFreed u ∧ s.Releases u c) := by
  have e : HolderSet c held s s := .inl ⟨rfl, p⟩
  have is : s.heldFor = held := e.heldFor found
  unfold reviewHolds
  rw [if_neg on]
  dsimp only
  generalize s.neededHolders = needed
  rw [is]
  obtain ⟨now, e, m⟩ := requestHolders found (needed.filter (fun h => !held.contains h)) held s e
  have is := e.heldFor found
  have all : ∀ h, h ∈ now ↔ h ∈ held ∨ h ∈ needed := by
    intro h
    rw [m]
    by_cases x : h ∈ held <;> simp [x]
  refine ⟨fun more => ?_, fun empty nonempty => ?_⟩
  · rw [is]
    have mem : ∀ h, h ∈ (now.filter (fun h => !needed.contains h)).foldl List.erase now ↔ h ∈ needed := by
      intro h
      rw [foldl_erase_mem (fun h => needed.contains h), all]
      by_cases x : h ∈ needed <;> simp [x]
    refine ⟨_, mem, withdrawHolders found _ _ _ e fun empty => ?_⟩
    obtain ⟨h, l, rfl⟩ := List.exists_cons_of_ne_nil more
    have := (mem h).2 (List.mem_cons_self ..)
    rw [empty] at this
    cases this
  · subst empty
    dsimp only [List.filter_nil, List.foldl_nil]
    rw [HolderSet.heldFor found (.inl ⟨rfl, p⟩ : HolderSet c held s s)]
    rw [show held.filter (fun h => !([] : List Holder).contains h) = held from List.filter_eq_self.2 fun _ _ => rfl]
    exact withdrawAll found held s (.inl ⟨rfl, p⟩) nonempty

theorem heldFor_none (alone : s.ownClaim .hold (.contain []) = none) (plain : ∀ q ∈ s.oc.waiting, ∀ hs, q.purpose ≠ .contain hs) :
    s.heldFor = [] := by
  unfold State.heldFor
  rw [alone]
  refine List.flatMap_eq_nil_iff.2 fun q m => ?_
  unfold holdersOf
  split
  · exact absurd ‹_› (plain q m _)
  · rfl

theorem find?_insertOwn (p : OwnClaim → Bool) (yes : p c = true) : ∀ l : List OwnClaim, l.find? p = none → (insertOwn c l).find? p = some c
  | [], _ => List.find?_cons_of_pos yes
  | d :: l, out => by
    have all := List.find?_eq_none.1 out
    have no := all d (List.mem_cons_self ..)
    unfold insertOwn
    split
    · exact List.find?_cons_of_pos yes
    · rw [List.find?_cons_of_neg no]
      exact find?_insertOwn p yes l (List.find?_eq_none.2 fun x m => all x (List.mem_cons_of_mem _ m))

theorem map_insertOwn (new : OwnClaim) (tag : new.tag = c.tag) : ∀ l : List OwnClaim, (∀ d ∈ l, d.tag ≠ c.tag) →
    (insertOwn c l).map (fun d => if d.tag = c.tag then new else d) = insertOwn new l
  | [], _ => by simp [insertOwn]
  | d :: l, free => by
    have others : ∀ l : List OwnClaim, (∀ d ∈ l, d.tag ≠ c.tag) → l.map (fun d => if d.tag = c.tag then new else d) = l := by
      intro l free
      exact (List.map_congr_left fun d m => if_neg (free d m)).trans (List.map_id' l)
    unfold insertOwn
    rw [tag]
    split
    · rw [List.map_cons, if_pos rfl, others _ free]
    · rw [List.map_cons, if_neg (free d (List.mem_cons_self ..)), map_insertOwn new tag l fun x m => free x (List.mem_cons_of_mem _ m)]

/-- What the review requests where nothing is held for yet: HOLD for every holder that needs it, none withdrawn. -/
theorem reviewHolds_alone (on : s.mu.linkState ≠ .isolated) (alone : s.heldFor = [])
    (held : ∀ h, h ∈ (s.neededHolders.foldl (fun t h => request (holdRequest [h]) t) s).heldFor → h ∈ s.neededHolders) :
    reviewHolds s = s.neededHolders.foldl (fun t h => request (holdRequest [h]) t) s := by
  unfold reviewHolds
  rw [if_neg on, alone]
  dsimp only
  generalize s.neededHolders = needed at *
  rw [show needed.filter (fun h => !([] : List Holder).contains h) = needed from List.filter_eq_self.2 fun _ _ => rfl]
  rw [show ((needed.foldl (fun t h => request (holdRequest [h]) t) s).heldFor.filter (fun h => !needed.contains h)) = [] from
    List.filter_eq_nil_iff.2 fun h m => by simp [held h m]]
  rfl

/-- The claim created for the holders that need it (R29, R31, R148). -/
theorem reviewHolds_created (on : s.mu.linkState ≠ .isolated) (alone : s.ownClaim .hold (.contain []) = none)
    (plain : ∀ q ∈ s.oc.waiting, ∀ hs, q.purpose ≠ .contain hs) (needs : s.neededHolders ≠ []) {t : Tag} (room : s.oc.claims.length < 6)
    (free : s.tagFree t = true) (lowest : ∀ i : Tag, i < t → s.tagFree i = false) :
    ∃ held, (∀ h, h ∈ held ↔ h ∈ s.neededHolders) ∧ (reviewHolds s).oc = { (createClaim (holdRequest held) t s).oc with
      claims := insertOwn (newClaim (holdRequest held) t) s.oc.claims } := by
  obtain ⟨new, l, e⟩ := List.exists_cons_of_ne_nil needs
  have made : request (holdRequest [new]) s = createClaim (holdRequest [new]) t s := by
    rw [holdRequest_placed, placeRequest_new ((ownClaim_contain _ s).trans alone), requestNew_created on room free lowest]
  have found : (createClaim (holdRequest [new]) t s).ownClaim .hold (.contain []) = some (newClaim (holdRequest [new]) t) :=
    find?_insertOwn _ rfl _ alone
  obtain ⟨held, h, m⟩ := requestHolders found l [new] _ (.inl ⟨rfl, rfl⟩)
  have mem : ∀ h, h ∈ held ↔ h ∈ s.neededHolders := fun h => by rw [m, e]; simp
  have all : s.neededHolders.foldl (fun t h => request (holdRequest [h]) t) s =
      l.foldl (fun t h => request (holdRequest [h]) t) (createClaim (holdRequest [new]) t s) := by
    rw [e, List.foldl_cons, made]
  refine ⟨held, mem, ?_⟩
  rw [reviewHolds_alone on (heldFor_none alone plain) (by rw [all, h.heldFor found]; exact fun h => (mem h).1), all]
  have tags : ∀ d ∈ s.oc.claims, d.tag ≠ t := by
    intro d is tag
    have out : s.oc.claims.any (fun c => c.tag == t) = true := List.any_eq_true.2 ⟨d, is, by simp [tag]⟩
    unfold State.tagFree at free
    rw [out] at free
    cases free
  rcases h with ⟨e, p⟩ | e
  · rw [e]
    cases p
    rfl
  · rw [e]
    exact congrArg (fun l => { (createClaim (holdRequest [new]) t s).oc with claims := l })
      (map_insertOwn (c := newClaim (holdRequest [new]) t) (newClaim (holdRequest held) t) rfl s.oc.claims tags)

/-- The request that waits for room, for the holders that need it (R32, R148). -/
theorem reviewHolds_waits (on : s.mu.linkState ≠ .isolated) (alone : s.ownClaim .hold (.contain []) = none)
    (plain : ∀ q ∈ s.oc.waiting, ∀ hs, q.purpose ≠ .contain hs) (needs : s.neededHolders ≠ [])
    (full : 6 ≤ s.oc.claims.length ∨ ∀ i : Tag, s.tagFree i = false) (few : s.oc.waiting.length < 8) :
    ∃ held, (∀ h, h ∈ held ↔ h ∈ s.neededHolders) ∧
      reviewHolds s = { s with oc := { s.oc with waiting := s.oc.waiting ++ [holdRequest held] } } := by
  let waits (held : List Holder) : State := { s with oc := { s.oc with waiting := s.oc.waiting ++ [holdRequest held] } }
  have other : ∀ hs, ∀ q ∈ s.oc.waiting, ¬ (q.resource = (holdRequest hs).resource ∧ samePurpose q.purpose (holdRequest hs).purpose = true) := by
    rintro hs q m ⟨-, same⟩
    cases p : q.purpose with
    | contain gs => exact plain q m gs p
    | program => rw [p] at same; cases same
    | step id => rw [p] at same; cases same
  have first : ∀ new, request (holdRequest [new]) s = waits [new] := by
    intro new
    rw [holdRequest_placed, placeRequest_new ((ownClaim_contain _ s).trans alone), requestNew_waits on full, waitForRoom_new (other _), if_pos few]
  have again : ∀ hs new, request (holdRequest [new]) (waits hs) = waits (addHolders hs [new]) := by
    intro hs new
    have alone : (waits hs).ownClaim .hold (.contain [new]) = none := (ownClaim_contain _ (waits hs)).trans alone
    rw [holdRequest_placed, placeRequest_new alone, requestNew_waits (s := waits hs) on full]
    exact waitForRoom_same (s := waits hs) (q := holdRequest hs) (behind := []) rfl (by show (s.oc.waiting ++ [_]).length ≤ 8; rw [List.length_append]; exact few)
      (other _) ⟨rfl, rfl⟩
  have fold : ∀ (l hs : List Holder), ∃ held, l.foldl (fun t h => request (holdRequest [h]) t) (waits hs) = waits held ∧
      ∀ h, h ∈ held ↔ h ∈ hs ∨ h ∈ l := by
    intro l
    induction l with
    | nil => exact fun hs => ⟨hs, rfl, by simp⟩
    | cons new l ih =>
      intro hs
      obtain ⟨held, e, m⟩ := ih (addHolders hs [new])
      refine ⟨held, by rw [List.foldl_cons, again, e], fun h => ?_⟩
      rw [m, addHolders_mem, List.mem_cons, or_assoc]
  obtain ⟨new, l, e⟩ := List.exists_cons_of_ne_nil needs
  obtain ⟨held, f, m⟩ := fold l [new]
  have mem : ∀ h, h ∈ held ↔ h ∈ s.neededHolders := fun h => by rw [m, e]; simp
  have all : s.neededHolders.foldl (fun t h => request (holdRequest [h]) t) s = waits held := by rw [e, List.foldl_cons, first, f]
  refine ⟨held, mem, ?_⟩
  have is : (waits held).heldFor = held := by
    have alone : (waits held).ownClaim .hold (.contain []) = none := alone
    unfold State.heldFor
    rw [alone]
    show (s.oc.waiting ++ [holdRequest held]).flatMap (fun r => holdersOf r.purpose) = held
    have before : s.oc.waiting.flatMap (fun r => holdersOf r.purpose) = [] := by
      have := heldFor_none (s := s) ‹_› plain
      unfold State.heldFor at this
      rwa [show s.ownClaim .hold (.contain []) = none from ‹_›] at this
    rw [List.flatMap_append, before]
    simp [holdersOf]
  rw [reviewHolds_alone on (heldFor_none ‹_› plain) (by rw [all, is]; exact fun h => (mem h).1), all]

end Sys2Proof.Machine
end

