-- ==== Sys2Proof/Laws/Written.lean ====
section
/-! SUPPORT. What only its own commands write, operation by operation. -/

namespace Sys2Proof.Machine

variable {s t : State}

/-- The pins, the debounced levels, the samples. -/
def lineSide (s : State) := (s.lu.pins, s.lu.debounced, s.ms)
/-- The stored image with its mark. -/
def storedImage (s : State) := (s.cs.stored, s.cs.mixed)
/-- The images, the number and the straps, the result of LOAD. -/
def storeSide (s : State) := (storedImage s, s.cs.working, s.cs.number, s.cs.straps, s.cs.loadResult)
/-- The zone mode and what PROGRAM writes. -/
def modeSide (s : State) := (s.zoneMode, s.pd.phase, s.pd.demand, s.pd.serial)
/-- What only its own commands write. -/
def ownWritten (s : State) := (lineSide s, storeSide s, modeSide s)

theorem ownWritten_internal (i : Internal s t) : ownWritten t = ownWritten s := by
  unfold ownWritten lineSide storeSide storedImage modeSide
  rw [i.pins, i.debounced, i.ms, i.cs, i.zoneMode, i.phase, i.demand, i.serial]

theorem ownWritten_end (tr : Trigger) (s : State) : ownWritten (endEvent tr s) = ownWritten s := ownWritten_internal (endEvent_internal tr s)

theorem ownWritten_pos (p : Nat) (s : State) : ownWritten (setPosition p s) = ownWritten s := by unfold setPosition; split <;> rfl

theorem ownWritten_open (s : State) : ownWritten (beginOpening s) = ownWritten s := by
  have o := beginOpening_opened s
  unfold ownWritten lineSide storeSide storedImage modeSide
  have e := o.same
  have st : (beginOpening s).cs.straps = s.cs.straps := congrArg (fun x => x.2.2.2.2.2.2.2.2.2.2.2.2.1) e
  have lr : (beginOpening s).cs.loadResult = s.cs.loadResult := congrArg (fun x => x.2.2.2.2.2.2.2.1) e
  rw [o.lu, o.ms, o.stored, o.mixed, o.working, o.number, st, lr, o.zoneMode, o.pd]

theorem ownWritten_frameEnds (n : Nat) (s : State) : ownWritten (frameEnds n s) = ownWritten s := (ownWritten_open _).trans (ownWritten_pos _ _)
theorem ownWritten_failureEnds (s : State) : ownWritten (failureEnds s) = ownWritten s := (ownWritten_open _).trans (ownWritten_pos _ _)
theorem ownWritten_claimed (c : Claimed s t) : ownWritten t = ownWritten s := by rw [c]; rfl

theorem ownWritten_takeBack (c : OwnContent) (s : State) : ownWritten (takeBack c s) = ownWritten s := by
  cases c with
  | claim => exact ownWritten_claimed (returnChanges_claimed s)
  | claimSet => exact ownWritten_claimed (returnChanges_claimed s)
  | hazard => rfl
  | presence => rfl
  | resync => rfl
  | reply => simp only [takeBack]; unfold returnQuestion; split <;> rfl
  | setupReply => simp only [takeBack]; unfold returnSetupReply; split <;> rfl

theorem startForestalled_written (f : OwnFrame) (s : State) : ownWritten (startForestalled f s) = ownWritten s :=
  (ownWritten_end _ _).trans (ownWritten_takeBack _ _)

theorem ownWritten_stop (s : State) : ownWritten (stopOwnFrame s) = ownWritten s := by
  unfold stopOwnFrame; split
  · exact ownWritten_takeBack _ s
  · rfl

theorem ownWritten_isolate (r : IsolationReason) (s : State) : ownWritten (isolate r s) = ownWritten s := by
  unfold isolate
  show ownWritten (suspend _) = _
  rw [(suspend_writes _).2]
  exact ownWritten_stop s

theorem ownWritten_complete (c : OwnContent) (s : State) : ownWritten (completionEffects c s) = ownWritten s := by
  unfold completionEffects
  split
  · rfl
  · unfold completeClaim completeChanges; dsimp only; exact (ownWritten_claimed (placeFreed_claimed _)).trans rfl
  · unfold completeClaimSet completeChanges; dsimp only; exact (ownWritten_claimed (placeFreed_claimed _)).trans rfl
  · dsimp only; split <;> rfl
  · rfl
  · unfold replySent; dsimp only; split
    · split <;> rfl
    · rfl
  · rfl

theorem ownWritten_matching (k : Station) (p : PresenceReport) (s : State) : ownWritten (takeMatching k p s) = ownWritten s := by
  rw [(takeMatching_writes k p s).1]; rfl

/-- Going out of service writes the zone mode alone of it. -/
theorem leaveService_written (s : State) : ownWritten { leaveService s with zoneMode := s.zoneMode } = ownWritten s := by
  have out : ∀ u : State, ownWritten { outOfService u with zoneMode := s.zoneMode } = ownWritten { u with zoneMode := s.zoneMode } := by
    intro u
    unfold outOfService
    rw [(queueNotice_writes _ _).2.2]
    rfl
  unfold leaveService
  split
  · rename_i id _
    have i := ownWritten_internal (clearRecord_internal id .leak .leakVerify .restored (outOfService s))
    have m : ∀ t u : State, ownWritten t = ownWritten u →
        ownWritten { t with zoneMode := s.zoneMode } = ownWritten { u with zoneMode := s.zoneMode } := by
      intro t u e
      simp only [ownWritten, lineSide, storeSide, modeSide, Prod.mk.injEq] at e ⊢
      exact ⟨e.1, e.2.1, trivial, e.2.2.2⟩
    exact (m _ _ i).trans (out s)
  · refine (out _).trans ?_
    rw [(suspend_writes _).2]
    rfl

theorem ownWritten_run (kind : FrameKind) (h : Header) (payload : List Byte) (s : State) :
    lineSide (deliverRun kind h payload s) = lineSide s ∧ storeSide (deliverRun kind h payload s) = storeSide s ∧
    (kind ≠ .operator → (deliverRun kind h payload s).zoneMode = s.zoneMode) ∧
    (kind ≠ .program → (deliverRun kind h payload s).pd.phase = s.pd.phase ∧ (deliverRun kind h payload s).pd.demand = s.pd.demand ∧
        (deliverRun kind h payload s).pd.serial = s.pd.serial) := by
  have of : ∀ t, ownWritten t = ownWritten s → lineSide t = lineSide s ∧ storeSide t = storeSide s ∧ (kind ≠ .operator →
      t.zoneMode = s.zoneMode) ∧
    (kind ≠ .program → t.pd.phase = s.pd.phase ∧ t.pd.demand = s.pd.demand ∧ t.pd.serial = s.pd.serial) := by
    intro t e
    exact ⟨congrArg (fun x => x.1) e, congrArg (fun x => x.2.1) e, fun _ => congrArg (fun x => x.2.2.1) e,
        fun _ => ⟨congrArg (fun x => x.2.2.2.1) e, congrArg (fun x => x.2.2.2.2.1) e, congrArg (fun x => x.2.2.2.2.2) e⟩⟩
  unfold deliverRun
  split
  · apply of
    split
    · split
      · unfold takePresence; split
        · split
          · exact ownWritten_matching _ _ _
          · unfold takeDiffering; dsimp only; split <;> rfl
        · rfl
      · rfl
    · rfl
  · apply of
    split
    · unfold deliverClaim; split
      · unfold takeClaim; split
        · rfl
        · dsimp only
          have ap : ∀ k sel last, ownWritten (applySelected k sel last s) = ownWritten s := by
            intro k sel last; unfold applySelected; split <;> rfl
          repeat' split
          all_goals first | rfl | exact ap _ _ _
      · rfl
    · rfl
  · apply of
    split
    · unfold deliverClaimSet; split
      · split
        · rfl
        · unfold reportRestated; dsimp only; split <;> rfl
      · rfl
    · rfl
  · apply of
    split
    · split
      · unfold takeResync; split <;> rfl
      · rfl
    · rfl
  · apply of
    split
    · unfold takeHazard; split
      · rfl
      · split
        · rfl
        · dsimp only; split
          · unfold answerNotice; dsimp only; split
            · rw [(pushHazard_writes _ _).1]; rfl
            · rfl
          · rfl
    · rfl
  · split
    · rename_i ph de se _
      have i : ∀ w, Internal w (phaseEvaluated s.pd.phase w) := by
        intro w; unfold phaseEvaluated; split
        · exact .refl w
        · exact evalTimed_internal _ w
      have e := ownWritten_internal (i (takeProgram ph de se s))
      have w := (changePhase_writes ph { s with pd := { s.pd with demand := de, serial := some se, silencePause := false, silenceTimer := some s.now } }).1
      have ls : lineSide (takeProgram ph de se s) = lineSide s ∧ storeSide (takeProgram ph de se s) = storeSide s ∧
          (takeProgram ph de se s).zoneMode = s.zoneMode := by
        unfold takeProgram; rw [w]; exact ⟨rfl, rfl, rfl⟩
      exact ⟨(congrArg (fun x => x.1) e).trans ls.1, (congrArg (fun x => x.2.1) e).trans ls.2.1,
          fun _ => (congrArg (fun x => x.2.2.1) e).trans ls.2.2, fun hh => absurd rfl hh⟩
    · exact of _ rfl
  · split
    · split
      · rename_i cmd _ _
        have res : lineSide (deliverOperator cmd s) = lineSide s ∧ storeSide (deliverOperator cmd s) = storeSide s ∧
            (deliverOperator cmd s).pd.phase = s.pd.phase ∧ (deliverOperator cmd s).pd.demand = s.pd.demand ∧
            (deliverOperator cmd s).pd.serial = s.pd.serial := by
          have of2 : ∀ t, ownWritten t = ownWritten s → lineSide t = lineSide s ∧ storeSide t = storeSide s ∧ t.pd.phase = s.pd.phase ∧
              t.pd.demand = s.pd.demand ∧ t.pd.serial = s.pd.serial := fun t e =>
            ⟨congrArg (fun x => x.1) e, congrArg (fun x => x.2.1) e, congrArg (fun x => x.2.2.2.1) e, congrArg (fun x => x.2.2.2.2.1) e,
                congrArg (fun x => x.2.2.2.2.2) e⟩
          cases cmd with
          | acknowledge id =>
            apply of2
            show ownWritten (acknowledge id s) = _
            unfold acknowledge; split
            · rfl
            · split
              · rfl
              · exact (ownWritten_internal (resubmitUnrecorded_internal _)).trans rfl
              · rfl
          | abandon id =>
            show lineSide (abandon id s) = _ ∧ storeSide (abandon id s) = _ ∧ (abandon id s).pd.phase = _ ∧ (abandon id s).pd.demand = _ ∧
                (abandon id s).pd.serial = _
            unfold abandon; split
            · exact ⟨rfl, rfl, rfl, rfl, rfl⟩
            · split
              · rename_i reason _
                dsimp only; split
                · have e := leaveService_written (updateRecord id (fun q => { q with state := .abandoned reason }) s)
                  exact ⟨congrArg (fun x => x.1) e, congrArg (fun x => x.2.1) e, congrArg (fun x => x.2.2.2.1) e,
                    congrArg (fun x => x.2.2.2.2.1) e, congrArg (fun x => x.2.2.2.2.2) e⟩
                · exact ⟨rfl, rfl, rfl, rfl, rfl⟩
              · exact ⟨rfl, rfl, rfl, rfl, rfl⟩
          | resumeZone =>
            show lineSide (resumeZone s) = _ ∧ storeSide (resumeZone s) = _ ∧ (resumeZone s).pd.phase = _ ∧ (resumeZone s).pd.demand = _ ∧
                (resumeZone s).pd.serial = _
            unfold resumeZone; split
            · rw [(queueNotice_writes _ _).2.2]
              unfold judgeRegulation
              dsimp only
              split <;> exact ⟨rfl, rfl, rfl, rfl, rfl⟩
            · exact ⟨rfl, rfl, rfl, rfl, rfl⟩
        exact ⟨res.1, res.2.1, fun hh => absurd rfl hh, fun _ => res.2.2⟩
      · exact of _ rfl
    · exact of _ rfl
  · apply of
    split
    · split
      · unfold takeQuery; split <;> rfl
      · rfl
    · rfl
  · exact of _ rfl

theorem ownWritten_service (kind : FrameKind) (h : Header) (payload : List Byte) (s : State) :
    ownWritten (deliverService kind h payload s) = ownWritten s ∨ (kind = .setup ∧
        lineSide (deliverService kind h payload s) = lineSide s ∧ modeSide (deliverService kind h payload s) = modeSide s ∧
      storedImage (deliverService kind h payload s) = storedImage s ∧ (deliverService kind h payload s).cs.number = s.cs.number ∧
          (deliverService kind h payload s).cs.straps = s.cs.straps ∧
          (deliverService kind h payload s).cs.loadResult = s.cs.loadResult) := by
  unfold deliverService
  split
  · left; split
    · split
      · unfold takeQuery; split <;> rfl
      · rfl
    · rfl
  · right
    split
    · split
      · rename_i cmd _ _
        refine ⟨rfl, ?_⟩
        cases cmd with
        | write a keep data =>
          show lineSide (takeWrite a keep data s) = _ ∧ modeSide (takeWrite a keep data s) = _ ∧ storedImage (takeWrite a keep data s) = _ ∧
              (takeWrite a keep data s).cs.number = _ ∧ (takeWrite a keep data s).cs.straps = _ ∧
              (takeWrite a keep data s).cs.loadResult = _
          unfold takeWrite; (repeat' split) <;> exact ⟨rfl, rfl, rfl, rfl, rfl, rfl⟩
        | read a n =>
          show lineSide (takeRead a n s) = _ ∧ modeSide (takeRead a n s) = _ ∧ storedImage (takeRead a n s) = _ ∧
              (takeRead a n s).cs.number = _ ∧ (takeRead a n s).cs.straps = _ ∧ (takeRead a n s).cs.loadResult = _
          unfold takeRead; split <;> exact ⟨rfl, rfl, rfl, rfl, rfl, rfl⟩
        | commit =>
          show lineSide (takeCommit s) = _ ∧ modeSide (takeCommit s) = _ ∧ storedImage (takeCommit s) = _ ∧ (takeCommit s).cs.number = _ ∧
              (takeCommit s).cs.straps = _ ∧ (takeCommit s).cs.loadResult = _
          unfold takeCommit; generalize validity s.cs.working s.cs.straps.number = r
          (repeat' split) <;> exact ⟨rfl, rfl, rfl, rfl, rfl, rfl⟩
        | lock =>
          show lineSide (takeLock s) = _ ∧ modeSide (takeLock s) = _ ∧ storedImage (takeLock s) = _ ∧ (takeLock s).cs.number = _ ∧
              (takeLock s).cs.straps = _ ∧ (takeLock s).cs.loadResult = _
          unfold takeLock; dsimp only; generalize s.cs.working.write 253 0x5A = im; generalize validity im s.cs.straps.number = r
          (repeat' split) <;> exact ⟨rfl, rfl, rfl, rfl, rfl, rfl⟩
        | lineTest a b c => exact ⟨rfl, rfl, rfl, rfl, rfl, rfl⟩
      · exact ⟨rfl, rfl, rfl, rfl, rfl, rfl, rfl⟩
    · exact ⟨rfl, rfl, rfl, rfl, rfl, rfl, rfl⟩
  · left; rfl

/-- What a frame command may write of it: SETUP the working image, OPERATOR the zone mode, PROGRAM the program. -/
def FrameWrites (kind : FrameKind) (s t : State) : Prop :=
  lineSide t = lineSide s ∧ storedImage t = storedImage s ∧ (kind ≠ .setup → t.cs.working = s.cs.working) ∧ t.cs.number = s.cs.number ∧
    t.cs.straps = s.cs.straps ∧ t.cs.loadResult = s.cs.loadResult ∧ (kind ≠ .operator → t.zoneMode = s.zoneMode) ∧
    (kind ≠ .program → t.pd.phase = s.pd.phase ∧ t.pd.demand = s.pd.demand ∧ t.pd.serial = s.pd.serial)

theorem FrameWrites.of_same {kind : FrameKind} (e : ownWritten t = ownWritten s) : FrameWrites kind s t :=
  ⟨congrArg (fun x => x.1) e, congrArg (fun x => x.2.1.1) e, fun _ => congrArg (fun x => x.2.1.2.1) e, congrArg (fun x => x.2.1.2.2.1) e,
    congrArg (fun x => x.2.1.2.2.2.1) e, congrArg (fun x => x.2.1.2.2.2.2) e, fun _ => congrArg (fun x => x.2.2.1) e,
    fun _ => ⟨congrArg (fun x => x.2.2.2.1) e, congrArg (fun x => x.2.2.2.2.1) e, congrArg (fun x => x.2.2.2.2.2) e⟩⟩

theorem FrameWrites.trans {u : State} {kind : FrameKind} (h : FrameWrites kind s t) (k : FrameWrites kind t u) : FrameWrites kind s u := by
  obtain ⟨h1, h2, h3, h4, h5, h6, h7, h8⟩ := h
  obtain ⟨k1, k2, k3, k4, k5, k6, k7, k8⟩ := k
  exact ⟨k1.trans h1, k2.trans h2, fun n => (k3 n).trans (h3 n), k4.trans h4, k5.trans h5, k6.trans h6, fun n => (k7 n).trans (h7 n),
    fun n => ⟨(k8 n).1.trans (h8 n).1, (k8 n).2.1.trans (h8 n).2.1, (k8 n).2.2.trans (h8 n).2.2⟩⟩

theorem acceptFrame_writes (kind : FrameKind) (h : Header) (payload : List Byte) (s : State) :
    FrameWrites kind s (acceptFrame kind h payload s) := by
  unfold acceptFrame
  split
  · split
    · exact .of_same rfl
    · apply FrameWrites.of_same
      unfold duplicateNumber; dsimp only; split
      · rfl
      · split
        · rfl
        · exact ownWritten_isolate _ _
  · exact .of_same rfl
  · exact .of_same rfl
  · exact .of_same rfl
  · exact .of_same rfl
  · unfold deliver
    split
    · have ar : ∀ v, ownWritten (arrived h v) = ownWritten v := by intro v; rw [arrived_eq]; rfl
      refine .trans ?_ (.of_same (ar _))
      split
      · exact .of_same rfl
      · obtain ⟨r1, r2, r3, r4⟩ := ownWritten_run kind h payload (count .accepted s)
        exact ⟨r1, congrArg (fun x => x.1) r2, fun _ => congrArg (fun x => x.2.1) r2, congrArg (fun x => x.2.2.1) r2,
          congrArg (fun x => x.2.2.2.1) r2, congrArg (fun x => x.2.2.2.2) r2, r3, r4⟩
    · split
      · rcases ownWritten_service kind h payload (count .accepted s) with e | ⟨rfl, e1, e2, e3, e4, e5, e6⟩
        · exact .of_same e
        · exact ⟨e1, e3, fun n => absurd rfl n, e4, e5, e6, fun _ => congrArg (fun x => x.1) e2,
            fun _ => ⟨congrArg (fun x => x.2.1) e2, congrArg (fun x => x.2.2.1) e2, congrArg (fun x => x.2.2.2) e2⟩⟩
      · exact .of_same rfl

/-- What the frame commands write of it. -/
theorem ownWritten_receive (kind : FrameKind) (h : Header) (payload : List Byte) (s : State) :
    FrameWrites kind s (receiveFrame kind h payload s) := by
  unfold receiveFrame
  split
  · refine (FrameWrites.of_same (t := mediumEnds s) rfl).trans ((acceptFrame_writes kind h payload _).trans (.of_same ?_))
    exact (ownWritten_frameEnds _ _).trans (ownWritten_end _ _)
  · apply FrameWrites.of_same
    unfold ignoredEnds; split <;> rfl

theorem openedFirst_written (h : Header) (s : State) : ownWritten (openedFirst h s) = ownWritten s := by
  unfold openedFirst
  exact (ownWritten_frameEnds _ _).trans rfl

theorem queryAfterReply_writes (h : Header) (payload : List Byte) (s : State) : FrameWrites .query s (queryAfterReply h payload s) := by
  unfold queryAfterReply
  exact (FrameWrites.of_same (openedFirst_written h s)).trans
    ((acceptFrame_writes .query h payload _).trans (.of_same (ownWritten_end _ _)))

/-- A QUERY writes none of it, in either order of R217. -/
theorem receiveQuery_writes (h : Header) (payload : List Byte) (s : State) : FrameWrites .query s (receiveQuery h payload s) := by
  have used : ∀ t : State, FrameWrites .query t { t with free := t.free + 1 } := fun _ => .of_same rfl
  unfold receiveQuery
  split
  · dsimp only
    split
    · exact (queryAfterReply_writes _ _ _).trans (used _)
    · exact (used s).trans (ownWritten_receive _ _ _ _)
  · exact ownWritten_receive _ _ _ _

end Sys2Proof.Machine
end

