-- ==== Sys2Proof/Laws/Lasting.lean ====
section
/-! SUPPORT. What only a start undoes: an element marked out (R112), the isolation of a latched station (R96). -/

namespace Sys2Proof.Machine

variable {s t u : State}

/-- The duplicate-number latch is set and the link is ISOLATED (R96). -/
def State.held (s : State) : Prop := s.mu.duplicateLatch = true ∧ s.mu.linkState = .isolated

/-- Elements out stay out, a held station stays held. -/
structure Lasting (s t : State) : Prop where
  out : ∀ e : Element, s.lu.elementOut[e] = true → t.lu.elementOut[e] = true
  held : s.held → t.held

theorem Lasting.refl (s : State) : Lasting s s := ⟨fun _ => id, id⟩
theorem Lasting.trans (h : Lasting s t) (k : Lasting t u) : Lasting s u := ⟨fun e x => k.out e (h.out e x), fun x => k.held (h.held x)⟩

/-- What the two are read from. -/
def steady (s : State) := (s.lu.elementOut, s.mu.duplicateLatch, s.mu.linkState)

theorem Lasting.of_steady (e : steady t = steady s) : Lasting s t := by
  simp only [steady, Prod.mk.injEq] at e
  exact ⟨fun _ h => by rw [e.1]; exact h, fun h => ⟨e.2.1.trans h.1, e.2.2.trans h.2⟩⟩

theorem Internal.lasting (i : Internal s t) : Lasting s t where
  out := i.out
  held := fun h => ⟨i.duplicateLatch.trans h.1, by
    rcases i.link with l | ⟨l, -⟩
    · exact l.trans h.2
    · simp [State.joinEnds, h.2] at l⟩

theorem Claimed.steady_eq (c : Claimed s t) : steady t = steady s := by rw [c]; rfl
theorem Opened.steady_eq (o : Opened s t) : steady t = steady s := by unfold steady; rw [o.lu, o.mu]
theorem endEvent_lasting (tr : Trigger) (s : State) : Lasting s (endEvent tr s) := (endEvent_internal tr s).lasting
theorem Lasting.ended (l : Lasting s t) (tr : Trigger) : Lasting s (endEvent tr t) := l.trans (endEvent_lasting tr t)
theorem advanceTo_lasting (n : Nat) (s : State) : Lasting s (advanceTo n s) := .of_steady rfl
theorem setPosition_steady (p : Nat) (s : State) : steady (setPosition p s) = steady s := by unfold setPosition; split <;> rfl
theorem beginOpening_steady (s : State) : steady (beginOpening s) = steady s := (beginOpening_opened s).steady_eq
theorem frameEnds_steady (n : Nat) (s : State) : steady (frameEnds n s) = steady s := (beginOpening_steady _).trans (setPosition_steady _ _)
theorem failureEnds_steady (s : State) : steady (failureEnds s) = steady s := (beginOpening_steady _).trans (setPosition_steady _ _)

theorem takeBack_steady (c : OwnContent) (s : State) : steady (takeBack c s) = steady s := by
  have e := (takeBack_leaves c s).1
  unfold steady
  rw [show (takeBack c s).lu = s.lu from congrArg (fun x => x.1.2.2.2.2.2.1) e,
    show (takeBack c s).mu = s.mu from congrArg (fun x => x.1.2.2.2.2.1) e]

theorem startForestalled_lasting (f : OwnFrame) (s : State) : Lasting s (startForestalled f s) :=
  (Lasting.of_steady (t := activityBegins (takeBack f.content s)) (takeBack_steady _ _)).trans (endEvent_lasting _ _)

theorem stopOwnFrame_steady (s : State) : steady (stopOwnFrame s) = steady s := by
  unfold stopOwnFrame; split
  · exact takeBack_steady _ s
  · rfl

theorem isolate_lasting (reason : IsolationReason) (s : State) : Lasting s (isolate reason s) where
  out := fun e h => by rw [show (isolate reason s).lu = s.lu from (isolate_isolates reason s).kept.2.2.2.2.2.2.2.2.2.1]; exact h
  held := fun h => ⟨(isolate_latch reason s).trans h.1, (isolate_isolates reason s).link.1⟩

theorem duplicateNumber_lasting (s : State) : Lasting s (duplicateNumber s) := by
  have set : Lasting s { s with mu := { s.mu with duplicateLatch := true } } := ⟨fun _ => id, fun h => ⟨rfl, h.2⟩⟩
  unfold duplicateNumber
  dsimp only
  split
  · exact ⟨fun _ => id, fun h => ⟨rfl, h.2⟩⟩
  · split
    · exact .refl s
    · exact set.trans (isolate_lasting _ _)

theorem arrived_lasting (h : Header) (s : State) : Lasting s (arrived h s) := by
  unfold arrived
  split
  · unfold arrivalRecord
    dsimp only
    split
    · rename_i c
      exact ⟨fun _ => id, fun x => absurd c.2 (by rw [x.1]; decide)⟩
    · exact .of_steady rfl
  · exact .refl s

theorem completionEffects_steady (c : OwnContent) (s : State) : steady (completionEffects c s) = steady s := by
  unfold completionEffects
  split
  · rfl
  · unfold completeClaim completeChanges; dsimp only; exact (placeFreed_claimed _).steady_eq.trans rfl
  · unfold completeClaimSet completeChanges; dsimp only; exact (placeFreed_claimed _).steady_eq.trans rfl
  · dsimp only; split <;> rfl
  · rfl
  · unfold replySent; dsimp only; split
    · split <;> rfl
    · rfl
  · rfl

/-! ## Frames -/

theorem takeMatching_steady (k : Station) (p : PresenceReport) (s : State) : steady (takeMatching k p s) = steady s := by
  have applied : ∀ (e : Option Byte) (t : State), steady (takeAppliedEntry k e t) = steady t := by
    intro e t; unfold takeAppliedEntry; (repeat' split) <;> rfl
  unfold takeMatching markStale
  dsimp only
  rw [applied]
  (repeat' split) <;> rfl

theorem takePresence_steady (k : Station) (p : PresenceReport) (s : State) : steady (takePresence k p s) = steady s := by
  unfold takePresence
  split
  · split
    · exact takeMatching_steady k p s
    · unfold takeDiffering; dsimp only; split <;> rfl
  · rfl

theorem takeClaim_steady (k : Station) (payload : List Byte) (s : State) : steady (takeClaim k payload s) = steady s := by
  have ap : ∀ sel last, steady (applySelected k sel last s) = steady s := by
    intro sel last; unfold applySelected; split <;> rfl
  unfold takeClaim; split
  · rfl
  · dsimp only
    repeat' split
    all_goals first | rfl | exact ap _ _

theorem changePhase_steady (phase : Phase) (s : State) : steady (changePhase phase s) = steady s := by rw [changePhase_eq]; rfl

theorem phaseEvaluated_lasting (before : Phase) (s : State) : Lasting s (phaseEvaluated before s) := by
  unfold phaseEvaluated; split
  · exact .refl s
  · exact (evalTimed_internal _ s).lasting

theorem outOfService_steady (s : State) : steady (outOfService s) = steady s := by
  unfold outOfService; rw [(queueNotice_writes _ _).2.2]; rfl

theorem leaveService_lasting (s : State) : Lasting s (leaveService s) := by
  unfold leaveService; split
  · exact (Lasting.of_steady (outOfService_steady s)).trans (clearRecord_internal _ _ _ _ _).lasting
  · exact (suspend_internal s).lasting.trans (.of_steady (outOfService_steady _))

theorem deliverOperator_lasting (c : OperatorCommand) (s : State) : Lasting s (deliverOperator c s) := by
  cases c with
  | acknowledge id =>
    show Lasting s (acknowledge id s)
    unfold acknowledge; split
    · exact .of_steady rfl
    · split
      · exact .of_steady rfl
      · exact (Lasting.of_steady (s := s) (t := removeRecord id s) rfl).trans (resubmitUnrecorded_internal _).lasting
      · exact .of_steady rfl
  | abandon id =>
    show Lasting s (abandon id s)
    unfold abandon; split
    · exact .of_steady rfl
    · split
      · rename_i reason _
        dsimp only; split
        · exact (Lasting.of_steady (s := s) (t := updateRecord id (fun q => { q with state := .abandoned reason }) s) rfl).trans (leaveService_lasting _)
        · exact .of_steady rfl
      · exact .of_steady rfl
  | resumeZone =>
    show Lasting s (resumeZone s)
    unfold resumeZone; split
    · refine .of_steady ?_
      rw [(queueNotice_writes _ _).2.2, judgeRegulation_eq]
      rfl
    · exact .of_steady rfl

theorem deliverRun_lasting (kind : FrameKind) (h : Header) (payload : List Byte) (s : State) : Lasting s (deliverRun kind h payload s) := by
  unfold deliverRun
  split
  · repeat' split
    all_goals first | exact .refl s | exact .of_steady (takePresence_steady _ _ s)
  · split
    · unfold deliverClaim; split
      · exact .of_steady (takeClaim_steady _ _ s)
      · exact .refl s
    · exact .refl s
  · apply Lasting.of_steady
    split
    · unfold deliverClaimSet; split
      · split
        · rfl
        · unfold reportRestated; dsimp only; split <;> rfl
      · rfl
    · rfl
  · apply Lasting.of_steady
    split
    · split
      · unfold takeResync; split <;> rfl
      · rfl
    · rfl
  · apply Lasting.of_steady
    split
    · unfold takeHazard; split
      · rfl
      · split
        · rfl
        · dsimp only; split
          · unfold answerNotice; dsimp only; split
            · rw [(pushHazard_writes _ _).1]; rfl
            · rfl
          · rfl
    · rfl
  · split
    · refine .trans (.of_steady ?_) (phaseEvaluated_lasting _ _)
      unfold takeProgram
      exact (changePhase_steady _ _).trans rfl
    · exact .refl s
  · repeat' split
    all_goals first | exact .refl s | exact deliverOperator_lasting _ s
  · apply Lasting.of_steady
    split
    · split
      · unfold takeQuery; split <;> rfl
      · rfl
    · rfl
  · exact .refl s

theorem deliverSetup_steady (c : SetupCommand) (s : State) : steady (deliverSetup c s) = steady s := by
  cases c with
  | write a keep data => show steady (takeWrite a keep data s) = _; unfold takeWrite; (repeat' split) <;> rfl
  | read a n => show steady (takeRead a n s) = _; unfold takeRead; split <;> rfl
  | commit =>
    show steady (takeCommit s) = _
    unfold takeCommit; generalize validity s.cs.working s.cs.straps.number = r
    (repeat' split) <;> rfl
  | lock =>
    show steady (takeLock s) = _
    unfold takeLock; dsimp only; generalize s.cs.working.write 253 0x5A = im; generalize validity im s.cs.straps.number = r
    (repeat' split) <;> rfl
  | lineTest a b c => rfl

theorem deliverService_steady (kind : FrameKind) (h : Header) (payload : List Byte) (s : State) :
    steady (deliverService kind h payload s) = steady s := by
  unfold deliverService
  split
  · split
    · split
      · unfold takeQuery; split <;> rfl
      · rfl
    · rfl
  · split
    · split
      · exact deliverSetup_steady _ s
      · rfl
    · rfl
  · rfl

theorem acceptFrame_lasting (kind : FrameKind) (h : Header) (payload : List Byte) (s : State) :
    Lasting s (acceptFrame kind h payload s) := by
  unfold acceptFrame
  split
  · split
    · exact .refl s
    · exact duplicateNumber_lasting s
  · exact .of_steady rfl
  · exact .of_steady rfl
  · exact .of_steady rfl
  · exact .of_steady rfl
  · refine (Lasting.of_steady (s := s) (t := count .accepted s) rfl).trans ?_
    unfold deliver
    split
    · refine .trans ?_ (arrived_lasting _ _)
      split
      · exact .refl _
      · exact deliverRun_lasting _ _ _ _
    · split
      · exact .of_steady (deliverService_steady _ _ _ _)
      · exact .refl _

theorem ignoredEnds_steady (s : State) : steady (ignoredEnds s) = steady s := by unfold ignoredEnds; split <;> rfl

theorem receiveFrame_lasting (kind : FrameKind) (h : Header) (payload : List Byte) (s : State) :
    Lasting s (receiveFrame kind h payload s) := by
  unfold receiveFrame
  split
  · exact (Lasting.of_steady (s := s) (t := mediumEnds s) rfl).trans ((acceptFrame_lasting kind h payload _).trans
      ((endEvent_lasting _ _).trans (.of_steady (frameEnds_steady _ _))))
  · exact .of_steady (ignoredEnds_steady s)

theorem queryAfterReply_lasting (h : Header) (payload : List Byte) (s : State) : Lasting s (queryAfterReply h payload s) := by
  unfold queryAfterReply openedFirst
  exact (Lasting.of_steady (s := s) ((frameEnds_steady _ (mediumEnds s)).trans rfl)).trans
    ((acceptFrame_lasting _ _ _ _).trans (endEvent_lasting _ _))

theorem receiveQuery_lasting (h : Header) (payload : List Byte) (s : State) : Lasting s (receiveQuery h payload s) := by
  have used : ∀ t : State, Lasting t { t with free := t.free + 1 } := fun _ => .of_steady rfl
  unfold receiveQuery
  split
  · dsimp only
    split
    · exact (queryAfterReply_lasting _ _ _).trans (used _)
    · exact (used s).trans (receiveFrame_lasting _ _ _ _)
  · exact receiveFrame_lasting _ _ _ _

/-! ## The end of SETTLE -/

theorem restoreCarried_lu (s : State) : (restoreCarried s).lu = s.lu := by
  have one : ∀ (t : State) (c : CarriedIncident), (restoreOne t c).lu = t.lu := by
    intro t c; unfold restoreOne; split
    · dsimp only; split
      · rw [(queueNotice_writes _ _).2.2]; rfl
      · rfl
    · rfl
  have all : ∀ (l : List CarriedIncident) (t : State), (l.foldl restoreOne t).lu = t.lu := by
    intro l; induction l with
    | nil => exact fun _ => rfl
    | cons c l ih => exact fun t => (ih _).trans (one t c)
  exact all s.cs.carryIncidents s

theorem enterService_lu (s : State) : (enterService s).lu = s.lu := by
  unfold enterService; dsimp only; split
  · rw [(queueNotice_writes _ _).2.2]; rfl
  · rfl

theorem listening_lu (s : State) : (receiverOn (becomeListening s)).lu = s.lu := rfl

/-- Every element out stays out at the end of SETTLE. -/
theorem settleEnds_out (s : State) (e : Element) (h : s.lu.elementOut[e] = true) : (settleEnds s).lu.elementOut[e] = true := by
  have a := restoreCarried_lu s
  unfold settleEnds
  dsimp only
  generalize restoreCarried s = u at *
  have b := reviewHolds_internal u
  generalize reviewHolds u = w at *
  have c := runDetectors_internal { w with cs := { w.cs with stage := .entered } }
  generalize runDetectors { w with cs := { w.cs with stage := .entered } } = v at *
  have d := enterService_lu v
  generalize enterService v = x at *
  have kept : v.lu.elementOut[e] = true := c.out e (b.out e (a ▸ h))
  rw [← d] at kept
  exact kept

end Sys2Proof.Machine
end

