-- ==== Sys2Proof/Laws/Payloads.lean ====
section
/-! SUPPORT. The bits and bytes of the payloads the part sends, and how many changes the send window lets a CLAIM take. -/

namespace Sys2Proof.Machine

/-- How many of the next change numbers the send window admits in a row: all of them are admitted and the one after is not (R36). -/
theorem admitted_spec (s : State) : ∀ (left : Nat) (b : Byte), s.admitted left b ≤ left ∧
    (∀ i < s.admitted left b, s.windowAdmits (b + byteOf i) = true) ∧
    (s.admitted left b < left → s.windowAdmits (b + byteOf (s.admitted left b)) = false)
  | 0, b => ⟨Nat.le_refl _, fun i h => absurd h (Nat.not_lt_zero _), fun h => absurd h (Nat.lt_irrefl _)⟩
  | left + 1, b => by
    obtain ⟨h1, h2, h3⟩ := admitted_spec s left (b + 1)
    unfold State.admitted
    have b0 : b + byteOf 0 = b := by show b + 0#8 = b; simp
    have sh : ∀ i, b + byteOf (i + 1) = b + 1 + byteOf i := by
      intro i
      have : byteOf (i + 1) = 1 + byteOf i := by
        unfold byteOf; rw [BitVec.ofNat_add, BitVec.add_comm]; rfl
      rw [this, ← BitVec.add_assoc]
    cases e : s.windowAdmits b with
    | false =>
      simp only [Bool.false_eq_true, if_false]
      exact ⟨Nat.zero_le _, fun i h => absurd h (Nat.not_lt_zero _), fun _ => by rw [b0]; exact e⟩
    | true =>
      simp only [if_true]
      rw [Nat.add_comm 1]
      refine ⟨by omega, fun i hi => ?_, fun h => ?_⟩
      · cases i with
        | zero => rw [b0]; exact e
        | succ i => rw [sh]; exact h2 i (by omega)
      · rw [sh]; exact h3 (by omega)

/-- The send window admits a number that is at most 64 after the acknowledgement of every peer that has given one (R36). -/
theorem windowAdmits_iff (s : State) (m : Byte) : s.windowAdmits m = true ↔ ∀ (k : Station) (a : Byte), k ≠ s.me → s.mu.peers[k].state = .present →
      s.mu.peers[k].reportedLink = some .joined → s.mu.peers[k].ackOfMe = some a → (m - a).toNat ≤ 64 := by
  have all : ∀ k : Station, k ∈ allStations := by decide
  unfold State.windowAdmits State.requiredSet State.peerNumbers
  simp only [List.all_eq_true, List.mem_filter, Bool.and_eq_true, beq_iff_eq, bne_iff_ne]
  constructor
  · intro h k a k1 k2 k3 k4
    have := h k ⟨⟨all k, k1⟩, k2, k3⟩
    rw [k4] at this
    exact of_decide_eq_true this
  · intro h k hk
    cases e : s.mu.peers[k].ackOfMe with
    | none => rfl
    | some a => exact decide_eq_true (h k a hk.1.2 hk.2.1 hk.2.2 e)

/-- Bit i of a mask is entry i of its list. -/
theorem maskOf_bit : ∀ (l : List Bool) (i : Nat), (maskOf l).testBit i = l.getD i false
  | [], i => by simp [maskOf]
  | b :: l, 0 => by
    unfold maskOf
    rw [Nat.testBit_zero]
    cases b <;> simp
  | b :: l, i + 1 => by
    unfold maskOf
    rw [Nat.testBit_succ]
    have : ((if b = true then 1 else 0) + 2 * maskOf l) / 2 = maskOf l := by cases b <;> simp; omega
    rw [this, maskOf_bit l i]; rfl

/-- A mask of n entries has n bits. -/
theorem maskOf_lt : ∀ l : List Bool, maskOf l < 2 ^ l.length
  | [] => by simp [maskOf]
  | b :: l => by
    have := maskOf_lt l
    unfold maskOf
    rw [List.length_cons, Nat.pow_succ]
    cases b <;> simp <;> omega

/-- Two bytes, the high one first, hold the low sixteen bits of a number. -/
theorem wordBytes_bit (n i : Nat) (hi : i < 16) : (byteOf (n / 256) ++ byteOf n : Word16).getLsbD i = n.testBit i := by
  rw [BitVec.getLsbD_append]
  unfold byteOf
  split
  · rename_i h; rw [BitVec.getLsbD_ofNat]; simp [h]
  · rename_i h
    rw [BitVec.getLsbD_ofNat]
    have : n / 256 = n >>> 8 := by rw [Nat.shiftRight_eq_div_pow]
    rw [this, Nat.testBit_shiftRight]
    have : 8 + (i - 8) = i := by omega
    rw [this]; simp; omega

/-- A list built of pieces of one length. -/
theorem flatMap_length {α β} (f : α → List β) (n : Nat) : ∀ l : List α, (∀ x ∈ l, (f x).length = n) → (l.flatMap f).length = n * l.length
  | [], _ => rfl
  | x :: l, h => by
    rw [List.flatMap_cons, List.length_append, h x (by simp), flatMap_length f n l (fun y hy => h y (by simp [hy])), List.length_cons, Nat.mul_succ]
    omega

/-- A sample is three bytes (R215). -/
theorem sampleBytes_length (c : Channel) (o : Option Sample) : (sampleBytes c o).length = 3 := by
  unfold sampleBytes; split <;> rfl

/-- The two bytes of a word, the high one first. -/
theorem word_high (w : Word16) : highByte w = byteOf (w.toNat / 256) ∧ lowByte w = byteOf w.toNat := by
  constructor <;> apply BitVec.eq_of_toNat_eq
  · simp [highByte, byteOf, Nat.shiftRight_eq_div_pow]
  · simp [lowByte, byteOf]

/-- Two bytes of a number are the two bytes of its low sixteen bits. -/
theorem wordBytes_eq (n : Nat) : wordBytes n = [highByte (BitVec.ofNat 16 n), lowByte (BitVec.ofNat 16 n)] := by
  unfold wordBytes
  rw [(word_high _).1, (word_high _).2]
  congr 1
  · unfold byteOf; apply BitVec.eq_of_toNat_eq; simp; omega
  · congr 1; unfold byteOf; apply BitVec.eq_of_toNat_eq; simp

/-- Bit i of a mask of sixteen entries or fewer, sent as a word, is entry i. -/
theorem maskWord_bit (l : List Bool) (i : Nat) (h : l.length ≤ 16) : (BitVec.ofNat 16 (maskOf l)).getLsbD i = l.getD i false := by
  rw [BitVec.getLsbD_ofNat, maskOf_bit]
  by_cases hi : i < 16
  · simp [hi]
  · have : l[i]? = none := List.getElem?_eq_none (by omega)
    simp [List.getD, this]

end Sys2Proof.Machine
end

