-- ==== Sys2Proof/Laws/PerInstr.lean ====
section
/-! SUPPORT. The family WellFormed: what the check of a term says of each command: a frame's payload fits a frame (R63), a check failure
is no valid frame (R46), a kind code of no frame is 12 to 15 (R63), a presented value is a signed two-byte number. -/

namespace Sys2Proof.Laws.WellFormed

open Sys2Proof.Machine

/-- The payload of a frame command; none where the command is no frame. -/
def payloadOf : Instr → Option (List Byte)
  | .presence _ payload => some payload
  | .claim _ payload => some payload
  | .claimSet _ payload => some payload
  | .resync _ payload => some payload
  | .hazard _ payload => some payload
  | .program _ payload => some payload
  | .acknowledge _ payload => some payload
  | .abandon _ payload => some payload
  | .resumeZone _ payload => some payload
  | .queryStatus _ payload => some payload
  | .queryIncidents _ payload => some payload
  | .queryClaims _ payload => some payload
  | .queryPeers _ payload => some payload
  | .queryCounters _ payload => some payload
  | .write _ payload => some payload
  | .read _ payload => some payload
  | .commit _ payload => some payload
  | .lock _ payload => some payload
  | .lineTest _ payload => some payload
  | .restart _ payload _ => some payload
  | .replyReceived _ _ payload => some payload
  | .undefinedKindFrame _ _ payload => some payload
  | _ => none

/-- What passing the check says of a command. -/
def Statement (i : Instr) : Prop :=
  i.wellFormed = true →
    (∀ payload, payloadOf i = some payload → payload.length ≤ 56) ∧
    (∀ received, i = .checkFailure received → validReception received = false) ∧
    (∀ code h payload, i = .undefinedKindFrame code h payload → 12 ≤ code.toNat) ∧
    (∀ c v, i = .sampleArrival c (.value v) → -32768 ≤ v ∧ v ≤ 32767)

/-- A frame command of a kind with a code: what is left to show is its length. -/
theorem frame {i : Instr} {payload : List Byte} (hp : payloadOf i = some payload) (hl : i.wellFormed = true → payload.length ≤ 56)
    (h1 : ∀ r, i ≠ .checkFailure r) (h2 : ∀ c h p, i ≠ .undefinedKindFrame c h p) (h3 : ∀ c v, i ≠ .sampleArrival c (.value v)) :
    Statement i := fun w =>
  ⟨fun q e => by rw [hp] at e; cases e; exact hl w, fun r e => absurd e (h1 r), fun c h p e => absurd e (h2 c h p),
    fun c v e => absurd e (h3 c v)⟩

/-- A command that is no frame, no check failure and no sample. -/
theorem other {i : Instr} (hp : payloadOf i = none) (h1 : ∀ r, i ≠ .checkFailure r) (h2 : ∀ c h p, i ≠ .undefinedKindFrame c h p)
    (h3 : ∀ c v, i ≠ .sampleArrival c (.value v)) : Statement i := fun _ =>
  ⟨fun q e => (by rw [hp] at e; cases e), fun r e => absurd e (h1 r), fun c h p e => absurd e (h2 c h p), fun c v e => absurd e (h3 c v)⟩

theorem fits {payload : List Byte} (h : payloadFits payload = true) : payload.length ≤ 56 := by
  simpa [payloadFits] using h

theorem fitsRow {payload : List Byte} {b : Bool} (h : (payloadFits payload && b) = true) : payload.length ≤ 56 := by
  rw [Bool.and_eq_true] at h; exact fits h.1

theorem powerOn (straps : Straps) : Statement (.powerOn straps) :=
  other rfl (fun _ => nofun) (fun _ _ _ => nofun) (fun _ _ => nofun)
theorem brownOut : Statement .brownOut :=
  other rfl (fun _ => nofun) (fun _ _ _ => nofun) (fun _ _ => nofun)
theorem supplyReturn (straps : Straps) : Statement (.supplyReturn straps) :=
  other rfl (fun _ => nofun) (fun _ _ _ => nofun) (fun _ _ => nofun)
theorem settleEnd : Statement .settleEnd :=
  other rfl (fun _ => nofun) (fun _ _ _ => nofun) (fun _ _ => nofun)
theorem rawLevelChange (line : Line) (high : Bool) : Statement (.rawLevelChange line high) :=
  other rfl (fun _ => nofun) (fun _ _ _ => nofun) (fun _ _ => nofun)
theorem lineChangeEvent (line : Line) : Statement (.lineChangeEvent line) :=
  other rfl (fun _ => nofun) (fun _ _ _ => nofun) (fun _ _ => nofun)
theorem sampleArrival (channel : Channel) (presented : Presented) : Statement (.sampleArrival channel presented) := fun w =>
  ⟨fun _ e => (nomatch e), fun _ e => (nomatch e), fun _ _ _ e => (nomatch e), fun _ _ e => by
    cases e; simpa [Instr.wellFormed, presentable] using w⟩
theorem receptionStart : Statement .receptionStart :=
  other rfl (fun _ => nofun) (fun _ _ _ => nofun) (fun _ _ => nofun)
theorem checkFailure (received : List Byte) : Statement (.checkFailure received) := fun w =>
  ⟨fun _ e => (nomatch e), fun _ e => by cases e; simpa [Instr.wellFormed] using w, fun _ _ _ e => (nomatch e), fun _ _ e => (nomatch e)⟩
theorem babble : Statement .babble :=
  other rfl (fun _ => nofun) (fun _ _ _ => nofun) (fun _ _ => nofun)
theorem openingExpiry : Statement .openingExpiry :=
  other rfl (fun _ => nofun) (fun _ _ _ => nofun) (fun _ _ => nofun)
theorem idleReset : Statement .idleReset :=
  other rfl (fun _ => nofun) (fun _ _ _ => nofun) (fun _ _ => nofun)
theorem ownFrameComplete : Statement .ownFrameComplete :=
  other rfl (fun _ => nofun) (fun _ _ _ => nofun) (fun _ _ => nofun)
theorem collision : Statement .collision :=
  other rfl (fun _ => nofun) (fun _ _ _ => nofun) (fun _ _ => nofun)
theorem transmitCut : Statement .transmitCut :=
  other rfl (fun _ => nofun) (fun _ _ _ => nofun) (fun _ _ => nofun)
theorem presence (h : Header) (payload : List Byte) : Statement (.presence h payload) :=
  frame rfl fits (fun _ => nofun) (fun _ _ _ => nofun) (fun _ _ => nofun)
theorem claim (h : Header) (payload : List Byte) : Statement (.claim h payload) :=
  frame rfl fits (fun _ => nofun) (fun _ _ _ => nofun) (fun _ _ => nofun)
theorem claimSet (h : Header) (payload : List Byte) : Statement (.claimSet h payload) :=
  frame rfl fits (fun _ => nofun) (fun _ _ _ => nofun) (fun _ _ => nofun)
theorem resync (h : Header) (payload : List Byte) : Statement (.resync h payload) :=
  frame rfl fits (fun _ => nofun) (fun _ _ _ => nofun) (fun _ _ => nofun)
theorem hazard (h : Header) (payload : List Byte) : Statement (.hazard h payload) :=
  frame rfl fits (fun _ => nofun) (fun _ _ _ => nofun) (fun _ _ => nofun)
theorem program (h : Header) (payload : List Byte) : Statement (.program h payload) :=
  frame rfl fits (fun _ => nofun) (fun _ _ _ => nofun) (fun _ _ => nofun)
theorem acknowledge (h : Header) (payload : List Byte) : Statement (.acknowledge h payload) :=
  frame rfl fitsRow (fun _ => nofun) (fun _ _ _ => nofun) (fun _ _ => nofun)
theorem abandon (h : Header) (payload : List Byte) : Statement (.abandon h payload) :=
  frame rfl fitsRow (fun _ => nofun) (fun _ _ _ => nofun) (fun _ _ => nofun)
theorem resumeZone (h : Header) (payload : List Byte) : Statement (.resumeZone h payload) :=
  frame rfl fitsRow (fun _ => nofun) (fun _ _ _ => nofun) (fun _ _ => nofun)
theorem queryStatus (h : Header) (payload : List Byte) : Statement (.queryStatus h payload) :=
  frame rfl fitsRow (fun _ => nofun) (fun _ _ _ => nofun) (fun _ _ => nofun)
theorem queryIncidents (h : Header) (payload : List Byte) : Statement (.queryIncidents h payload) :=
  frame rfl fitsRow (fun _ => nofun) (fun _ _ _ => nofun) (fun _ _ => nofun)
theorem queryClaims (h : Header) (payload : List Byte) : Statement (.queryClaims h payload) :=
  frame rfl fitsRow (fun _ => nofun) (fun _ _ _ => nofun) (fun _ _ => nofun)
theorem queryPeers (h : Header) (payload : List Byte) : Statement (.queryPeers h payload) :=
  frame rfl fitsRow (fun _ => nofun) (fun _ _ _ => nofun) (fun _ _ => nofun)
theorem queryCounters (h : Header) (payload : List Byte) : Statement (.queryCounters h payload) :=
  frame rfl fitsRow (fun _ => nofun) (fun _ _ _ => nofun) (fun _ _ => nofun)
theorem write (h : Header) (payload : List Byte) : Statement (.write h payload) :=
  frame rfl fitsRow (fun _ => nofun) (fun _ _ _ => nofun) (fun _ _ => nofun)
theorem read (h : Header) (payload : List Byte) : Statement (.read h payload) :=
  frame rfl fitsRow (fun _ => nofun) (fun _ _ _ => nofun) (fun _ _ => nofun)
theorem commit (h : Header) (payload : List Byte) : Statement (.commit h payload) :=
  frame rfl fitsRow (fun _ => nofun) (fun _ _ _ => nofun) (fun _ _ => nofun)
theorem lock (h : Header) (payload : List Byte) : Statement (.lock h payload) :=
  frame rfl fitsRow (fun _ => nofun) (fun _ _ _ => nofun) (fun _ _ => nofun)
theorem lineTest (h : Header) (payload : List Byte) : Statement (.lineTest h payload) :=
  frame rfl fitsRow (fun _ => nofun) (fun _ _ _ => nofun) (fun _ _ => nofun)
theorem rowProgrammed : Statement .rowProgrammed :=
  other rfl (fun _ => nofun) (fun _ _ _ => nofun) (fun _ _ => nofun)
theorem restart (h : Header) (payload : List Byte) (straps : Straps) : Statement (.restart h payload straps) :=
  frame rfl fits (fun _ => nofun) (fun _ _ _ => nofun) (fun _ _ => nofun)
theorem replyReceived (ofSetup : Bool) (h : Header) (payload : List Byte) : Statement (.replyReceived ofSetup h payload) :=
  frame rfl fits (fun _ => nofun) (fun _ _ _ => nofun) (fun _ _ => nofun)
theorem listenTimerExpiry : Statement .listenTimerExpiry :=
  other rfl (fun _ => nofun) (fun _ _ _ => nofun) (fun _ _ => nofun)
theorem silenceTimerExpiry (peer : Station) : Statement (.silenceTimerExpiry peer) :=
  other rfl (fun _ => nofun) (fun _ _ _ => nofun) (fun _ _ => nofun)
theorem expiryTimerExpiry (peer : Station) : Statement (.expiryTimerExpiry peer) :=
  other rfl (fun _ => nofun) (fun _ _ _ => nofun) (fun _ _ => nofun)
theorem notHeardFrom : Statement .notHeardFrom :=
  other rfl (fun _ => nofun) (fun _ _ _ => nofun) (fun _ _ => nofun)
theorem notHeardBy : Statement .notHeardBy :=
  other rfl (fun _ => nofun) (fun _ _ _ => nofun) (fun _ _ => nofun)
theorem panelSilence : Statement .panelSilence :=
  other rfl (fun _ => nofun) (fun _ _ _ => nofun) (fun _ _ => nofun)
theorem tTempExpiry : Statement .tTempExpiry :=
  other rfl (fun _ => nofun) (fun _ _ _ => nofun) (fun _ _ => nofun)
theorem tFillExpiry : Statement .tFillExpiry :=
  other rfl (fun _ => nofun) (fun _ _ _ => nofun) (fun _ _ => nofun)
theorem tDrainExpiry : Statement .tDrainExpiry :=
  other rfl (fun _ => nofun) (fun _ _ _ => nofun) (fun _ _ => nofun)
theorem tFilterExpiry : Statement .tFilterExpiry :=
  other rfl (fun _ => nofun) (fun _ _ _ => nofun) (fun _ _ => nofun)
theorem stepTimerExpiry : Statement .stepTimerExpiry :=
  other rfl (fun _ => nofun) (fun _ _ _ => nofun) (fun _ _ => nofun)
theorem claimWaitExpiry : Statement .claimWaitExpiry :=
  other rfl (fun _ => nofun) (fun _ _ _ => nofun) (fun _ _ => nofun)
theorem dryTimerExpiry : Statement .dryTimerExpiry :=
  other rfl (fun _ => nofun) (fun _ _ _ => nofun) (fun _ _ => nofun)
theorem babbleReceptionEnd : Statement .babbleReceptionEnd :=
  other rfl (fun _ => nofun) (fun _ _ _ => nofun) (fun _ _ => nofun)
theorem undefinedKindFrame (code : BitVec 4) (h : Header) (payload : List Byte) : Statement (.undefinedKindFrame code h payload) := fun w => by
  simp only [Instr.wellFormed, Bool.and_eq_true, decide_eq_true_eq] at w
  exact ⟨fun _ e => by cases e; exact fits w.2, fun _ e => (nomatch e), fun _ _ _ e => by cases e; exact w.1, fun _ _ e => (nomatch e)⟩

end Sys2Proof.Laws.WellFormed
end

