-- ==== Sys2Proof/Laws/Queries.lean ====
section
/-! SUPPORT. The frame commands as receptions, and the two orders of a QUERY and the building of a REPLY (R217). -/

namespace Sys2Proof.Machine

variable {s : State} {c : Instr} {kind : FrameKind} {h : Header} {payload : List Byte}

/-- A frame command other than a QUERY and a RESTART is the reception of its frame. -/
theorem exec_frame (f : frameOf c = some (kind, h, payload)) (q : kind ≠ .query) (r : kind ≠ .restart) :
    exec c s = .next (receiveFrame kind h payload s) := by
  cases c <;> simp only [frameOf, Option.some.injEq, Prod.mk.injEq, reduceCtorEq] at f <;>
    (obtain ⟨rfl, rfl, rfl⟩ := f) <;> first | rfl | exact absurd rfl q | exact absurd rfl r

theorem exec_query (f : frameOf c = some (.query, h, payload)) : exec c s = .next (receiveQuery h payload s) := by
  have all : ∀ k, k = FrameKind.query → frameOf c = some (k, h, payload) → exec c s = .next (receiveQuery h payload s) := by
    intro k e f
    cases c <;> simp only [frameOf, Option.some.injEq, Prod.mk.injEq, reduceCtorEq] at f <;>
      (obtain ⟨rfl, rfl, rfl⟩ := f) <;> first | rfl | cases e | (split at e <;> cases e)
  exact all _ rfl f

/-- Where no REPLY is met the QUERY is received as any frame. -/
theorem receiveQuery_alone (n : s.replyMeetsQuery h payload = false) : receiveQuery h payload s = receiveFrame .query h payload s := by
  unfold receiveQuery
  rw [n]
  rfl

/-- A QUERY that is not accepted meets no REPLY. -/
theorem replyMeetsQuery_dropped (n : s.acceptance .query h payload ≠ .accepted) : s.replyMeetsQuery h payload = false := by
  simp [State.replyMeetsQuery, State.takesQuery, n]

/-- An opening that starts a REPLY takes the question out of the slot (R54, R214). -/
theorem beginOpening_reply (quiet : s.lc.medium = .quiet) {f : OwnFrame} (m : (beginOpening s).lc.medium = .own f) (r : f.content = .reply) :
    ∃ q, s.rp.slot = some q ∧ beginOpening s = sendReply q { s with lc := { s.lc with openingStart := s.now } } := by
  have started : ∀ (t : State) (content : OwnContent) (k : FrameKind) (g : BitVec 12) (p : List Byte), content ≠ .reply →
      (startFrame content k g p t).lc.medium ≠ .own f := by
    intro t content k g p n e
    unfold startFrame setMedium at e
    injection e with e
    subst e
    exact n r
  have none : ∀ t : State, t.lc.medium = .quiet → t.lc.medium ≠ .own f := fun t q e => by rw [q] at e; cases e
  revert m
  unfold beginOpening
  dsimp only
  split
  · exact fun m => absurd m (none _ quiet)
  split
  · split
    · unfold chooseServiceFrame
      split
      · exact fun m => absurd m (started _ _ _ _ _ (by simp))
      · rename_i q _ e
        exact fun _ => ⟨q, e, rfl⟩
      · exact fun m => absurd m (none _ quiet)
    · exact fun m => absurd m (none _ quiet)
  split
  · unfold chooseFrame
    repeat' split
    all_goals first
      | (rename_i q e; exact fun _ => ⟨q, e, rfl⟩)
      | exact fun m => absurd m (none _ quiet)
      | exact fun m => absurd m (started _ _ _ _ _ (by simp))
  · exact fun m => absurd m (none _ quiet)

/-- The opening begun first: the REPLY is on the wire, the question in flight, the slot empty. -/
theorem openedFirst_reply (m : s.replyMeetsQuery h payload = true) : ∃ q f, s.rp.slot = some q ∧
    openedFirst h s = { s with lc := (openedFirst h s).lc, rp := { s.rp with slot := none, inFlight := some q } } ∧
    (openedFirst h s).lc.medium = .own f ∧ f.content = .reply ∧ f.start = s.now := by
  simp only [State.replyMeetsQuery, Bool.and_eq_true] at m
  obtain ⟨-, sends⟩ := m
  have quiet : (setPosition ((mediumEnds s).positionAfter h.sender.toNat) (mediumEnds s)).lc.medium = .quiet := setPosition_medium _ _
  unfold State.sendsReply at sends
  cases e : (openedFirst h s).lc.medium with
  | own f =>
    rw [e] at sends
    have r : f.content = .reply := by simpa using sends
    obtain ⟨q, slot, shape⟩ := beginOpening_reply quiet e r
    have rp := setPosition_rp ((mediumEnds s).positionAfter h.sender.toNat) (mediumEnds s)
    have wheel : setPosition ((mediumEnds s).positionAfter h.sender.toNat) (mediumEnds s) =
        { s with lc := (setPosition ((mediumEnds s).positionAfter h.sender.toNat) (mediumEnds s)).lc } := by
      unfold setPosition; split <;> rfl
    refine ⟨q, f, (congrArg ReportUnit.slot rp).symm.trans slot, ?_, rfl, r, ?_⟩
    · refine shape.trans ?_
      rw [show (openedFirst h s).lc = _ from congrArg State.lc shape, wheel]
      rfl
    · rcases (beginOpening_opened (setPosition ((mediumEnds s).positionAfter h.sender.toNat) (mediumEnds s))).medium with x | ⟨-, g, x, y⟩
      · rw [quiet] at x; exact absurd (x.symm.trans e) (by simp)
      · cases x.symm.trans e
        exact y.trans (setPosition_now _ _)
  | _ => rw [e] at sends; cases sends

end Sys2Proof.Machine
end

