-- ==== Sys2Proof/Laws/Responses.lean ====
section
/-! SUPPORT. The Hazard Response Table: which entry answers a notice, and what its bytes say (R192, R198). -/

namespace Sys2Proof.Machine

variable (s : State) (origin : Station) (code : HazardCode)

/-- Entry `n` of the working image matches a notice, byte by byte (R192, R198). -/
def State.responds (n : Nat) : Prop :=
  (s.image.read (99 + 4 * n)).getLsbD 7 = true ∧
  (∀ i < 4, (s.image.read (99 + 4 * n + 1)).getLsbD i = true →
    (s.image.read (99 + 4 * n + 1)).getLsbD (4 + i) = origin.val.testBit i) ∧
  s.image.byteAt (99 + 4 * n) % 4 = hazardCode code

/-- A number agrees with a value in every bit set in a mask. -/
theorem masked_eq (a v m : BitVec 4) : ((a ^^^ v) &&& m) == 0 ↔ ∀ i < 4, m.getLsbD i = true → v.getLsbD i = a.getLsbD i := by
  have bits : (a ^^^ v) &&& m = 0 ↔ ∀ i < 4, ((a ^^^ v) &&& m).getLsbD i = (0 : BitVec 4).getLsbD i :=
    ⟨fun h _ _ => h ▸ rfl, fun h => BitVec.eq_of_getLsbD_eq h⟩
  rw [beq_iff_eq, bits]
  refine forall_congr' fun i => forall_congr' fun _ => ?_
  have z : (0 : BitVec 4).getLsbD i = false := BitVec.getLsbD_zero
  rw [BitVec.getLsbD_and, BitVec.getLsbD_xor, z]
  cases m.getLsbD i <;> cases a.getLsbD i <;> cases v.getLsbD i <;> decide

theorem matchesNotice_iff (n : Nat) : (s.image.response n).matchesNotice origin code = true ↔ s.responds origin code n := by
  unfold ResponseEntry.matchesNotice State.responds
  rw [Bool.and_eq_true, Bool.and_eq_true, masked_eq, beq_iff_eq, and_assoc]
  refine and_congr .rfl (and_congr (forall_congr' fun i => forall_congr' fun l => ?_) .rfl)
  unfold Memory.response
  rw [BitVec.getLsbD_extractLsb', BitVec.getLsbD_extractLsb', BitVec.getLsbD_ofNat, decide_eq_true l, Nat.zero_add]
  rfl

theorem responseTo_none (h : ∀ n < 8, ¬ s.responds origin code n) : s.responseTo origin code = none := by
  unfold State.responseTo
  rw [List.find?_eq_none]
  intro e m
  obtain ⟨n, mn, rfl⟩ := List.mem_map.1 m
  rw [matchesNotice_iff]
  refine h n ?_
  simp only [List.mem_cons, List.not_mem_nil, or_false] at mn
  omega

/-- The first entry that matches answers (R192). -/
theorem responseTo_first (n : Nat) (l : n < 8) (h : s.responds origin code n) (first : ∀ m < n, ¬ s.responds origin code m) :
    s.responseTo origin code = some (s.image.response n) := by
  have no : ∀ m < n, (s.image.response m).matchesNotice origin code = false := fun m g =>
    Bool.eq_false_iff.2 fun e => first m g ((matchesNotice_iff s origin code m).1 e)
  have yes := (matchesNotice_iff s origin code n).2 h
  have split : ([0, 1, 2, 3, 4, 5, 6, 7] : List Nat) = List.range n ++ n :: (List.range (7 - n)).map (· + (n + 1)) := by
    have : n = 0 ∨ n = 1 ∨ n = 2 ∨ n = 3 ∨ n = 4 ∨ n = 5 ∨ n = 6 ∨ n = 7 := by omega
    rcases this with rfl | rfl | rfl | rfl | rfl | rfl | rfl | rfl <;> rfl
  unfold State.responseTo
  rw [split, List.map_append, List.map_cons, List.find?_append, List.find?_eq_none.2, Option.none_or, List.find?_cons, yes]
  intro e m
  obtain ⟨i, mi, rfl⟩ := List.mem_map.1 m
  rw [no i (List.mem_range.1 mi)]
  exact Bool.false_ne_true

/-- The action of an entry by its two bits (R198). -/
theorem response_action (image : Memory) (n : Nat) : (image.response n).action =
    if (image.read (99 + 4 * n)).getLsbD 5 = true then .none
    else if (image.read (99 + 4 * n)).getLsbD 4 = true then .gateResume else .gateStop := by
  unfold Memory.response Memory.byteAt
  dsimp only
  generalize image.read (99 + 4 * n) = b
  revert b
  decide

/-- The relay group of an entry bit by bit (R198). -/
theorem response_group (image : Memory) (n i : Nat) (l : i < 12) : (image.response n).relayGroup.getLsbD i =
    if i < 8 then (image.read (99 + 4 * n + 3)).getLsbD i else (image.read (99 + 4 * n + 2)).getLsbD (i - 8) := by
  unfold Memory.response
  dsimp only
  rw [BitVec.getLsbD_append]
  by_cases h : i < 8
  · simp [h]
  · simp [h, BitVec.getLsbD_extractLsb']; omega

end Sys2Proof.Machine
end

