-- ==== Sys2Proof/Laws/TakenBack.lean ====
section
/-! SUPPORT. What the block that gave the content of an own frame has once the content is back with it (R58, R60), and that a frame taken back at
the instant of its start leaves the opening and nothing else (R52); what TRANSMIT_CUT does without an own frame (R62). -/

namespace Sys2Proof.Machine

variable {s : State} {f : OwnFrame}

/-- Changes of tags that the list does not hold go behind it, in order. -/
theorem placeAll_apart (l : List Change) : ∀ (acc : List Change) (v : Vector Bool 8), (∀ a ∈ acc, ∀ b ∈ l, a.tag ≠ b.tag) →
    (l.map Change.tag).Nodup →
    l.foldl (fun (acc : List Change × Vector Bool 8) c =>
      let placed := placeChange c acc.1
      (placed.1, if placed.2 then setAt acc.2 c.tag false else acc.2)) (acc, v) = (acc ++ l, v) := by
  induction l with
  | nil => intro acc v _ _; simp
  | cons c l ih =>
    intro acc v h1 h2
    simp only [List.map_cons, List.nodup_cons, List.mem_map, not_exists, not_and] at h2
    rw [List.foldl_cons]
    dsimp only
    rw [placeChange_new c acc (fun d hd => h1 d hd c (List.mem_cons_self ..))]
    simp only [Bool.false_eq_true, if_false]
    rw [ih (acc ++ [c]) v ?_ h2.2, List.append_assoc]
    · rfl
    · intro a ha b hb
      rcases List.mem_append.1 ha with ha | ha
      · exact h1 a ha b (List.mem_cons_of_mem _ hb)
      · rw [List.mem_singleton.1 ha]; exact fun e => h2.1 b hb e.symm

/-- The list the in-flight changes and those made meanwhile give together. -/
theorem placeAll_list (l acc : List Change) (v : Vector Bool 8) :
    (l.foldl (fun (acc : List Change × Vector Bool 8) c =>
      let placed := placeChange c acc.1
      (placed.1, if placed.2 then setAt acc.2 c.tag false else acc.2)) (acc, v)).1 = l.foldl (fun list c => (placeChange c list).1) acc := by
  induction l generalizing acc v with
  | nil => rfl
  | cons c l ih => exact ih _ _

/-- The return of in-flight changes with no request waiting. -/
theorem returnChanges_kept (hw : s.oc.waiting = []) : (returnChanges s).ct = s.ct ∧ (returnChanges s).oc.claims = s.oc.claims ∧
    (returnChanges s).oc.unsent = s.oc.unsent.foldl (fun list c => (placeChange c list).1) s.oc.inFlight := by
  unfold returnChanges
  dsimp only
  refine ⟨(congrArg State.ct (placeFreed_nil _ ?_)).trans rfl,
    (congrArg (fun t : State => t.oc.claims) (placeFreed_nil _ ?_)).trans rfl,
    (congrArg (fun t : State => t.oc.unsent) (placeFreed_nil _ ?_)).trans (placeAll_list _ _ _)⟩ <;> exact hw

/-- In-flight changes back at the head of the unsent change list (R35). -/
theorem returnChanges_apart (hw : s.oc.waiting = []) (apart : ∀ a ∈ s.oc.inFlight, ∀ b ∈ s.oc.unsent, a.tag ≠ b.tag)
    (distinct : (s.oc.unsent.map Change.tag).Nodup) :
    returnChanges s = { s with oc := { s.oc with unsent := s.oc.inFlight ++ s.oc.unsent, inFlight := [] } } := by
  unfold returnChanges
  dsimp only
  rw [placeAll_apart _ _ _ apart distinct]
  exact placeFreed_nil _ hw

/-! ## A start taken back -/

/-- Nothing of an own frame is under way, and the unsent changes are of distinct tags. -/
structure State.NothingSent (s : State) : Prop where
  changes : s.oc.inFlight = []
  question : s.rp.inFlight = none
  reply : s.cs.replyInFlight = none
  notices : ∀ e ∈ s.hz.queue, e.onWire = false
  waiting : s.oc.waiting = []
  distinct : (s.oc.unsent.map Change.tag).Nodup

/-- The frame that `t` has on the wire gives back all it took from `s`. -/
def GivesBack (s t : State) : Prop := ∀ f, t.lc.medium = .own f → takeBack f.content t = setMedium (.own f) s

theorem GivesBack.same (q : s.lc.medium = .quiet) : GivesBack s s := fun f h => by rw [q] at h; cases h

/-- The first changes taken in flight go back where they were. -/
theorem returnChanges_carried (u : s.NothingSent) (m : Medium) (n : Nat) :
    returnChanges (setMedium m { s with oc := { s.oc with inFlight := s.oc.unsent.take n, unsent := s.oc.unsent.drop n } }) = setMedium m s := by
  have split : s.oc.unsent.take n ++ s.oc.unsent.drop n = s.oc.unsent := List.take_append_drop _ _
  have nodup := u.distinct
  rw [← split, List.map_append, List.nodup_append] at nodup
  refine (returnChanges_apart (s := setMedium m { s with oc := { s.oc with inFlight := s.oc.unsent.take n, unsent := s.oc.unsent.drop n } })
    u.waiting (fun a ha b hb => nodup.2.2 _ (List.mem_map_of_mem ha) _ (List.mem_map_of_mem hb)) nodup.2.1).trans ?_
  show setMedium m { s with oc := { s.oc with inFlight := [], unsent := s.oc.unsent.take n ++ s.oc.unsent.drop n } } = _
  rw [split, ← u.changes]

/-- The mark set on the first entry is taken off it. -/
theorem clearOnWire_marked (u : s.NothingSent) (m : Medium) : clearOnWire (setMedium m (markFirstOnWire s)) = setMedium m s := by
  have same : s.hz.queue.map (fun e => { e with onWire := false }) = s.hz.queue := by
    conv => rhs; rw [← List.map_id s.hz.queue]
    exact List.map_congr_left fun e he => by rw [← u.notices e he]; rfl
  have queue : (markFirstOnWire s).hz.queue.map (fun e => { e with onWire := false }) = s.hz.queue := by
    unfold markFirstOnWire
    split
    · exact same
    · rename_i h
      rw [h] at same ⊢
      exact same
  have rest : markFirstOnWire s = { s with hz := { s.hz with queue := (markFirstOnWire s).hz.queue } } := by
    unfold markFirstOnWire; split <;> rfl
  unfold clearOnWire
  rw [show (setMedium m (markFirstOnWire s)).hz.queue = (markFirstOnWire s).hz.queue from rfl, queue, rest]
  rfl

/-- What startFrame puts on the wire. -/
theorem givesBack_start {t : State} (content : OwnContent) (kind : FrameKind) (group : BitVec 12) (payload : List Byte)
    (h : ∀ m, takeBack content (setMedium m t) = setMedium m s) : GivesBack s (startFrame content kind group payload t) := by
  intro f hf
  unfold startFrame setMedium at hf
  injection hf with hf
  subst hf
  exact h _

theorem chooseFrame_givesBack (u : s.NothingSent) (q : s.lc.medium = .quiet) : GivesBack s (chooseFrame s) := by
  have presence : GivesBack s (sendPresence s) := givesBack_start _ _ _ _ fun _ => rfl
  have all := returnChanges_carried u
  have claims : GivesBack s (sendClaim s) := givesBack_start _ _ _ _ fun m => all m _
  have whole : GivesBack s (sendClaimSet s) := by
    refine givesBack_start _ _ _ _ fun m => ?_
    have h := all m s.oc.unsent.length
    rw [List.take_length, List.drop_length] at h
    exact h
  have hazard : ∀ e, GivesBack s (sendHazard e s) := fun e => givesBack_start _ _ _ _ fun m => clearOnWire_marked u m
  have reply : ∀ question, s.rp.slot = some question → GivesBack s (sendReply question s) := by
    refine fun question h => givesBack_start _ _ _ _ fun m => ?_
    show setMedium m { s with rp := { s.rp with slot := some question, inFlight := none } } = _
    rw [← h, ← u.question]
  unfold chooseFrame
  repeat' split
  all_goals first
    | exact presence
    | exact claims
    | exact whole
    | exact hazard _
    | exact givesBack_start _ _ _ _ fun _ => rfl
    | exact .same q
    | (rename_i h; exact reply _ h)

theorem chooseServiceFrame_givesBack (u : s.NothingSent) (q : s.lc.medium = .quiet) : GivesBack s (chooseServiceFrame s) := by
  unfold chooseServiceFrame
  split
  · rename_i r h
    refine givesBack_start _ _ _ _ fun m => ?_
    show setMedium m { s with cs := { s.cs with reply := some r, replyInFlight := none } } = _
    rw [← h, ← u.reply]
  · rename_i question _ h
    refine givesBack_start _ _ _ _ fun m => ?_
    show setMedium m { s with rp := { s.rp with slot := some question, inFlight := none } } = _
    rw [← h, ← u.question]
  · exact .same q

/-- A frame that an opening starts, taken back, leaves the opening begun and nothing else. -/
theorem beginOpening_givesBack (u : s.NothingSent) (q : s.lc.medium = .quiet) :
    GivesBack { s with lc := { s.lc with openingStart := s.now } } (beginOpening s) := by
  have v : ({ s with lc := { s.lc with openingStart := s.now } } : State).NothingSent :=
    ⟨u.changes, u.question, u.reply, u.notices, u.waiting, u.distinct⟩
  have w : ({ s with lc := { s.lc with openingStart := s.now } } : State).lc.medium = .quiet := q
  unfold beginOpening
  dsimp only
  repeat' split
  all_goals first
    | exact chooseServiceFrame_givesBack v w
    | exact chooseFrame_givesBack v w
    | exact .same w

/-! ## The cut of the transmitter (R62) -/

/-- Without an own frame on the wire TRANSMIT_CUT leaves the state as it was, sets the flag, or cuts a driver that has been on since the start
of the own frame that stopped (log 44). -/
theorem driverStuck_cases (s : State) : driverStuck s = s ∨ driverStuck s = setTransmitCut s ∨
    ∃ r, s.lc.medium = .reception r ∧ r.afterOwn = true ∧ r.babble = false ∧
      driverStuck s = cutsTransmitter (advanceTo (r.start + Config.babbleLimit) s) := by
  unfold driverStuck
  split
  · exact .inl rfl
  · split
    · rename_i r m
      split
      · rename_i h
        rw [Bool.and_eq_true, Bool.not_eq_true'] at h
        exact .inr (.inr ⟨r, m, h.1, h.2, rfl⟩)
      · exact .inr (.inl rfl)
    · exact .inr (.inl rfl)

/-- TRANSMIT_CUT with the supply up and no own frame on the wire. -/
theorem execTransmitCut_stuck {s : State} (up : s.supply = true) (none : ∀ f, s.lc.medium ≠ .own f) :
    execTransmitCut s = .next (driverStuck s) := by
  unfold execTransmitCut
  rw [up]
  cases m : s.lc.medium with
  | own f => exact absurd m (none f)
  | _ => rfl

end Sys2Proof.Machine
end

