-- ==== Sys2Proof/Tests/Slice0.lean ====
section
/-! SUPPORT. The session's own tests: the checks of a term, a configured part, effects of single steps, and for each statement states and
operands that meet its hypotheses. -/

namespace Sys2Proof.Tests

open Sys2Proof Sys2Proof.Machine

set_option Elab.async false

/-! ## A configured part -/

def sharedPart : Memory :=
  [(0, 4), (1, 2), (2, 3), (3, 2), (4, 0x01), (5, 0xF4), (6, 0x07), (7, 0xD0), (9, 200), (10, 0x01), (11, 0x2C), (12, 0x07), (13, 0xD0),
   (14, 20), (15, 2), (16, 2), (18, 1), (19, 2), (20, 3), (21, 4), (22, 5), (23, 6), (24, 7), (25, 8), (26, 9), (27, 10), (28, 11)]

def linePart : Memory :=
  [(64, 0x10), (65, 1), (66, 0x04), (67, 0x10), (68, 0x20), (69, 0x30), (70, 0x40), (71, 0x50), (72, 0x60), (73, 0x70), (74, 0x80),
   (75, 0x90), (76, 0xA0), (77, 0xB0), (78, 0xC0), (79, 0xD0), (80, 0xE0), (81, 0xF0), (99, 0xC0), (102, 5), (103, 0x91)]

def zonePart : Memory :=
  [(132, 7), (133, 2), (134, 0x02), (135, 0x58), (137, 20), (138, 0x01), (139, 0xF4), (141, 60), (142, 0x01), (143, 0x2C), (144, 0x01),
   (145, 0xF4), (146, 10), (147, 20), (148, 3), (149, 5), (150, 5), (151, 5), (153, 100), (155, 20), (157, 120), (159, 120), (160, 30),
   (162, 60), (163, 60), (164, 2)]

/-- A valid image of station 1 of a wheel of four: all sixteen line functions, the panel at 3. -/
def body : Memory := sharedPart ++ linePart ++ zonePart

/-- The image with its check value, as a service tool leaves it. -/
def image : Memory := body ++ [(254, 0x20), (255, 0xD6)]

theorem test_imageIsCanonical : image.wf = true := by decide +kernel
theorem test_imagePassesEveryTest : loadCheck false image 0 = .ok := by decide +kernel
theorem test_blankImageFailsTheCheckValue : loadCheck false [] 0 = .checkValue := by decide +kernel
theorem test_digest : image.digest = 0x7DFC := by decide +kernel
theorem test_checkValueOfTheNineBytes : crc16 [0x31, 0x32, 0x33, 0x34, 0x35, 0x36, 0x37, 0x38, 0x39] = 0x29B1 := by decide +kernel

/-- The part of this image, in service and on the link. -/
def part : State :=
  { State.reset with
    now := 3000000
    zoneMode := .inService
    lc := { State.reset.lc with receiverOn := true }
    mu := { State.reset.mu with linkState := .joined }
    cs := { State.reset.cs with stored := image, working := image, stage := .entered, number := 1 } }

/-- The same part in SETUP, its straps at 1. -/
def bench : State :=
  { part with zoneMode := .setup, mu := State.reset.mu, cs := { part.cs with straps := { number := 1, setup := true } } }

def withLink (l : LinkState) (s : State) : State := { s with mu := { s.mu with linkState := l } }
def withPeer (k : Station) (r : PeerRecord) (s : State) : State := setPeer k r s
def present : PeerRecord :=
  { PeerRecord.unknown with state := .present, reportedLink := some .joined, lastPresence := some 2900000, lastAccepted := some 2900000 }
def withOwner (k : Station) (e : OwnerEntry) (s : State) : State := setOwner k e s
def withMedium (m : Medium) (s : State) : State := setMedium m s
def sending (content : OwnContent) (s : State) : State := withMedium (.own { content := content, bytes := [1, 2, 3], start := 2999000 }) s
def receiving (babble afterOwn : Bool) (s : State) : State :=
  withMedium (.reception { start := 2990000, babble := babble, afterOwn := afterOwn }) s
def withIncidents (list : List Incident) (s : State) : State := { s with rs := { s.rs with incidents := list } }
def incident (id : Nat) (f : FaultId) (state : IncidentState) : Incident :=
  { id := id, fault := f, state := state, attempts := 1, detectedAt := 5, recurrences := 0, carried := false }
def at_ (position : Nat) (s : State) : State := { s with lc := { s.lc with position := position } }

def fromPeer : Header := { sender := 2, group := 0xFFF, version := 1 }
def fromPanel : Header := { sender := 3, group := 0x801, version := 1 }
def fromTool : Header := { sender := 15, group := 0x801, version := 1 }

/-! ## The checks of a term: for each, a term it refuses -/

def long : List Byte := List.replicate 57 0
def resyncFrame : List Byte := frameBytes 2 .resync groupAll [15]

theorem test_sampleTooLarge : (Instr.sampleArrival 0 (.value 32768)).wellFormed = false := by decide
theorem test_sampleTooSmall : (Instr.sampleArrival 0 (.value (-32769))).wellFormed = false := by decide
theorem test_checkFailureOfAValidFrame : (Instr.checkFailure resyncFrame).wellFormed = false := by decide +kernel
theorem test_payloadTooLong :
    (Instr.presence fromPeer long).wellFormed = false ∧ (Instr.claim fromPeer long).wellFormed = false ∧
    (Instr.claimSet fromPeer long).wellFormed = false ∧ (Instr.resync fromPeer long).wellFormed = false ∧
    (Instr.hazard fromPeer long).wellFormed = false ∧ (Instr.program fromPanel long).wellFormed = false ∧
    (Instr.restart fromPanel long { number := 0, setup := false }).wellFormed = false ∧
    (Instr.replyReceived true fromPeer long).wellFormed = false ∧ (Instr.undefinedKindFrame 12 fromPeer long).wellFormed = false := by
  decide
theorem test_otherOperatorCommand :
    (Instr.acknowledge fromPanel [1, 1, 1]).wellFormed = false ∧ (Instr.abandon fromPanel [2, 1, 1]).wellFormed = false ∧
    (Instr.resumeZone fromPanel [0, 1, 1]).wellFormed = false := by decide
theorem test_otherSubject :
    (Instr.queryStatus fromPanel [1, 1, 0]).wellFormed = false ∧ (Instr.queryIncidents fromPanel [1, 2, 0]).wellFormed = false ∧
    (Instr.queryClaims fromPanel [1, 3, 0]).wellFormed = false ∧ (Instr.queryPeers fromPanel [1, 4, 0]).wellFormed = false ∧
    (Instr.queryCounters fromPanel [1, 0, 0]).wellFormed = false := by decide
theorem test_otherSetupCommand :
    (Instr.write fromTool [1, 1, 0, 0]).wellFormed = false ∧ (Instr.read fromTool [1, 2, 0, 0]).wellFormed = false ∧
    (Instr.commit fromTool [1, 3, 0, 0]).wellFormed = false ∧ (Instr.lock fromTool [1, 4, 0, 0]).wellFormed = false ∧
    (Instr.lineTest fromTool [1, 0, 0, 0]).wellFormed = false := by decide
theorem test_definedKindCode : (Instr.undefinedKindFrame 11 fromPeer []).wellFormed = false := by decide

/-! ## Effects of single steps -/

def ran (c : Instr) (s : State) : State :=
  match exec c s with
  | .next t => t
  | _ => s

theorem test_powerOnOfThisImageStarts :
    let t := ran (.powerOn { number := 5, setup := false }) { State.reset with cs := { State.reset.cs with stored := image } }
    t.zoneMode = .starting ∧ t.cs.number = 1 ∧ t.cs.stage = .settle ∧ t.cs.loadResult = .ok := by decide +kernel
theorem test_powerOnOfABlankImageHalts :
    let t := ran (.powerOn { number := 5, setup := false }) State.reset
    t.zoneMode = .haltedConfig ∧ t.cs.number = 5 ∧ t.cs.loadResult = .checkValue ∧ t.lc.receiverOn = true := by decide +kernel
theorem test_hazardClosesTheGateAndIsRelayed :
    let t := ran (.hazard fromPeer [2, 9, 0, 1]) part
    t.hz.gateStop = setAt part.hz.gateStop 2 true ∧ t.hz.queue.map HazardEntry.hops = [0] ∧ t.lc.position = 3 := by decide +kernel
theorem test_leakForcesTheOutputsAndHoldsTheConveyor :
    let s : State := { part with lu := { part.lu with timers := setAt part.lu.timers 0 (some 2990000), pins := setAt part.lu.pins 0 true } }
    let t := ran (.lineChangeEvent 0) s
    t.now = 3010000 ∧ t.rs.incidents.map Incident.fault = [.leak] ∧ t.hz.serial = 1 ∧ t.holdIndication = true ∧
      (t.output .pumpRun).source = .forced := by decide +kernel

/-! ## The grant marks of R6 on three owners: HEAT capacity 20 -/

def heat (tag : Tag) (cls : ClaimClass) (amount : Nat) : ClaimRecord :=
  { tag := tag, resource := .heat, cls := cls, amount := amount, mark := .waiting }
def owner (records : List ClaimRecord) : OwnerEntry := { applied := some 20, stale := false, records := records }
def table : Vector OwnerEntry 12 :=
  setAt (setAt (setAt (Vector.replicate 12 OwnerEntry.empty) 0 (owner [heat 0 .process 12])) 1 (owner [heat 0 .process 7]))
    2 (owner [heat 0 .recovery 6, heat 1 .process 1])

theorem test_aLaterRecordDoesNotOvertakeAWaitingOne :
    (grantedOf image .heat table).map (fun c => c.1) = [2, 0] ∧
    (remark image table)[(1 : Station)].records.map ClaimRecord.mark = [.waiting] ∧
    (remark image table)[(2 : Station)].records.map ClaimRecord.mark = [.granted, .waiting] := by decide +kernel

/-! ## States and operands that meet the hypotheses of the statements -/

theorem meets_StepOnEmptyQueue :
    State.reset.pending = [] ∧ State.reset.due = [] ∧ (receiving false false { part with lu := part.lu, ms := { part.ms with
      nextArrival := Vector.replicate 5 9000000 } }).due = [.babble] ∧ (receiving false false part).pending = [] := by decide +kernel

theorem meets_EndOfEventLeaves : (withLink .joining part).joinEnds = true ∧ part.joinEnds = false := by decide +kernel

theorem meets_WheelRule :
    part.wheelSize = 4 ∧ (3 : Nat) < part.wheelSize ∧ (at_ 4 part).wheelSize < (at_ 4 part).lc.position + 1 ∧
    (at_ 3 part).lc.position + 1 ≤ (at_ 3 part).wheelSize ∧ { part.lc with transmitCut := true }.transmitCut = true ∧
    (receiving false false part).lc.medium ≠ .quiet := by decide +kernel

/-- The own opening begins; nothing is due but what is set below. -/
def opening : State :=
  { at_ 1 part with
    lc := { (at_ 1 part).lc with presenceAge := 1, lastPresence := some { part.presenceFields with linkState := .joined } }
    oc := { part.oc with restatedSinceJoined := true } }
def change : Change := { tag := 0, op := .release }
def notice : HazardEntry :=
  { origin := 1, serial := 1, code := .zoneDown, hops := 1, group := 7, sends := 3, relay := false, onWire := false }
def question : Question := { subject := .status, clear := false, requester := 3 }

def opensOwn (s : State) : Bool :=
  !s.serviceMode && s.takesPart && s.lc.position == s.cs.number.toNat && s.lc.position < s.wheelSize && s.lc.medium == .quiet &&
    s.lc.receiverOn && !s.lc.transmitCut

theorem meets_OwnOpeningSends_joinAndFirst :
    opensOwn (withLink .joining opening) = true ∧ (withLink .joining opening).mu.joinRequestDone = none ∧
    opensOwn { opening with oc := part.oc } = true ∧ part.oc.restatedSinceJoined = false := by decide +kernel
theorem meets_OwnOpeningSends_lateAndDue :
    opensOwn { opening with lc := { opening.lc with presenceAge := 2 } } = true ∧ opening.image.presencePeriod = 2 ∧
    opensOwn { opening with oc := { opening.oc with restatementDue := true } } = true := by decide +kernel
theorem meets_OwnOpeningSends_claim :
    opensOwn { opening with oc := { opening.oc with unsent := [change] } } = true ∧
    ({ opening with oc := { opening.oc with unsent := [change] } } : State).claimDue = true ∧ opening.claimDue = false := by
  decide +kernel
theorem meets_OwnOpeningSends_window :
    let s (acknowledged : Byte) : State := withPeer 2 { present with ackOfMe := some acknowledged }
      { opening with oc := { opening.oc with unsent := [change, { change with tag := 1 }], changeNumber := 100 } }
    opensOwn (s 37) = true ∧ (101 - 37 : Byte).toNat = 64 ∧ (s 37).claimSize = 1 ∧ (s 36).claimSize = 0 ∧ (s 99).claimSize = 2 ∧
    (s 36).claimDue = false ∧ (s 36).oc.unsent ≠ [] := by decide +kernel
theorem meets_OwnOpeningSends_rest :
    opensOwn opening = true ∧ opening.presenceDue = false ∧ opening.hz.queue = [] ∧ opening.staleOwners = [] ∧ opening.rp.slot = none ∧
    ({ opening with lc := { opening.lc with lastPresence := none } } : State).presenceDue = true ∧
    (withOwner 2 { OwnerEntry.empty with stale := true } opening).staleOwners = [2] ∧
    ({ opening with hz := { opening.hz with queue := [notice] } } : State).hz.queue = [notice] := by decide +kernel

theorem meets_ServiceOpeningAnswers :
    (at_ 4 bench).serviceMode = true ∧ (at_ 4 bench).lc.position = (at_ 4 bench).wheelSize ∧ (at_ 4 bench).lc.medium = .quiet ∧
    (at_ 4 bench).lc.receiverOn = true ∧ (at_ 4 bench).lc.transmitCut = false := by decide +kernel
theorem meets_ServiceOpeningAnswers_status : part.serviceMode = false ∧ bench.serviceMode = true ∧
    (part.replyData .status).take 8 = [1, 1, 3, 0, 0, 0, 0, 0] := by decide +kernel
theorem test_incidentsData :
    (withIncidents [incident 1 (.elementOpen 2) (.active .openRetest), incident 2 .leak (.failed .limit)] part).replyData .incidents =
      [2, 1, 0x43, 0x12, 0x10, 0, 0, 0, 5, 0, 0, 2, 0x00, 0x20, 0x17, 0, 0, 0, 5, 0, 0, 0] := by decide +kernel

theorem meets_SupplyRule : part.supply = true ∧ part.ImagesWf := by
  refine ⟨rfl, ?_⟩
  unfold State.ImagesWf
  exact ⟨by decide +kernel, by decide +kernel, fun p h => nomatch h⟩
theorem meets_SupplyRule_commit :
    ({ bench with cs := { bench.cs with commit := some { row := 7, start := 0, byLock := false } } } : State).ImagesWf := by
  unfold State.ImagesWf
  refine ⟨by decide +kernel, by decide +kernel, fun p h => ?_⟩
  cases h
  decide
theorem meets_SupplyRule_rowNotBegun :
    let s (start : Nat) : State := { bench with cs := { bench.cs with commit := some { row := 3, start := start, byLock := false } } }
    (s 3000000).supply = true ∧ (s 3000000).now ≤ 3000000 ∧ (0 : Nat) < 3 ∧ (s 2995000).now ≤ 2995000 + 5000 ∧
    (s 2995000).cs.commit = some { row := 3, start := 2995000, byLock := false } := by decide
/-- A commit of another spare byte, in its first row and in its last; the rows before the last are done. -/
def programming (row start : Nat) (byLock : Bool) : State :=
  { bench with cs := { bench.cs with working := image.write 29 1, commit := some { row := row, start := start, byLock := byLock } } }
theorem meets_SupplyRule_torn : (programming 0 3000000 false).ImagesWf ∧ (programming 7 2996000 false).now = 3000000 ∧
    (programming 0 3000000 false).cs.working.read 29 ≠ (programming 0 3000000 false).cs.stored.read 29 := by
  refine ⟨?_, rfl, by decide +kernel⟩
  unfold State.ImagesWf
  refine ⟨by decide +kernel, by decide +kernel, fun p h => ?_⟩
  cases h
  decide
theorem meets_LoadDecidesTheMode :
    loadCheck false image 0 = .ok ∧ loadCheck false [] 0 = .checkValue ∧ loadCheck true image 0 = .checkValue ∧
    ({ number := 1, setup := true } : Straps).setup = true := by decide +kernel
/-- An abandoned COMMIT, in the row that a LOCK writes last too: the next LOAD answers CHECK_VALUE, the lock state is OPEN. -/
theorem test_anAbandonedCommitFailsTheCheckValue :
    (∀ row ∈ [0, 7], ∀ setup ∈ [false, true],
      let t := ran (.powerOn { number := 1, setup := setup }) (programming row 2996000 true)
      t.cs.loadResult = .checkValue ∧ t.cs.locked = false ∧ t.zoneMode = if setup then .setup else .haltedConfig) ∧
    (let t := ran .rowProgrammed (programming 7 2996000 true)
     t.cs.mixed = false ∧ t.cs.locked = true ∧ t.cs.commit = none) := by decide +kernel
def altered (writes : List (Nat × Byte)) : Memory := writes.foldl (fun m w => m.write w.1 w.2) image
/-- Each reason of R200 at a value next to one that passes, and two tests failed at once. -/
theorem test_validityReasons :
    [[(0, 13)], [(164, 4)], [(253, 1)], [(0, 3)], [(64, 0x30)], [(18, 2)], [(1, 5)], [(1, 0)], [(8, 2)], [(155, 100)], [(82, 0x20)],
      [(75, 0)], [(65, 4)], [(15, 0)], [(149, 21)], [(1, 0), (0, 13)], [(149, 21), (75, 0)], [(4, 3), (5, 0xE7), (6, 3), (7, 0xE8), (8, 2), (9, 0xEF)],
      [(4, 3), (5, 0xE7), (6, 3), (7, 0xE8), (8, 2), (9, 0xEE)]].map (fun w => validity (altered w) 0) =
      [.fieldRange, .fieldRange, .fieldRange, .stationNumber, .stationNumber, .ranks, .quorum, .quorum, .timerOrder, .currentLimits,
       .lineCounts, .heaterLines, .criticalFlag, .capacity, .rating, .fieldRange, .heaterLines, .timerMargin, .ok] := by decide +kernel

def settling : State :=
  { part with
    zoneMode := .starting, cs := { part.cs with stage := .settle }, mu := Membership.reset
    lc := State.reset.lc
    lu := { part.lu with debounced := ⟨⟨List.replicate 16 (some false)⟩, rfl⟩ }
    ms := { part.ms with counts := Vector.replicate 5 10 } }

theorem meets_SettleEnds : settling.supply = true ∧ settling.cs.stage = .settle ∧ settling.settled = true := by decide +kernel
theorem meets_SettleEnds_outOfService :
    let s : State := { settling with cs := { settling.cs with carryOutOfService := true } }
    s.supply = true ∧ s.cs.stage = .settle ∧ s.settled = true ∧ (ran .settleEnd s).zoneMode = .outOfService ∧
    (ran .settleEnd s).hz.queue.map HazardEntry.code = [.zoneDown] := by decide +kernel
theorem meets_CarryOverRecord :
    part.rs.incidents = [] ∧ part.rs.nextId = 1 ∧ part.cs.carryIncidents.length ≤ 4 ∧
    (List.replicate 4 ({ fault := .leak, reason := .limit, recurrences := 0 } : CarriedIncident)).length ≤ 4 := by decide
theorem meets_CarryOverRecord_leak :
    let carried : List CarriedIncident := [{ fault := .leak, reason := .limit, recurrences := 0 },
        { fault := .dryHeat, reason := .limit, recurrences := 0 }]
    let s : State := { settling with cs := { settling.cs with carryIncidents := carried } }
    (carried.filter (fun c => c.fault == .leak)).length = 1 ∧ s.hz.queue.length + 1 ≤ 4 ∧ s.rs.incidents = [] ∧ s.rs.nextId = 1 ∧
    (ran .settleEnd s).hz.queue.map HazardEntry.code = [.inflowStop] ∧ (ran .settleEnd s).hz.stopMark = true := by decide +kernel
theorem meets_RestartRule :
    part.Delivers .restart fromPanel [1] ∧ readRestart [1] = some 1 ∧ (1 : Station).val = part.cs.number.toNat ∧ part.runMode = true ∧
    part.image.remoteRestartOk = true := by
  unfold State.Delivers
  decide +kernel
theorem meets_RestartRule_refused :
    let s : State := { part with cs := { part.cs with working := image.write 66 0 } }
    s.Delivers .restart fromPanel [1] ∧ s.runMode = true ∧ s.image.remoteRestartOk = false := by
  unfold State.Delivers
  decide +kernel
theorem meets_RestartRule_service : bench.DeliversService .restart fromPanel [1] ∧ bench.serviceMode = true := by
  unfold State.DeliversService
  decide +kernel

theorem meets_RestartRule_commit :
    let s := programming 3 2996000 false
    let t := ran (.restart fromPanel [1] { number := 1, setup := false }) s
    s.DeliversService .restart fromPanel [1] ∧ s.cs.commit ≠ none ∧ t.cs.loadResult = .checkValue ∧ t.cs.mixed = true := by
  unfold State.DeliversService
  decide +kernel
def stepping (f : FaultId) (step : Step) : State :=
  { withIncidents [incident 1 f (.active step)] part with
    rs := { (withIncidents [incident 1 f (.active step)] part).rs with stepSince := some 7, dryTimer := some 7, claimWait := some 7 } }

theorem meets_LineEvents :
    part.lu.pins[(0 : Line)] ≠ true ∧ part.lu.pins[(15 : Line)] = false ∧ part.supply = true ∧
    ({ part with lu := { part.lu with timers := setAt part.lu.timers 15 (some 0) } } : State).lu.timers[(15 : Line)] = some 0 := by decide
theorem meets_SampleArrives :
    part.reads = true ∧ part.driveRuns = true ∧ regulates .heatUp = true ∧ regulates part.pd.phase = false ∧
    validValue 0 (sampleOf (.value 1200)) = some 1200 ∧ validValue 0 (sampleOf (.value 1201)) = none := by decide +kernel
/-- Line 1 carries LEVEL_LOW in this image; in a blank one no line does. -/
theorem meets_LineEvents_probes :
    let s (level : Option Bool) : State := { part with lu := { part.lu with debounced := setAt part.lu.debounced 1 level } }
    let blank : State := { part with cs := { part.cs with working := [] } }
    [none, some false, some true].map (fun level => ((s level).wet .levelLow, (s level).dry .levelLow)) =
      [(false, false), (false, true), (true, false)] ∧
    part.image.lineFunction 1 = .levelLow ∧ (∀ i : Line, blank.image.lineFunction i ≠ .levelLow) ∧ blank.dry .levelLow = true := by
  decide +kernel
theorem meets_SampleArrives_validCount :
    let s := stepping .sensorFault .waitValid
    s.activeStep = some (1, .sensorFault, .waitValid) ∧ (countValid 0 (.value (-100)) s).rs.validCount = 1 ∧
    (countValid 0 (.value (-101)) (countValid 0 (.value 5) s)).rs.validCount = 0 ∧ countValid 1 (.value 5) s = s ∧
    part.activeStep = none := by decide +kernel
theorem meets_ReceptionRule :
    part.supply = true ∧ part.lc.medium = .quiet ∧ part.canReceive = true ∧ validReception [1, 2, 3] = false ∧
    (receiving false true part).canReceive = true ∧ (receiving false false part).canReceive = true := by decide +kernel

theorem meets_ReceptionRule_forestalled :
    let s : State := { opening with oc := { opening.oc with restatementDue := true } }
    s.supply = true ∧ s.lc.medium = .quiet ∧ (∃ f, (beginOpening s).lc.medium = .own f) ∧ s.oc.inFlight = [] ∧ s.rp.inFlight = none ∧
    s.cs.replyInFlight = none ∧ s.hz.queue = [] ∧ s.oc.waiting = [] ∧ s.oc.unsent = [] :=
  ⟨by decide, by decide, ⟨_, rfl⟩, rfl, rfl, rfl, rfl, rfl, rfl⟩
theorem meets_BabbleLimit :
    (receiving false false part).lc.medium = .reception { start := 2990000, babble := false, afterOwn := false } ∧
    (receiving true false part).lc.medium = .reception { start := 2990000, babble := true, afterOwn := false } ∧
    (sending .claim part).lc.medium = .own { content := .claim, bytes := [1, 2, 3], start := 2999000 } := by decide
theorem meets_BabbleLimit_driverStuck :
    let cut : State := { receiving false true part with lc := { (receiving false true part).lc with transmitCut := true } }
    part.supply = true ∧ part.lc.transmitCut = false ∧ cut.lc.transmitCut = true ∧
    (receiving false true part).lc.medium = .reception { start := 2990000, babble := false, afterOwn := true } ∧
    (receiving true true part).lc.medium = .reception { start := 2990000, babble := true, afterOwn := true } ∧
    part.lc.medium = .quiet ∧ (withMedium .ignored part).lc.medium = .ignored := by decide
theorem test_stuckDriverStartsNoFrame :
    let s := ran .transmitCut opening
    opensOwn opening = true ∧ s.lc.transmitCut = true ∧
    (ran .openingExpiry (at_ 0 { s with oc := { s.oc with restatementDue := true } })).lc.medium = .quiet := by decide +kernel
theorem meets_QuietMedium :
    (at_ 3 part).openingRuns = true ∧ (at_ 3 part).lc.position < (at_ 3 part).wheelSize ∧
    (at_ 4 part).wheelSize ≤ (at_ 4 part).lc.position ∧ part.idleRuns = true := by decide +kernel
theorem meets_OwnFrameCompletes :
    part.serviceMode = false ∧ part.supply = true ∧ (∀ f, (sending (.resync true) (withLink .joining part)).lc.medium = .own f →
      f.content = .resync true) ∧
          (sending .reply { part with rp := { part.rp with inFlight := some { question with subject := .counters, clear := true } } }).rp.inFlight ≠ none ∧
    part.cs.number.toNat + 1 ≤ part.wheelSize := by
  refine ⟨by decide, by decide, ?_, by decide, by decide +kernel⟩
  intro f h
  cases h
  rfl

theorem meets_OwnFrameCompletes_service :
    (sending .setupReply bench).serviceMode = true ∧ (sending .setupReply { bench with zoneMode := .haltedConfig }).serviceMode = true ∧
    (∃ f, (sending .setupReply bench).lc.medium = .own f ∧ f.content = .setupReply) ∧ (sending .setupReply bench).supply = true :=
  ⟨by decide, by decide, ⟨_, rfl, rfl⟩, rfl⟩
theorem meets_OwnFrameCompletes_joinedMeanwhile :
    (sending (.resync true) part).mu.linkState = .joined ∧
    ∃ f, (sending (.resync true) part).lc.medium = .own f ∧ f.content = .resync true := ⟨rfl, _, rfl, rfl⟩
theorem meets_OwnClaimsComplete :
    part.oc.waiting = [] ∧ (∃ f, (sending .claim part).lc.medium = .own f ∧ f.content = .claim) ∧
    (∃ f, (sending (.claimSet 1) part).lc.medium = .own f ∧ f.content = .claimSet 1) :=
  ⟨rfl, ⟨_, rfl, rfl⟩, ⟨_, rfl, rfl⟩⟩
theorem meets_OwnClaimsComplete_waiting :
    let s : State := sending .claim { part with oc := { part.oc with
      inFlight := [{ tag := 0, op := .release }], awaiting := setAt part.oc.awaiting 0 true
      waiting := [{ resource := .heat, cls := .process, amount := 5, purpose := .program }] } }
    (∃ f, s.lc.medium = .own f ∧ f.content = .claim) ∧ s.supply = true ∧ s.oc.waiting ≠ [] ∧ s.tagFree 0 = false :=
  ⟨⟨_, rfl, rfl⟩, rfl, by decide, by decide⟩
theorem meets_CollisionRule :
    let s : State := { part with oc := { part.oc with inFlight := [change], unsent := [{ change with tag := 1 }] } }
    s.oc.waiting = [] ∧ (∀ a ∈ s.oc.inFlight, ∀ b ∈ s.oc.unsent, a.tag ≠ b.tag) ∧ (s.oc.unsent.map Change.tag).Nodup := by decide

theorem meets_CollisionRule_contents :
    ∀ content ∈ [OwnContent.claim, .claimSet 1, .hazard, .reply, .setupReply], ∃ f, (sending content part).lc.medium = .own f ∧
      f.content = content := fun _ _ => ⟨_, rfl, rfl⟩
theorem test_collisionReturnsTheChange :
    let s : State := sending .claim { part with oc := { part.oc with inFlight := [change], unsent := [{ change with tag := 1 }] } }
    (ran .collision s).oc.unsent = [change, { change with tag := 1 }] ∧ (ran .collision s).oc.inFlight = [] ∧
      (ran .collision s).counter .collisions = 1 := by decide +kernel
theorem meets_OwnFramesAreValid : (List.replicate 56 (0 : Byte)).length ≤ 56 := by decide

theorem test_readingOfAReception :
    readFrame resyncFrame = some { kind := .resync, header := { sender := 2, group := groupAll, version := 1 }, payload := [15] } ∧
    commandOf { number := 1, setup := false } resyncFrame = .resync { sender := 2, group := groupAll, version := 1 } [15] ∧
    commandOf { number := 1, setup := false } [1, 2, 3] = .checkFailure [1, 2, 3] := by decide +kernel

theorem meets_AcceptanceDrops :
    frameOf (.resync fromPeer [15]) = some (.resync, fromPeer, [15]) ∧ part.canReceive = true ∧
    part.acceptance .resync { fromPeer with version := 2 } [15] = .badFormat ∧
    part.acceptance .hazard { fromPeer with group := 0x123 } [2, 9, 0, 1] = .filtered ∧
    part.acceptance .program fromPeer [3, 1, 4] = .badSender ∧ part.acceptance .program fromPanel [3, 1] = .badForm ∧
    fromPeer.sender ≠ part.cs.number := by decide +kernel
/-- With a filter of value 123h and mask FF0h: the groups that pass in service, in a service mode, and with the filter not enabled. -/
theorem meets_AcceptanceDrops_groups :
    let s (enable : Byte) (mode : ZoneMode) : State :=
      { part with zoneMode := mode, cs := { part.cs with working := altered [(83, enable), (84, 0x23), (85, 0xFF)] } }
    let groups : List (BitVec 12) := [0xFFF, 0x801, 0x802, 0x123, 0x12F, 0x133]
    groups.map (s 0x81 .inService).groupPasses = [true, true, false, true, true, false] ∧
    groups.map (s 0x81 .outOfService).groupPasses = [true, true, false, true, true, false] ∧
    groups.map (s 0x81 .setup).groupPasses = [true, true, false, false, false, false] ∧
    groups.map (s 0x01 .inService).groupPasses = [true, true, false, false, false, false] := by decide +kernel
/-- A wheel of four, the panel at 3: the kinds that pass from the last number on the wheel, from the first above it, from 14 and from 15. -/
theorem meets_AcceptanceDrops_senders :
    let kinds : List FrameKind := [.presence, .hazard, .program, .query, .setup, .reply]
    let passes (n : BitVec 4) (group : BitVec 12) : List Bool :=
      kinds.map (fun kind => part.senderPasses kind { fromPeer with sender := n, group := group })
    passes 2 0xFFF = [true, true, false, false, false, true] ∧ passes 3 0xFFF = [true, true, true, true, false, true] ∧
    passes 3 0x801 = [false, true, true, true, false, true] ∧ passes 4 0xFFF = List.replicate 6 false ∧
    passes 14 0xFFF = List.replicate 6 false ∧ passes 15 0xFFF = [false, false, false, true, true, true] ∧ part.wheelSize = 4 ∧
    ({ bench with cs := { bench.cs with working := altered [(0, 13)] } } : State).wheelSize = 12 := by decide +kernel
/-- The form tests next to their bounds. -/
theorem meets_AcceptanceDrops_forms :
    ([(.claim, List.replicate 56 0), (.reply, [0]), (.resync, [11]), (.resync, [15]), (.hazard, [11, 9, 3, 3]), (.program, [5, 1, 9]),
      (.operator, [0, 11, 1]), (.query, [11, 4, 1]), (.setup, [1, 1, 0, 0, 32]), (.setup, 1 :: List.replicate 19 0), (.restart, [11])]
      : List (FrameKind × List Byte)).all (fun x => part.formPasses x.1 x.2) = true ∧
    ([(.claim, long), (.reply, []), (.resync, [12]), (.resync, [15, 0]), (.hazard, [12, 9, 3, 3]), (.hazard, [11, 9, 4, 3]),
      (.hazard, [11, 9, 3, 4]), (.program, [6, 1, 9]), (.operator, [0, 11, 0]), (.operator, [3, 11, 1]), (.query, [11, 5, 1]),
      (.setup, [1, 1, 0, 0, 33]), (.setup, 1 :: List.replicate 20 0), (.restart, [12])]
      : List (FrameKind × List Byte)).any (fun x => part.formPasses x.1 x.2) = false := by decide +kernel
theorem meets_DuplicateNumberIsolates :
    let h := { fromPeer with sender := 1 }
    frameOf (.resync h [15]) = some (.resync, h, [15]) ∧ part.serviceMode = false ∧ h.sender = part.cs.number ∧
    part.mu.linkState ≠ .offline ∧ part.mu.linkState ≠ .isolated ∧ (withLink .isolated part).mu.linkState = .isolated := by decide +kernel
theorem meets_ReplyMakesArrivalRecord :
    part.Delivers .setupReply fromPeer [0] ∧ part.Delivers .reply fromPeer [0] ∧ headerStation fromPeer = some 2 ∧
    (withLink .isolated part).Delivers .reply fromPeer [0] ∧ part.mu.duplicateLatch = false := by
  unfold State.Delivers
  decide +kernel
/-- In service: a SETUP, four frames for another station, one of a FOREIGN sender and a CLAIM while ISOLATED; each is accepted. -/
theorem meets_ReplyMakesArrivalRecord_turnedAway :
    let foreign := withPeer 2 { present with state := .foreign } part
    part.canReceive = true ∧ part.runMode = true ∧ part.cs.number.toNat < 12 ∧
    part.acceptance .setup fromTool [1, 2, 0, 0] = .accepted ∧
    part.acceptance .resync fromPeer [0] = .accepted ∧ readResync [0] = some 0 ∧ part.me ≠ 0 ∧
    part.acceptance .operator fromPanel [0, 0, 1] = .accepted ∧ readOperator [0, 0, 1] = some (0, .acknowledge 1) ∧
    part.acceptance .query fromPanel [0, 0, 0] = .accepted ∧ readQuery [0, 0, 0] = some (0, .status, false) ∧
    part.acceptance .restart fromPanel [0] = .accepted ∧ readRestart [0] = some 0 ∧
    foreign.acceptance .hazard fromPeer [2, 9, 0, 1] = .accepted ∧ foreign.senderForeign fromPeer = true ∧
    (withLink .isolated part).acceptance .claim fromPeer [9, 0x20, 0, 0] = .accepted ∧ headerStation fromTool = none := by decide +kernel
theorem meets_ReplyMakesArrivalRecord_turnedAwayInService :
    bench.canReceive = true ∧ bench.serviceMode = true ∧ bench.acceptance .resync fromPeer [15] = .accepted ∧
    bench.acceptance .setup fromTool [0, 2, 0, 0] = .accepted ∧ readSetup [0, 2, 0, 0] = some (0, .commit) ∧
    bench.acceptance .query fromTool [0, 0, 0] = .accepted ∧ bench.acceptance .restart fromPanel [0] = .accepted := by decide +kernel
def presencePart (high : Byte) : List Byte :=
  [3, 1, high, 0xFC, 0, 1, 0x0F, 0xFD] ++ List.replicate 12 7 ++ [0, 0, 0, 0]

theorem meets_PresenceMatching :
    part.Delivers .presence fromPeer (presencePart 0x7D) ∧
    (readPresence part.me 2 (presencePart 0x7D)).map PresenceReport.digest = some part.image.digest ∧ part.takesPart = true ∧
    (withPeer 2 present part).mu.peers[(2 : Station)].state = .present := by
  unfold State.Delivers
  decide +kernel

theorem meets_PresenceMatching_lagging :
    let s (done : Nat) : State := withPeer 2 present { withLink .joining part with
      mu := { (withLink .joining part).mu with joinRequestDone := some done } }
    (s 2900000).lagging 2 = true ∧ (s 2900001).lagging 2 = false := by decide +kernel
theorem meets_PresenceMatching_isolated :
    (withLink .isolated part).Delivers .presence fromPeer (presencePart 0x7D) ∧ headerStation fromPeer = some 2 ∧
    (withLink .isolated part).mu.duplicateLatch = false := by
  unfold State.Delivers
  decide +kernel
theorem meets_PresenceDiffering :
    part.Delivers .presence fromPeer (presencePart 0x7C) ∧
    (readPresence part.me 2 (presencePart 0x7C)).map PresenceReport.digest ≠ some part.image.digest ∧
    (withPeer 2 { present with state := .foreign } part).Delivers .presence fromPeer (presencePart 0x7C) := by
  unfold State.Delivers
  decide +kernel

/-- Two changes: NEW tag 0, HEAT PROCESS 5; AMEND tag 0, PROCESS 6. -/
def items : List Byte := [0x00, 0x02, 5, 0x10, 0x02, 6]
def follows : State := withOwner 2 { OwnerEntry.empty with applied := some 20 } part

theorem meets_ClaimAppliedOrRefused :
    follows.Delivers .claim fromPeer (21 :: items) ∧ follows.tableTakes 2 = true ∧ items.length % 3 = 0 ∧ (rawChanges items).length = 2 ∧
    follows.ct[(2 : Station)].applied = some 20 ∧ follows.ct[(2 : Station)].stale = false ∧ (21 : Byte) = 20 + 1 ∧
    (applyRaw (rawChanges items) follows.ct[(2 : Station)].records).isSome = true := by
  unfold State.Delivers
  decide +kernel
theorem meets_ClaimAppliedOrRefused_overlap :
    after 20 (20 + 1) = false ∧ atOrAfter 20 (20 + byteOf (2 - 1)) = false ∧ (20 + 1 - 20 : Byte).toNat = 1 ∧
    applyRaw ((rawChanges items).drop 1) follows.ct[(2 : Station)].records = none := by decide +kernel
/-- A change as a CLAIM carries it. -/
def carriedChange (op tag resource cls amount : Nat) : RawChange := { op := op, tag := tag, resource := resource, cls := cls, amount := amount }
/-- Changes next to each bound of R14, against an owner that holds tag 7 with FILL 3. -/
theorem meets_ClaimAppliedOrRefused_changes :
    let c := carriedChange
    let held : List ClaimRecord := [{ heat 7 .process 3 with resource := .fill }]
    let six : List ClaimRecord := [1, 2, 3, 4, 5, 6].map (fun t => heat t .process 1)
    let passes (records : List ClaimRecord) (raw : RawChange) : Bool := (applyRaw [raw] records).isSome
    [c 0 0 0 2 1, c 0 6 0 0 255, c 0 0 1 0 7, c 0 0 2 1 1, c 0 0 3 0 1, c 1 7 9 2 7, c 2 7 9 9 0].map
      (passes held) = List.replicate 7 true ∧
    [c 0 7 0 2 1, c 0 8 0 2 1, c 0 0 4 2 1, c 0 0 0 3 1, c 0 0 0 2 0, c 0 0 1 0 8, c 0 0 2 0 0,
      c 0 0 3 0 2, c 1 0 0 2 1, c 1 7 0 3 1, c 1 7 0 2 8, c 2 0 0 0 0, c 3 7 0 0 1].map (passes held) =
      List.replicate 13 false ∧
    passes six (c 0 0 0 2 1) = false ∧ passes (six.drop 1) (c 0 0 0 2 1) = true ∧
    (applyRaw [c 0 3 0 2 9, c 1 7 0 0 1] held).map (List.map (fun r => (r.tag, r.cls, r.amount))) =
      some [(3, .process, 9), (7, .safety, 1)] := by decide +kernel
theorem meets_ClaimIgnored :
    follows.Delivers .claim fromPeer [21, 0] ∧ follows.Delivers .claim fromPeer (22 :: items) ∧ after 22 (20 + 1) = true ∧
    after 19 (20 + 1) = false ∧ atOrAfter 20 (19 + byteOf (2 - 1)) = true := by
  unfold State.Delivers
  decide +kernel
theorem meets_RestatementApplied :
    part.Delivers .claimSet fromPeer [9, 1, 0, 0x02, 5] ∧ part.tableTakes 2 = true ∧
    (readRestatement [9, 1, 0, 0x02, 5]).isSome = true ∧ (readRestatement [9, 0]).isSome = true ∧ readRestatement [9, 1, 0, 0x42, 5] = none := by
  unfold State.Delivers
  decide +kernel
/-- Six records and seven; one tag twice; half a record; a tag of 8; and the order of the records taken. -/
theorem meets_RestatementApplied_records :
    let records (n : Nat) : List Byte := (List.range n).flatMap (fun i => [byteOf (7 - i), 0x02, 1])
    let passes (payload : List Byte) : Bool := (readRestatement payload).isSome
    passes ([9, 0] ++ records 6) = true ∧ passes ([9, 0] ++ records 7) = false ∧ passes ([9, 0] ++ records 1 ++ records 1) = false ∧
    passes [9, 0, 0, 0x02] = false ∧ passes [9, 0, 8, 0x02, 1] = false ∧ passes [9] = false ∧
    (readRestatement ([9, 0] ++ records 3)).map (fun x => x.2.2.map ClaimRecord.tag) = some [5, 6, 7] := by decide +kernel
theorem meets_ResyncMakesRestatementDue :
    part.Delivers .resync fromPeer [1] ∧ readResync [1] = some part.me.val ∧ readResync [15] = some 15 ∧ readResync [0] = some 0 ∧
    part.takesPart = true ∧ (withLink .listening part).Delivers .resync fromPeer [1] := by
  unfold State.Delivers
  decide +kernel
theorem meets_ResyncMakesRestatementDue_joining :
    let waits := withPeer 2 present (withLink .joining part)
    waits.Delivers .resync fromPeer [0] ∧ waits.joinEnds = false ∧ (withLink .joining part).Delivers .resync fromPeer [0] ∧
    (withLink .joining part).joinEnds = true ∧ readResync [0] = some 0 ∧ part.me.val ≠ 0 := by
  unfold State.Delivers
  decide +kernel
theorem meets_HazardTaken :
    part.Delivers .hazard fromPeer [2, 9, 0, 1] ∧ readHazard [2, 9, 0, 1] = some (2, 9, .inflowStop, 1) ∧ (2 : Station) ≠ part.me ∧
    part.hz.memory[(2 : Station)] ≠ some 9 ∧ readHazard [1, 9, 0, 1] = some (part.me, 9, .inflowStop, 1) := by
  unfold State.Delivers
  decide +kernel
/-- The last entry answers ZONE_DOWN from odd origins; before it, disabled entries and entries of another code do not; the first of two that
match answers. -/
theorem meets_HazardTaken_responses :
    let s : State := { part with cs := { part.cs with working := altered [(127, 0xA2), (128, 0x31), (129, 0x0A), (130, 0xBC)] } }
    let t : State := { part with cs := { part.cs with working := altered [(107, 0x90)] } }
    (List.map (fun k : Station => (s.responseTo k .zoneDown).isSome) [0, 3, 10, 11]) = [false, true, false, true] ∧
    s.responseTo 3 .zoneUp = none ∧ s.responseTo 3 .zoneDown = some (s.image.response 7) ∧
    (s.image.response 7).action = .none ∧ (s.image.response 7).relay = false ∧ (s.image.response 7).relayGroup = 0xABC ∧
    t.responseTo 3 .inflowStop = some (t.image.response 0) ∧ (t.image.response 2).action = .gateResume := by decide +kernel
theorem meets_NoticesQueued :
    (part.responseTo 2 .inflowStop).map ResponseEntry.relay = some true ∧
        (part.responseTo 2 .inflowResume).map ResponseEntry.relay = some false ∧
    part.responseTo 2 .zoneDown = none ∧ part.hz.queue.length < 4 ∧ ¬ (List.replicate 4 notice).length < 4 := by decide +kernel
theorem meets_NoticesQueued_full :
    let full (relays : Bool) : List HazardEntry := notice :: List.replicate 3 { notice with relay := relays }
    ¬ (full true).length < 4 ∧ (full true).findIdx? (fun x => x.relay) = some 1 ∧ (full false).findIdx? (fun x => x.relay) = none ∧
    (queueNotice .zoneDown { part with hz := { part.hz with queue := full true } }).hz.queue.map HazardEntry.relay =
      [false, true, true, false] := by decide
theorem meets_ProgramRule :
    part.Delivers .program fromPanel [3, 1, 9] ∧ readProgram [3, 1, 9] = some (.run, .run, 9) ∧ (Phase.run) ≠ part.pd.phase ∧
    regulates .run = true ∧ regulates part.pd.phase = false ∧ part.driveRuns = true := by
  unfold State.Delivers
  decide +kernel
/-- In FILL_UP below the normal level: a fill is wanted and no FILL claim held; while ISOLATED none is. -/
theorem meets_ProgramRule_claims :
    let s : State := { part with pd := { part.pd with phase := .fillUp }
                                 lu := { part.lu with debounced := Vector.replicate 16 (some false) } }
    s.fillWanted = true ∧ s.drainWanted = false ∧ s.pd.fillClaim = none ∧ s.mu.linkState ≠ .isolated ∧
    (withLink .isolated s).mu.linkState = .isolated ∧ (driveEvaluate s).pd.fillRequest = true ∧
    (driveEvaluate s).oc.claims.map OwnClaim.resource = [.fill] := by decide +kernel

def operated (state : IncidentState) (mode : ZoneMode) : State := { withIncidents [incident 1 .leak state] part with zoneMode := mode }

theorem meets_OperatorRules :
    (operated (.failed .limit) .inService).Delivers .operator fromPanel [0, 1, 1] ∧ readOperator [0, 1, 1] = some (part.me, .acknowledge 1) ∧
    readOperator [1, 1, 1] = some (part.me, .abandon 1) ∧ readOperator [2, 1, 0] = some (part.me, .resumeZone) ∧
    (operated (.failed .limit) .inService).record 1 = some (incident 1 .leak (.failed .limit)) ∧
    (operated (.cleared .restored) .inService).record 1 = some (incident 1 .leak (.cleared .restored)) ∧
    (operated .pending .inService).record 1 = some (incident 1 .leak .pending) ∧ part.record 1 = none := by
  unfold State.Delivers
  decide +kernel
theorem meets_OperatorRules_outOfService :
    (operated (.failed .limit) .outOfService).Delivers .operator fromPanel [1, 1, 1] ∧
    (operated (.abandoned .limit) .outOfService).Delivers .operator fromPanel [2, 1, 0] ∧ part.zoneMode ≠ .outOfService := by
  unfold State.Delivers
  decide +kernel

/-- A LEAK record at the last step, its probes dry and its time run, beside a FAILED record. -/
def verifying : State :=
  { withIncidents [incident 1 .dryHeat (.failed .limit), incident 2 .leak (.active .leakVerify)] part with
    lu := { part.lu with debounced := setAt (setAt (setAt part.lu.debounced 0 (some false)) 1 (some true)) 2 (some true) }
    rs := { (withIncidents [incident 1 .dryHeat (.failed .limit), incident 2 .leak (.active .leakVerify)] part).rs with
      stepElapsed := 4000000000 } }

theorem meets_AbandonRule_leakCompletes :
    verifying.Delivers .operator fromPanel [1, 1, 1] ∧ verifying.fd.unrecorded = [] ∧
    verifying.record 1 = some (incident 1 .dryHeat (.failed .limit)) ∧
    (updateRecord 1 (fun q => { q with state := .abandoned .limit }) verifying).leakCompletes = some 2 := by
  unfold State.Delivers
  decide +kernel
theorem meets_QueryEntersSlot :
    part.Delivers .query fromPanel [1, 0, 0] ∧ bench.DeliversService .query fromTool [1, 4, 1] ∧
    readQuery [1, 4, 1] = some (1, .counters, true) ∧ (1 : Station).val = part.cs.number.toNat ∧ part.rp.slot = none := by
  unfold State.Delivers State.DeliversService
  decide +kernel

theorem meets_QueryEntersSlot_replyDue :
    ({ bench with rp := { bench.rp with slot := some question } } : State).replyMeetsQuery fromPanel [1, 0, 0] = true ∧
    ({ opening with
      lc := { opening.lc with presenceAge := 0 }, cs := { opening.cs with number := 0 }
      rp := { opening.rp with slot := some question } } : State).replyMeetsQuery { fromTool with group := 0x800 } [0, 0, 0] = true := by
  decide +kernel

/-! SETUP frames -/

def writes (a : Byte) (data : List Byte) : List Byte := [1, 0, a, 0xF0] ++ data

theorem meets_WriteRule :
    bench.DeliversService .setup fromTool (writes 253 [1]) ∧ readSetup (writes 253 [1]) = some (1, .write 253 0xF0 [1]) ∧
    253 + [(1 : Byte)].length ≤ 254 ∧ readSetup (writes 254 [1]) = some (1, .write 254 0xF0 [1]) ∧ 254 < 254 + [(1 : Byte)].length ∧
    bench.cs.locked = false ∧ bench.cs.commit = none := by
  unfold State.DeliversService
  decide +kernel
theorem meets_ReadRule :
    bench.DeliversService .setup fromTool [1, 1, 224, 0, 32] ∧ readSetup [1, 1, 224, 0, 32] = some (1, .read 224 32) ∧ 224 + 32 ≤ 256 ∧
    bench.DeliversService .setup fromTool [1, 1, 225, 0, 32] ∧ readSetup [1, 1, 225, 0, 32] = some (1, .read 225 32) ∧ 256 < 225 + 32 := by
  unfold State.DeliversService
  decide +kernel
theorem meets_CommitAndLockRule :
    bench.DeliversService .setup fromTool [1, 2, 0, 0] ∧ readSetup [1, 2, 0, 0] = some (1, .commit) ∧
    bench.DeliversService .setup fromTool [1, 3, 0, 0] ∧ readSetup [1, 3, 0, 0] = some (1, .lock) ∧
    validity bench.cs.working bench.cs.straps.number = .ok ∧ validity (image.write 253 0x5A) 1 = .ok ∧ validity [] 1 ≠ .ok := by
  unfold State.DeliversService
  decide +kernel
theorem meets_RowProgrammedRule :
    let s (row : Nat) : State := { bench with cs := { bench.cs with commit := some { row := row, start := 0, byLock := true } } }
    (s 7).cs.commit = some { row := 7, start := 0, byLock := true } ∧ (s 6).cs.commit = some { row := 6, start := 0, byLock := true } := by
  decide
theorem meets_LineTestRule :
    bench.DeliversService .setup fromTool [1, 4, 0, 0, 0, 0x10, 0, 0, 0, 0] ∧
    readSetup [1, 4, 0, 0, 0, 0x10, 0, 0, 0, 0] = some (1, .lineTest 0x10 0 0) ∧
    (outputOf (bench.image.lineFunction 4)).isSome = true ∧ (outputOf (bench.image.lineFunction 3)).isSome = false ∧
    ({ bench with zoneMode := .haltedConfig } : State).DeliversService .setup fromTool [1, 4, 0, 0, 0, 0x10, 0, 0, 0, 0] ∧
    outputOf (bench.image.lineFunction 14) = some .alert := by
  unfold State.DeliversService
  decide +kernel

/-! Timers -/

def listening (armed : Option Nat) : State :=
  { part with mu := { part.mu with linkState := .listening, listenStart := some 2000000, armedAt := armed } }

theorem meets_ListenTimerEnds :
    (listening none).mu.linkState = .listening ∧ (listening none).contactDeadline = none ∧
    (listening (some 2100000)).contactDeadline = some 2300000 ∧ (listening (some 2200000)).image.tListen = 300000 ∧
    (∀ k : Station, (listening none).mu.peers[k].state ≠ .present) ∧
    (withPeer 2 present (listening none)).mu.peers[(2 : Station)].state = .present := by decide +kernel
theorem meets_PeerTimers :
    (withPeer 11 present part).mu.peers[(11 : Station)].state = .present ∧
    (withPeer 0 { present with state := .silent } part).mu.peers[(0 : Station)].state = .silent ∧
        present.lastPresence = some 2900000 := by decide
theorem meets_LossOfContactIsolates :
    part.takesPart = true ∧ ({ part with mu := { part.mu with armedAt := some 5 } } : State).contactDeadline = some 200005 ∧
    ({ part with mu := { part.mu with notHeardBySince := some 5 } } : State).mu.notHeardBySince = some 5 := by decide +kernel
/-- A peer that is PRESENT and does not hear this station: the interval starts, runs on, and stops where the peer hears it or is gone. -/
theorem meets_LossOfContactIsolates_interval :
    let deaf := withPeer 2 { present with heardSet := some (Vector.replicate 12 false) } part
    let hears := withPeer 2 { present with heardSet := some (setAt (Vector.replicate 12 false) 1 true) } part
    let running (s : State) : State := { s with mu := { s.mu with notHeardBySince := some 5 } }
    let since (s : State) : Option Nat := (endEvent .none s).mu.notHeardBySince
    deaf.notHeard = true ∧ since deaf = some 3000000 ∧ since (running deaf) = some 5 ∧ since (running hears) = none ∧
    since (running part) = none ∧ since (running (withLink .isolated deaf)) = none := by decide +kernel
theorem meets_LossOfContactIsolates_deadline :
    let s (armed : Nat) : State := withPeer 2 present { part with mu := { part.mu with armedAt := some armed } }
    (s 5).contactDeadline = some 3100000 ∧ (s 2950000).contactDeadline = some 3150000 ∧ part.contactDeadline = none := by decide +kernel
theorem meets_PanelSilencePauses :
    let s (phase : Phase) : State := { part with pd := { part.pd with silenceTimer := some 5, phase := phase } }
    (s .run).pd.silenceTimer = some 5 ∧ (s .run).pd.phase = .run ∧ (s .drainDown).pd.phase = .drainDown := by decide
theorem meets_TimedDetection :
    ∀ f ∈ [FaultId.tempLow, .fillTimeout, .drainTimeout, .filterBlocked],
      ((setDetector f { Detector.fresh with timer := some 5 } part).detector f).state = .watching ∧
      ((setDetector f { Detector.fresh with timer := some 5 } part).detector f).timer = some 5 ∧ part.fd.unrecorded.contains f = false := by
  decide

theorem meets_TimedDetection_lines :
    let s : State := { part with lu := { part.lu with timers := setAt (setAt part.lu.timers 0 (some 2990000)) 1 (some 2990000) } }
    s.image.lineFunction 0 = .leakProbe ∧ s.image.lineFunction 1 = .levelLow ∧ s.lu.timers[(0 : Line)] = some 2990000 ∧
    s.lu.timers[(1 : Line)] = some 2990000 ∧ s.lu.debounced[(0 : Line)] ≠ some (s.pinActive 0) ∧
    s.lu.debounced[(1 : Line)] ≠ some (s.pinActive 1) ∧ ((setDetector .leak Detector.fresh s).detector .leak).state = .watching ∧
    ((setDetector .dryHeat { Detector.fresh with state := .latched } s).detector .dryHeat).state = .latched ∧
    s.wet .leakProbe = false ∧ ({ s with lu := { s.lu with debounced := setAt s.lu.debounced 0 (some true) } } : State).wet .leakProbe = true :=
  by decide +kernel
theorem meets_TimedDetection_samples :
    part.reads = true ∧ currentChannel 0 = 2 ∧ part.image.iOnMin = 100 ∧ validValue 2 (sampleOf (.value 100)) = some 100 ∧
    validValue 2 (sampleOf (.value 99)) = some 99 ∧ validValue 0 (sampleOf (.value 1200)) = some 1200 ∧
    validValue 0 (sampleOf (.value 1201)) = none ∧ (part.output (.heat 0)).active = false ∧
    (∀ n ∈ [8, 9], ((setDetector (.elementStuck 0) { Detector.fresh with count := n } part).detector (.elementStuck 0)).count = n) := by
  decide +kernel
theorem meets_TimedDetection_runs :
    part.detectorRuns .leak = true ∧ (part.detector .leak).state = .stopped ∧ bench.detectorRuns .leak = false ∧
    (bench.detector .leak).state = .stopped ∧ ((setDetector .leak Detector.fresh bench).detector .leak).state ≠ .stopped ∧
    ((setDetector .leak Detector.fresh part).detector .leak).state ≠ .stopped ∧ part.image.lineFunction 2 = .levelNormal := by
  decide +kernel
/-- FILTER_BLOCKED below, at and above its limit: the running state, the timer, the latch. -/
theorem meets_TimedDetection_timers :
    let s (p : Int) (d : Detector) : State := setDetector .filterBlocked d { part with
      ms := { part.ms with latest := setAt part.ms.latest 1 (some (.value p)) }
      lu := { part.lu with outputs := setAt part.lu.outputs (outputPlace .pumpRun) { active := true, source := .program } } }
    (s 499 Detector.fresh).timerState .filterBlocked = false ∧ (s 500 Detector.fresh).timerState .filterBlocked = true ∧
    part.image.dpLimit = 500 ∧ ((s 500 Detector.fresh).detector .filterBlocked).timer = none ∧
    ((s 500 { Detector.fresh with timer := some 5 }).detector .filterBlocked).timer = some 5 ∧
    ((s 500 Detector.latchedNow).detector .filterBlocked).state = .latched ∧
    ((s 500 Detector.off).detector .filterBlocked).state = .stopped := by decide +kernel
/-- The tenth sample at the limit detects a stuck element; one below it ends the row. -/
theorem test_stuckElement :
    let s := setDetector (.elementStuck 0) { Detector.fresh with count := 9 } part
    ((ran (.sampleArrival 2 (.value 100)) s).rs.incidents.map Incident.fault) = [.elementStuck 0] ∧
      ((ran (.sampleArrival 2 (.value 99)) s).detector (.elementStuck 0)).count = 0 := by decide +kernel

def eight (last : IncidentState) : State :=
  withIncidents (List.replicate 7 (incident 1 .dryHeat .pending) ++ [incident 2 .leak last]) part

/-- A fault in the Unrecorded set: with room for it, in a CLEARED record's place, and with none. -/
theorem meets_TimedDetection_unrecorded :
    let s (t : State) : State := { t with fd := { t.fd with unrecorded := [.tempLow] } }
    (∀ t ∈ [part, eight .pending, eight (.cleared .restored)], (s t).fd.unrecorded.contains .tempLow = true ∧
      (s t).rs.incidents.find? (matchesFault .tempLow) = none) ∧ (s part).rs.incidents.length < 8 ∧
    (s (eight (.cleared .restored))).rs.incidents.find? isCleared = some (incident 2 .leak (.cleared .restored)) ∧
    8 ≤ (s (eight .pending)).rs.incidents.length ∧ (s (eight .pending)).rs.incidents.find? isCleared = none ∧
    (eight (.cleared .restored)).record 2 = some (incident 2 .leak (.cleared .restored)) := by decide +kernel
/-- The end of a timer that started afresh for a fault in the Unrecorded set: the clock is at that end, the list stays full. -/
theorem test_unrecordedTimerEnds :
    let s : State := setDetector .tempLow { Detector.fresh with timer := some 2999000 }
      { eight .pending with fd := { part.fd with unrecorded := [.tempLow] } }
    (s.detector .tempLow).state = .watching ∧ s.fd.unrecorded.contains .tempLow = true ∧
    (ran .tTempExpiry s).now = 2999000 + s.image.tTemp ∧ (ran .tTempExpiry s).rs.incidents.length = 8 := by decide +kernel

theorem meets_SubmissionPlaced :
    (eight .pending).rs.incidents.find? (matchesFault .leak) = some (incident 2 .leak .pending) ∧ part.rs.incidents.length < 8 ∧
    (eight (.cleared .restored)).rs.incidents.find? isCleared = some (incident 2 .leak (.cleared .restored)) ∧
    (eight (.cleared .restored)).rs.incidents.find? (matchesFault .leak) = none ∧ ¬ (eight .pending).rs.incidents.length < 8 ∧
    (eight .pending).rs.incidents.find? isCleared = none ∧ (eight .pending).rs.incidents.find? (matchesFault .tempLow) = none := by decide
theorem meets_SubmissionPlaced_newId :
    let s : State := { withIncidents [incident 255 .leak .pending, incident 1 .dryHeat .pending] part with
      rs := { (withIncidents [incident 255 .leak .pending, incident 1 .dryHeat .pending] part).rs with nextId := 255 } }
    1 ≤ s.rs.nextId ∧ s.rs.nextId ≤ 255 ∧ s.rs.incidents.length ≤ 8 ∧ s.newId = 2 ∧ (255 - 1 + 2) % 255 + 1 = 2 := by decide
theorem meets_SubmissionPlaced_arbitration :
    let s := withIncidents [incident 1 .tempLow (.active .waitValid), incident 2 .leak .pending] part
    s.zoneMode = .inService ∧ s.mu.linkState = .joined ∧ s.activeIncident = some (incident 1 .tempLow (.active .waitValid)) ∧
    faultRank .leak < faultRank .tempLow ∧ part.activeIncident = none ∧ (withLink .isolated s).mu.linkState ≠ .joined := by decide
theorem test_arbitrationPrefersTheLowerRank :
    ((arbitrate (withIncidents [incident 1 .tempLow (.active .waitValid), incident 2 .leak .pending] part)).1.rs.incidents.map
      Incident.state) = [.pending, .active .leakDrain] := by decide +kernel

theorem meets_StepTimers :
    (stepping .filterBlocked .filterStop).activeStep = some (1, .filterBlocked, .filterStop) ∧
    (stepping .leak .leakDryWait).activeStep = some (1, .leak, .leakDryWait) ∧ (stepping .leak .leakDryWait).rs.dryTimer = some 7 ∧
    (stepping .drainTimeout .drainDrain).stepCompletes .drainDrain = false ∧
    (stepping .drainTimeout .drainDrain).stepFails .drainDrain .timer = false := by decide +kernel
def ownHeat : OwnClaim :=
  { tag := 0, resource := .heat, requested := .process, boosted := false, amount := 5, purpose := .program, sent := .confirmed,
    confirmed := some (.process, 5), usable := 0 }
/-- BOOST with the PROGRAM HEAT claim not boosted, as one created meanwhile; with none; and another step. -/
theorem meets_StepTimers_boost :
    let s : State := { stepping .tempLow .boost with oc := { part.oc with claims := [ownHeat] } }
    s.activeStep = some (1, .tempLow, .boost) ∧ s.ownClaim .heat .program = some ownHeat ∧
    (keepBoost s).oc.claims.map OwnClaim.boosted = [true] ∧ (keepBoost s).oc.unsent = [{ tag := 0, op := .amend .recovery 5 }] ∧
    (stepping .tempLow .boost).ownClaim .heat .program = none ∧ part.activeStep = none ∧
    ((endEvent .none s).ownClaim .heat .program).map OwnClaim.boosted = some true := by decide +kernel
/-- A step of four thousand seconds, its probes wet as listed. -/
def judgedStep (f : FaultId) (step : Step) (wet : List Line) : State :=
  { stepping f step with
    lu := { part.lu with debounced := Vector.ofFn (fun i => some (wet.contains i)) }
    rs := { (stepping f step).rs with stepElapsed := 4000000000 } }

theorem meets_StepTimers_judgement :
    (let s := judgedStep .leak .leakVerify [1, 2]
     s.stepCompletes .leakVerify = true ∧ s.stepFails .leakVerify .timer = false ∧ limitVerdict .leakVerify = .stay ∧
       s.elementVerdict .leak .leakVerify .timer = none) ∧
    (let s := judgedStep .leak .leakVerify [0, 1, 2]
     s.stepCompletes .leakVerify = false ∧ s.stepFails .leakVerify .timer = true) ∧
    (let s := judgedStep .leak .leakRefill [0, 1, 2]
     s.stepCompletes .leakRefill = true ∧ s.stepFails .leakRefill .none = true) ∧
    (let s := judgedStep .leak .leakRefill [1, 2]
     s.stepCompletes .leakRefill = true ∧ s.stepFails .leakRefill .timer = false ∧ limitVerdict .leakRefill ≠ .stay ∧
       stepDuration s.image .leakRefill ≤ s.stepTime) ∧
    (let s := judgedStep .leak .leakRefill []
     s.stepCompletes .leakRefill = false ∧ s.stepFails .leakRefill .timer = false) := by decide +kernel

def sampled (f : FaultId) (step : Step) (since : Nat) (x : Sample) : State :=
  { stepping f step with ms := { part.ms with latest := setAt part.ms.latest (currentChannel 0) (some x) }
                         rs := { (stepping f step).rs with stepSince := some since } }

theorem meets_StepTimers_elements :
    (let s := sampled (.elementStuck 0) .cutCheck 2000000 .under
     s.stepTime < 2000000 ∧ s.ms.latest[currentChannel 0] = some .under) ∧
    (∀ x ∈ [Sample.value 99, .value 100, .over], let s := sampled (.elementOpen 0) .openRetest 1000000 x
      2000000 ≤ s.stepTime ∧ s.lu.elementOut[(0 : Element)] = false) ∧ part.image.iOnMin = 100 ∧
    (validValue (currentChannel 0) .over = none) := by decide +kernel
theorem meets_StepTimers_follows :
    nextStep .leakVerify = none ∧ part.fd.unrecorded = [] ∧ part.image.attempts = 2 ∧
    (stepping .leak .leakDrain).activeIncident = some (incident 1 .leak (.active .leakDrain)) ∧
    (carryOut 1 .leak .leakVerify .complete (stepping .leak .leakVerify)).1.hz.queue.map HazardEntry.code = [.inflowResume] ∧
    (carryOut 1 .leak .leakDrain .attemptFails (stepping .leak .leakDrain)).1.rs.incidents.map Incident.attempts = [2] := by decide +kernel
/-- A step without a claim; one whose claim is not usable, and usable. -/
theorem meets_StepTimers_claims :
    let granted : OwnClaim := { tag := 0, resource := .drain, requested := .safety, boosted := false, amount := 1, purpose := .step 1
                                sent := .confirmed, confirmed := some (.safety, 1), usable := 1 }
    let s := stepping .leak .leakDrain
    (stepping .leak .leakDryWait).claimsUsable 1 .leak .leakDryWait = true ∧ s.claimsUsable 1 .leak .leakDrain = false ∧
    ({ s with oc := { s.oc with claims := [granted] } } : State).claimsUsable 1 .leak .leakDrain = true ∧ part.activeStep = none ∧
    (∀ since, s.rs.stepSince = some since → since ≤ s.now) := by decide +kernel
theorem meets_ClaimWaitFails :
    (stepping .leak .leakDrain).activeIncident = some (incident 1 .leak (.active .leakDrain)) ∧
        (stepping .leak .leakDrain).rs.claimWait = some 7 ∧
    (incident 1 .leak .pending).attempts < part.image.attempts ∧ part.image.attempts ≤ 2 := by decide +kernel

/-! Outputs -/

theorem meets_UsableAmount :
    let s := withOwner 1 (owner [{ heat 0 .process 5 with mark := .granted }]) (withPeer 2 present part)
    s.mu.linkState = .joined ∧ s.quorumHolds = true ∧ s.ownGranted 0 = true ∧ usableOf s ownHeat = 5 ∧
    usableOf s { ownHeat with amount := 6 } = 0 ∧ usableOf s { ownHeat with resource := .hold } = 1 ∧
    usableOf s { ownHeat with confirmed := none } = 0 := by decide +kernel
theorem meets_UsableAmount_confirmation :
    let s := withPeer 2 { present with ackOfMe := some 9 } part
    let c : OwnClaim := { ownHeat with sent := .sent 9, confirmed := none }
    s.quorumHolds = true ∧ s.acknowledged 9 = true ∧ s.acknowledged 10 = false ∧
    confirmClaim s c = { c with sent := .confirmed, confirmed := some (.process, 5) } ∧
    confirmClaim s { c with sent := .sent 10 } = { c with sent := .sent 10 } := by decide +kernel
def wants : Request := { resource := .heat, cls := .process, amount := 5, purpose := .program }
def holdsHeat : State := { part with oc := { part.oc with claims := [ownHeat] } }

theorem meets_UsableAmount_requests :
    part.ownClaim .heat .program = none ∧ amountInRange .heat 5 = true ∧ part.tagFree 0 = true ∧ part.oc.claims.length < 6 ∧
    (withLink .isolated part).mu.linkState = .isolated ∧ holdsHeat.ownClaim .heat .program = some ownHeat ∧
    holdsHeat.ownClaim .heat (.contain []) = none ∧ amountInRange .heat 5000 = false ∧ (∀ i : Tag, i < 1 → holdsHeat.tagFree i = false) ∧
    ({ part with oc := { part.oc with claims := List.replicate 6 ownHeat } } : State).oc.claims.length = 6 ∧ wants.amount ≠ 0 := by
  decide +kernel
def containing (holders : List Holder) : OwnClaim :=
  { tag := 3, resource := .hold, requested := .safety, boosted := false, amount := 1, purpose := .contain holders, sent := .unsent
    confirmed := none, usable := 0 }
def contains (holders : List Holder) : State := { part with oc := { part.oc with claims := [containing holders] } }
def waits (list : List Request) (s : State) : State := { s with oc := { s.oc with waiting := list } }
def holdRequestOf (holders : List Holder) : Request :=
  { resource := .hold, cls := .safety, amount := 1, purpose := .contain holders }

theorem meets_UsableAmount_holders :
    let two : List Holder := [.incident 1, .unrecorded .leak]
    (contains two).ownClaim .hold (.contain []) = some (containing two) ∧ two.erase (.incident 1) ≠ [] ∧
    (contains [.incident 1]).ownClaim .hold (.contain []) = some (containing [.incident 1]) ∧
    ([Holder.incident 1] : List Holder).erase (.incident 1) = [] ∧ (waits [holdRequestOf two] part).ownClaim .hold (.contain []) = none := by
  decide +kernel
theorem meets_UsableAmount_waiting :
    let recovery : Request := { wants with cls := .recovery, purpose := .step 1 }
    let s := waits [wants, recovery, holdRequestOf [.incident 1]] part
    s.hasRoom = true ∧ s.oc.waiting = [wants, recovery] ++ holdRequestOf [.incident 1] :: [] ∧
    (∀ q ∈ [wants, recovery], classOrder .safety < classOrder q.cls) ∧
    (placeFreed s).oc.unsent.map Change.tag = [0, 1, 2] ∧
    (placeFreed s).oc.unsent.map Change.op = [.new .hold .safety 1, .new .heat .recovery 5, .new .heat .process 5] := by decide +kernel
theorem test_requests :
    (request wants part).oc.unsent = [{ tag := 0, op := .new .heat .process 5 }] ∧ (request wants holdsHeat).oc.unsent = [] ∧
    (request { wants with amount := 6 } holdsHeat).oc.unsent = [{ tag := 0, op := .amend .process 6 }] ∧
    (request { wants with amount := 0 } holdsHeat).oc.unsent = [{ tag := 0, op := .release }] ∧
    (request { wants with amount := 0 } (request wants part)).oc.unsent = [] := by decide +kernel
theorem meets_OutputGates :
    let s := stepping .filterBlocked .filterBackflush
    s.forces .fillValve = false ∧ s.forces .drainValve = false ∧ s.forces .pumpRun = false ∧ s.forces .pumpReverse = false ∧
    (s.requested .pumpReverse).active = true ∧ (s.requested .pumpReverse).source = .step ∧
    (withIncidents [incident 1 .dryHeat .pending] part).forces .pumpRun = true ∧
    (withIncidents [incident 1 .dryHeat .pending] part).forces .pumpReverse = false := by decide +kernel
theorem meets_OutputGates_one : part.forces .pumpReverse = false ∧ part.forces .pumpRun = false ∧
    (part.requested .pumpRun).active = false ∧ (part.requested .pumpReverse).active = false := by decide +kernel
theorem meets_HeatWithinShare_elementOut :
    let s : State := { part with lu := { part.lu with elementOut := setAt part.lu.elementOut 0 true } }
    s.lu.elementOut[(0 : Element)] = true ∧ part.image.elementCount = 3 ∧
    (carryOut 1 (.elementOpen 0) .openRetest (.markedOut 0 false)
      (withIncidents [incident 1 (.elementOpen 0) (.active .openRetest)] part)).1.lu.elementOut[(0 : Element)] = true := by decide +kernel
/-- Two of the three elements fit; a step's request for one; the drive's request for none; no request. -/
theorem meets_HeatWithinShare_request :
    let s : State := { part with pd := { part.pd with phase := .run, regulation := true }
                                 oc := { part.oc with claims := [{ tag := 0, resource := .heat, requested := .process, boosted := false
                                                                   amount := 15, purpose := .program, sent := .confirmed
                                                                   confirmed := some (.process, 15), usable := 14 }] } }
    s.heatRequest = (.on, .program) ∧ s.image.rating 0 = 5 ∧ allElements.map (fun e => (s.resolve (.heat e)).active) = [true, true, false] ∧
    (stepping (.elementOpen 0) .openRetest).heatRequest = (.only 0, .step) ∧
    (stepping (.elementOpen 0) .openRetest).elementForced 0 = false ∧ part.heatRequest = (.off, .program) ∧
    ({ part with zoneMode := .outOfService } : State).heatRequest = (.off, .none) := by decide +kernel
theorem meets_ForcedAndFree :
    OutputFunction.fillValve ∈ containment .leak ∧ stepReleases .leak .leakDrain .fillValve = false ∧
    part.forces .conveyorEnable = false ∧ (∀ (k : Station), ∀ r ∈ part.ct[k].records, r.resource ≠ .hold) := by decide +kernel
/-- A level named by the step, a level requested by the drive, and none. -/
theorem meets_ForcedAndFree_requests :
    (stepping .filterBlocked .filterStop).activeStep = some (1, .filterBlocked, .filterStop) ∧ stepNames .filterStop .pumpRun = some false ∧
    part.activeStep = none ∧ part.driveRequest .heatIsolate = some true ∧ part.hasTank = true ∧ part.driveRequest .alert = none ∧
    part.forces .heatIsolate = false ∧ ({ part with cs := { part.cs with working := sharedPart } } : State).hasTank = false ∧
    part.hz.gateStop[(2 : Station)] = false := by decide +kernel
/-- A LEAK not cleared needs the containment HOLD: with no claim, with a claim of another holder, with no room; and a record that needs none. -/
theorem meets_ForcedAndFree_holds :
    let needs := withIncidents [incident 1 .leak .pending]
    (needs part).neededHolders = [.incident 1] ∧ (needs part).ownClaim .hold (.contain []) = none ∧ (needs part).oc.waiting = [] ∧
    (needs part).tagFree 0 = true ∧ (needs (contains [.incident 2])).neededHolders ≠ [] ∧
    (contains [.incident 2]).neededHolders = [] ∧ (withIncidents [incident 1 .dryHeat .pending] part).neededHolders = [] ∧
    (withIncidents [incident 1 .dryHeat (.failed .limit)] part).neededHolders = [.incident 1] ∧
    (withIncidents [incident 1 .filterBlocked (.failed .limit)] part).incidentNeedsHold (incident 1 .filterBlocked (.failed .limit)) =
      !part.image.skippable ∧ part.mu.linkState ≠ .isolated := by decide +kernel
theorem test_reviewOfHolds :
    ((reviewHolds (withIncidents [incident 1 .leak .pending] (contains [.incident 2]))).oc.claims.map OwnClaim.purpose) =
      [.contain [.incident 1]] ∧
    (reviewHolds (contains [.incident 2])).oc.claims = [] := by decide +kernel
theorem meets_Invariants : State.reset.ImagesWf := by
  unfold State.ImagesWf
  exact ⟨by decide, by decide, fun p h => nomatch h⟩
theorem meets_BoundsKept : part.Bounded ∧ ∃ t, step { part with pending := [.idleReset] } = .next t := by
  refine ⟨⟨by decide, by decide, by decide, by decide, by decide, by decide, ?_, by decide +kernel⟩, ⟨_, rfl⟩⟩
  intro c
  cases c <;> decide
theorem meets_OutputsStaySafe : (withLink .isolated part).SafeOff ∧ ∃ t, step { part with pending := [.idleReset] } = .next t := by
  refine ⟨⟨fun _ f hf => ?_, fun _ c hc => nomatch hc⟩, ⟨_, rfl⟩⟩
  cases f with
  | alert => exact absurd rfl hf
  | heat e => revert e; decide
  | _ => decide
theorem meets_WrittenByTheirOwnCommands : isStart .idleReset = false ∧ frameOf .idleReset = none := by decide
theorem meets_WrittenByTheirOwnCommands_latched :
    let s : State := { withLink .isolated part with mu := { (withLink .isolated part).mu with duplicateLatch := true } }
    s.cs.stage = .entered ∧ s.mu.duplicateLatch = true ∧ s.mu.linkState = .isolated ∧ ∃ t, exec .idleReset s = .next t :=
  ⟨rfl, rfl, rfl, _, rfl⟩

end Sys2Proof.Tests
end

section
/-! The grant order of one resource and the walk along it (R5, R6): the claims inserted one by one stand in order, and the walk takes a beginning
of a list. -/

namespace Sys2Proof.Machine

/-! ## Grant order (R5) -/

theorem grantBefore_irrefl (image : Memory) (a : Claim) : grantBefore image a a = false := by
  rw [← Bool.not_eq_true, grantBefore_iff]
  simp only [Nat.lt_irrefl, Fin.lt_irrefl, and_false, or_self, not_false_eq_true]

theorem grantBefore_trans {image : Memory} {a b c : Claim} (hab : grantBefore image a b = true) (hbc : grantBefore image b c = true) :
    grantBefore image a c = true := by
  simp only [grantBefore_iff, Fin.lt_def] at hab hbc ⊢
  obtain hab | ⟨ab, hab⟩ := hab <;> obtain hbc | ⟨bc, hbc⟩ := hbc
  · exact .inl (Nat.lt_trans hab hbc)
  · exact .inl (bc ▸ hab)
  · exact .inl (ab ▸ hbc)
  · exact .inr ⟨ab.trans bc, by omega⟩

/-- What does not stand before a claim does not stand before one ahead of it. -/
theorem not_grantBefore_of_grantBefore {image : Memory} {c d e : Claim} (hcd : grantBefore image c d = true)
    (hed : grantBefore image e d = false) : grantBefore image e c = false := by
  rw [← Bool.not_eq_true] at hed ⊢
  exact fun hec => hed (grantBefore_trans hec hcd)

theorem insertClaim_perm (image : Memory) (c : Claim) (claims : List Claim) : (insertClaim image c claims).Perm (c :: claims) := by
  induction claims with
  | nil => exact .refl _
  | cons d rest ih =>
    rw [insertClaim]
    split
    next => exact .refl _
    next => exact (ih.cons d).trans (.swap c d rest)

theorem grantOrder_perm (image : Memory) (claims : List Claim) : (grantOrder image claims).Perm claims := by
  induction claims with
  | nil => exact .refl _
  | cons c rest ih => exact (insertClaim_perm image c _).trans (ih.cons c)

/-- No claim of the list stands before one ahead of it. -/
def InGrantOrder (image : Memory) (claims : List Claim) : Prop := claims.Pairwise (fun a b => grantBefore image b a = false)

theorem insertClaim_inGrantOrder {image : Memory} (c : Claim) {claims : List Claim} (h : InGrantOrder image claims) :
    InGrantOrder image (insertClaim image c claims) := by
  induction claims with
  | nil => exact List.pairwise_singleton _ _
  | cons d rest ih =>
    obtain ⟨hd, hrest⟩ := List.pairwise_cons.mp h
    rw [insertClaim]
    split
    next hcd =>
      refine List.pairwise_cons.mpr ⟨fun e he => not_grantBefore_of_grantBefore hcd ?_, h⟩
      obtain rfl | he := List.mem_cons.mp he
      · exact grantBefore_irrefl image e
      · exact hd e he
    next hcd =>
      refine List.pairwise_cons.mpr ⟨fun e he => ?_, ih hrest⟩
      obtain rfl | he := List.mem_cons.mp ((insertClaim_perm image c rest).mem_iff.mp he)
      · exact Bool.eq_false_iff.mpr hcd
      · exact hd e he

theorem grantOrder_inGrantOrder (image : Memory) (claims : List Claim) : InGrantOrder image (grantOrder image claims) := by
  induction claims with
  | nil => exact List.Pairwise.nil
  | cons c rest ih => exact insertClaim_inGrantOrder c ih

/-! ## The walk (R6) -/

/-- The sum of the amounts of claims. -/
def amountOf (claims : List Claim) : Nat := (claims.map (fun c => c.2.amount)).sum

@[simp] theorem amountOf_nil : amountOf [] = 0 := rfl
@[simp] theorem amountOf_cons (c : Claim) (claims : List Claim) : amountOf (c :: claims) = c.2.amount + amountOf claims := List.sum_cons

theorem grantWalk_amountOf_le (left : Nat) (claims : List Claim) : amountOf (grantWalk left claims) ≤ left := by
  induction claims generalizing left with
  | nil => exact Nat.zero_le _
  | cons c rest ih =>
    rw [grantWalk]
    split
    next fits =>
      have := ih (left - c.2.amount)
      rw [amountOf_cons]
      omega
    next => exact Nat.zero_le _

/-- The walk stops at the end of the list or at the first claim that the amounts granted leave no room for. -/
theorem grantWalk_beginning (left : Nat) (claims : List Claim) :
    ∃ rest, claims = grantWalk left claims ++ rest ∧ ∀ c, rest.head? = some c → left < amountOf (grantWalk left claims) + c.2.amount := by
  induction claims generalizing left with
  | nil => exact ⟨[], rfl, fun c h => nomatch h⟩
  | cons d behind ih =>
    rw [grantWalk]
    split
    next fits =>
      obtain ⟨rest, split_eq, stops⟩ := ih (left - d.2.amount)
      refine ⟨rest, congrArg (d :: ·) split_eq, fun c hc => ?_⟩
      have := stops c hc
      rw [amountOf_cons]
      omega
    next exceeds =>
      refine ⟨d :: behind, rfl, fun c hc => ?_⟩
      obtain rfl : d = c := Option.some.inj hc
      rw [amountOf_nil]
      omega

/-! ## Claims and marks of the table -/

theorem mem_claimsOf (resource : Resource) (table : Vector OwnerEntry 12) (c : Claim) :
    c ∈ claimsOf resource table ↔ c.2 ∈ table[c.1].records ∧ c.2.resource = resource := by
  have all : ∀ k : Station, k ∈ allStations := by decide
  obtain ⟨k, r⟩ := c
  simp [claimsOf, all]

theorem markOf_eq (image : Memory) (table : Vector OwnerEntry 12) (k : Station) (r : ClaimRecord) :
    markOf image table k r =
      if r.resource = .hold ∨ (grantedOf image r.resource table).any (fun c => c.1 == k && c.2.tag == r.tag) = true then .granted
      else .waiting := by
  unfold markOf
  by_cases hold : r.resource = .hold
  · rw [if_pos hold, if_pos (.inl hold)]
  · simp only [hold, if_false, false_or]

end Sys2Proof.Machine

namespace Sys2Proof.Proofs

open Sys2Proof.Machine

/-- Settles O51: the order by the insertion of one claim into an ordered list, the walk by induction along the list with the amount left. -/
theorem grantWalk : Obligations.GrantWalk := by
  unfold Obligations.GrantWalk
  refine ⟨rfl, grantBefore_iff, fun image table => ⟨fun resource => ?_, fun c => ?_, fun k => ?_⟩⟩
  · exact ⟨grantOrder_perm _ _, grantOrder_inGrantOrder _ _, grantWalk_amountOf_le _ _, grantWalk_beginning _ _⟩
  · rw [mem_claimsOf, and_iff_left rfl]
  · rw [remark_get]
    exact List.map_congr_left fun r _ => by rw [markOf_eq]

end Sys2Proof.Proofs
end

section
/-! How the resolution treats the functions that the forced set and the gates decide (R107, R109, R110): the valves and the pump's two directions. -/

namespace Sys2Proof.Machine

/-! ## The usable sum of a resource (R41) -/

/-- The sum reaches 1 exactly where some own claim of the resource, of whatever purpose, is usable. -/
theorem one_le_usableSum_iff (s : State) (resource : Resource) :
    1 ≤ s.usableSum resource ↔ ∃ c ∈ s.oc.claims, c.resource = resource ∧ 1 ≤ c.usable := by
  have positive : 1 ≤ s.usableSum resource ↔
      ∃ amount ∈ (s.oc.claims.filter (fun c => c.resource == resource)).map OwnClaim.usable, 1 ≤ amount :=
    List.sum_pos_iff_exists_pos_nat
  rw [positive]
  constructor
  · rintro ⟨_, amount, usable⟩
    obtain ⟨c, mem, rfl⟩ := List.mem_map.mp amount
    obtain ⟨mem, same⟩ := List.mem_filter.mp mem
    exact ⟨c, mem, eq_of_beq same, usable⟩
  · rintro ⟨c, mem, same, usable⟩
    exact ⟨c.usable, List.mem_map_of_mem (List.mem_filter.mpr ⟨mem, beq_iff_eq.mpr same⟩), usable⟩

/-! ## Forced or gated -/

/-- The functions decided by the forced set and the gates alone: all but ALERT (R115) and the heater elements (R112, R113). -/
def isGated : OutputFunction → Bool
  | .alert => false
  | .heat _ => false
  | _ => true

variable {s : State} {f : OutputFunction}

theorem resolve_of_isGated (hf : isGated f = true) :
    s.resolve f = if s.forces f = true then { active := false, source := .forced } else s.gated f := by
  cases f
  case alert => cases hf
  case heat => cases hf
  all_goals rfl

theorem resolve_eq_gated (hf : isGated f = true) (free : s.forces f = false) : s.resolve f = s.gated f := by
  rw [resolve_of_isGated hf, free, if_neg Bool.false_ne_true]

theorem resolve_active_iff (hf : isGated f = true) : (s.resolve f).active = true ↔ s.forces f = false ∧ (s.gated f).active = true := by
  rw [resolve_of_isGated hf]
  cases s.forces f <;> simp

/-! ## The valves (R109) -/

theorem gated_fillValve (s : State) : s.gated .fillValve =
    { active := (s.requested .fillValve).active && decide (1 ≤ s.usableSum .fill), source := (s.requested .fillValve).source } := rfl

theorem gated_drainValve (s : State) : s.gated .drainValve =
    { active := (s.requested .drainValve).active && decide (1 ≤ s.usableSum .drain), source := (s.requested .drainValve).source } := rfl

/-- A function gated by the usable sum of a resource is active only with a usable claim of it. -/
theorem exists_usable_of_active {resource : Resource} {level : Bool} (hf : isGated f = true)
    (gate : (s.gated f).active = (level && decide (1 ≤ s.usableSum resource))) (on : (s.resolve f).active = true) :
    ∃ c ∈ s.oc.claims, c.resource = resource ∧ 1 ≤ c.usable := by
  obtain ⟨-, on⟩ := (resolve_active_iff hf).mp on
  rw [gate, Bool.and_eq_true, decide_eq_true_iff] at on
  obtain ⟨-, share⟩ := on
  exact (one_le_usableSum_iff s resource).mp share

/-! ## The pump's two directions (R110) -/

/-- PUMP_RUN gives way to a reverse request of a step that is not forced off. -/
theorem gated_pumpRun_active_iff (s : State) : (s.gated .pumpRun).active = true ↔ (s.requested .pumpRun).active = true ∧
    (s.forces .pumpReverse = false → (s.requested .pumpReverse).active = true → (s.requested .pumpReverse).source ≠ .step) := by
  simp only [State.gated, Bool.and_eq_true, Bool.not_eq_true', Bool.and_eq_false_imp, beq_eq_false_iff_ne, and_imp]

/-- PUMP_REVERSE gives way to a forward request that is not forced off, unless its own comes from a step. -/
theorem gated_pumpReverse_active_iff (s : State) : (s.gated .pumpReverse).active = true ↔ (s.requested .pumpReverse).active = true ∧
    (s.forces .pumpRun = false → (s.requested .pumpRun).active = true → (s.requested .pumpReverse).source = .step) := by
  simp only [State.gated, Bool.and_eq_true, Bool.not_eq_true', Bool.and_eq_false_imp, bne_eq_false_iff_eq, and_imp]

/-- Without a reverse request to compete with, PUMP_RUN takes its own request. -/
theorem gated_pumpRun_of_alone (s : State) (alone : s.forces .pumpReverse = true ∨ (s.requested .pumpReverse).active = false) :
    s.gated .pumpRun = s.requested .pumpRun := by
  obtain forced | unrequested := alone
  · simp only [State.gated, forced, Bool.not_true, Bool.false_and, Bool.not_false, Bool.and_true]
  · simp only [State.gated, unrequested, Bool.and_false, Bool.false_and, Bool.not_false, Bool.and_true]

/-- Without a forward request to compete with, PUMP_REVERSE takes its own request. -/
theorem gated_pumpReverse_of_alone (s : State) (alone : s.forces .pumpRun = true ∨ (s.requested .pumpRun).active = false) :
    s.gated .pumpReverse = s.requested .pumpReverse := by
  obtain forced | unrequested := alone
  · simp only [State.gated, forced, Bool.not_true, Bool.false_and, Bool.not_false, Bool.and_true]
  · simp only [State.gated, unrequested, Bool.and_false, Bool.false_and, Bool.not_false, Bool.and_true]

/-- Were both active, neither would be forced and both requested: the reverse request would come from a step and would not (R110). -/
theorem not_both_pumps (s : State) : ¬ ((s.resolve .pumpRun).active = true ∧ (s.resolve .pumpReverse).active = true) := by
  rintro ⟨run, reverse⟩
  obtain ⟨runFree, run⟩ := (resolve_active_iff rfl).mp run
  obtain ⟨reverseFree, reverse⟩ := (resolve_active_iff rfl).mp reverse
  obtain ⟨runAsked, notStep⟩ := (gated_pumpRun_active_iff s).mp run
  obtain ⟨reverseAsked, step⟩ := (gated_pumpReverse_active_iff s).mp reverse
  exact notStep reverseFree reverseAsked (step runFree runAsked)

/-- Both requested and neither forced: a step's reverse request wins, otherwise the forward one. -/
theorem pumps_contend (runFree : s.forces .pumpRun = false) (reverseFree : s.forces .pumpReverse = false)
    (run : (s.requested .pumpRun).active = true) (reverse : (s.requested .pumpReverse).active = true) :
    ((s.resolve .pumpReverse).active = true ↔ (s.requested .pumpReverse).source = .step) ∧
    ((s.resolve .pumpRun).active = true ↔ (s.requested .pumpReverse).source ≠ .step) := by
  rw [resolve_eq_gated rfl runFree, resolve_eq_gated rfl reverseFree, gated_pumpReverse_active_iff, gated_pumpRun_active_iff]
  simp only [runFree, reverseFree, run, reverse, true_and, true_imp_iff, and_self]

end Sys2Proof.Machine

namespace Sys2Proof.Proofs

open Sys2Proof.Machine

/-- Settles O53: a function that is not forced takes its gated level, the valves' gate being the usable sum and each pump direction's gate the
other direction's request. -/
theorem outputGates : Obligations.OutputGates := by
  unfold Obligations.OutputGates
  refine ⟨fun s => ⟨?fill, ?drain, ?fillShare, ?drainShare, ?sum⟩, fun s =>
    ⟨not_both_pumps s, pumps_contend, ?runForced, ?reverseForced, ?runUnrequested, ?reverseUnrequested⟩⟩
  case fill => exact fun free => (resolve_eq_gated rfl free).trans (gated_fillValve s)
  case drain => exact fun free => (resolve_eq_gated rfl free).trans (gated_drainValve s)
  case fillShare => exact exists_usable_of_active rfl (congrArg Output.active (gated_fillValve s))
  case drainShare => exact exists_usable_of_active rfl (congrArg Output.active (gated_drainValve s))
  case sum => exact fun resource => ⟨rfl, one_le_usableSum_iff s resource⟩
  case runForced => exact fun forced free => (resolve_eq_gated rfl free).trans (gated_pumpReverse_of_alone s (.inl forced))
  case reverseForced => exact fun forced free => (resolve_eq_gated rfl free).trans (gated_pumpRun_of_alone s (.inl forced))
  case runUnrequested => exact fun free off => (resolve_eq_gated rfl free).trans (gated_pumpReverse_of_alone s (.inr off))
  case reverseUnrequested => exact fun free off => (resolve_eq_gated rfl free).trans (gated_pumpRun_of_alone s (.inr off))

end Sys2Proof.Proofs
end

section
/-! WRITE and READ of a service SETUP frame (R205, R206): what each does to the configuration store, and the bytes of the image behind it. -/

namespace Sys2Proof.Machine

variable {s : State} {h : Header} {payload : List Byte} {a length : Nat} {keep : Byte} {data : List Byte}

/-! ## A SETUP frame as its command -/

/-- A SETUP command that counts nothing itself leaves, behind the end of its frame, the store it wrote and one frame accepted. -/
theorem receiveFrame_setup_leaves {target : Station} {c : SetupCommand} (delivered : s.DeliversService .setup h payload)
    (reads : readSetup payload = some (target, c)) (mine : target.val = s.cs.number.toNat)
    (countsNothing : (deliverSetup c s.asTaken).rp = s.asTaken.rp) :
    ∃ u, receiveFrame .setup h payload s = frameEnds h.sender.toNat u ∧ u.cs = (deliverSetup c s.asTaken).cs ∧
      s.Counted u .accepted ∧ s.SameCounters u [.accepted] :=
  have ended := endEvent_internal .none (deliverSetup c s.asTaken)
  ⟨_, receiveFrame_setup delivered target c reads mine, ended.cs, setup_counts ended countsNothing⟩

/-! ## WRITE (R205) -/

theorem takeWrite_locked (locked : s.cs.locked = true) : takeWrite a keep data s = reply .refusedLocked [] s :=
  if_pos locked

theorem takeWrite_busy (opened : s.cs.locked = false) (committing : s.cs.commit ≠ none) :
    takeWrite a keep data s = reply .busy [] s := by
  rw [takeWrite, opened, if_neg Bool.false_ne_true, if_pos (Option.isSome_iff_ne_none.mpr committing)]

theorem takeWrite_badAddress (opened : s.cs.locked = false) (idle : s.cs.commit = none) (beyond : 254 < a + data.length) :
    takeWrite a keep data s = reply .badAddress [] s := by
  rw [takeWrite, opened, if_neg Bool.false_ne_true, idle, Option.isSome_none, if_neg Bool.false_ne_true, if_pos beyond]

theorem takeWrite_done (opened : s.cs.locked = false) (idle : s.cs.commit = none) (fits : a + data.length ≤ 254) :
    takeWrite a keep data s = dropTestLevels (reply .done []
      { s with cs := { s.cs with working := s.cs.working.writeBytes a (keepMasked s.cs.working keep a data) } }) := by
  rw [takeWrite, opened, if_neg Bool.false_ne_true, idle, Option.isSome_none, if_neg Bool.false_ne_true, if_neg (Nat.not_lt.mpr fits)]

@[simp] theorem dropTestLevels_cs (s : State) : (dropTestLevels s).cs = s.cs := rfl

theorem takeWrite_rp (a : Nat) (keep : Byte) (data : List Byte) (s : State) : (takeWrite a keep data s).rp = s.rp := by
  unfold takeWrite
  (repeat' split) <;> rfl

/-- The image behind a WRITE: under the mask the addressed bytes keep their old bits, byte 253 all of them. -/
theorem Memory.read_writeBytes_keepMasked {image : Memory} (wf : image.wf = true) (fits : a + data.length ≤ imageSize) (b : Nat) :
    (image.writeBytes a (keepMasked image keep a data)).read b =
      if a ≤ b ∧ b < a + data.length ∧ b ≠ 253 then (image.read b &&& keep) ||| (data.getD (b - a) 0 &&& ~~~ keep) else image.read b := by
  rw [Memory.read_writeBytes _ _ _ _ ((keepMasked_length image keep data a).symm ▸ fits) wf, keepMasked_length]
  by_cases addressed : a ≤ b ∧ b < a + data.length
  · obtain ⟨low, high⟩ := addressed
    have place : a + (b - a) = b := Nat.add_sub_cancel' low
    rw [if_pos ⟨low, high⟩, keepMasked_getD image keep data a (b - a) (by omega), place]
    by_cases lockByte : b = 253
    · rw [if_pos lockByte, if_neg fun written => written.2.2 lockByte]
    · rw [if_neg lockByte, if_pos ⟨low, high, lockByte⟩]
  · rw [if_neg addressed, if_neg fun written => addressed ⟨written.1, written.2.1⟩]

/-! ## READ (R206) -/

theorem takeRead_done (fits : a + length ≤ 256) :
    takeRead a length s = reply .done ((List.range length).map (fun i => s.cs.working.read (a + i))) s := by
  rw [takeRead, if_pos (show a + length ≤ imageSize from fits), Memory.bytes_eq_map]

theorem takeRead_badAddress (beyond : 256 < a + length) : takeRead a length s = reply .badAddress [] s :=
  if_neg (Nat.not_le.mpr beyond)

theorem takeRead_rp (a length : Nat) (s : State) : (takeRead a length s).rp = s.rp := by
  unfold takeRead
  split <;> rfl

end Sys2Proof.Machine

namespace Sys2Proof.Proofs

open Sys2Proof.Machine

/-- Settles O38: the refusals in the order of `takeWrite`'s tests; behind them each byte by its place in the masked data. -/
theorem writeRule : Obligations.WriteRule := by
  unfold Obligations.WriteRule
  intro h payload s target a keep data delivered reads mine ⟨_, workingWf, _⟩
  obtain ⟨u, ends, store, counted, others⟩ := receiveFrame_setup_leaves delivered reads mine (takeWrite_rp a keep data s.asTaken)
  change u.cs = (takeWrite a keep data s.asTaken).cs at store
  refine ⟨u, congrArg _ ends, ?locked, ?busy, ?badAddress, ?done, counted, others⟩
  case locked => exact fun locked => store.trans (congrArg State.cs (takeWrite_locked (s := s.asTaken) locked))
  case busy => exact fun opened committing => store.trans (congrArg State.cs (takeWrite_busy (s := s.asTaken) opened committing))
  case badAddress =>
    exact fun opened idle beyond => store.trans (congrArg State.cs (takeWrite_badAddress (s := s.asTaken) opened idle beyond))
  case done =>
    intro opened idle fits
    rw [takeWrite_done (s := s.asTaken) opened idle fits, dropTestLevels_cs] at store
    rw [store]
    exact ⟨rfl, Memory.read_writeBytes_keepMasked workingWf (by unfold imageSize; omega)⟩

/-- Settles O39: `takeRead` asks neither the lock nor the commit state, only whether the bytes lie in the image. -/
theorem readRule : Obligations.ReadRule := by
  unfold Obligations.ReadRule
  intro h payload s target a length delivered reads mine
  obtain ⟨u, ends, store, counted, others⟩ := receiveFrame_setup_leaves delivered reads mine (takeRead_rp a length s.asTaken)
  change u.cs = (takeRead a length s.asTaken).cs at store
  refine ⟨u, congrArg _ ends, ?done, ?badAddress, counted, others⟩
  case done => exact fun fits => store.trans (congrArg State.cs (takeRead_done (s := s.asTaken) fits))
  case badAddress => exact fun beyond => store.trans (congrArg State.cs (takeRead_badAddress (s := s.asTaken) beyond))

end Sys2Proof.Proofs
end

section
/-! Every command answers a next state that keeps the queue, the canonical images and the bounds (R2, R27, R32, R150, R188, R197, R216). -/

namespace Sys2Proof.Machine

variable {s t : State}

/-! ## Every command answers a next state -/

/-- The command answers a next state that stands in a relation to the one before it. -/
def Answers (R : State → State → Prop) (c : Instr) (s : State) : Prop := ∃ t, exec c s = .next t ∧ R s t

theorem Answers.of_next {R : State → State → Prop} {c : Instr} (a : Answers R c s) (h : exec c s = .next t) : R s t := by
  obtain ⟨u, e, r⟩ := a
  cases h.symm.trans e
  exact r

/-- Where a relation holds of every command's answer that is a frame, and of each of the others, it holds of every command's. -/
theorem Answers.frame {R : State → State → Prop} {c : Instr} {kind : FrameKind} {h : Header} {payload : List Byte}
    (f : frameOf c = some (kind, h, payload)) (receive : ∀ kind, R s (receiveFrame kind h payload s))
    (query : R s (receiveQuery h payload s)) (restart : ∀ straps, R s (receiveRestart h payload straps s)) : Answers R c s := by
  by_cases q : kind = .query
  · subst q
    exact ⟨_, exec_query f, query⟩
  by_cases r : kind = .restart
  · subst r
    cases c <;> simp only [frameOf, Option.some.injEq, Prod.mk.injEq, reduceCtorEq, false_and] at f
    case restart h' p' x =>
      obtain ⟨-, rfl, rfl⟩ := f
      exact ⟨_, rfl, restart x⟩
    case replyReceived b h' p' => cases b <;> cases f.1
  · exact ⟨_, exec_frame f q r, receive kind⟩

/-! ## The commands that are no frame -/

theorem Preserves.ite {p : Prop} [Decidable p] (h : Preserves s t) : Preserves s (if p then t else s) := by
  split
  · exact h
  · exact .refl s

theorem Preserves.ended (h : Preserves s t) (tr : Trigger) : Preserves s (endEvent tr t) := h.trans (endEvent_preserves tr t)

theorem powerOn_preserves (x : Straps) (s : State) : Preserves s (powerOn x s) :=
  ⟨(start_pending ..).trans (abandonCommit_preserves s).pending, fun w => start_images _ _ _ _ _ _ _ (abandon_stored s w),
    fun _ => start_bounded _ _ _ _ _ _ _ (Nat.zero_le _) (Nat.zero_le _)⟩

theorem supplyStart_preserves (x : Straps) (s : State) : Preserves s (start s.cs.stored s.cs.mixed [] false 0 x s) :=
  ⟨start_pending .., fun w => start_images _ _ _ _ _ _ _ w.1, fun _ => start_bounded _ _ _ _ _ _ _ (Nat.zero_le _) (Nat.zero_le _)⟩

theorem debounceEnds_preserves (line : Line) (n : Nat) (s : State) : Preserves s (debounceEnds line n s) := by
  have stopped := (lu_preserves { s.lu with timers := setAt s.lu.timers line none } s).trans (advanceTo_preserves (n + s.image.debounce line) _)
  unfold debounceEnds
  dsimp only
  split
  · exact stopped
  · exact (stopped.trans (lu_preserves _ _)).trans ((evalLine_internal _ _).preserves.ended _)

theorem sampleArrives_preserves (c : Channel) (x : Sample) (s : State) : Preserves s (sampleArrives c x s) := by
  have detected : Preserves s (evalArrival c x (storeSample c x s)) :=
    ((advanceTo_preserves s.ms.nextArrival[c] s).trans (ms_preserves _ _)).trans (evalArrival_internal c x _).preserves
  unfold sampleArrives
  refine (Preserves.trans ?_ (countValid_internal c x _).preserves).ended _
  split
  · exact detected.trans (judgeRegulation_preserves _)
  · exact detected

theorem babbleBegins_preserves (r : Reception) (s : State) : Preserves s (babbleBegins r s) :=
  ((advanceTo_preserves _ s).trans (setMedium_preserves _ _)).trans (count_preserves _ _)

theorem idleResets_preserves (s : State) : Preserves s (idleResets s) :=
  ((advanceTo_preserves _ s).trans (lc_preserves _ _)).trans (beginOpening_preserves _)

theorem openingExpires_preserves (s : State) : Preserves s (openingExpires s) :=
  ((advanceTo_preserves _ s).trans (setPosition_preserves _ _)).trans (beginOpening_preserves _)

theorem ownFrameEnds_preserves (content : OwnContent) (s : State) : Preserves s (ownFrameEnds content s) :=
  ((((mediumEnds_preserves s).trans (setPosition_preserves _ _)).trans (completionEffects_preserves content _)).ended .none).trans
    (beginOpening_preserves _)

theorem collides_preserves (s : State) : Preserves s (collides s) :=
  ((count_preserves _ s).trans (stopOwnFrame_preserves _)).ended _

theorem cutsTransmitter_preserves (s : State) : Preserves s (cutsTransmitter s) :=
  ((setMedium_preserves _ s).trans (lc_preserves _ _)).ended _

theorem driverStuck_preserves (s : State) : Preserves s (driverStuck s) := by
  obtain e | e | ⟨r, -, -, -, e⟩ := driverStuck_cases s
  · rw [e]; exact .refl s
  · rw [e]; exact lc_preserves _ s
  · rw [e]; exact (advanceTo_preserves _ s).trans (cutsTransmitter_preserves _)

theorem countFailure_preserves (s : State) : Preserves s (countFailure s) := by
  unfold countFailure
  split
  · split
    · exact .refl s
    · exact count_preserves _ s
  · exact count_preserves _ s

theorem listenEnds_preserves (n : Nat) (s : State) : Preserves s (listenEnds n s) := by
  have joining : Preserves s (becomeJoining (advanceTo (n + s.image.tListen) s)) := (advanceTo_preserves _ s).trans (mu_preserves _ _)
  unfold listenEnds
  refine Preserves.ended ?_ _
  split
  · exact joining.trans (isolate_preserves _ _)
  · exact joining

theorem peerAbsent_preserves (k : Station) (s : State) : Preserves s (peerAbsent k s) :=
  ((setPeer_preserves _ _ s).trans (removeOwner_preserves k _)).trans (recomputeMarks_preserves _)

theorem timerDetects_preserves (f : FaultId) (s : State) : Preserves s (timerDetects f s) := by
  unfold timerDetects
  dsimp only
  split
  · exact (advanceTo_preserves _ s).trans (submit_internal f _).preserves
  · exact .refl s

theorem detectorTimer_preserves (f : FaultId) (s : State) : Preserves s (detectorTimer f s) :=
  ((timerDetects_preserves f s).ended _).ite

theorem receiveRestart_preserves (h : Header) (payload : List Byte) (x : Straps) (s : State) :
    Preserves s (receiveRestart h payload x s) := by
  unfold receiveRestart
  split
  · split
    · exact ((mediumEnds_preserves s).trans (count_preserves _ _)).trans (restartTaken_preserves _ _)
    · exact (count_preserves _ s).trans (receiveFrame_preserves _ _ _ _)
  · exact receiveFrame_preserves _ _ _ _

/-! ## Every command and every step -/

theorem exec_preserves (c : Instr) (s : State) : Answers Preserves c s := by
  cases f : frameOf c with
  | some frame =>
    obtain ⟨kind, h, payload⟩ := frame
    exact .frame f (receiveFrame_preserves · h payload s) (receiveQuery_preserves h payload s) (receiveRestart_preserves h payload · s)
  | none =>
    cases c
    case powerOn x => exact ⟨_, rfl, powerOn_preserves x s⟩
    case brownOut => exact ⟨_, rfl, (brownOut_preserves s).ite⟩
    case supplyReturn x =>
      refine ⟨_, rfl, ?_⟩
      split
      · exact .refl s
      · exact supplyStart_preserves x s
    case settleEnd => exact ⟨_, rfl, ((settleEnds_preserves s).ended _).ite⟩
    case rawLevelChange i high =>
      refine ⟨_, rfl, ?_⟩
      split
      · exact .refl s
      · exact lu_preserves _ s
    case lineChangeEvent i =>
      refine ⟨_, rfl, ?_⟩
      split
      · exact debounceEnds_preserves i _ s
      · exact .refl s
    case sampleArrival ch p => exact ⟨_, rfl, (sampleArrives_preserves ch _ s).ite⟩
    case receptionStart =>
      refine ⟨_, rfl, ?_⟩
      split
      · exact setMedium_preserves _ s
      · exact (startForestalled_preserves _ s).ite
      · exact .refl s
    case checkFailure received =>
      refine ⟨_, rfl, ?_⟩
      split
      · split
        · exact .refl s
        · exact ((countFailure_preserves s).trans (mediumEnds_preserves _)).trans (failureEnds_preserves _)
      · exact ignoredEnds_preserves s
    case babble =>
      refine ⟨_, rfl, ?_⟩
      split
      · split
        · exact .refl s
        · exact babbleBegins_preserves _ s
      · exact .refl s
    case openingExpiry => exact ⟨_, rfl, (openingExpires_preserves s).ite⟩
    case idleReset => exact ⟨_, rfl, (idleResets_preserves s).ite⟩
    case ownFrameComplete =>
      refine ⟨_, rfl, ?_⟩
      split
      · exact (advanceTo_preserves _ s).trans (ownFrameEnds_preserves _ _)
      · exact .refl s
    case collision =>
      refine ⟨_, rfl, ?_⟩
      split
      · exact collides_preserves s
      · exact .refl s
    case transmitCut =>
      refine ⟨_, rfl, ?_⟩
      split
      · exact ((advanceTo_preserves _ s).trans (takeBack_preserves _ _)).trans (cutsTransmitter_preserves _)
      · exact driverStuck_preserves s
      · exact .refl s
    case rowProgrammed =>
      refine ⟨_, rfl, ?_⟩
      split
      next p _ commit =>
        exact (advanceTo_preserves _ s).trans (rowDone_preserves p _ fun images => images.2.2 p commit)
      · exact .refl s
    case listenTimerExpiry =>
      refine ⟨_, rfl, ?_⟩
      split
      · exact listenEnds_preserves _ s
      · exact .refl s
    case silenceTimerExpiry k =>
      refine ⟨_, rfl, ?_⟩
      split
      · exact ((advanceTo_preserves _ s).trans (setPeer_preserves _ _ _)).ended _
      · exact .refl s
    case expiryTimerExpiry k =>
      refine ⟨_, rfl, ?_⟩
      split
      · exact ((advanceTo_preserves _ s).trans (peerAbsent_preserves k _)).ended _
      · exact .refl s
    case notHeardFrom =>
      refine ⟨_, rfl, ?_⟩
      split
      · exact ((advanceTo_preserves _ s).trans (isolate_preserves _ _)).ended _
      · exact .refl s
    case notHeardBy =>
      refine ⟨_, rfl, ?_⟩
      split
      · exact ((advanceTo_preserves _ s).trans (isolate_preserves _ _)).ended _
      · exact .refl s
    case panelSilence =>
      refine ⟨_, rfl, ?_⟩
      split
      · exact (((advanceTo_preserves _ s).trans (panelSilent_preserves _)).trans (phaseEvaluated_preserves _ _)).ended _
      · exact .refl s
    case tTempExpiry => exact ⟨_, rfl, detectorTimer_preserves _ s⟩
    case tFillExpiry => exact ⟨_, rfl, detectorTimer_preserves _ s⟩
    case tDrainExpiry => exact ⟨_, rfl, detectorTimer_preserves _ s⟩
    case tFilterExpiry => exact ⟨_, rfl, detectorTimer_preserves _ s⟩
    case stepTimerExpiry =>
      refine ⟨_, rfl, ?_⟩
      split
      · exact (advanceTo_preserves _ s).ended _
      · exact .refl s
    case claimWaitExpiry =>
      refine ⟨_, rfl, ?_⟩
      split
      · exact ((advanceTo_preserves _ s).trans (failAttempt_internal _ _ _ _ _).preserves).ended _
      · exact .refl s
    case dryTimerExpiry =>
      refine ⟨_, rfl, ?_⟩
      split
      · exact (advanceTo_preserves _ s).ended _
      · exact .refl s
    case babbleReceptionEnd =>
      refine ⟨_, rfl, ?_⟩
      split
      · split
        · exact (mediumEnds_preserves s).trans (failureEnds_preserves _)
        · exact .refl s
      · exact ignoredEnds_preserves s
    all_goals cases f

/-- What a step does: it runs a command on the state, the queue or the count of free values aside, or one microsecond passes. -/
theorem step_cases (h : step s = .next t) :
    (∃ c rest n, exec c { s with pending := rest, free := n } = .next t) ∨ t = tick s := by
  unfold step at h
  split at h
  next c rest _ => exact .inl ⟨c, rest, s.free, h⟩
  next empty =>
    split at h
    next c u due =>
      refine .inl ⟨c, s.pending, ?_⟩
      unfold idleEvent at due
      split at due
      · cases due
      · cases due
        exact ⟨s.free, h⟩
      · obtain ⟨_, -, e⟩ := Option.map_eq_some_iff.mp due
        cases e
        exact ⟨s.free + 1, h⟩
    · cases h
      exact .inr rfl

end Sys2Proof.Machine

namespace Sys2Proof.Proofs

open Sys2Proof.Machine

/-- Settles O57: every command keeps the images canonical, whatever the queue and the free values. -/
theorem imagesStayCanonical : Obligations.ImagesStayCanonical := by
  unfold Obligations.ImagesStayCanonical
  intro s t images stepped
  obtain ⟨c, rest, n, ran⟩ | rfl := step_cases stepped
  · exact ((exec_preserves c _).of_next ran).images images
  · exact images

/-- Settles O58: every command keeps the bounds, whatever the queue and the free values. -/
theorem boundsKept : Obligations.BoundsKept := by
  unfold Obligations.BoundsKept
  intro s t b stepped
  have same : ∀ u : State, u = { s with now := u.now, pending := u.pending, free := u.free } → u.Bounded := fun u e =>
    e ▸ ⟨b.claims, b.waiting, b.incidents, b.nextId, b.hazards, b.carried, b.counters, b.records⟩
  obtain ⟨c, rest, n, ran⟩ | rfl := step_cases stepped
  · exact ((exec_preserves c _).of_next ran).bounds (same _ rfl)
  · exact same _ rfl

/-- Settles O3: no command's arm answers a fault or a refusal, and none writes the queue. -/
theorem everyCommandAnswers : Obligations.EveryCommandAnswers := by
  unfold Obligations.EveryCommandAnswers
  intro c s
  obtain ⟨t, ran, kept⟩ := exec_preserves c s
  exact ⟨t, ran, kept.pending⟩

end Sys2Proof.Proofs
end

section
/-! Every command leaves the outputs and the shares safe off the link and out of service (R40, R107). -/

namespace Sys2Proof.Machine

variable {s t : State}

/-- The outputs are safe behind, where they were before. -/
def KeepsSafe (s t : State) : Prop := s.SafeOff → t.SafeOff

theorem KeepsSafe.refl (s : State) : KeepsSafe s s := id

theorem KeepsSafe.ite {p : Prop} [Decidable p] (h : KeepsSafe s t) : KeepsSafe s (if p then t else s) := by
  split
  · exact h
  · exact .refl s

/-- An update of nothing but the clock, the link, the counters, the Configuration Store and the Line Unit beside its outputs. -/
theorem KeepsSafe.of_same (zone : t.zoneMode = s.zoneMode) (link : t.mu.linkState = s.mu.linkState) (outputs : t.lu.outputs = s.lu.outputs)
    (claims : t.oc.claims = s.oc.claims) : KeepsSafe s t := (Still.of_same zone link outputs claims).safe

theorem advanceTo_keepsSafe (n : Nat) (s : State) : KeepsSafe s (advanceTo n s) := .of_same rfl rfl rfl rfl
theorem mediumEnds_keepsSafe (s : State) : KeepsSafe s (mediumEnds s) := .of_same rfl rfl rfl rfl
theorem setMedium_keepsSafe (m : Medium) (s : State) : KeepsSafe s (setMedium m s) := .of_same rfl rfl rfl rfl
theorem lc_keepsSafe (lc : LinkController) (s : State) : KeepsSafe s { s with lc := lc } := .of_same rfl rfl rfl rfl

/-- Every end of an event leaves the outputs safe. -/
theorem endEvent_keepsSafe (tr : Trigger) (u : State) : KeepsSafe s (endEvent tr u) := fun _ => endEvent_safe tr u

theorem beginOpening_keepsSafe (h : KeepsSafe s t) : KeepsSafe s (beginOpening t) := fun safe => (beginOpening_opened t).safe (h safe)

theorem setPosition_keepsSafe (h : KeepsSafe s t) (p : Nat) : KeepsSafe s (setPosition p t) := fun safe => setPosition_safe p t (h safe)

theorem ignoredEnds_keepsSafe (s : State) : KeepsSafe s (ignoredEnds s) := (mediumEnds_keepsSafe s).ite

theorem failureEnds_keepsSafe (h : KeepsSafe s t) : KeepsSafe s (failureEnds t) := beginOpening_keepsSafe (setPosition_keepsSafe h _)

theorem countFailure_keepsSafe (s : State) : KeepsSafe s (countFailure s) := by
  unfold countFailure
  split
  · split
    · exact .refl s
    · exact (count_still _ s).safe
  · exact (count_still _ s).safe

theorem idleResets_keepsSafe (s : State) : KeepsSafe s (idleResets s) := by
  unfold idleResets
  exact beginOpening_keepsSafe (.of_same rfl rfl rfl rfl)

theorem driverStuck_keepsSafe (s : State) : KeepsSafe s (driverStuck s) := by
  obtain e | e | ⟨r, -, -, -, e⟩ := driverStuck_cases s
  · rw [e]; exact .refl s
  · rw [e]; exact lc_keepsSafe _ s
  · rw [e]; exact endEvent_keepsSafe _ _

theorem debounceEnds_keepsSafe (line : Line) (n : Nat) (s : State) : KeepsSafe s (debounceEnds line n s) := by
  unfold debounceEnds
  dsimp only
  split
  · exact .of_same rfl rfl rfl rfl
  · exact endEvent_keepsSafe _ _

theorem rowDone_keepsSafe (p : Programming) (s : State) : KeepsSafe s (rowDone p s) := by
  rw [rowDone_only_cs]
  exact .of_same rfl rfl rfl rfl

theorem restartTaken_safe (x : Straps) (s : State) : (restartTaken x s).SafeOff := by
  unfold restartTaken
  dsimp only
  split
  · exact start_safe ..
  · exact start_safe ..

theorem receiveRestart_keepsSafe (h : Header) (payload : List Byte) (x : Straps) (s : State) :
    KeepsSafe s (receiveRestart h payload x s) := by
  intro safe
  unfold receiveRestart
  split
  · split
    · exact restartTaken_safe _ _
    · exact receiveFrame_safe _ _ _ _ ((count_still _ s).safe safe)
  · exact receiveFrame_safe _ _ _ _ safe

theorem exec_keepsSafe (c : Instr) (s : State) : Answers KeepsSafe c s := by
  cases f : frameOf c with
  | some frame =>
    obtain ⟨kind, h, payload⟩ := frame
    exact .frame f (receiveFrame_safe · h payload s) (receiveQuery_safe h payload s) (receiveRestart_keepsSafe h payload · s)
  | none =>
    cases c
    case powerOn x => exact ⟨_, rfl, fun _ => start_safe ..⟩
    case brownOut => exact ⟨_, rfl, KeepsSafe.ite (brownOut_safe s)⟩
    case supplyReturn x =>
      refine ⟨_, rfl, ?_⟩
      split
      · exact .refl s
      · exact fun _ => start_safe ..
    case settleEnd => exact ⟨_, rfl, (endEvent_keepsSafe _ _).ite⟩
    case rawLevelChange i high =>
      refine ⟨_, rfl, ?_⟩
      split
      · exact .refl s
      · exact .of_same rfl rfl rfl rfl
    case lineChangeEvent i =>
      refine ⟨_, rfl, ?_⟩
      split
      · exact debounceEnds_keepsSafe i _ s
      · exact .refl s
    case sampleArrival ch p => exact ⟨_, rfl, (endEvent_keepsSafe _ _).ite⟩
    case receptionStart =>
      refine ⟨_, rfl, ?_⟩
      split
      · exact setMedium_keepsSafe _ s
      · exact (endEvent_keepsSafe _ _).ite
      · exact .refl s
    case checkFailure received =>
      refine ⟨_, rfl, ?_⟩
      split
      · split
        · exact .refl s
        · exact failureEnds_keepsSafe fun safe => mediumEnds_keepsSafe _ (countFailure_keepsSafe s safe)
      · exact ignoredEnds_keepsSafe s
    case babble =>
      refine ⟨_, rfl, ?_⟩
      split
      · split
        · exact .refl s
        · exact .of_same rfl rfl rfl rfl
      · exact .refl s
    case openingExpiry => exact ⟨_, rfl, (beginOpening_keepsSafe (setPosition_keepsSafe (advanceTo_keepsSafe _ s) _)).ite⟩
    case idleReset => exact ⟨_, rfl, (idleResets_keepsSafe s).ite⟩
    case ownFrameComplete =>
      refine ⟨_, rfl, ?_⟩
      split
      · exact beginOpening_keepsSafe (endEvent_keepsSafe _ _)
      · exact .refl s
    case collision =>
      refine ⟨_, rfl, ?_⟩
      split
      · exact endEvent_keepsSafe _ _
      · exact .refl s
    case transmitCut =>
      refine ⟨_, rfl, ?_⟩
      split
      · exact endEvent_keepsSafe _ _
      · exact driverStuck_keepsSafe s
      · exact .refl s
    case rowProgrammed =>
      refine ⟨_, rfl, ?_⟩
      split
      · exact fun safe => rowDone_keepsSafe _ _ (advanceTo_keepsSafe _ s safe)
      · exact .refl s
    case panelSilence =>
      refine ⟨_, rfl, ?_⟩
      split
      · exact endEvent_keepsSafe _ _
      · exact .refl s
    case tTempExpiry => exact ⟨_, rfl, (endEvent_keepsSafe _ _).ite⟩
    case tFillExpiry => exact ⟨_, rfl, (endEvent_keepsSafe _ _).ite⟩
    case tDrainExpiry => exact ⟨_, rfl, (endEvent_keepsSafe _ _).ite⟩
    case tFilterExpiry => exact ⟨_, rfl, (endEvent_keepsSafe _ _).ite⟩
    case babbleReceptionEnd =>
      refine ⟨_, rfl, ?_⟩
      split
      · split
        · exact failureEnds_keepsSafe (mediumEnds_keepsSafe s)
        · exact .refl s
      · exact ignoredEnds_keepsSafe s
    case listenTimerExpiry | silenceTimerExpiry | expiryTimerExpiry | notHeardFrom | notHeardBy | stepTimerExpiry | claimWaitExpiry |
        dryTimerExpiry =>
      refine ⟨_, rfl, ?_⟩
      split
      · exact endEvent_keepsSafe _ _
      · exact .refl s
    all_goals cases f

end Sys2Proof.Machine

namespace Sys2Proof.Proofs

open Sys2Proof.Machine

/-- Settles O59: the end of an event makes the outputs and shares safe whatever they were; a command without one writes neither. -/
theorem outputsStaySafe : Obligations.OutputsStaySafe := by
  unfold Obligations.OutputsStaySafe
  intro s t safe stepped
  have same : ∀ u : State, u = { s with now := u.now, pending := u.pending, free := u.free } → u.SafeOff := fun u e =>
    e ▸ ⟨safe.outputs, safe.shares⟩
  obtain ⟨c, rest, n, ran⟩ | rfl := step_cases stepped
  · exact (exec_keepsSafe c _).of_next ran (same _ rfl)
  · exact same _ rfl

end Sys2Proof.Proofs
end

section
/-! What only its own commands write, and what only a start undoes, command by command. -/

namespace Sys2Proof.Machine

variable {s t u : State} {c : Instr}

/-- `t` has what only its own commands write as `s` has it, but for the part of this command. -/
structure WritesOwn (c : Instr) (s t : State) : Prop where
  pins : (∀ i high, c ≠ .rawLevelChange i high) → t.lu.pins = s.lu.pins
  debounced : (∀ i, c ≠ .lineChangeEvent i) → t.lu.debounced = s.lu.debounced
  samples : (∀ ch p, c ≠ .sampleArrival ch p) → t.ms = s.ms
  image : c ≠ .rowProgrammed → c ≠ .brownOut → t.cs.stored = s.cs.stored ∧ t.cs.mixed = s.cs.mixed
  working : (∀ h p, frameOf c ≠ some (.setup, h, p)) → t.cs.working = s.cs.working
  number : t.cs.number = s.cs.number
  straps : t.cs.straps = s.cs.straps
  result : t.cs.loadResult = s.cs.loadResult
  zone : c ≠ .settleEnd → (∀ h p, frameOf c ≠ some (.operator, h, p)) → t.zoneMode = s.zoneMode
  program : c ≠ .panelSilence → (∀ h p, frameOf c ≠ some (.program, h, p)) →
    t.pd.phase = s.pd.phase ∧ t.pd.demand = s.pd.demand ∧ t.pd.serial = s.pd.serial

theorem WritesOwn.trans (h : WritesOwn c s t) (k : WritesOwn c t u) : WritesOwn c s u where
  pins n := (k.pins n).trans (h.pins n)
  debounced n := (k.debounced n).trans (h.debounced n)
  samples n := (k.samples n).trans (h.samples n)
  image n m := ⟨(k.image n m).1.trans (h.image n m).1, (k.image n m).2.trans (h.image n m).2⟩
  working n := (k.working n).trans (h.working n)
  number := k.number.trans h.number
  straps := k.straps.trans h.straps
  result := k.result.trans h.result
  zone n m := (k.zone n m).trans (h.zone n m)
  program n m :=
    have ⟨phase, demand, serial⟩ := k.program n m
    have ⟨phase', demand', serial'⟩ := h.program n m
    ⟨phase.trans phase', demand.trans demand', serial.trans serial'⟩

theorem FrameWrites.writesOwn {kind : FrameKind} (w : FrameWrites kind s t) (setup : kind = .setup → ∃ h p, frameOf c = some (.setup, h, p))
    (operator : kind = .operator → ∃ h p, frameOf c = some (.operator, h, p))
    (program : kind = .program → ∃ h p, frameOf c = some (.program, h, p)) : WritesOwn c s t := by
  obtain ⟨lines, images, working, number, straps, result, zone, drive⟩ := w
  exact {
    pins := fun _ => congrArg (·.1) lines
    debounced := fun _ => congrArg (·.2.1) lines
    samples := fun _ => congrArg (·.2.2) lines
    image := fun _ _ => ⟨congrArg (·.1) images, congrArg (·.2) images⟩
    working := fun n => working fun e => have ⟨h, p, f⟩ := setup e; n h p f
    number := number
    straps := straps
    result := result
    zone := fun _ n => zone fun e => have ⟨h, p, f⟩ := operator e; n h p f
    program := fun _ n => drive fun e => have ⟨h, p, f⟩ := program e; n h p f }

/-- Such a `t`, in which moreover what only a start undoes lasts. -/
structure OwnWrites (c : Instr) (s t : State) : Prop where
  own : WritesOwn c s t
  out : ∀ e : Element, s.lu.elementOut[e] = true → t.lu.elementOut[e] = true
  held : s.cs.stage = .entered → s.held → t.held

/-- A state that has all of both as before. -/
structure Unwritten (s t : State) : Prop where
  written : ownWritten t = ownWritten s
  lasting : Lasting s t

theorem Unwritten.refl (s : State) : Unwritten s s := ⟨rfl, .refl s⟩
theorem Unwritten.trans (h : Unwritten s t) (k : Unwritten t u) : Unwritten s u := ⟨k.written.trans h.written, h.lasting.trans k.lasting⟩
theorem Unwritten.of_steady (w : ownWritten t = ownWritten s) (l : steady t = steady s) : Unwritten s t := ⟨w, .of_steady l⟩
theorem Unwritten.ended (h : Unwritten s t) (tr : Trigger) : Unwritten s (endEvent tr t) :=
  h.trans ⟨ownWritten_end tr t, endEvent_lasting tr t⟩

theorem Unwritten.opened (h : Unwritten s t) : Unwritten s (beginOpening t) := h.trans (.of_steady (ownWritten_open t) (beginOpening_steady t))

theorem Unwritten.ite {p : Prop} [Decidable p] (h : Unwritten s t) : Unwritten s (if p then t else s) := by
  split
  · exact h
  · exact .refl s

theorem Unwritten.ownWrites (h : Unwritten s t) : OwnWrites c s t :=
  have same : FrameWrites .reply s t := .of_same h.written
  ⟨same.writesOwn nofun nofun nofun, h.lasting.out, fun _ => h.lasting.held⟩

theorem OwnWrites.then (w : OwnWrites c s t) (h : Unwritten t u) : OwnWrites c s u :=
  ⟨w.own.trans h.ownWrites.own, fun e x => h.lasting.out e (w.out e x), fun entered x => h.lasting.held (w.held entered x)⟩

theorem OwnWrites.ended (w : OwnWrites c s t) (tr : Trigger) : OwnWrites c s (endEvent tr t) :=
  w.then ⟨ownWritten_end tr t, endEvent_lasting tr t⟩

theorem FrameWrites.ownWrites {kind : FrameKind} {h : Header} {payload : List Byte} (f : frameOf c = some (kind, h, payload))
    (w : FrameWrites kind s t) (l : Lasting s t) : OwnWrites c s t :=
  ⟨w.writesOwn (fun e => ⟨h, payload, e ▸ f⟩) (fun e => ⟨h, payload, e ▸ f⟩) (fun e => ⟨h, payload, e ▸ f⟩), l.out, fun _ => l.held⟩

/-! ## The commands that write none of it -/

theorem mediumEnds_unwritten (s : State) : Unwritten s (mediumEnds s) := .of_steady rfl rfl

theorem ignoredEnds_unwritten (s : State) : Unwritten s (ignoredEnds s) := (mediumEnds_unwritten s).ite

theorem failureEnds_unwritten (s : State) : Unwritten s (failureEnds s) := .of_steady (ownWritten_failureEnds s) (failureEnds_steady s)

theorem takeBack_unwritten (content : OwnContent) (s : State) : Unwritten s (takeBack content s) :=
  .of_steady (ownWritten_takeBack content s) (takeBack_steady content s)

theorem isolate_unwritten (reason : IsolationReason) (s : State) : Unwritten s (isolate reason s) :=
  ⟨ownWritten_isolate reason s, isolate_lasting reason s⟩

theorem advanceTo_unwritten (n : Nat) (s : State) : Unwritten s (advanceTo n s) := .of_steady rfl rfl

theorem setPosition_unwritten (p : Nat) (s : State) : Unwritten s (setPosition p s) :=
  .of_steady (ownWritten_pos p s) (setPosition_steady p s)

theorem Internal.unwritten (i : Internal s t) : Unwritten s t := ⟨ownWritten_internal i, i.lasting⟩

theorem idleResets_unwritten (s : State) : Unwritten s (idleResets s) := by
  unfold idleResets
  exact Unwritten.opened (.of_steady rfl rfl)

theorem peerSilent_unwritten (k : Station) (s : State) : Unwritten s (peerSilent k s) := .of_steady rfl rfl

theorem peerAbsent_unwritten (k : Station) (s : State) : Unwritten s (peerAbsent k s) := .of_steady rfl rfl

theorem countFailure_unwritten (s : State) : Unwritten s (countFailure s) := by
  unfold countFailure
  split
  · split
    · exact .refl s
    · exact .of_steady rfl rfl
  · exact .of_steady rfl rfl

theorem ownFrameEnds_unwritten (content : OwnContent) (s : State) : Unwritten s (ownFrameEnds content s) := by
  have wheel : Unwritten s (setPosition s.positionAfterOwn (mediumEnds s)) :=
    (mediumEnds_unwritten s).trans (setPosition_unwritten _ _)
  have completed := wheel.trans (.of_steady (ownWritten_complete content _) (completionEffects_steady content _))
  exact (completed.ended .none).opened

theorem collides_unwritten (s : State) : Unwritten s (collides s) :=
  (Unwritten.of_steady (s := s) (ownWritten_stop (count .collisions s)) (stopOwnFrame_steady (count .collisions s))).ended .none

theorem cutsTransmitter_unwritten (s : State) : Unwritten s (cutsTransmitter s) :=
  have cut : Unwritten s (setTransmitCut (setMedium (.reception { start := s.now, babble := false, afterOwn := true }) s)) :=
    .of_steady rfl rfl
  cut.ended _

theorem driverStuck_unwritten (s : State) : Unwritten s (driverStuck s) := by
  obtain e | e | ⟨r, -, -, -, e⟩ := driverStuck_cases s
  · rw [e]; exact .refl s
  · rw [e]; exact .of_steady rfl rfl
  · rw [e]; exact (advanceTo_unwritten _ s).trans (cutsTransmitter_unwritten _)

theorem listenEnds_unwritten (n : Nat) (out : ¬ s.held) : Unwritten s (listenEnds n s) := by
  have joining : Unwritten s (becomeJoining (advanceTo (n + s.image.tListen) s)) := ⟨rfl, ⟨fun _ => id, fun held => absurd held out⟩⟩
  unfold listenEnds
  refine Unwritten.ended ?_ _
  split
  · exact joining.trans (isolate_unwritten _ _)
  · exact joining

theorem detectorTimer_unwritten (f : FaultId) (s : State) : Unwritten s (detectorTimer f s) := by
  refine Unwritten.ite (Unwritten.ended ?_ _)
  unfold timerDetects
  dsimp only
  split
  · exact (advanceTo_unwritten _ s).trans (submit_internal f _).unwritten
  · exact .refl s

/-! ## The commands that write their own part -/

/-- An abandoned commit writes the stored image and its mark alone of the store's images. -/
theorem abandonCommit_writes (s : State) : WritesOwn .brownOut s (abandonCommit s) ∧ steady (abandonCommit s) = steady s := by
  have aside : ∀ (stored : Memory) (mixed : Bool) (commit : Option Programming) (free : Nat),
      let t : State := { s with cs := { s.cs with stored := stored, mixed := mixed, commit := commit }, free := free }
      WritesOwn .brownOut s t ∧ steady t = steady s := fun _ _ _ _ =>
    ⟨⟨fun _ => rfl, fun _ => rfl, fun _ => rfl, fun _ n => absurd rfl n, fun _ => rfl, rfl, rfl, rfl, fun _ _ => rfl,
      fun _ _ => ⟨rfl, rfl, rfl⟩⟩, rfl⟩
  unfold abandonCommit
  split
  · exact ⟨(Unwritten.refl s).ownWrites.own, rfl⟩
  · split
    · exact aside _ _ _ _
    · exact aside _ _ _ _

theorem brownOut_ownWrites (s : State) : OwnWrites .brownOut s (brownOut s) := by
  have stopped : Unwritten s (stopOwnFrame s) := .of_steady (ownWritten_stop s) (stopOwnFrame_steady s)
  obtain ⟨writes, steadily⟩ := abandonCommit_writes (stopOwnFrame s)
  have lasting := stopped.lasting.trans (.of_steady steadily)
  have abandoned : OwnWrites .brownOut s (abandonCommit (stopOwnFrame s)) :=
    ⟨stopped.ownWrites.own.trans writes, lasting.out, fun _ => lasting.held⟩
  unfold brownOut outputsOff
  exact abandoned.then (.of_steady rfl rfl)

theorem restoreCarried_written (s : State) : ownWritten (restoreCarried s) = ownWritten s := by
  have one : ∀ (v : State) (c : CarriedIncident), ownWritten (restoreOne v c) = ownWritten v := by
    intro v c
    unfold restoreOne
    split
    · dsimp only
      split
      · exact (ownWritten_internal (queueNotice_internal .inflowStop (createRecord c.fault (.failed c.reason) c.recurrences true v))).trans rfl
      · rfl
    · rfl
  have all : ∀ (l : List CarriedIncident) (v : State), ownWritten (l.foldl restoreOne v) = ownWritten v := by
    intro l
    induction l with
    | nil => exact fun _ => rfl
    | cons c l ih => exact fun v => (ih _).trans (one v c)
  exact all s.cs.carryIncidents s

theorem enterService_writes (s : State) : WritesOwn .settleEnd s (enterService s) := by
  have entered : ∀ (mode : ZoneMode) (fd : FaultDetector), WritesOwn .settleEnd s
      { s with zoneMode := mode, fd := fd, cs := { s.cs with carryOutOfService := false } } := fun _ _ =>
    ⟨fun _ => rfl, fun _ => rfl, fun _ => rfl, fun _ _ => ⟨rfl, rfl⟩, fun _ => rfl, rfl, rfl, rfl, fun n => absurd rfl n,
      fun _ _ => ⟨rfl, rfl, rfl⟩⟩
  unfold enterService changeZoneMode dropProgress
  dsimp only
  split
  · exact (entered _ _).trans (queueNotice_internal _ _).unwritten.ownWrites.own
  · exact entered _ _

theorem settleEnds_writes (s : State) : WritesOwn .settleEnd s (settleEnds s) := by
  have restored : FrameWrites .reply s (reviewHolds (restoreCarried s)) :=
    .of_same ((ownWritten_internal (reviewHolds_internal _)).trans (restoreCarried_written s))
  have begun : ∀ u : State, WritesOwn .settleEnd u { u with cs := { u.cs with stage := .entered } } := fun _ =>
    ⟨fun _ => rfl, fun _ => rfl, fun _ => rfl, fun _ _ => ⟨rfl, rfl⟩, fun _ => rfl, rfl, rfl, rfl, fun _ _ => rfl,
      fun _ _ => ⟨rfl, rfl, rfl⟩⟩
  have listening : ∀ u : State, WritesOwn .settleEnd u (receiverOn (becomeListening u)) := fun _ =>
    ⟨fun _ => rfl, fun _ => rfl, fun _ => rfl, fun _ _ => ⟨rfl, rfl⟩, fun _ => rfl, rfl, rfl, rfl, fun _ _ => rfl,
      fun _ _ => ⟨rfl, rfl, rfl⟩⟩
  have detecting := ((restored.writesOwn nofun nofun nofun).trans (begun _)).trans (runDetectors_internal _).unwritten.ownWrites.own
  exact (detecting.trans (enterService_writes _)).trans (listening _)

theorem settleEnd_ownWrites (settling : s.cs.stage = .settle) : OwnWrites .settleEnd s (settleEnds s) :=
  ⟨settleEnds_writes s, settleEnds_out s, fun entered => absurd (settling.symm.trans entered) (by decide)⟩

theorem debounceEnds_ownWrites (line : Line) (n : Nat) (s : State) : OwnWrites (.lineChangeEvent line) s (debounceEnds line n s) := by
  have taken : ∀ (now : Nat) (timers : Vector (Option Nat) 16) (debounced : Vector (Option Bool) 16), OwnWrites (.lineChangeEvent line) s
      { s with now := now, lu := { s.lu with timers := timers, debounced := debounced } } := fun _ _ _ =>
    ⟨⟨fun _ => rfl, fun n => absurd rfl (n line), fun _ => rfl, fun _ _ => ⟨rfl, rfl⟩, fun _ => rfl, rfl, rfl, rfl, fun _ _ => rfl,
      fun _ _ => ⟨rfl, rfl, rfl⟩⟩, fun _ => id, fun _ => id⟩
  unfold debounceEnds lineChanged
  dsimp only
  split
  · exact taken _ _ _
  · exact ((taken _ _ _).then (evalLine_internal _ _).unwritten).ended _

theorem judgeRegulation_unwritten (s : State) : Unwritten s (judgeRegulation s) := by
  unfold judgeRegulation
  exact Unwritten.ite (.of_steady rfl rfl)

theorem sampleArrives_ownWrites (ch : Channel) (p : Presented) (s : State) :
    OwnWrites (.sampleArrival ch p) s (sampleArrives ch (sampleOf p) s) := by
  have stored : OwnWrites (.sampleArrival ch p) s (storeSample ch (sampleOf p) s) :=
    ⟨⟨fun _ => rfl, fun _ => rfl, fun n => absurd rfl (n ch p), fun _ _ => ⟨rfl, rfl⟩, fun _ => rfl, rfl, rfl, rfl, fun _ _ => rfl,
      fun _ _ => ⟨rfl, rfl, rfl⟩⟩, fun _ => id, fun _ => id⟩
  have detected := stored.then (evalArrival_internal ch (sampleOf p) _).unwritten
  unfold sampleArrives
  refine OwnWrites.ended (OwnWrites.then ?_ (countValid_internal _ _ _).unwritten) _
  split
  · exact detected.then (judgeRegulation_unwritten _)
  · exact detected

/-- The panel silence timer writes the Program Drive alone. -/
theorem panelSilent_eq (s : State) : panelSilent s = { s with pd := (panelSilent s).pd } := by
  unfold panelSilent
  dsimp only
  split
  · rw [changePhase_eq]
  · rw [changePhase_eq]
  · rw [changePhase_eq]
  · rfl

theorem panelSilence_ownWrites (n : Nat) (s : State) :
    OwnWrites .panelSilence s (phaseEvaluated s.pd.phase (panelSilent (advanceTo n s))) := by
  have silent : OwnWrites .panelSilence s (panelSilent (advanceTo n s)) := by
    rw [panelSilent_eq]
    exact ⟨⟨fun _ => rfl, fun _ => rfl, fun _ => rfl, fun _ _ => ⟨rfl, rfl⟩, fun _ => rfl, rfl, rfl, rfl, fun _ _ => rfl,
      fun n => absurd rfl n⟩, fun _ => id, fun _ => id⟩
  refine silent.then ?_
  unfold phaseEvaluated
  split
  · exact .refl _
  · exact (evalTimed_internal _ _).unwritten

theorem rowDone_ownWrites (p : Programming) (n : Nat) (s : State) : OwnWrites .rowProgrammed s (rowDone p (advanceTo n s)) := by
  have aside : ∀ (stored : Memory) (mixed : Bool) (commit : Option Programming) (locked : Bool) (reply : Option SetupReply),
      OwnWrites .rowProgrammed s { advanceTo n s with
        cs := { s.cs with stored := stored, mixed := mixed, commit := commit, locked := locked, reply := reply } } := fun _ _ _ _ _ =>
    ⟨⟨fun _ => rfl, fun _ => rfl, fun _ => rfl, fun n => absurd rfl n, fun _ => rfl, rfl, rfl, rfl, fun _ _ => rfl,
      fun _ _ => ⟨rfl, rfl, rfl⟩⟩, fun _ => id, fun _ => id⟩
  unfold rowDone
  dsimp only
  split
  · exact aside _ _ _ _ _
  · exact aside _ _ _ _ _

/-! ## Every command -/

theorem exec_ownWrites (c : Instr) (s : State) (n : isStart c = false) : Answers (OwnWrites c) c s := by
  cases f : frameOf c with
  | some frame =>
    obtain ⟨kind, h, payload⟩ := frame
    by_cases q : kind = .query
    · subst q
      exact ⟨_, exec_query f, (receiveQuery_writes h payload s).ownWrites f (receiveQuery_lasting h payload s)⟩
    by_cases r : kind = .restart
    · subst r
      cases c <;> simp only [frameOf, Option.some.injEq, Prod.mk.injEq, reduceCtorEq, false_and] at f
      case restart => cases n
      case replyReceived b _ _ => cases b <;> cases f.1
    · exact ⟨_, exec_frame f q r, (ownWritten_receive kind h payload s).ownWrites f (receiveFrame_lasting kind h payload s)⟩
  | none =>
    have same : OwnWrites c s s := (Unwritten.refl s).ownWrites
    cases c
    case powerOn => cases n
    case supplyReturn => cases n
    case brownOut =>
      refine ⟨_, rfl, ?_⟩
      split
      · exact brownOut_ownWrites s
      · exact same
    case settleEnd =>
      refine ⟨_, rfl, ?_⟩
      split
      next settles =>
        simp only [Bool.and_eq_true, beq_iff_eq] at settles
        exact (settleEnd_ownWrites settles.1.2).ended _
      · exact same
    case rawLevelChange i high =>
      refine ⟨_, rfl, ?_⟩
      split
      · exact same
      · exact ⟨⟨fun n => absurd rfl (n i high), fun _ => rfl, fun _ => rfl, fun _ _ => ⟨rfl, rfl⟩, fun _ => rfl, rfl, rfl, rfl,
          fun _ _ => rfl, fun _ _ => ⟨rfl, rfl, rfl⟩⟩, fun _ => id, fun _ => id⟩
    case lineChangeEvent i =>
      refine ⟨_, rfl, ?_⟩
      split
      · exact debounceEnds_ownWrites i _ s
      · exact same
    case sampleArrival ch p =>
      refine ⟨_, rfl, ?_⟩
      split
      · exact sampleArrives_ownWrites ch p s
      · exact same
    case receptionStart =>
      refine ⟨_, rfl, Unwritten.ownWrites ?_⟩
      split
      · exact .of_steady rfl rfl
      · exact Unwritten.ite ⟨startForestalled_written _ s, startForestalled_lasting _ s⟩
      · exact .refl s
    case checkFailure received =>
      refine ⟨_, rfl, Unwritten.ownWrites ?_⟩
      split
      · split
        · exact .refl s
        · exact (countFailure_unwritten s).trans ((mediumEnds_unwritten _).trans (failureEnds_unwritten _))
      · exact ignoredEnds_unwritten s
    case babble =>
      refine ⟨_, rfl, Unwritten.ownWrites ?_⟩
      split
      · split
        · exact .refl s
        · exact .of_steady rfl rfl
      · exact .refl s
    case openingExpiry =>
      exact ⟨_, rfl, (((advanceTo_unwritten _ s).trans (setPosition_unwritten _ _)).opened.ite).ownWrites⟩
    case idleReset =>
      refine ⟨_, rfl, Unwritten.ownWrites ?_⟩
      split
      · exact idleResets_unwritten s
      · exact .refl s
    case ownFrameComplete =>
      refine ⟨_, rfl, Unwritten.ownWrites ?_⟩
      split
      · exact (advanceTo_unwritten _ s).trans (ownFrameEnds_unwritten _ _)
      · exact .refl s
    case collision =>
      refine ⟨_, rfl, Unwritten.ownWrites ?_⟩
      split
      · exact collides_unwritten s
      · exact .refl s
    case transmitCut =>
      refine ⟨_, rfl, Unwritten.ownWrites ?_⟩
      split
      · exact ((advanceTo_unwritten _ s).trans (takeBack_unwritten _ _)).trans (cutsTransmitter_unwritten _)
      · exact driverStuck_unwritten s
      · exact .refl s
    case rowProgrammed =>
      refine ⟨_, rfl, ?_⟩
      split
      · exact rowDone_ownWrites _ _ s
      · exact same
    case listenTimerExpiry =>
      refine ⟨_, rfl, Unwritten.ownWrites ?_⟩
      split
      next link _ => exact listenEnds_unwritten _ fun held => absurd (link.symm.trans held.2) (by decide)
      · exact .refl s
    case silenceTimerExpiry k =>
      refine ⟨_, rfl, Unwritten.ownWrites ?_⟩
      split
      · exact ((advanceTo_unwritten _ s).trans (peerSilent_unwritten k _)).ended _
      · exact .refl s
    case expiryTimerExpiry k =>
      refine ⟨_, rfl, Unwritten.ownWrites ?_⟩
      split
      · exact ((advanceTo_unwritten _ s).trans (peerAbsent_unwritten k _)).ended _
      · exact .refl s
    case notHeardFrom =>
      refine ⟨_, rfl, Unwritten.ownWrites ?_⟩
      split
      · exact ((advanceTo_unwritten _ s).trans (isolate_unwritten _ _)).ended _
      · exact .refl s
    case notHeardBy =>
      refine ⟨_, rfl, Unwritten.ownWrites ?_⟩
      split
      · exact ((advanceTo_unwritten _ s).trans (isolate_unwritten _ _)).ended _
      · exact .refl s
    case panelSilence =>
      refine ⟨_, rfl, ?_⟩
      split
      · exact (panelSilence_ownWrites _ s).ended _
      · exact same
    case tTempExpiry => exact ⟨_, rfl, (detectorTimer_unwritten _ s).ownWrites⟩
    case tFillExpiry => exact ⟨_, rfl, (detectorTimer_unwritten _ s).ownWrites⟩
    case tDrainExpiry => exact ⟨_, rfl, (detectorTimer_unwritten _ s).ownWrites⟩
    case tFilterExpiry => exact ⟨_, rfl, (detectorTimer_unwritten _ s).ownWrites⟩
    case stepTimerExpiry =>
      refine ⟨_, rfl, Unwritten.ownWrites ?_⟩
      split
      · exact (advanceTo_unwritten _ s).ended _
      · exact .refl s
    case claimWaitExpiry =>
      refine ⟨_, rfl, Unwritten.ownWrites ?_⟩
      split
      · exact ((advanceTo_unwritten _ s).trans (failAttempt_internal _ _ _ _ _).unwritten).ended _
      · exact .refl s
    case dryTimerExpiry =>
      refine ⟨_, rfl, Unwritten.ownWrites ?_⟩
      split
      · exact (advanceTo_unwritten _ s).ended _
      · exact .refl s
    case babbleReceptionEnd =>
      refine ⟨_, rfl, Unwritten.ownWrites ?_⟩
      split
      · split
        · exact (mediumEnds_unwritten s).trans (failureEnds_unwritten _)
        · exact .refl s
      · exact ignoredEnds_unwritten s
    all_goals cases f

end Sys2Proof.Machine

namespace Sys2Proof.Proofs

open Sys2Proof.Machine

/-- Settles O60: each command that is no start writes at most its own part, and what lasts until a start lasts through it. -/
theorem writtenByTheirOwnCommands : Obligations.WrittenByTheirOwnCommands := by
  unfold Obligations.WrittenByTheirOwnCommands
  intro c s t ran noStart
  obtain ⟨own, out, held⟩ := (exec_ownWrites c s noStart).of_next ran
  exact ⟨own.pins, own.debounced, own.samples, own.image, own.working, own.number, own.straps, own.result, own.zone, own.program, out,
    fun entered latch link => held entered ⟨latch, link⟩⟩

end Sys2Proof.Proofs
end

section
/-! One step, what the end of an event leaves as it was, and the wheel after a frame. -/

namespace Sys2Proof.Machine

variable {s : State}

theorem replicate_get {α : Type} {n : Nat} (x : α) (k : Fin n) : (Vector.replicate n x)[k] = x := Vector.getElem_replicate ..

/-- At reset every output is inactive. -/
theorem resetOutputs_inactive (f : OutputFunction) : (LineUnit.resetOutputs[outputPlace f]).active = false := by
  have inactive : ∀ k : Fin 11, (LineUnit.resetOutputs[k]).active = false := by decide
  exact inactive (outputPlace f)

theorem reset_counter_le (c : Counter) : State.reset.counter c ≤ counterMax c := by
  have zero : ∀ k : Fin 13, (State.reset.rp.counters)[k] = 0 := by decide
  exact Nat.le_trans (Nat.le_of_eq (zero (counterPlace c))) (Nat.zero_le _)

theorem reset_bounded : State.reset.Bounded where
  claims := Nat.zero_le _
  waiting := Nat.zero_le _
  incidents := Nat.zero_le _
  nextId := by decide
  hazards := Nat.zero_le _
  carried := Nat.zero_le _
  counters := reset_counter_le
  records k _ := by
    have empty : State.reset.ct[k] = OwnerEntry.empty := replicate_get _ _
    rw [empty]
    exact Nat.zero_le _

/-! ## An empty queue (log 2) -/

theorem step_idle (empty : s.pending = []) (idle : idleEvent s = none) : step s = .next (tick s) := by
  unfold step
  split
  next queued => cases empty.symm.trans queued
  next =>
    split
    next due => cases idle.symm.trans due
    next => rfl

theorem step_due {c : Instr} {t : State} (empty : s.pending = []) (due : idleEvent s = some (c, t)) : step s = exec c t := by
  unfold step
  split
  next queued => cases empty.symm.trans queued
  next =>
    split
    next other => cases due.symm.trans other; rfl
    next idle => cases due.symm.trans idle

/-! ## The wheel (R48, R50) -/

/-- A position past W wraps to 0 and counts the round; any other is taken as it is. -/
theorem setPosition_lc (p : Nat) (s : State) :
    (s.wheelSize < p → (setPosition p s).lc =
      { s.lc with position := 0, roundCount := s.lc.roundCount + 1, presenceAge := min (s.lc.presenceAge + 1) 8 }) ∧
    (p ≤ s.wheelSize → (setPosition p s).lc = { s.lc with position := p }) := by
  unfold setPosition
  constructor
  · intro past
    rw [if_pos past]
  · intro within
    rw [if_neg (Nat.not_lt.mpr within)]

/-- An opening in which nothing may be sent reads the clock and no more. -/
theorem beginOpening_silent (h : s.lc.transmitCut = true ∨ s.lc.medium ≠ .quiet) :
    beginOpening s = { s with lc := { s.lc with openingStart := s.now } } := by
  have barred : (s.lc.transmitCut || s.lc.medium != .quiet || !s.lc.receiverOn) = true := by
    obtain cut | busy := h
    · rw [cut]; rfl
    · rw [bne_iff_ne.mpr busy, Bool.or_true]; rfl
  exact if_pos barred

end Sys2Proof.Machine

namespace Sys2Proof.Proofs

open Sys2Proof.Machine

/-- Settles O1: the front of the queue is what `step` matches on. -/
theorem stepRunsFrontCommand : Obligations.StepRunsFrontCommand := by
  unfold Obligations.StepRunsFrontCommand
  intro c rest s
  rfl

/-- Settles O2: on an empty queue `step` asks `idleEvent`, which reads the list of what is due. -/
theorem stepOnEmptyQueue : Obligations.StepOnEmptyQueue := by
  unfold Obligations.StepOnEmptyQueue
  intro s empty
  exact ⟨fun idle => step_idle empty (by rw [idleEvent, idle]), fun c due => step_due empty (by rw [idleEvent, due])⟩

/-- Settles O56: every list of the reset state is empty, every counter 0 and every output inactive. -/
theorem invariantsAtReset : Obligations.InvariantsAtReset := by
  unfold Obligations.InvariantsAtReset
  exact ⟨⟨rfl, rfl, nofun⟩, reset_bounded, ⟨fun _ f _ => resetOutputs_inactive f, fun _ _ claimed => nomatch claimed⟩⟩

/-- Settles O4: the whole end of an event is internal to the blocks, and only the JOINING wait moves the link state. -/
theorem endOfEventLeaves : Obligations.EndOfEventLeaves := by
  unfold Obligations.EndOfEventLeaves
  intro tr s
  have i := endEvent_internal tr s
  exact ⟨joinEnds_iff s, i.zoneSide, i.mode, i.program, i.hazardMemory, i.questions, i.samePeers _, i.sameOwners _, i.sameCounters _,
    i.now, i.lc, i.changeNumber, endEvent_joined tr s, fun waits => i.link.resolve_right fun moved => Bool.false_ne_true (waits.symm.trans moved.1)⟩

/-- Settles O5: the position is written before the opening begins, and the opening writes at most the content an own frame takes along. -/
theorem wheelRule : Obligations.WheelRule := by
  unfold Obligations.WheelRule
  refine ⟨fun sender s => ?_, fun s => beginOpening_silent⟩
  have opened : Opened { s with lc := (setPosition (s.positionAfter sender) s).lc } (frameEnds sender s) :=
    setPosition_eq (s.positionAfter sender) s ▸ beginOpening_opened _
  obtain ⟨wraps, stays⟩ := setPosition_lc (s.positionAfter sender) s
  refine ⟨fun past => ?wraps, fun within => ?stays, ⟨opened.supply, opened.ms, congrArg (·.pins) opened.lu, congrArg (·.timers) opened.lu,
    congrArg (·.debounced) opened.lu, congrArg (·.testLevels) opened.lu, opened.pending⟩, opened.zoneMode, opened.mu, opened.ct,
    opened.claims, opened.lu, opened.pd, opened.fd, opened.rs, ⟨opened.memory, opened.gateStop⟩, opened.stored, opened.working,
    opened.counters⟩
  case wraps =>
    rw [opened.position, opened.roundCount, opened.presenceAge, wraps past]
    exact ⟨rfl, rfl, rfl⟩
  case stays =>
    rw [opened.position, opened.roundCount, opened.presenceAge, stays within]
    exact ⟨rfl, rfl, rfl⟩

end Sys2Proof.Proofs
end

section
/-! The own opening: the order in which the frames are due (R54), how many changes a CLAIM takes (R35, R36), and the payloads (R66 to R68). -/

namespace Sys2Proof.Machine

variable {s : State}

/-- The own opening, where this station takes part and may send, chooses a frame. -/
theorem beginOpening_own (runs : s.serviceMode = false) (part : s.takesPart = true) (own : s.lc.position = s.cs.number.toNat)
    (onWheel : s.lc.position < s.wheelSize) (quiet : s.lc.medium = .quiet) (hears : s.lc.receiverOn = true) (uncut : s.lc.transmitCut = false) :
    beginOpening s = chooseFrame { s with lc := { s.lc with openingStart := s.now } } := by
  have free : ¬ (s.lc.transmitCut || s.lc.medium != .quiet || !s.lc.receiverOn) = true := by
    rw [uncut, quiet, hears]; decide
  have turn : (s.takesPart && s.lc.position == s.cs.number.toNat && decide (s.lc.position < s.wheelSize)) = true := by
    rw [part, beq_iff_eq.mpr own, decide_eq_true onWheel]; rfl
  refine (if_neg free).trans ((if_neg ?_).trans (if_pos turn))
  exact fun service => Bool.false_ne_true (runs.symm.trans service)

/-! ## The order of the frames (R54) -/

section Order

/-- The join request is due: JOINING, and none has completed (R56). -/
abbrev State.joinDue (s : State) : Prop := s.mu.linkState = .joining ∧ s.mu.joinRequestDone = none
/-- The CLAIM_SET is due that follows the joining (R37). -/
abbrev State.firstSetDue (s : State) : Prop := s.mu.linkState = .joined ∧ s.oc.restatedSinceJoined = false

variable (join : ¬ s.joinDue) (first : ¬ s.firstSetDue) (late : ¬ s.image.presencePeriod ≤ s.lc.presenceAge)
  (due : s.oc.restatementDue = false) (claim : s.claimDue = false) (notice : ¬ (s.mu.linkState = .joined ∧ s.hz.queue ≠ []))

theorem chooseFrame_join (h : s.joinDue) : chooseFrame s = sendResync true 15 s := if_pos h

theorem chooseFrame_first (h : s.firstSetDue) : chooseFrame s = sendClaimSet s :=
  (if_neg fun join => absurd (h.1.symm.trans join.1) (by decide)).trans (if_pos h)

include join first

theorem chooseFrame_late (h : s.image.presencePeriod ≤ s.lc.presenceAge) : chooseFrame s = sendPresence s :=
  (if_neg join).trans ((if_neg first).trans (if_pos h))

include late

theorem chooseFrame_restatement (h : s.oc.restatementDue = true) : chooseFrame s = sendClaimSet s :=
  (if_neg join).trans ((if_neg first).trans ((if_neg late).trans (if_pos h)))

include due

theorem chooseFrame_claim (h : s.claimDue = true) : chooseFrame s = sendClaim s :=
  (if_neg join).trans ((if_neg first).trans ((if_neg late).trans ((if_neg (Bool.eq_false_iff.mp due)).trans (if_pos h))))

include claim

theorem chooseFrame_hazard {e : HazardEntry} {queue : List HazardEntry} (joined : s.mu.linkState = .joined) (h : s.hz.queue = e :: queue) :
    chooseFrame s = sendHazard e s := by
  unfold chooseFrame
  rw [if_neg join, if_neg first, if_neg late, if_neg (Bool.eq_false_iff.mp due), if_neg (Bool.eq_false_iff.mp claim), joined, h]

include notice

/-- Behind the frames above come PRESENCE, RESYNC and REPLY. -/
theorem chooseFrame_last : chooseFrame s = if s.presenceDue then sendPresence s
    else match s.staleOwners with
      | k :: _ => sendResync false k.val s
      | [] => match s.rp.slot with
        | some q => sendReply q s
        | none => s := by
  unfold chooseFrame
  rw [if_neg join, if_neg first, if_neg late, if_neg (Bool.eq_false_iff.mp due), if_neg (Bool.eq_false_iff.mp claim)]
  split
  next joined queue => exact absurd ⟨joined, queue ▸ List.cons_ne_nil _ _⟩ notice
  · rfl

theorem chooseFrame_presence (h : s.presenceDue = true) : chooseFrame s = sendPresence s := by
  rw [chooseFrame_last join first late due claim notice, if_pos h]

variable (unchanged : s.presenceDue = false)

include unchanged

theorem chooseFrame_resync {k : Station} {more : List Station} (h : s.staleOwners = k :: more) : chooseFrame s = sendResync false k.val s := by
  rw [chooseFrame_last join first late due claim notice, if_neg (Bool.eq_false_iff.mp unchanged), h]

theorem chooseFrame_reply (stale : s.staleOwners = []) {q : Question} (h : s.rp.slot = some q) : chooseFrame s = sendReply q s := by
  rw [chooseFrame_last join first late due claim notice, if_neg (Bool.eq_false_iff.mp unchanged), stale, h]

theorem chooseFrame_none (stale : s.staleOwners = []) (h : s.rp.slot = none) : chooseFrame s = s := by
  rw [chooseFrame_last join first late due claim notice, if_neg (Bool.eq_false_iff.mp unchanged), stale, h]

end Order

/-! ## How many changes a CLAIM takes (R35, R36) -/

/-- The window admits the i-th change of the unsent list: its number is at most 64 after the ack of every peer PRESENT and JOINED. -/
def State.admits (s : State) (i : Nat) : Prop := ∀ (k : Station) (a : Byte), k ≠ s.me → s.mu.peers[k].state = .present →
  s.mu.peers[k].reportedLink = some .joined → s.mu.peers[k].ackOfMe = some a → (s.oc.changeNumber + byteOf (i + 1) - a).toNat ≤ 64

theorem change_number (number : Byte) (i : Nat) : number + 1 + byteOf i = number + byteOf (i + 1) := by
  unfold byteOf
  rw [BitVec.ofNat_add, BitVec.add_comm (BitVec.ofNat 8 i), BitVec.add_assoc]
  rfl

theorem admits_iff (s : State) (i : Nat) : s.windowAdmits (s.oc.changeNumber + 1 + byteOf i) = true ↔ s.admits i := by
  rw [change_number, windowAdmits_iff]
  rfl

/-- The CLAIM takes the first changes that the window admits, at most four and none past the first that it holds back. -/
theorem claimSize_spec (s : State) : s.claimSize ≤ 4 ∧ s.claimSize ≤ s.oc.unsent.length ∧ (∀ i < s.claimSize, s.admits i) ∧
    (s.claimSize < 4 → s.claimSize < s.oc.unsent.length → ¬ s.admits s.claimSize) := by
  obtain ⟨few, admitted, stops⟩ := admitted_spec s (min Config.maxChanges s.oc.unsent.length) (s.oc.changeNumber + 1)
  obtain ⟨four, all⟩ := Nat.le_min.mp few
  refine ⟨four, all, fun i h => (admits_iff s i).mp (admitted i h), fun below behind => ?_⟩
  rw [← admits_iff, Bool.not_eq_true]
  exact stops (Nat.lt_min.mpr ⟨below, behind⟩)

theorem claimSize_pos (s : State) : 0 < s.claimSize ↔ s.oc.unsent ≠ [] ∧ s.admits 0 := by
  obtain ⟨-, all, admitted, stops⟩ := claimSize_spec s
  constructor
  · exact fun some => ⟨List.ne_nil_of_length_pos (Nat.lt_of_lt_of_le some all), admitted 0 some⟩
  · rintro ⟨unsent, fits⟩
    refine Nat.pos_of_ne_zero fun zero => ?_
    exact stops (by omega) (zero ▸ List.length_pos_iff.2 unsent) (zero ▸ fits)

theorem claimDue_iff (first : ¬ s.firstSetDue) (due : s.oc.restatementDue = false) :
    s.claimDue = true ↔ s.mu.linkState = .joined ∧ s.oc.unsent ≠ [] ∧ s.admits 0 := by
  rw [← claimSize_pos, State.claimDue]
  simp only [Bool.and_eq_true, beq_iff_eq, due, Bool.not_false, decide_eq_true_eq, and_true]
  constructor
  · exact fun ⟨⟨joined, _⟩, size⟩ => ⟨joined, size⟩
  · exact fun ⟨joined, size⟩ => ⟨⟨joined, Bool.of_not_eq_false fun unrestated => first ⟨joined, unrestated⟩⟩, size⟩

/-! ## The payload of a PRESENCE (R66) -/

theorem getD_within {α : Type} (l : List α) {i : Nat} (d : α) (within : i < l.length) : l.getD i d = l[i] := by
  rw [List.getD_eq_getElem?_getD, List.getElem?_eq_getElem within, Option.getD_some]

theorem getD_past {α : Type} (l : List α) {i : Nat} (d : α) (past : l.length ≤ i) : l.getD i d = d := by
  rw [List.getD_eq_getElem?_getD, List.getElem?_eq_none past, Option.getD_none]

theorem getD_append_past {α : Type} (l rest : List α) {i : Nat} (d : α) (past : l.length ≤ i) :
    (l ++ rest).getD i d = rest.getD (i - l.length) d := by
  rw [List.getD_eq_getElem?_getD, List.getElem?_append_right past, ← List.getD_eq_getElem?_getD]

theorem toList_getD {α : Type} {n : Nat} (v : Vector α n) (k : Fin n) (d : α) : v.toList.getD k.val d = v[k] := by
  rw [getD_within v.toList d (by rw [Vector.length_toList]; exact k.isLt)]
  exact Vector.getElem_toList _

theorem heardSet_iff (s : State) (k : Station) :
    s.heardSet[k] = true ↔ ∃ last, s.mu.peers[k].lastAccepted = some last ∧ s.now - last ≤ s.image.tSilent := by
  unfold State.heardSet
  rw [mapAll_get]
  cases s.mu.peers[k].lastAccepted with
  | none => simp
  | some t => simp

theorem appliedVector_get (s : State) (k : Station) : s.appliedVector[k] = s.ct[k].applied := mapAll_get _ _ _

/-- The payload in its three parts: the first eight bytes, the twelve Applied entries, the last four. -/
theorem presencePayload_eq (p : PresenceFields) : presencePayload p =
    [byteOf (linkCode p.linkState), byteOf (zoneModeCode p.zoneMode), highByte p.digest, lowByte p.digest,
      byteOf (maskOf p.heardSet.toList / 256), byteOf (maskOf p.heardSet.toList),
      byteOf (maskOf (p.applied.toList.map Option.isNone) / 256), byteOf (maskOf (p.applied.toList.map Option.isNone))] ++
    (p.applied.toList.map (fun a => a.getD 0) ++ [byteOf p.failedCount, byteOf p.activeRank, byteOf p.claimCount, flagByte p.gateStop]) := by
  unfold presencePayload stationSetBytes wordBytes
  simp only [List.cons_append, List.nil_append]

theorem presencePayload_length (p : PresenceFields) : (presencePayload p).length = 24 := by
  simp [presencePayload_eq]

theorem presencePayload_heard (p : PresenceFields) (k : Station) :
    ((presencePayload p).getD 4 0 ++ (presencePayload p).getD 5 0 : Word16).getLsbD k.val = p.heardSet[k] := by
  rw [presencePayload_eq, ← toList_getD p.heardSet k false, ← maskOf_bit]
  exact wordBytes_bit _ _ (by omega)

theorem presencePayload_unapplied (p : PresenceFields) (k : Station) :
    ((presencePayload p).getD 6 0 ++ (presencePayload p).getD 7 0 : Word16).getLsbD k.val = p.applied[k].isNone := by
  have entry : (p.applied.toList.map Option.isNone).getD k.val false = p.applied[k].isNone := by
    rw [← toList_getD p.applied k none, List.getD_eq_getElem?_getD, List.getD_eq_getElem?_getD, List.getElem?_map]
    have : k.val < p.applied.toList.length := by rw [Vector.length_toList]; exact k.isLt
    rw [List.getElem?_eq_getElem this]
    rfl
  rw [presencePayload_eq, ← entry, ← maskOf_bit]
  exact wordBytes_bit _ _ (by omega)

theorem presencePayload_applied (p : PresenceFields) (k : Station) : (presencePayload p).getD (8 + k.val) 0 = p.applied[k].getD 0 := by
  rw [presencePayload_eq, ← toList_getD p.applied k none, List.getD_eq_getElem?_getD, List.getElem?_append_right (by simp),
    List.getElem?_append_left (by simp)]
  simp

theorem presencePayload_last (p : PresenceFields) : (presencePayload p).drop 20 =
    [byteOf p.failedCount, byteOf p.activeRank, byteOf p.claimCount, flagByte p.gateStop] := by
  rw [presencePayload_eq, ← List.append_assoc]
  exact List.drop_left' (by simp)

/-! ## The frames that are built -/

theorem sendClaim_eq (runs : s.serviceMode = false) : sendClaim s = { s with
    oc := { s.oc with inFlight := s.oc.unsent.take s.claimSize, unsent := s.oc.unsent.drop s.claimSize }
    lc := { s.lc with medium := .own {
      content := .claim, start := s.now
      bytes := frameBytes s.cs.number.toNat .claim groupAll ((s.oc.changeNumber + 1) :: (s.oc.unsent.take s.claimSize).flatMap changeBytes) } } } := by
  have sender : ∀ oc, ({ s with oc := oc } : State).ownSender = s.cs.number.toNat := fun _ => if_neg (Bool.eq_false_iff.mp runs)
  unfold sendClaim startFrame setMedium
  dsimp only
  rw [sender]

theorem sendClaimSet_eq (s : State) : sendClaimSet s = { s with
    oc := { s.oc with inFlight := s.oc.unsent, unsent := [] }
    lc := { s.lc with medium := .own {
      content := .claimSet (if s.oc.unsent = [] then s.oc.changeNumber else s.oc.changeNumber + 1), start := s.now
      bytes := frameBytes s.ownSender .claimSet groupAll
        ((if s.oc.unsent = [] then s.oc.changeNumber else s.oc.changeNumber + 1) ::
          (if s.oc.restatedSinceStart = true then 0 else 1) :: s.oc.claims.flatMap restatedBytes) } } } := by
  have fresh : flagByte (!s.oc.restatedSinceStart) = if s.oc.restatedSinceStart = true then 0 else 1 := by
    cases s.oc.restatedSinceStart <;> rfl
  have empty : (s.oc.unsent.isEmpty = true) = (s.oc.unsent = []) := propext List.isEmpty_iff
  unfold sendClaimSet
  simp only [fresh, empty]
  rfl

theorem sendHazard_eq (e : HazardEntry) (s : State) : sendHazard e s = { s with
    hz := { s.hz with queue := (markFirstOnWire s).hz.queue }
    lc := { s.lc with medium := .own {
      content := .hazard, start := s.now, bytes := frameBytes s.ownSender .hazard e.group (hazardPayload e) } } } := by
  unfold sendHazard markFirstOnWire
  cases s.hz.queue with
  | nil => rfl
  | cons first rest => rfl

end Sys2Proof.Machine

namespace Sys2Proof.Proofs

open Sys2Proof.Machine

/-- Settles O6: the order is `chooseFrame`'s, branch by branch; the size of a CLAIM is the longest run that the window admits. -/
theorem ownOpeningSends : Obligations.OwnOpeningSends := by
  unfold Obligations.OwnOpeningSends
  refine ⟨?order, ?conditions, ?presence, ?others⟩
  case order =>
    intro s runs part own onWheel quiet hears uncut t change admits join first late claim notice
    rw [beginOpening_own runs part own onWheel quiet hears uncut]
    refine ⟨fun h => chooseFrame_join h, fun h => chooseFrame_first h, fun j f h => chooseFrame_late (s := t) j f h,
      fun j f l h => chooseFrame_restatement (s := t) j f l h, fun j f l d => ?_⟩
    have due := claimDue_iff (s := t) f d
    refine ⟨fun c => ?claim, fun c => ?_⟩
    case claim =>
      obtain ⟨joined, unsent, fits⟩ := c
      obtain ⟨four, all, admitted, stops⟩ := claimSize_spec t
      refine ⟨t.claimSize, (claimSize_pos t).mpr ⟨unsent, fits⟩, four, all, admitted, stops, ?_⟩
      exact (chooseFrame_claim (s := t) j f l d (due.mpr ⟨joined, unsent, fits⟩)).trans (sendClaim_eq (s := t) runs)
    have none : t.claimDue = false := Bool.eq_false_iff.mpr fun h => c (due.mp h)
    exact ⟨fun e queue joined h => chooseFrame_hazard (s := t) j f l d none joined h,
      fun n h => chooseFrame_presence (s := t) j f l d none n h, fun n u k more h => chooseFrame_resync (s := t) j f l d none n u h,
      fun n u stale q h => chooseFrame_reply (s := t) j f l d none n u stale h,
      fun n u stale h => chooseFrame_none (s := t) j f l d none n u stale h⟩
  case conditions => exact fun s => ⟨takesPart_iff s, rfl, presenceDue_iff s⟩
  case presence =>
    intro s
    refine ⟨presencePayload s.presenceFields, rfl, presencePayload_length _, rfl, fun k => ⟨?heard, ?unapplied, ?applied⟩, ?last⟩
    case heard =>
      rw [presencePayload_heard]
      exact heardSet_iff s k
    case unapplied =>
      rw [presencePayload_unapplied, Option.isNone_iff_eq_none]
      exact Iff.of_eq (congrArg (· = none) (appliedVector_get s k))
    case applied =>
      rw [presencePayload_applied]
      exact congrArg (·.getD 0) (appliedVector_get s k)
    case last =>
      rw [presencePayload_last]
      have rank : s.presenceFields.activeRank = _ := activeRank_eq s
      rw [rank]
      rfl
  case others =>
    intro s join target e sent number
    refine ⟨rfl, ?set, ?hazard, fun _ _ _ _ => ⟨rfl, rfl, rfl⟩⟩
    case set => exact sendClaimSet_eq s
    case hazard => exact sendHazard_eq e s

end Sys2Proof.Proofs
end

section
/-! The service opening, and the data of a REPLY byte by byte (R65, R215, R216). -/

namespace Sys2Proof.Machine

variable {s : State}

/-- The service opening, where nothing is on the wire, chooses among the pending setup reply and the waiting question. -/
theorem beginOpening_service (service : s.serviceMode = true) (own : s.lc.position = s.wheelSize) (quiet : s.lc.medium = .quiet)
    (hears : s.lc.receiverOn = true) (uncut : s.lc.transmitCut = false) :
    beginOpening s = chooseServiceFrame { s with lc := { s.lc with openingStart := s.now } } := by
  have free : ¬ (s.lc.transmitCut || s.lc.medium != .quiet || !s.lc.receiverOn) = true := by
    rw [uncut, quiet, hears]; decide
  exact (if_neg free).trans ((if_pos service).trans (if_pos own))

theorem ownSender_service (service : s.serviceMode = true) : s.ownSender = 15 := if_pos service

theorem chooseServiceFrame_setup {r : SetupReply} (h : s.cs.reply = some r) : chooseServiceFrame s = sendSetupReply r s := by
  unfold chooseServiceFrame
  rw [h]

theorem chooseServiceFrame_reply {q : Question} (none : s.cs.reply = none) (h : s.rp.slot = some q) : chooseServiceFrame s = sendReply q s := by
  unfold chooseServiceFrame
  rw [none, h]

theorem chooseServiceFrame_none (none : s.cs.reply = none) (empty : s.rp.slot = .none) : chooseServiceFrame s = s := by
  unfold chooseServiceFrame
  rw [none, empty]

/-! ## Numbers, words and masks -/

theorem numberBytes_one (n : Nat) : numberBytes 1 n = [byteOf n] := by
  simp [numberBytes]

theorem numberBytes_two (n : Nat) : numberBytes 2 n = [byteOf (n / 256), byteOf n] := by
  simp [numberBytes]

theorem numberBytes_four (n : Nat) : numberBytes 4 n = [byteOf (n / 16777216), byteOf (n / 65536), byteOf (n / 256), byteOf n] := by
  simp [numberBytes]

theorem numberBytes_length (count n : Nat) : (numberBytes count n).length = count := by
  induction count with
  | zero => rfl
  | succ count ih => rw [numberBytes, List.length_cons, ih]

theorem wordBytes_word (w : Word16) : wordBytes w.toNat = [highByte w, lowByte w] := by
  rw [wordBytes_eq, BitVec.ofNat_toNat, BitVec.setWidth_eq]

/-- Bit i of a mask of eight entries or fewer, sent as a byte, is entry i. -/
theorem maskByte_bit (l : List Bool) (i : Nat) (h : l.length ≤ 8) : (byteOf (maskOf l)).getLsbD i = l.getD i false := by
  rw [byteOf, BitVec.getLsbD_ofNat, maskOf_bit]
  by_cases hi : i < 8
  · rw [decide_eq_true hi, Bool.true_and]
  · rw [getD_past _ _ (by omega), Bool.and_false]

theorem toList_map_getD {α : Type} {n : Nat} (v : Vector α n) (f : α → Bool) (k : Fin n) : (v.toList.map f).getD k.val false = f v[k] := by
  rw [getD_within _ _ (by simp), List.getElem_map]
  rfl

theorem lines_getD (f : Line → Bool) (i : Line) : (allLines.map f).getD i.val false = f i := by
  have all : allLines = List.finRange 16 := by decide
  rw [all, getD_within _ _ (by simp), List.getElem_map, List.getElem_finRange]
  rfl

/-! ## COUNTERS and PEERS -/

theorem countersData_eq (s : State) : s.countersData =
    numberBytes 4 (s.counter .sent) ++ numberBytes 4 (s.counter .accepted) ++ numberBytes 2 (s.counter .filtered) ++
      numberBytes 2 (s.counter .checkErrors) ++ numberBytes 2 (s.counter .protocolErrors) ++ numberBytes 2 (s.counter .collisions) ++
      numberBytes 2 (s.counter .babble) ++ numberBytes 2 (s.counter .resyncsSent) ++ numberBytes 2 (s.counter .relayDrops) ++
      numberBytes 2 (s.counter .replyOverruns) ++ numberBytes 2 (s.counter .operatorRefused) ++
      numberBytes 2 (s.counter .incidentsRaised) ++ numberBytes 1 (s.counter .restarts) := rfl

theorem peerBytes_eq (r : PeerRecord) : peerBytes r =
    [packed (peerStateCode r.state) ((r.reportedLink.map linkCode).getD 15), highByte (r.digest.getD 0), lowByte (r.digest.getD 0),
      r.ackOfMe.getD 0,
      byteOf ((if r.ackOfMe = none then 1 else 0) + (if r.digest = none then 2 else 0) + (if r.restated = true then 4 else 0))] := by
  have digest : wordBytes ((r.digest.map BitVec.toNat).getD 0) = [highByte (r.digest.getD 0), lowByte (r.digest.getD 0)] := by
    cases r.digest with
    | none => rfl
    | some d => exact wordBytes_word d
  have mask : maskOf [r.ackOfMe.isNone, r.digest.isNone, r.restated] =
      (if r.ackOfMe = none then 1 else 0) + (if r.digest = none then 2 else 0) + (if r.restated = true then 4 else 0) := by
    cases r.ackOfMe <;> cases r.digest <;> cases r.restated <;> rfl
  unfold peerBytes
  rw [digest, mask]
  rfl

theorem peerNumbers_length (s : State) : s.peerNumbers.length = 11 := by
  have all : ∀ me : Station, (allStations.filter (fun k => k != me)).length = 11 := by decide
  exact all s.me

/-! ## STATUS -/

theorem stationSetBytes_eq (set : StationSet) :
    stationSetBytes set = [highByte (BitVec.ofNat 16 (maskOf set.toList)), lowByte (BitVec.ofNat 16 (maskOf set.toList))] := wordBytes_eq _

theorem sampleBytes_value (c : Channel) (v : Int) : sampleBytes c (some (.value v)) =
    [if (validValue c (.value v)).isSome = true then 1 else 2, highByte (BitVec.ofInt 16 v), lowByte (BitVec.ofInt 16 v)] := by
  have code : byteOf (if (validValue c (.value v)).isSome then 1 else 2) = if (validValue c (.value v)).isSome = true then 1 else 2 := by
    cases (validValue c (.value v)).isSome <;> rfl
  exact congr (congrArg List.cons code) (wordBytes_word _)

theorem statusData_length (s : State) : s.statusData.length = 45 := by
  have samples : (allChannels.flatMap (fun c => sampleBytes c s.ms.latest[c])).length = 15 :=
    flatMap_length _ 3 _ fun c _ => sampleBytes_length c _
  unfold State.statusData stationSetBytes wordBytes
  rw [List.length_append, samples]
  rfl

theorem outputBits_run (runs : s.serviceMode = false) : s.outputBits = maskOf (s.lu.outputs.toList.map Output.active) :=
  if_neg (Bool.eq_false_iff.mp runs)

theorem outputBits_service (service : s.serviceMode = true) :
    s.outputBits = maskOf (allLines.map (fun i => (outputOf (s.image.lineFunction i)).isSome && s.lu.testLevels[i])) := if_pos service

/-! ## INCIDENTS -/

theorem incidentBytes_length (r : Incident) : (incidentBytes r).length = 10 := by
  simp [incidentBytes, numberBytes_length]

theorem recordsData_length (records : List Incident) : ((records.take 5).flatMap incidentBytes).length = 10 * min 5 records.length := by
  rw [flatMap_length _ 10 _ fun r _ => incidentBytes_length r, List.length_take]

theorem incidentsData_eq (s : State) : s.incidentsData = byteOf s.rs.incidents.length :: (s.rs.incidents.take 5).flatMap incidentBytes ++
    byteOf s.fd.unrecorded.length :: (s.fd.unrecorded.map faultByte).take (53 - 10 * min 5 s.rs.incidents.length) := by
  unfold State.incidentsData
  dsimp only
  rw [recordsData_length]
  simp [replyLimit]

theorem incidentsData_length (s : State) : s.incidentsData.length ≤ 55 := by
  rw [incidentsData_eq, List.length_append, List.length_cons, recordsData_length, List.length_cons, List.length_take]
  omega

/-! ## CLAIMS -/

theorem claimBytes_length (claims : List OwnClaim) : (claims.flatMap ownClaimBytes).length = 8 * claims.length :=
  flatMap_length _ 8 _ fun _ _ => rfl

theorem claimsData_eq (s : State) : s.claimsData = byteOf s.oc.claims.length :: s.oc.claims.flatMap ownClaimBytes ++
    byteOf s.oc.waiting.length :: ((byClass s.oc.waiting).take ((53 - 8 * s.oc.claims.length) / 4)).flatMap requestBytes := by
  unfold State.claimsData
  dsimp only
  rw [claimBytes_length]
  simp [replyLimit]

theorem claimsData_length (few : s.oc.claims.length ≤ 6) : s.claimsData.length ≤ 55 := by
  rw [claimsData_eq, List.length_append, List.length_cons, claimBytes_length, List.length_cons,
    flatMap_length requestBytes 4 _ fun _ _ => rfl, List.length_take]
  omega

end Sys2Proof.Machine

namespace Sys2Proof.Proofs

open Sys2Proof.Machine

/-- Settles O7: the frame is the one `chooseServiceFrame` takes; the data are written out item by item, a mask by its bits. -/
theorem serviceOpeningAnswers : Obligations.ServiceOpeningAnswers := by
  unfold Obligations.ServiceOpeningAnswers
  refine ⟨?frame, ?lengths, ?status, ?incidents, ?claims, ?codes⟩
  case frame =>
    intro s service own quiet hears uncut
    have sender := ownSender_service service
    have begun := beginOpening_service service own quiet hears uncut
    refine ⟨fun r due => ?_, fun q none asked => ?_, fun none empty => ?_⟩
    · rw [begun.trans (chooseServiceFrame_setup due)]
      exact ⟨_, rfl, rfl, rfl, congrArg (frameBytes · _ _ _) sender, rfl⟩
    · rw [begun.trans (chooseServiceFrame_reply none asked)]
      exact ⟨_, rfl, rfl, rfl, congrArg (frameBytes · _ _ _) sender, rfl⟩
    · rw [begun.trans (chooseServiceFrame_none none empty)]
      exact quiet
  case lengths =>
    intro s two four
    refine ⟨?counters, ?peers, statusData_length s, ?peersLength, ?countersLength, incidentsData_length s, claimsData_length⟩
    case counters =>
      refine (countersData_eq s).trans ?_
      simp only [numberBytes_one, numberBytes_two, numberBytes_four, two, four, List.cons_append, List.nil_append]
    case peers =>
      refine congrArg (List.flatMap · s.peerNumbers) (funext fun k => (peerBytes_eq _).trans ?_)
      generalize s.mu.peers[k] = r
      obtain ⟨state, link, digest, heard, ack, accepted, presence, restated⟩ := r
      cases link <;> rfl
    case peersLength => exact (flatMap_length _ 5 _ fun k _ => congrArg List.length (peerBytes_eq _)).trans (by rw [peerNumbers_length])
    case countersLength =>
      refine (congrArg List.length (countersData_eq s)).trans ?_
      simp only [List.length_append, numberBytes_length]
  case status =>
    intro s flag word
    refine ⟨byteOf (maskOf s.lu.elementOut.toList), BitVec.ofNat 16 (maskOf s.hz.gateStop.toList),
      BitVec.ofNat 16 (maskOf (allLines.map (fun i => s.isInputLine i && s.lu.debounced[i] == some true))),
      BitVec.ofNat 16 (maskOf (allLines.map (fun i => s.isInputLine i && (s.lu.debounced[i]).isSome))), BitVec.ofNat 16 s.outputBits,
      ?bytes, ?elements, ?moreElements, ?gates, ?moreGates, ?inputs, ?run, ?service⟩
    case bytes =>
      have rank := activeRank_eq s
      have serial : flagByte s.pd.serial.isSome = if s.pd.serial = none then 0 else 1 := by cases s.pd.serial <;> rfl
      have samples : (fun c => sampleBytes c s.ms.latest[c]) = (fun c => match s.ms.latest[c] with
          | none => [0, 0, 0]
          | some (.value v) => (if (validValue c (.value v)).isSome = true then 1 else 2) :: word (BitVec.ofInt 16 v)
          | some .over => [3, 0, 0]
          | some .under => [4, 0, 0]) := by
        funext c
        rcases s.ms.latest[c] with _ | v | _ | _
        · rfl
        · exact sampleBytes_value c v
        · rfl
        · rfl
      show s.statusData = _
      unfold State.statusData Sys2Proof.Machine.flag
      rw [wordBytes_word, stationSetBytes_eq, wordBytes_eq, wordBytes_eq, wordBytes_eq, serial, rank, samples]
      rfl
    case elements =>
      intro e
      rw [maskByte_bit _ _ (by simp)]
      exact toList_getD _ e false
    case moreElements =>
      intro i past
      rw [maskByte_bit _ _ (by simp)]
      exact getD_past _ _ (by simpa using past)
    case gates =>
      intro k
      rw [maskWord_bit _ _ (by simp)]
      exact toList_getD _ k false
    case moreGates =>
      intro i past
      rw [maskWord_bit _ _ (by simp)]
      exact getD_past _ _ (by simpa using past)
    case inputs =>
      intro i
      rw [maskWord_bit _ _ (by simp [allLines]), maskWord_bit _ _ (by simp [allLines]), lines_getD, lines_getD]
      simp [State.isInputLine, Option.isSome_iff_ne_none]
    case run =>
      intro runs
      rw [outputBits_run runs]
      refine ⟨fun f => ?_, fun i past => ?_⟩
      · rw [maskWord_bit _ _ (by simp)]
        exact toList_map_getD _ _ (outputPlace f)
      · rw [maskWord_bit _ _ (by simp)]
        exact getD_past _ _ (by simpa using past)
    case service =>
      intro service i
      rw [outputBits_service service, maskWord_bit _ _ (by simp [allLines]), lines_getD, Bool.and_eq_true, Option.isSome_iff_exists]
  case incidents =>
    intro s kind ended record
    have kinds : faultByte = kind := funext fun f => by cases f <;> rfl
    have records : incidentBytes = record := by
      funext r
      obtain ⟨id, fault, state, attempts, detectedAt, recurrences, carried⟩ := r
      have flags : flagByte carried = if carried = true then 1 else 0 := rfl
      unfold incidentBytes
      rw [numberBytes_four, kinds]
      cases state with
      | failed reason => cases reason <;> rfl
      | abandoned reason => cases reason <;> rfl
      | cleared outcome => cases outcome <;> rfl
      | _ => rfl
    rw [← kinds, ← records]
    exact incidentsData_eq s
  case claims =>
    intro s purpose datum of
    have purposes : purposeCode = purpose := funext fun p => by cases p <;> rfl
    have data : purposeDatum = datum := funext fun b => funext fun p => by cases p <;> rfl
    have requests : requestBytes = fun r => [packed (resourceCode r.resource) (classCode r.cls), byteOf r.amount,
        byteOf (purpose r.purpose), byteOf (datum false r.purpose)] := by
      funext r
      rw [← purposes, ← data]
      rfl
    refine (claimsData_eq s).trans ?_
    rw [requests]
    refine congrArg (fun bytes => byteOf s.oc.claims.length :: s.oc.claims.flatMap bytes ++ _) (funext fun c => ?_)
    obtain ⟨tag, resource, requested, boosted, amount, own, sent, confirmed, usable⟩ := c
    rw [← purposes, ← data]
    cases sent <;> rcases confirmed with _ | ⟨_, _⟩ <;> rfl
  case codes => exact ⟨rfl, rfl, rfl, rfl, rfl, rfl, rfl, rfl, rfl, fun _ _ => rfl, rfl, rfl⟩

end Sys2Proof.Proofs
end

section
/-! O8: power-on, brown-out, the return of the supply, and what a part without supply does (R207, R210). -/

namespace Sys2Proof.Machine

/-! ## Brown-out -/

theorem abandonCommit_commit (s : State) : (abandonCommit s).cs.commit = none := by
  unfold abandonCommit
  generalize tornRow s.free = torn
  cases hc : s.cs.commit with
  | none => exact hc
  | some p => dsimp only; split <;> rfl

theorem abandonCommit_counter (s : State) (k : Counter) : (abandonCommit s).counter k = s.counter k := by
  unfold abandonCommit
  generalize tornRow s.free = torn
  split
  · rfl
  · split <;> rfl

theorem driven_without_supply (s : State) (down : s.supply = false) (i : Line) (level : Bool) (drives : s.driven i = some level) :
    level = false := by
  unfold State.driven at drives
  rw [down] at drives
  split at drives
  · cases drives
  · exact (Option.some.inj drives).symm

theorem mediumAfterReset_not_own (m : Medium) (f : OwnFrame) : mediumAfterReset m ≠ .own f := by
  cases m <;> exact nofun

theorem brownOut_output (s : State) (f : OutputFunction) : ((brownOut s).output f).active = false := resetOutputs_inactive f

theorem brownOut_counter (s : State) (k : Counter) (hk : k ≠ .replyOverruns) (h2 : k ≠ .incidentsRaised) (h3 : k ≠ .relayDrops) :
    (brownOut s).counter k = s.counter k :=
  (abandonCommit_counter _ k).trans (stopOwnFrame_counters s k hk h2 h3)

theorem brownOut_commit (s : State) : (brownOut s).cs.commit = none := abandonCommit_commit _

/-- What a brown-out leaves in the store, by the commit it abandons. -/
theorem brownOut_image (s : State) : (brownOut s).cs.stored = s.cs.stored ∨
    ∃ p, s.cs.commit = some p ∧ s.rowBegun p = true ∧ (brownOut s).cs.stored = tornRow s.free p.row s.cs := by
  obtain ⟨sameStored, sameCommit, sameWorking, sameFree⟩ := stopOwnFrame_stored s
  cases hc : s.cs.commit with
  | none => exact .inl (((congrArg _ (brownOut_cs s)).trans (abandonCommit_none _ (sameCommit.trans hc))).trans sameStored)
  | some p =>
    have begun : (stopOwnFrame s).rowBegun p = s.rowBegun p := by
      unfold State.rowBegun; rw [(stopOwnFrame_taken s).1]
    have left := (abandonCommit_some _ p (sameCommit.trans hc)).1
    rw [← brownOut_cs, begun, sameFree, tornRow_congr _ _ _ _ sameStored sameWorking, sameStored] at left
    by_cases b : s.rowBegun p = true
    · exact .inr ⟨p, rfl, b, left.trans (if_pos b)⟩
    · exact .inl (left.trans (if_neg b))

/-- A brown-out leaves each byte of the store as it was, or as the commit was about to write it. -/
theorem brownOut_byte (s : State) (w : s.ImagesWf) (a : Nat) :
    (brownOut s).cs.stored.read a = s.cs.stored.read a ∨ (brownOut s).cs.stored.read a = s.cs.working.read a := by
  rcases brownOut_image s with same | ⟨p, hc, -, torn⟩
  · exact .inl (congrArg (·.read a) same)
  · rw [torn]; exact (tornRow_read _ _ a _ (w.2.2 p hc) w.1).1

/-- A row that has not begun is not written (R207). -/
theorem brownOut_unbegun (s : State) (p : Programming) (hc : s.cs.commit = some p) (later : 0 < p.row) (early : s.now ≤ p.start) :
    (brownOut s).cs.stored = s.cs.stored := by
  rcases brownOut_image s with same | ⟨q, hq, begun, -⟩
  · exact same
  · have e : p = q := Option.some.inj (hc.symm.trans hq)
    subst e
    simp only [State.rowBegun, Bool.or_eq_true, beq_iff_eq, decide_eq_true_eq] at begun
    omega

/-! ## Without supply -/

/-- The commands that bring the supply back or move a raw level. -/
def actsWithoutSupply : Instr → Bool
  | .powerOn _ | .supplyReturn _ | .rawLevelChange _ _ => true
  | _ => false

theorem canReceive_without_supply (s : State) (down : s.supply = false) : s.canReceive = false := by
  unfold State.canReceive; rw [down]; rfl

theorem ignoredEnds_without_supply (s : State) (down : s.supply = false) : ignoredEnds s = s := by
  unfold ignoredEnds; rw [down]; rfl

theorem receiveFrame_without_supply (kind : FrameKind) (h : Header) (payload : List Byte) (s : State) (down : s.supply = false) :
    receiveFrame kind h payload s = s := by
  unfold receiveFrame
  rw [canReceive_without_supply s down, if_neg Bool.false_ne_true, ignoredEnds_without_supply s down]

theorem receiveQuery_without_supply (h : Header) (payload : List Byte) (s : State) (down : s.supply = false) :
    receiveQuery h payload s = s := by
  have missed : s.replyMeetsQuery h payload = false := by
    unfold State.replyMeetsQuery State.takesQuery; rw [canReceive_without_supply s down]; rfl
  unfold receiveQuery
  rw [missed]
  exact receiveFrame_without_supply _ _ _ s down

theorem receiveRestart_without_supply (h : Header) (payload : List Byte) (straps : Straps) (s : State) (down : s.supply = false) :
    receiveRestart h payload straps s = s := by
  unfold receiveRestart
  rw [canReceive_without_supply s down]
  exact receiveFrame_without_supply _ _ _ s down

theorem detectorTimer_without_supply (f : FaultId) (s : State) (down : s.supply = false) : detectorTimer f s = s := by
  unfold detectorTimer; rw [down]; rfl

/-- A part without supply does nothing but follow the pins and wait for the supply (R210). -/
theorem exec_without_supply (c : Instr) (s : State) (down : s.supply = false) (passive : actsWithoutSupply c = false) :
    exec c s = .next s := by
  have next : ∀ {t : State}, t = s → (.next t : Host.Outcome State Fault Refusal) = .next s := congrArg _
  cases c with
  | powerOn | supplyReturn | rawLevelChange => cases passive
  | brownOut => exact next (if_neg (by rw [down]; exact Bool.false_ne_true))
  | settleEnd => exact next (if_neg (by rw [down]; exact Bool.false_ne_true))
  | sampleArrival => exact next (if_neg (by unfold State.reads; rw [down]; exact Bool.false_ne_true))
  | checkFailure => exact next ((if_neg (by rw [canReceive_without_supply s down]; exact Bool.false_ne_true)).trans (ignoredEnds_without_supply s down))
  | openingExpiry => exact next (if_neg (by unfold State.openingRuns; rw [down]; exact Bool.false_ne_true))
  | idleReset => exact next (if_neg (by unfold State.idleRuns; rw [down]; exact Bool.false_ne_true))
  | babbleReceptionEnd => simp only [exec, execBabbleReceptionEnd, down, ignoredEnds_without_supply s down]
  | lineChangeEvent => simp only [exec, execLineChangeEvent, down]
  | receptionStart => simp only [exec, execReceptionStart, down]
  | babble => simp only [exec, execBabble, down]
  | ownFrameComplete => simp only [exec, execOwnFrameComplete, down]
  | collision => simp only [exec, execCollision, down]
  | transmitCut => simp only [exec, execTransmitCut, down]
  | rowProgrammed => simp only [exec, execRowProgrammed, down]
  | listenTimerExpiry => simp only [exec, execListenTimerExpiry, down]
  | silenceTimerExpiry => simp only [exec, execSilenceTimerExpiry, down]
  | expiryTimerExpiry => simp only [exec, execExpiryTimerExpiry, down]
  | notHeardFrom => simp only [exec, execNotHeardFrom, down, Bool.false_and]
  | notHeardBy => simp only [exec, execNotHeardBy, down, Bool.false_and]
  | panelSilence => simp only [exec, execPanelSilence, down]
  | stepTimerExpiry => simp only [exec, execStepTimerExpiry, down]
  | claimWaitExpiry => simp only [exec, execClaimWaitExpiry, down]
  | dryTimerExpiry => simp only [exec, execDryTimerExpiry, down]
  | tTempExpiry | tFillExpiry | tDrainExpiry | tFilterExpiry => exact next (detectorTimer_without_supply _ s down)
  | queryStatus | queryIncidents | queryClaims | queryPeers | queryCounters => exact next (receiveQuery_without_supply _ _ s down)
  | restart => exact next (receiveRestart_without_supply _ _ _ s down)
  | presence | claim | claimSet | resync | hazard | program | acknowledge | abandon | resumeZone | write | read | commit | lock
    | lineTest | replyReceived | undefinedKindFrame => exact next (receiveFrame_without_supply _ _ _ s down)

/-! ## A row completed before the brown-out -/

/-- A completed row leaves the commit at the next one, which begins where the completed one ended (R207). -/
theorem rowDone_next (p : Programming) (s : State) (more : p.row < 7) :
    (rowDone p s).cs.commit = some { p with row := p.row + 1, start := p.start + Config.rowTime } ∧ (rowDone p s).now = s.now ∧
      (rowDone p s).supply = s.supply := by
  unfold rowDone
  generalize programRow p.row s.cs = m
  dsimp only
  rw [if_pos more]
  exact ⟨rfl, rfl, rfl⟩

end Sys2Proof.Machine

namespace Sys2Proof.Proofs

open Sys2Proof.Machine

/-- Settles O8: a start resets every block, a brown-out leaves only the row begun, and without supply no command does anything. -/
theorem supplyRule : Obligations.SupplyRule := by
  unfold Obligations.SupplyRule
  refine ⟨fun straps s => ?_, fun s up wf => ?_, fun s p up hc more early => ?_, fun s c down notPower notReturn notRaw => ?_, fun straps s down => ?_⟩
  · obtain ⟨reset, carried, flag, restarts, -⟩ :=
      start_reset (abandonCommit s).cs.stored (abandonCommit s).cs.mixed [] false 0 straps (abandonCommit s)
    exact ⟨_, rfl, reset, carried, flag, restarts⟩
  · exact ⟨brownOut s, congrArg _ (if_pos up), rfl, brownOut_output s, driven_without_supply _ rfl,
      fun f => mediumAfterReset_not_own _ f, rfl, brownOut_counter s _ nofun nofun nofun, brownOut_counter s _ nofun nofun nofun, brownOut_commit s,
      brownOut_stored s wf, brownOut_byte s wf, brownOut_unbegun s, fun p a hc begun low high => brownOut_torn s p a wf hc begun low high,
      brownOut_mixed s⟩
  · obtain ⟨next, now, supply⟩ := rowDone_next p (advanceTo (p.start + Config.rowTime) s) more
    have upStill : (rowDone p (advanceTo (p.start + Config.rowTime) s)).supply = true := supply.trans up
    refine ⟨rowDone p (advanceTo (p.start + Config.rowTime) s), by simp only [exec, execRowProgrammed, up, hc], 
      brownOut (rowDone p (advanceTo (p.start + Config.rowTime) s)), congrArg Host.Outcome.next (if_pos upStill),
      brownOut_commit _, brownOut_unbegun _ _ next (Nat.succ_pos _) ?_⟩
    rw [now, advanceTo_now]
    exact Nat.le_of_eq (Nat.max_eq_right early)
  · refine exec_without_supply c s down ?_
    cases c with
    | powerOn x => exact absurd rfl (notPower x)
    | supplyReturn x => exact absurd rfl (notReturn x)
    | rawLevelChange i high => exact absurd rfl (notRaw i high)
    | _ => rfl
  · obtain ⟨reset, carried, flag, restarts, stored⟩ := start_reset s.cs.stored s.cs.mixed [] false 0 straps s
    obtain ⟨loaded, mixed⟩ := start_loaded s.cs.stored s.cs.mixed [] false 0 straps s
    exact ⟨_, congrArg Host.Outcome.next (if_neg (by rw [down]; exact Bool.false_ne_true)), reset, carried, flag, restarts, loaded, stored, mixed⟩

end Sys2Proof.Proofs
end

section
/-! O9: what LOAD decides from the stored image (R198 to R202). -/

namespace Sys2Proof.Machine

/-! ## The items of an image -/

/-- Bits of the FEEDER_GROUP: its low byte, then the low half of the byte before it (R198). -/
theorem feederGroup_bit (m : Memory) (i : Nat) (hi : i < 12) :
    m.feederGroup.getLsbD i = if i < 8 then (m.read 132).getLsbD i else (m.read 131).getLsbD (i - 8) := by
  unfold Memory.feederGroup
  rw [BitVec.getLsbD_append]
  split
  · rfl
  · rw [BitVec.getLsbD_extractLsb', Nat.zero_add, decide_eq_true (by omega), Bool.true_and]

/-- The debounce time by its code (R198). -/
theorem debounce_of_code (m : Memory) (i : Line) :
    [20000, 100000, 500000, 2000000][m.byteAt (67 + i.val) % 4]? = some (m.debounce i) := by
  unfold Memory.debounce
  have small : m.byteAt (67 + i.val) % 4 < 4 := Nat.mod_lt _ (by decide)
  generalize m.byteAt (67 + i.val) % 4 = code at small
  match code, small with
  | 0, _ | 1, _ | 2, _ | 3, _ => rfl

/-- The times in seconds of an image, in microseconds (R198). -/
theorem seconds_div (n : Nat) : 1000000 * n / 1000000 = n := Nat.mul_div_cancel_left n (by decide)

theorem seconds_mod (n : Nat) : 1000000 * n % 1000000 = 0 := Nat.mul_mod_right ..

/-! ## A start -/

theorem loadCheck_failing (mixed : Bool) (m : Memory) (straps : BitVec 4) (fails : mixed = true ∨ ImageFails m 0 .checkValue) :
    loadCheck mixed m straps = .checkValue := by
  cases mixed with
  | true => exact loadCheck_mixed m straps
  | false =>
    rw [loadCheck_whole, if_neg]
    exact fun passes => (checkPasses_iff m).1 passes (fails.resolve_left Bool.false_ne_true)

theorem loadCheck_passing (mixed : Bool) (m : Memory) (straps : BitVec 4) (whole : mixed = false) (passes : ¬ ImageFails m 0 .checkValue) :
    loadCheck mixed m straps = validity m straps := by
  rw [whole, loadCheck_whole, if_pos ((checkPasses_iff m).2 passes)]

/-- The mode of a start whose image is judged to fail (R201). -/
theorem Loaded.zoneMode_of_fails {t : State} {straps : Straps} (loaded : t.Loaded straps) (fails : t.cs.loadResult ≠ .ok) :
    t.zoneMode = if straps.setup = true then .setup else .haltedConfig := by
  split
  · exact loaded.setup ‹_›
  · exact loaded.halted (Bool.eq_false_iff.2 ‹_›) fails

end Sys2Proof.Machine

namespace Sys2Proof.Proofs

open Sys2Proof.Machine

/-- Settles O9: the first failing test decides, and every item is read from its bytes. -/
theorem loadDecidesTheMode : Obligations.LoadDecidesTheMode := by
  unfold Obligations.LoadDecidesTheMode
  refine ⟨fun straps s => ?_, fun mixed m straps => ⟨loadCheck_failing mixed m straps, loadCheck_passing mixed m straps⟩, fun m straps => ?_, fun m => ?_⟩
  · obtain ⟨-, -, -, -, stored⟩ := start_reset (abandonCommit s).cs.stored (abandonCommit s).cs.mixed [] false 0 straps (abandonCommit s)
    obtain ⟨loaded, mixed⟩ := start_loaded (abandonCommit s).cs.stored (abandonCommit s).cs.mixed [] false 0 straps (abandonCommit s)
    refine ⟨_, rfl, loaded, mixed.trans (abandonCommit_mixed s), fun idle => stored.trans (abandonCommit_none s idle), fun torn => ?_⟩
    have marked : (abandonCommit s).cs.mixed = true := by
      rw [abandonCommit_mixed, Bool.or_eq_true, Option.isSome_iff_ne_none]; exact torn
    obtain ⟨result, lock⟩ := Loaded.mixed loaded (mixed.trans marked)
    exact ⟨result, lock, Loaded.zoneMode_of_fails loaded fun ok => nomatch result.symm.trans ok⟩
  · obtain ⟨first, ok, other⟩ := validity_cases m straps
    exact ⟨first, ok, other, serviceNumber_bit m straps⟩
  · refine ⟨rfl, rfl, fun _ => rfl, rfl, rfl, rfl, feederGroup_bit m, rfl, ?_, ?_, rfl, fun _ => rfl, rfl,
      fun i => ⟨rfl, rfl, debounce_of_code m i⟩, rfl, rfl, rfl⟩
    · simp only [List.map_cons, List.map_nil, Memory.tTemp, Memory.tBoost, Memory.tFilter, Memory.tFlush, Memory.tFill, Memory.tDrain,
        Memory.tDry, Memory.tVerify, Memory.tClaimWait, seconds_div]
      rfl
    · simp only [List.mem_cons, List.not_mem_nil, or_false, forall_eq_or_imp, forall_eq, Memory.tTemp, Memory.tBoost, Memory.tFilter,
        Memory.tFlush, Memory.tFill, Memory.tDrain, Memory.tDry, Memory.tVerify, Memory.tClaimWait, seconds_mod, and_self]

end Sys2Proof.Proofs
end

section
/-! O10: the end of SETTLE (R188, R202). -/

namespace Sys2Proof.Machine

variable {s restored detecting : State}

/-- SETTLE leaves the Hazard Unit as entering service leaves it. -/
theorem settleEnds_hz (restores : reviewHolds (restoreCarried s) = restored)
    (detects : runDetectors { restored with cs := { restored.cs with stage := .entered } } = detecting) :
    (settleEnds s).hz = (enterService detecting).hz := by
  unfold settleEnds
  rw [restores]
  dsimp only
  rw [detects]
  rfl

/-- The detectors begin with the store as it was, but for the stage and the carried incidents. -/
theorem detecting_store (restores : reviewHolds (restoreCarried s) = restored)
    (detects : runDetectors { restored with cs := { restored.cs with stage := .entered } } = detecting) :
    detecting.cs.carryOutOfService = s.cs.carryOutOfService ∧ detecting.cs.number = s.cs.number ∧ detecting.cs.working = s.cs.working := by
  have kept : restored.cs = { s.cs with carryIncidents := [] } := by
    rw [← restores, (reviewHolds_internal (restoreCarried s)).cs, (restoreCarried_fields s).1]
  rw [← detects, (runDetectors_internal _).cs]
  dsimp only
  rw [kept]
  exact ⟨rfl, rfl, rfl⟩

/-- IN_SERVICE queues nothing more (R202). -/
theorem settleEnds_hz_of_inService (restores : reviewHolds (restoreCarried s) = restored)
    (detects : runDetectors { restored with cs := { restored.cs with stage := .entered } } = detecting)
    (inService : s.cs.carryOutOfService = false) : (settleEnds s).hz = detecting.hz := by
  rw [settleEnds_hz restores detects, enterService_hz, (detecting_store restores detects).1, inService, if_neg Bool.false_ne_true]

/-- OUT_OF_SERVICE by the carried flag queues a ZONE_DOWN last (R188, R202). -/
theorem settleEnds_hz_of_out (restores : reviewHolds (restoreCarried s) = restored)
    (detects : runDetectors { restored with cs := { restored.cs with stage := .entered } } = detecting)
    (out : s.cs.carryOutOfService = true) :
    (settleEnds s).hz = (queueNotice .zoneDown detecting).hz ∧ (settleEnds s).hz.serial = detecting.hz.serial + 1 ∧
      (settleEnds s).hz.queue.getLast? = some {
        origin := s.me, serial := detecting.hz.serial + 1, code := .zoneDown, hops := s.image.hopLimit
        group := s.image.feederGroup, sends := 3, relay := false, onWire := false } := by
  obtain ⟨flag, number, image⟩ := detecting_store restores detects
  have me : detecting.me = s.me := by simp only [State.me, number]
  have queued : (settleEnds s).hz = (queueNotice .zoneDown detecting).hz := by
    rw [settleEnds_hz restores detects, enterService_hz, flag, if_pos out]
  refine ⟨queued, (congrArg HazardUnit.serial queued).trans (queueNotice_writes _ _).1, ?_⟩
  rw [queued, queueNotice_last, me]
  simp only [State.image, image]

end Sys2Proof.Machine

namespace Sys2Proof.Proofs

open Sys2Proof.Machine

/-- Settles O10: the end of the event leaves what the stages SETTLE and ENTRY wrote. -/
theorem settleEnds : Obligations.SettleEnds := by
  unfold Obligations.SettleEnds
  refine ⟨fun s => settled_iff s, fun s up stage settled => ?_⟩
  have w := settleEnds_settled s
  have i := endEvent_internal .none (Machine.settleEnds s)
  have taken : exec .settleEnd s = .next (endEvent .none (Machine.settleEnds s)) :=
    congrArg Host.Outcome.next (if_pos (by rw [up, stage, settled]; rfl))
  have cs := i.cs.trans w.cs
  have link : (endEvent .none (Machine.settleEnds s)).mu.linkState = .listening := by
    rcases i.link with same | ⟨joins, -⟩
    · exact same.trans w.link.1
    · exact nomatch w.link.1.symm.trans ((joinEnds_iff _).1 joins).1
  refine ⟨_, taken, congrArg ConfigStore.stage cs, congrArg ConfigStore.carryIncidents cs, congrArg ConfigStore.carryOutOfService cs,
    i.zoneMode.trans w.zone, link, i.listenStart.trans w.link.2, (congrArg LinkController.receiverOn i.lc).trans w.lc.1,
    (congrArg LinkController.position i.lc).trans w.lc.2, i.now.trans w.now, (congrArg ConfigStore.stored cs :), (congrArg ConfigStore.working cs :),
    (congrArg ConfigStore.number cs :), i.ms.trans w.ms, i.debounced.trans w.debounced,
    ⟨i.memory.trans w.memory.1, i.gateStop.trans w.memory.2⟩, ⟨i.slot.trans w.questions.1, i.question.trans w.questions.2⟩,
    fun c h h1 h2 => (i.counters c h1 h2).trans (w.counters c h h1 h2), _, rfl, ?_⟩
  generalize restores : reviewHolds (restoreCarried s) = restored
  dsimp only
  generalize detects : runDetectors _ = detecting
  exact ⟨settleEnds_hz_of_inService restores detects, settleEnds_hz_of_out restores detects⟩

end Sys2Proof.Proofs
end

section
/-! O11: the carry-over record, what it takes and what its restoring gives back (R156, R188, R202, R211). -/

namespace Sys2Proof.Machine

/-! ## What the record takes -/

/-- The carried form of an incident that has failed or been abandoned. -/
def carriedOf (r : Incident) : Option CarriedIncident :=
  match r.state with
  | .failed reason => some { fault := r.fault, reason := reason, recurrences := r.recurrences }
  | .abandoned reason => some { fault := r.fault, reason := reason, recurrences := r.recurrences }
  | _ => none

theorem carried_eq (records : List Incident) : carried records = (records.filterMap carriedOf).take 4 := rfl

theorem carriedOf_isSome (r : Incident) : (carriedOf r).isSome = (isFailed r || isAbandoned r) := by
  unfold carriedOf isFailed isAbandoned
  cases r.state <;> rfl

/-- A filter-map is the filter by what it keeps, mapped place by place. -/
theorem filterMap_getElem? {α β : Type} (f : α → Option β) (p : α → Bool) (keeps : ∀ a, (f a).isSome = p a) :
    ∀ (l : List α) (i : Nat), (l.filterMap f)[i]? = ((l.filter p)[i]?).bind f
  | [], _ => rfl
  | a :: l, i => by
    have kept := keeps a
    rw [List.filterMap_cons, List.filter_cons]
    cases found : f a with
    | none =>
      rw [found] at kept
      rw [if_neg (by rw [← kept]; exact Bool.false_ne_true)]
      exact filterMap_getElem? f p keeps l i
    | some b =>
      rw [found] at kept
      have kept : p a = true := kept.symm
      rw [if_pos kept]
      cases i with
      | zero => exact found.symm
      | succ i => exact filterMap_getElem? f p keeps l i

theorem filterMap_length {α β : Type} (f : α → Option β) (p : α → Bool) (keeps : ∀ a, (f a).isSome = p a) (l : List α) :
    (l.filterMap f).length = (l.filter p).length := by
  rw [List.length_filterMap_eq_countP, List.countP_eq_length_filter]
  exact congrArg (fun q => (l.filter q).length) (funext keeps)

/-! ## What restoring gives back -/

/-- An own INFLOW_STOP with this serial. -/
def stopNotice (s : State) (serial : Byte) : HazardEntry :=
  { origin := s.me, serial := serial, code := .inflowStop, hops := s.image.hopLimit, group := s.image.feederGroup
    sends := 3, relay := false, onWire := false }

/-- A carried incident as its record comes back with this id. -/
def restoredRecord (s : State) (id : Nat) (c : CarriedIncident) : Incident :=
  { id := id, fault := c.fault, state := .failed c.reason, attempts := 0, detectedAt := s.now / 1000, recurrences := c.recurrences, carried := true }

variable {s : State} {c : CarriedIncident}

/-- The next id is free where every record has an earlier one. -/
theorem newId_of_earlier (before : ∀ r ∈ s.rs.incidents, r.id < s.rs.nextId) : s.newId = s.rs.nextId := by
  have free : idHeld s.rs.incidents s.rs.nextId = false := by
    rw [← Bool.not_eq_true, idHeld_iff]
    rintro ⟨r, hr, same⟩
    exact absurd same (Nat.ne_of_lt (before r hr))
  unfold State.newId freeId
  rw [free]
  rfl

theorem restoreOne_eq (room : s.rs.incidents.length < 8) :
    restoreOne s c = if c.fault = .leak then queueNotice .inflowStop (createRecord c.fault (.failed c.reason) c.recurrences true s)
      else createRecord c.fault (.failed c.reason) c.recurrences true s := if_pos room

theorem restoreOne_rs (room : s.rs.incidents.length < 8) (before : ∀ r ∈ s.rs.incidents, r.id < s.rs.nextId) :
    (restoreOne s c).rs.incidents = s.rs.incidents ++ [restoredRecord s s.rs.nextId c] ∧
      (restoreOne s c).rs.nextId = idAfter s.rs.nextId := by
  have id := newId_of_earlier before
  rw [restoreOne_eq room]
  have created : (createRecord c.fault (.failed c.reason) c.recurrences true s).rs.incidents =
      s.rs.incidents ++ [restoredRecord s s.newId c] ∧
      (createRecord c.fault (.failed c.reason) c.recurrences true s).rs.nextId = idAfter s.newId := ⟨rfl, rfl⟩
  rw [id] at created
  split
  · rw [(queueNotice_writes .inflowStop _).2.2]; exact created
  · exact created

theorem restoreOne_raised (room : s.rs.incidents.length < 8) :
    (restoreOne s c).counter .incidentsRaised = min (s.counter .incidentsRaised + 1) 65535 := by
  have created : (createRecord c.fault (.failed c.reason) c.recurrences true s).counter .incidentsRaised =
      min (s.counter .incidentsRaised + 1) 65535 := count_same _ _
  rw [restoreOne_eq room]
  split
  · have queued : ∀ t : State, (queueNotice .inflowStop t).counter .incidentsRaised = t.counter .incidentsRaised :=
      fun t => (pushHazard_writes _ _).2.2.2 _ nofun
    exact (queued _).trans created
  · exact created

theorem restoreOne_hz (room : s.rs.incidents.length < 8) :
    (restoreOne s c).hz = if c.fault = .leak then (queueNotice .inflowStop s).hz else s.hz := by
  rw [restoreOne_eq room]
  split
  · exact queueNotice_hz .inflowStop rfl rfl
  · rfl

theorem restoreOne_kept : (restoreOne s c).cs = s.cs ∧ (restoreOne s c).now = s.now := by
  unfold restoreOne
  split
  · dsimp only
    split
    · rw [(queueNotice_writes .inflowStop _).2.2]; exact ⟨rfl, rfl⟩
    · exact ⟨rfl, rfl⟩
  · exact ⟨rfl, rfl⟩

/-- The records before the restoring of a list: fewer than the list has room for, with ids before the next. -/
structure Restoring (s : State) (l : List CarriedIncident) : Prop where
  room : s.rs.incidents.length + l.length ≤ 8
  next : s.rs.nextId + l.length ≤ 255
  before : ∀ r ∈ s.rs.incidents, r.id < s.rs.nextId

theorem Restoring.first {l : List CarriedIncident} (h : Restoring s (c :: l)) : s.rs.incidents.length < 8 := by
  have := h.room; rw [List.length_cons] at this; omega

theorem Restoring.nextId {l : List CarriedIncident} (h : Restoring s (c :: l)) : (restoreOne s c).rs.nextId = s.rs.nextId + 1 := by
  have := h.next
  rw [List.length_cons] at this
  rw [(restoreOne_rs h.first h.before).2]
  unfold idAfter
  exact if_neg (by omega)

theorem Restoring.rest {l : List CarriedIncident} (h : Restoring s (c :: l)) : Restoring (restoreOne s c) l := by
  have records := (restoreOne_rs (c := c) h.first h.before).1
  have room := h.room
  have next := h.next
  rw [List.length_cons] at room next
  refine ⟨?_, ?_, fun r hr => ?_⟩
  · rw [records, List.length_append, List.length_singleton]; omega
  · rw [h.nextId]; omega
  · rw [h.nextId]
    rw [records, List.mem_append, List.mem_singleton] at hr
    rcases hr with old | new
    · exact Nat.lt_trans (h.before r old) (Nat.lt_succ_self _)
    · rw [new]; exact Nat.lt_succ_self _

/-- The restored records, in order, with the next ids (R156). -/
theorem restored_records : ∀ (l : List CarriedIncident) (s : State), Restoring s l →
    (l.foldl restoreOne s).rs.incidents = s.rs.incidents ++ l.mapIdx (fun i c => restoredRecord s (s.rs.nextId + i) c)
  | [], s, _ => (List.append_nil _).symm
  | c :: l, s, h => by
    have same : ∀ id, restoredRecord (restoreOne s c) id = restoredRecord s id := fun id => by
      unfold restoredRecord; rw [restoreOne_kept.2]
    have shift : (fun i c' => restoredRecord (restoreOne s c) ((restoreOne s c).rs.nextId + i) c') =
        fun i c' => restoredRecord s (s.rs.nextId + (i + 1)) c' :=
      funext fun i => by rw [h.nextId, same, Nat.add_assoc, Nat.add_comm 1]
    rw [List.foldl_cons, restored_records l _ h.rest, (restoreOne_rs h.first h.before).1, shift, List.mapIdx_cons,
      List.append_assoc, List.singleton_append]
    rfl

/-- Every restored record is counted (R216). -/
theorem restored_raised : ∀ (l : List CarriedIncident) (s : State), Restoring s l → s.counter .incidentsRaised ≤ 65535 →
    (l.foldl restoreOne s).counter .incidentsRaised = min (s.counter .incidentsRaised + l.length) 65535
  | [], s, _, most => (Nat.min_eq_left most).symm
  | c :: l, s, h, _ => by
    have one := restoreOne_raised (c := c) h.first
    rw [List.foldl_cons, restored_raised l _ h.rest (one ▸ Nat.min_le_right _ _), one, List.length_cons]
    omega

/-- The LEAK records among a list. -/
def leaksOf (l : List CarriedIncident) : List CarriedIncident := l.filter (fun c => c.fault == .leak)

theorem leaksOf_cons_leak (h : c.fault = .leak) (l : List CarriedIncident) : leaksOf (c :: l) = c :: leaksOf l :=
  List.filter_cons_of_pos (by rw [h]; rfl)

theorem leaksOf_cons_other (h : c.fault ≠ .leak) (l : List CarriedIncident) : leaksOf (c :: l) = leaksOf l :=
  List.filter_cons_of_neg (by simpa using h)

theorem byteOf_succ (n : Nat) : byteOf (n + 1) = byteOf n + 1 := BitVec.ofNat_add ..

/-- Each restored LEAK queues an INFLOW_STOP with the next serial (R188). -/
theorem restored_serial : ∀ (l : List CarriedIncident) (s : State), Restoring s l →
    (l.foldl restoreOne s).hz.serial = s.hz.serial + byteOf (leaksOf l).length
  | [], s, _ => (BitVec.add_zero _).symm
  | c :: l, s, h => by
    rw [List.foldl_cons, restored_serial l _ h.rest, restoreOne_hz h.first]
    by_cases leak : c.fault = .leak
    · rw [if_pos leak, (queueNotice_writes _ _).1, leaksOf_cons_leak leak, List.length_cons, byteOf_succ, BitVec.add_assoc,
        BitVec.add_comm 1]
    · rw [if_neg leak, leaksOf_cons_other leak]

theorem queueNotice_stopMark (s : State) : (queueNotice .inflowStop s).hz.stopMark = true := by
  unfold queueNotice pushHazard
  dsimp only
  split <;> rfl

/-- The inflow-stop mark after the restoring (R188). -/
theorem restored_stopMark : ∀ (l : List CarriedIncident) (s : State), Restoring s l →
    ((l.foldl restoreOne s).hz.stopMark = true ↔ s.hz.stopMark = true ∨ leaksOf l ≠ [])
  | [], s, _ => (or_iff_left fun h => h rfl).symm
  | c :: l, s, h => by
    rw [List.foldl_cons, restored_stopMark l _ h.rest, restoreOne_hz h.first]
    by_cases leak : c.fault = .leak
    · rw [if_pos leak, queueNotice_stopMark, leaksOf_cons_leak leak]
      exact iff_of_true (.inl rfl) (.inr (List.cons_ne_nil _ _))
    · rw [if_neg leak, leaksOf_cons_other leak]

theorem queueNotice_queue (s : State) (room : s.hz.queue.length < 4) :
    (queueNotice .inflowStop s).hz.queue = s.hz.queue ++ [stopNotice s (s.hz.serial + 1)] := by
  unfold queueNotice pushHazard
  dsimp only
  rw [if_pos (show _ < Config.maxHazards from room)]
  rfl

/-- The notices of the restored LEAK records stand last in the queue, in order (R188, R189). -/
theorem restored_queue : ∀ (l : List CarriedIncident) (s : State), Restoring s l → s.hz.queue.length + (leaksOf l).length ≤ 4 →
    (l.foldl restoreOne s).hz.queue = s.hz.queue ++ (leaksOf l).mapIdx (fun i _ => stopNotice s (s.hz.serial + byteOf (i + 1)))
  | [], s, _, _ => (List.append_nil _).symm
  | c :: l, s, h, room => by
    have same : ∀ serial, stopNotice (restoreOne s c) serial = stopNotice s serial := fun serial => by
      simp only [stopNotice, State.me, State.image, restoreOne_kept.1]
    rw [List.foldl_cons]
    by_cases leak : c.fault = .leak
    · rw [leaksOf_cons_leak leak, List.length_cons] at room
      have here : (restoreOne s c).hz = (queueNotice .inflowStop s).hz := (restoreOne_hz h.first).trans (if_pos leak)
      have queue : (restoreOne s c).hz.queue = s.hz.queue ++ [stopNotice s (s.hz.serial + 1)] := by
        rw [here]; exact queueNotice_queue s (by omega)
      have shift : (fun i (_ : CarriedIncident) => stopNotice (restoreOne s c) ((restoreOne s c).hz.serial + byteOf (i + 1))) =
          fun i _ => stopNotice s (s.hz.serial + byteOf (i + 1 + 1)) :=
        funext fun i => by
          rw [same, here, (queueNotice_writes _ _).1, byteOf_succ (i + 1), BitVec.add_assoc, BitVec.add_comm 1]
      rw [restored_queue l _ h.rest (by rw [queue, List.length_append, List.length_singleton]; omega), queue, shift,
        leaksOf_cons_leak leak, List.mapIdx_cons, List.append_assoc, List.singleton_append]
      rfl
    · rw [leaksOf_cons_other leak] at room ⊢
      have here : (restoreOne s c).hz = s.hz := (restoreOne_hz h.first).trans (if_neg leak)
      rw [restored_queue l _ h.rest (by rw [here]; exact room), here]
      exact congrArg _ (congrArg (List.mapIdx · _) (funext fun i => funext fun _ => same _))

/-- Restoring begins at a start, with no record and the first id. -/
theorem Restoring.ofStart (none : s.rs.incidents = []) (first : s.rs.nextId = 1) (few : s.cs.carryIncidents.length ≤ 4) :
    Restoring s s.cs.carryIncidents := by
  refine ⟨?_, ?_, fun r hr => ?_⟩
  · rw [none, List.length_nil]; omega
  · rw [first]; omega
  · rw [none] at hr; cases hr

end Sys2Proof.Machine

namespace Sys2Proof.Proofs

open Sys2Proof.Machine

/-- Settles O11: by induction on the carried incidents, each restored behind the ones before it. -/
theorem carryOverRecord : Obligations.CarryOverRecord := by
  unfold Obligations.CarryOverRecord
  refine ⟨fun records => ⟨?_, fun i => ?_⟩, fun s none first few => ?_⟩
  · rw [carried_eq, List.length_take, filterMap_length carriedOf _ carriedOf_isSome]
  · rw [carried_eq, List.getElem?_take, filterMap_getElem? carriedOf _ carriedOf_isSome]
    rfl
  · have h := Restoring.ofStart none first few
    obtain ⟨cs, -, -, -, memory, -⟩ := restoreCarried_fields s
    have records := restored_records _ s h
    rw [none, List.nil_append, first] at records
    refine ⟨?_, cs, restored_raised _ s h, restored_serial _ s h, memory, restored_stopMark _ s h, restored_queue _ s h⟩
    exact records.trans (congrArg (List.mapIdx · _) (funext fun i => by rw [Nat.add_comm]; rfl))

end Sys2Proof.Proofs
end

section
/-! O12: a RESTART refused, or taken with the start it brings (R181, R207, R208, R211). -/

namespace Sys2Proof.Machine

variable {s : State} {kind : FrameKind} {h : Header} {payload : List Byte} {straps : Straps} {target : Station}

/-- A RESTART is taken up where it is delivered to this station, in whatever mode. -/
theorem restart_reaches (delivered : s.Delivers .restart h payload ∨ s.DeliversService .restart h payload)
    (reads : readRestart payload = some target) (mine : target.val = s.cs.number.toNat) :
    (s.canReceive && s.acceptance .restart h payload == .accepted && !s.senderForeign h &&
      (readRestart payload).any (fun k => k.val == s.cs.number.toNat)) = true := by
  have parts : s.canReceive = true ∧ s.acceptance .restart h payload = .accepted ∧ s.senderForeign h = false := by
    rcases delivered with ⟨receives, -, accepted, known⟩ | ⟨receives, service, accepted⟩
    · exact ⟨receives, accepted, known.resolve_left nofun⟩
    · exact ⟨receives, accepted, by unfold State.senderForeign; rw [serviceMode_not_run service]; rfl⟩
  obtain ⟨receives, accepted, known⟩ := parts
  rw [receives, accepted, known, reads, Option.any_some, mine]
  exact beq_self_eq_true _

/-- A RESTART that is allowed is taken on the state its reception ended in. -/
theorem receiveRestart_taken (reached : (s.canReceive && s.acceptance .restart h payload == .accepted && !s.senderForeign h &&
      (readRestart payload).any (fun k => k.val == s.cs.number.toNat)) = true) (allowed : s.restartAllowed = true) :
    receiveRestart h payload straps s = restartTaken straps s.asTaken :=
  (if_pos reached).trans (if_pos allowed)

/-- A RESTART that is not allowed is counted, and its frame has no other effect. -/
theorem receiveRestart_refused (reached : (s.canReceive && s.acceptance .restart h payload == .accepted && !s.senderForeign h &&
      (readRestart payload).any (fun k => k.val == s.cs.number.toNat)) = true) (refused : s.restartAllowed = false) :
    receiveRestart h payload straps s = receiveFrame .restart h payload (count .operatorRefused s) :=
  (if_pos reached).trans (if_neg (Bool.eq_false_iff.1 refused))

/-- What the start of a RESTART leaves, with the carry-over record it is given. -/
structure Restarted (s t : State) (straps : Straps) (records : List CarriedIncident) (out : Bool) : Prop where
  reset : t.BlocksReset
  restarts : t.counter .restarts = min (s.counter .restarts + 1) 255
  carries : t.cs.carryIncidents = records ∧ t.cs.carryOutOfService = out
  loaded : t.Loaded straps
  mixed : t.cs.mixed = (s.cs.mixed || s.cs.commit.isSome)
  stored : s.cs.commit = none → t.cs.stored = s.cs.stored
  abandoned : s.cs.commit ≠ none → t.cs.loadResult = .checkValue ∧ t.cs.locked = false

theorem restart_starts (s : State) (straps : Straps) (records : List CarriedIncident) (out : Bool) :
    let counted := count .restarts (abandonCommit s.asTaken)
    Restarted s (start counted.cs.stored counted.cs.mixed records out (counted.counter .restarts) straps counted) straps records out := by
  intro counted
  obtain ⟨reset, carried, flag, restarts, stored⟩ :=
    start_reset counted.cs.stored counted.cs.mixed records out (counted.counter .restarts) straps counted
  obtain ⟨loaded, mixed⟩ := start_loaded counted.cs.stored counted.cs.mixed records out (counted.counter .restarts) straps counted
  have marked : counted.cs.mixed = (s.cs.mixed || s.cs.commit.isSome) := abandonCommit_mixed s.asTaken
  have once : counted.counter .restarts = min (s.counter .restarts + 1) 255 := by
    rw [count_same, abandonCommit_counter, asTaken_counter _ _ (by decide)]
    rfl
  refine ⟨reset, restarts.trans once, ⟨carried, flag⟩, loaded, mixed.trans marked,
    fun idle => stored.trans (abandonCommit_none s.asTaken idle), fun busy => Loaded.mixed loaded ((mixed.trans marked).trans ?_)⟩
  rw [Option.isSome_iff_ne_none.2 busy, Bool.or_true]

theorem restartTaken_run (runs : s.runMode = true) :
    Restarted s (restartTaken straps s.asTaken) straps (carried s.rs.incidents) (s.zoneMode == .outOfService) := by
  have started : restartTaken straps s.asTaken = _ := if_pos (show s.asTaken.runMode = true from runs)
  rw [started]
  exact restart_starts s straps _ _

theorem restartTaken_service (service : s.serviceMode = true) :
    Restarted s (restartTaken straps s.asTaken) straps s.cs.carryIncidents s.cs.carryOutOfService := by
  have started : restartTaken straps s.asTaken = _ :=
    if_neg (show ¬ s.asTaken.runMode = true from Bool.eq_false_iff.1 (serviceMode_not_run service))
  rw [started]
  exact restart_starts s straps _ _

end Sys2Proof.Machine

namespace Sys2Proof.Proofs

open Sys2Proof.Machine

/-- Settles O12: the start a taken RESTART brings, and the frame of a refused one that leaves all but two counters. -/
theorem restartRule : Obligations.RestartRule := by
  unfold Obligations.RestartRule
  intro s h payload straps target delivered reads mine
  have reached := restart_reaches delivered reads mine
  refine ⟨fun runs allows => ?_, fun service => ?_, fun runs refuses => ?_⟩
  · have allowed : s.restartAllowed = true := by unfold State.restartAllowed; rw [allows, Bool.or_true]
    obtain ⟨reset, restarts, ⟨records, out⟩, loaded, mixed, stored, abandoned⟩ := restartTaken_run (straps := straps) runs
    exact ⟨_, congrArg Host.Outcome.next (receiveRestart_taken reached allowed), reset, restarts, records, out, loaded, mixed, stored, abandoned⟩
  · have allowed : s.restartAllowed = true := by unfold State.restartAllowed; rw [service, Bool.true_or]
    obtain ⟨reset, restarts, ⟨records, out⟩, loaded, mixed, stored, abandoned⟩ := restartTaken_service (straps := straps) service
    exact ⟨_, congrArg Host.Outcome.next (receiveRestart_taken reached allowed), reset, restarts, records, out, loaded, mixed, stored, abandoned⟩
  · have refused : s.restartAllowed = false := by unfold State.restartAllowed; rw [refuses, runMode_not_service runs]; rfl
    have taken : (count .operatorRefused s).Delivers .restart h payload := by
      rcases delivered with here | ⟨-, service, -⟩
      · exact here
      · rw [runMode_not_service runs] at service; cases service
    have i := endEvent_internal .none (arrived h (count .operatorRefused s).asTaken)
    obtain ⟨alone, accepted, -⟩ := (asTaken_leftAlone (count .operatorRefused s)).ends i
    have refusal : (endEvent .none (arrived h (count .operatorRefused s).asTaken)).counter .operatorRefused =
        (count .operatorRefused s).counter .operatorRefused := (ends_counter i _ (by decide) (by decide)).trans (asTaken_counter _ _ (by decide))
    have once : (count .operatorRefused s).counter .accepted = s.counter .accepted := count_other _ _ _ (by decide)
    obtain ⟨store, zone⟩ := alone.mode
    obtain ⟨phase, demand, serial, pause, timer, regulation⟩ := alone.program
    obtain ⟨slot, flight⟩ := alone.questions
    have framed : receiveFrame .restart h payload (count .operatorRefused s) =
        afterFrame h (arrived h (count .operatorRefused s).asTaken) := receiveFrame_delivers taken
    refine ⟨endEvent .none (arrived h (count .operatorRefused s).asTaken),
      congrArg Host.Outcome.next ((receiveRestart_refused reached refused).trans framed),
      refusal.trans (count_same _ _), accepted.trans (by rw [once]), fun c hc h1 h2 => ?_, ⟨store, zone⟩, ⟨phase, demand, serial, pause, timer, regulation⟩,
      ends_sameHazardMemory i rfl, ⟨slot, flight⟩⟩
    simp only [List.mem_cons, List.not_mem_nil, or_false, not_or] at hc
    obtain ⟨notRefused, notAccepted⟩ := hc
    exact (ends_counter i c h1 h2).trans
      ((asTaken_counter (count .operatorRefused s) c notAccepted).trans (count_other .operatorRefused c s notRefused))

end Sys2Proof.Proofs
end

section
/-! O13 and O14: the events of the zone lines, and the arrival of a sample (R100 to R105, R127, R176). -/

namespace Sys2Proof.Machine

variable {s t : State}

/-! ## Lines -/

theorem rawLevelChange_writes (i : Line) (high : Bool) (changes : s.lu.pins[i] ≠ high) :
    exec (.rawLevelChange i high) s = .next { s with lu := { s.lu with
      pins := setAt s.lu.pins i high
      timers := if s.reads && s.isInputLine i then setAt s.lu.timers i (some s.now) else s.lu.timers } } :=
  congrArg Host.Outcome.next (if_neg changes)

theorem rawLevelChange_same (i : Line) (high : Bool) (same : s.lu.pins[i] = high) : exec (.rawLevelChange i high) s = .next s :=
  congrArg Host.Outcome.next (if_pos same)

/-- The state in which a debounce timer has run: the timer stopped, the level taken. -/
def State.levelTaken (s : State) (i : Line) (start : Nat) : State :=
  { s with
    now := max s.now (start + s.image.debounce i)
    lu := { s.lu with timers := setAt s.lu.timers i none, debounced := setAt s.lu.debounced i (some (s.pinActive i)) } }

/-- A debounce timer that has run takes the level, and the line's detectors and the end of the event judge it (R103). -/
theorem lineChange_internal (i : Line) (start : Nat) (up : s.supply = true) (running : s.lu.timers[i] = some start) :
    ∃ t, exec (.lineChangeEvent i) s = .next t ∧ Internal (s.levelTaken i start) t := by
  by_cases changed : s.lu.debounced[i] = some (s.pinActive i)
  · have ends : exec (.lineChangeEvent i) s = .next (debounceEnds i start s) := by simp only [exec, execLineChangeEvent, up, running]
    have same : debounceEnds i start s = s.levelTaken i start := by
      unfold State.levelTaken
      rw [setAt_self _ _ _ changed]
      exact if_pos changed
    exact ⟨_, ends, same ▸ Internal.refl _⟩
  · exact ⟨_, lineChange_runs i start s up running changed, (evalLine_internal _ _).trans (endEvent_internal _ _)⟩

/-! ## Samples -/

/-- What the regulation request is judged to be on a temperature sample (R127). -/
theorem judgeRegulation_regulation (s : State) : (judgeRegulation s).pd.regulation =
    if s.driveRuns = true ∧ regulates s.pd.phase = true then s.judgedRegulation else s.pd.regulation := by
  unfold judgeRegulation
  split <;> rfl

theorem judgeRegulation_steady (s : State) : (judgeRegulation s).pd.phase = s.pd.phase ∧ (judgeRegulation s).pd.demand = s.pd.demand := by
  unfold judgeRegulation
  split <;> exact ⟨rfl, rfl⟩

theorem driveRuns_of (mode : t.zoneMode = s.zoneMode) (cs : t.cs = s.cs) : t.driveRuns = s.driveRuns := by
  unfold State.driveRuns State.hasTank State.image
  rw [mode, cs]

theorem judgedRegulation_of (ms : t.ms = s.ms) (cs : t.cs = s.cs) (same : t.pd.regulation = s.pd.regulation) :
    t.judgedRegulation = s.judgedRegulation := by
  unfold State.judgedRegulation State.latestValid State.image
  rw [ms, cs, same]

/-- The request on a sample as it arrives. -/
theorem storeSample_judged (x : Sample) (s : State) : (storeSample 0 x s).judgedRegulation = match validValue 0 x with
    | none => false
    | some v => if v < s.image.setpoint - s.image.hysteresis then true else if s.image.setpoint ≤ v then false else s.pd.regulation := by
  have latest : (storeSample 0 x s).latestValid 0 = validValue 0 x :=
    congrArg (Option.bind · (validValue 0)) (setAt_same s.ms.latest 0 (some x))
  unfold State.judgedRegulation
  rw [latest]
  rfl

/-- A sample hands the detectors and the drive the new latest value; what they judge ends the event (R105). -/
theorem sampleArrives_internal (c : Channel) (x : Sample) (s : State) :
    ∃ detected, Internal (storeSample c x s) detected ∧
      Internal (if c = 0 then judgeRegulation detected else detected) (sampleArrives c x s) :=
  ⟨_, evalArrival_internal c x _, (countValid_internal c x _).trans (endEvent_internal _ _)⟩

theorem countValid_waiting (x : Sample) (id : Nat) (fault : FaultId) (waits : s.activeStep = some (id, fault, .waitValid)) :
    countValid 0 x s = { s with rs := { s.rs with validCount := if validValue 0 x = none then 0 else s.rs.validCount + 1 } } := by
  unfold countValid
  rw [waits]
  cases validValue 0 x <;> rfl

theorem countValid_elsewhere (c : Channel) (x : Sample) (elsewhere : (∀ id fault, s.activeStep ≠ some (id, fault, .waitValid)) ∨ c ≠ 0) :
    countValid c x s = s := by
  unfold countValid
  split
  · rename_i id fault waits
    exact if_neg (elsewhere.resolve_left fun none => none id fault waits)
  · rfl

theorem reads_iff (s : State) : s.reads = true ↔ s.supply = true ∧ s.serviceMode = false ∧ s.cs.stage ≠ .load := by
  unfold State.reads
  rw [Bool.and_eq_true, Bool.and_eq_true, Bool.not_eq_true', bne_iff_ne, and_assoc]

theorem latestValid_iff (s : State) (c : Channel) (n : Int) :
    s.latestValid c = some n ↔ ∃ x, s.ms.latest[c] = some x ∧ validValue c x = some n := Option.bind_eq_some_iff

end Sys2Proof.Machine

namespace Sys2Proof.Proofs

open Sys2Proof.Machine

/-- Settles O13: behind the level taken, the rest of a line event is internal to the blocks. -/
theorem lineEvents : Obligations.LineEvents := by
  unfold Obligations.LineEvents
  refine ⟨fun s i high => ⟨rawLevelChange_writes i high, rawLevelChange_same i high⟩, fun s i start up running => ?_,
    fun s i => ⟨isInputLine_iff s i, rfl⟩, rfl, fun s f => ⟨wet_iff s f, dry_carried s f, dry_uncarried s f⟩⟩
  obtain ⟨t, answers, k⟩ := lineChange_internal i start up running
  exact ⟨t, answers, k.timers, k.now, k.debounced, k.pins, k.ms, k.lc, k.mode, k.program, k.hazardMemory, k.questions, k.samePeers _,
    k.sameOwners _, k.sameCounters _⟩

/-- Settles O14: the sample stored, judged by the drive on MC0, and the rest internal to the blocks. -/
theorem sampleArrives : Obligations.SampleArrives := by
  unfold Obligations.SampleArrives
  refine ⟨fun s c p reads => ?_, reads_iff, fun _ => rfl, validValue_iff, latestValid_iff,
    fun s c x => ⟨countValid_elsewhere c x, fun id fault => countValid_waiting x id fault⟩⟩
  obtain ⟨detected, d, e⟩ := sampleArrives_internal c (sampleOf p) s
  have taken : exec (.sampleArrival c p) s = .next (Machine.sampleArrives c (sampleOf p) s) := congrArg Host.Outcome.next (if_pos reads)
  have judged : ∃ pd, (if c = 0 then judgeRegulation detected else detected) = { detected with pd := pd } ∧ pd.phase = detected.pd.phase ∧
      pd.demand = detected.pd.demand ∧ pd.regulation = if c = 0 ∧ s.driveRuns = true ∧ regulates s.pd.phase = true then
        (match validValue 0 (sampleOf p) with
          | none => false
          | some v => if v < s.image.setpoint - s.image.hysteresis then true
            else if s.image.setpoint ≤ v then false else s.pd.regulation)
        else s.pd.regulation := by
    have regulation : detected.pd.regulation = s.pd.regulation := d.regulation
    by_cases first : c = 0
    · subst first
      refine ⟨_, (if_pos rfl).trans (judgeRegulation_eq detected), (judgeRegulation_steady detected).1, (judgeRegulation_steady detected).2, ?_⟩
      have phase : detected.pd.phase = s.pd.phase := d.phase
      have runs : detected.driveRuns = s.driveRuns := (driveRuns_of d.zoneMode d.cs).trans rfl
      rw [judgeRegulation_regulation, runs, phase, judgedRegulation_of d.ms d.cs d.regulation, storeSample_judged, regulation]
      simp only [true_and]
    · refine ⟨detected.pd, if_neg first, rfl, rfl, ?_⟩
      rw [if_neg (fun h => first h.1)]
      exact regulation
  obtain ⟨pd, shape, phase, demand, regulation⟩ := judged
  rw [shape] at e
  have now := e.now.trans d.now
  have ms : (Machine.sampleArrives c (sampleOf p) s).ms = (storeSample c (sampleOf p) s).ms := e.ms.trans d.ms
  refine ⟨_, taken, now, congrArg Measurement.latest ms, congrArg Measurement.counts ms,
    (congrArg Measurement.nextArrival ms).trans (congrArg (fun n => setAt s.ms.nextArrival c (n + 100000)) now.symm),
    e.regulation.trans regulation, e.phase.trans (phase.trans d.phase), e.demand.trans (demand.trans d.demand), e.pins.trans d.pins,
    e.timers.trans d.timers, e.debounced.trans d.debounced, e.lc.trans d.lc, ⟨e.cs.trans d.cs, e.zoneMode.trans d.zoneMode⟩,
    ⟨e.memory.trans d.memory, e.gateStop.trans d.gateStop⟩, ⟨e.slot.trans d.slot, e.question.trans d.question⟩,
    fun j hj => (e.samePeers (fun _ => False) j hj).trans (d.samePeers (fun _ => False) j hj), fun j hj => ?_,
    fun k _ h1 h2 => (e.counters k h1 h2).trans (d.counters k h1 h2)⟩
  obtain ⟨applied, stale, records⟩ := e.sameOwners (fun _ => False) j hj
  obtain ⟨applied', stale', records'⟩ := d.sameOwners (fun _ => False) j hj
  exact ⟨applied.trans applied', stale.trans stale', fun other => (records (d.me ▸ other)).trans (records' other)⟩

end Sys2Proof.Proofs
end

section
/-! O15, O16, O17: receptions, babble and the cut of the transmitter, the quiet medium (R46 to R52, R61, R62). -/

namespace Sys2Proof.Machine

variable {s : State}

/-! ## Receptions -/

/-- A part whose opening starts a frame has its receiver on. -/
theorem receiverOn_of_starts {f : OwnFrame} (quiet : s.lc.medium = .quiet) (starts : (beginOpening s).lc.medium = .own f) :
    s.lc.receiverOn = true := by
  refine Classical.byContradiction fun off => ?_
  have silent : beginOpening s = { s with lc := { s.lc with openingStart := s.now } } :=
    if_pos (by rw [Bool.eq_false_iff.2 off, Bool.not_false, Bool.or_true])
  rw [silent] at starts
  exact nomatch quiet.symm.trans starts

/-- Foreign activity at the instant at which an own frame would start takes its content back and is a reception (R52). -/
theorem receptionStart_forestalls {f : OwnFrame} (up : s.supply = true) (quiet : s.lc.medium = .quiet)
    (starts : (beginOpening s).lc.medium = .own f) (u : s.NothingSent) :
    exec .receptionStart (beginOpening s) = .next (endEvent .none { s with lc := { s.lc with
      openingStart := s.now, medium := .reception { start := s.now, babble := false, afterOwn := false } } }) := by
  have hears := receiverOn_of_starts quiet starts
  have opened := beginOpening_opened s
  have now : f.start = (beginOpening s).now := by
    rcases opened.medium with same | ⟨-, g, own, start⟩
    · exact nomatch quiet.symm.trans (same.symm.trans starts)
    · cases starts.symm.trans own
      exact start.trans opened.now.symm
  have takes : exec .receptionStart (beginOpening s) = .next (startForestalled f (beginOpening s)) := by
    simp only [exec, execReceptionStart, opened.supply, up, starts]
    rw [if_pos now]
  have back := beginOpening_givesBack u quiet f starts
  rw [takes]
  unfold startForestalled activityBegins
  rw [back, if_pos (show (setMedium (.own f) { s with lc := { s.lc with openingStart := s.now } }).lc.receiverOn = true from hears)]
  rfl

/-- A check failure is counted but for a reception that continues an own frame (R46, R58). -/
theorem countFailure_afterOwn {r : Reception} (m : s.lc.medium = .reception r) (own : r.afterOwn = true) : countFailure s = s := by
  unfold countFailure
  rw [m]
  exact if_pos own

theorem countFailure_foreign (foreign : ∀ r, s.lc.medium = .reception r → r.afterOwn = false) : countFailure s = count .checkErrors s := by
  unfold countFailure
  split
  · rename_i r m
    exact if_neg (Bool.eq_false_iff.1 (foreign r m))
  · rfl

theorem countFailure_cases (s : State) : countFailure s = s ∨ countFailure s = count .checkErrors s := by
  unfold countFailure
  split
  · split
    · exact .inl rfl
    · exact .inr rfl
  · exact .inr rfl

theorem checkFailure_fails (received : List Byte) (receives : s.canReceive = true) (invalid : validReception received = false) :
    exec (.checkFailure received) s = .next (failureEnds (mediumEnds (countFailure s))) :=
  congrArg Host.Outcome.next ((if_pos receives).trans (if_neg (Bool.eq_false_iff.1 invalid)))

/-! ## Babble -/

theorem canReceive_babble {r : Reception} (m : s.lc.medium = .reception r) (babbles : r.babble = true) : s.canReceive = false := by
  unfold State.canReceive
  rw [m]
  dsimp only
  rw [babbles]
  exact Bool.and_false _

theorem ignoredEnds_reception {r : Reception} (m : s.lc.medium = .reception r) : ignoredEnds s = s := by
  refine if_neg ?_
  rw [m, Bool.and_eq_true]
  exact fun h => nomatch (beq_iff_eq.1 h.2)

/-- A frame ending in babble is not accepted (R61). -/
theorem exec_frame_babble {r : Reception} {c : Instr} {x : FrameKind × Header × List Byte} (m : s.lc.medium = .reception r)
    (babbles : r.babble = true) (f : frameOf c = some x) : exec c s = .next s := by
  have deaf := canReceive_babble m babbles
  have frame : ∀ kind h payload, receiveFrame kind h payload s = s := fun kind h payload =>
    (if_neg (Bool.eq_false_iff.1 deaf)).trans (ignoredEnds_reception m)
  have query : ∀ h payload, receiveQuery h payload s = s := fun h payload => by
    have missed : s.replyMeetsQuery h payload = false := by unfold State.replyMeetsQuery State.takesQuery; rw [deaf]; rfl
    rw [receiveQuery_alone missed, frame]
  have restart : ∀ straps h payload, receiveRestart h payload straps s = s := fun straps h payload => by
    unfold receiveRestart
    rw [deaf]
    exact frame _ _ _
  obtain ⟨kind, h, payload⟩ := x
  obtain ⟨t, answers, same⟩ : Answers (fun s t => t = s) c s :=
    Answers.frame f (fun kind => frame kind h payload) (query h payload) (fun straps => restart straps h payload)
  rw [answers, same]

/-! ## The cut of the transmitter -/

/-- The end of the event at the cut of the transmitter, with the own frame's content back (R60, R62). -/
theorem transmitCut_own {f : OwnFrame} (up : s.supply = true) (m : s.lc.medium = .own f) :
    exec .transmitCut s = .next (cutsTransmitter (takeBack f.content (advanceTo (f.start + Config.babbleLimit) s))) := by
  simp only [exec, execTransmitCut, up, m]

theorem cutsTransmitter_internal (s : State) :
    Internal (setTransmitCut (setMedium (.reception { start := s.now, babble := false, afterOwn := true }) s)) (cutsTransmitter s) := by
  unfold cutsTransmitter
  exact endEvent_internal _ _

theorem driverStuck_cut (cut : s.lc.transmitCut = true) : driverStuck s = s := if_pos cut

theorem driverStuck_continues {r : Reception} (uncut : s.lc.transmitCut = false) (m : s.lc.medium = .reception r) (own : r.afterOwn = true)
    (clear : r.babble = false) : driverStuck s = cutsTransmitter (advanceTo (r.start + Config.babbleLimit) s) := by
  unfold driverStuck
  rw [uncut, m, if_neg Bool.false_ne_true]
  dsimp only
  rw [own, clear]
  exact if_pos rfl

theorem driverStuck_elsewhere (uncut : s.lc.transmitCut = false)
    (elsewhere : ∀ r, s.lc.medium = .reception r → r.afterOwn = false ∨ r.babble = true) : driverStuck s = setTransmitCut s := by
  rcases driverStuck_cases s with same | set | ⟨r, m, own, clear, -⟩
  · unfold driverStuck at same ⊢
    rw [uncut, if_neg Bool.false_ne_true] at same ⊢
    split
    · rename_i r m
      refine if_neg fun h => ?_
      rw [Bool.and_eq_true, Bool.not_eq_true'] at h
      obtain ⟨own, clear⟩ := h
      rcases elsewhere r m with foreign | babbles
      · exact Bool.false_ne_true (foreign.symm.trans own)
      · exact Bool.false_ne_true (clear.symm.trans babbles)
    · rfl
  · exact set
  · rcases elsewhere r m with foreign | babbles
    · exact absurd (foreign.symm.trans own) Bool.false_ne_true
    · exact absurd (clear.symm.trans babbles) Bool.false_ne_true

/-! ## The wheel -/

theorem setPosition_next_inside (inside : s.lc.position < s.wheelSize) :
    setPosition (s.lc.position + 1) s = { s with lc := { s.lc with position := s.lc.position + 1 } } := if_neg (Nat.not_lt.2 inside)

theorem setPosition_next_wraps (wraps : s.wheelSize ≤ s.lc.position) : setPosition (s.lc.position + 1) s = { s with lc := { s.lc with
    position := 0, roundCount := s.lc.roundCount + 1, presenceAge := min (s.lc.presenceAge + 1) 8 } } := if_pos (Nat.lt_succ_of_le wraps)

end Sys2Proof.Machine

namespace Sys2Proof.Proofs

open Sys2Proof.Machine

/-- Settles O15: what a reception begins, what a check failure counts, and the frame that does not start. -/
theorem receptionRule : Obligations.ReceptionRule := by
  unfold Obligations.ReceptionRule
  refine ⟨fun s up quiet => ?_, fun s received receives invalid => ?_, fun s f up quiet starts changes question reply notices waiting distinct => ?_⟩
  · have begins : exec .receptionStart s = .next (activityBegins s) := by simp only [exec, execReceptionStart, up, quiet]
    exact begins
  · refine ⟨mediumEnds (countFailure s), ?_, rfl, fun r m own => ?_, fun foreign => ?_, fun c other => ?_, ?_⟩
    · rw [checkFailure_fails received receives invalid]
      rcases countFailure_cases s with same | counted
      · rw [same]; rfl
      · rw [counted]; rfl
    · rw [countFailure_afterOwn m own]; rfl
    · rw [countFailure_foreign foreign]; exact count_same _ s
    · rcases countFailure_cases s with same | counted
      · rw [same]; rfl
      · rw [counted]; exact count_other _ _ s other
    · rcases countFailure_cases s with same | counted
      · rw [same]; rfl
      · rw [counted]; rfl
  · exact receptionStart_forestalls up quiet starts ⟨changes, question, reply, notices, waiting, distinct⟩

/-- Settles O16: babble is heard to its end and nothing of it accepted; the cut takes the own frame's content back. -/
theorem babbleLimit : Obligations.BabbleLimit := by
  unfold Obligations.BabbleLimit
  refine ⟨⟨fun s r up m clear => ?_, fun s r m => ⟨?_, ?_⟩, fun s r up m babbles => ⟨?_, fun received => ?_, fun c x f => exec_frame_babble m babbles f⟩⟩,
    fun s f up m => ?_, fun s up noFrame => ⟨fun cut => ?_, fun uncut => ⟨fun r m own clear => ?_, fun elsewhere => ?_⟩⟩⟩
  · refine ⟨babbleBegins r s, ?_, rfl, count_same _ _, rfl, fun c other => count_other _ _ _ other, rfl, rfl⟩
    simp only [exec, execBabble, up, m]
    rw [clear, if_neg Bool.false_ne_true]
  · refine congrArg Host.Outcome.next (if_neg ?_)
    unfold State.openingRuns
    rw [m]
    simp
  · refine congrArg Host.Outcome.next (if_neg ?_)
    unfold State.idleRuns
    rw [m]
    simp
  · have ends : exec .babbleReceptionEnd s = .next (if r.babble then failureEnds (mediumEnds s) else s) := by
      simp only [exec, execBabbleReceptionEnd, up, m]
    exact ends.trans (congrArg Host.Outcome.next (if_pos babbles))
  · exact congrArg Host.Outcome.next ((if_neg (Bool.eq_false_iff.1 (canReceive_babble m babbles))).trans (ignoredEnds_reception m))
  · have b := takeBack_taken f.content (advanceTo (f.start + Config.babbleLimit) s)
    refine ⟨_, transmitCut_own up m, ?_⟩
    generalize takeBack f.content (advanceTo (f.start + Config.babbleLimit) s) = u at *
    have i := cutsTransmitter_internal u
    obtain ⟨supply, ms, lu, pending, -, -⟩ := b.side
    obtain ⟨memory, gateStop⟩ := b.mem
    have counter : ∀ c, c ≠ .replyOverruns → c ≠ .incidentsRaised → c ≠ .relayDrops → (cutsTransmitter u).counter c = s.counter c :=
      fun c h h1 h2 => (i.counters c h1 h2).trans (b.counters c h)
    have medium : (cutsTransmitter u).lc.medium = .reception { start := u.now, babble := false, afterOwn := true } :=
      congrArg LinkController.medium i.lc
    have cut : (cutsTransmitter u).lc.transmitCut = true := congrArg LinkController.transmitCut i.lc
    have position : (cutsTransmitter u).lc.position = u.lc.position := (congrArg LinkController.position i.lc :)
    have hears : (cutsTransmitter u).lc.receiverOn = u.lc.receiverOn := (congrArg LinkController.receiverOn i.lc :)
    refine ⟨cut, i.now.trans b.now, fun g own => (by rw [medium] at own; cases own),
      counter _ (by decide) (by decide) (by decide), counter _ (by decide) (by decide) (by decide),
      position.trans (congrArg LinkController.position b.lc),
      hears.trans (congrArg LinkController.receiverOn b.lc), i.changeNumber.trans b.number, ?_,
      ⟨i.memory.trans memory, i.gateStop.trans gateStop⟩, ?_, fun j _ => ?_, fun carries => i.inFlight.trans (b.flight carries)⟩
    · obtain ⟨phase, demand, serial, pause, timer, regulation⟩ := i.program
      exact ⟨phase.trans (congrArg ProgramDrive.phase b.pd), demand.trans (congrArg ProgramDrive.demand b.pd),
        serial.trans (congrArg ProgramDrive.serial b.pd), pause.trans (congrArg ProgramDrive.silencePause b.pd),
        timer.trans (congrArg ProgramDrive.silenceTimer b.pd), regulation.trans (congrArg ProgramDrive.regulation b.pd)⟩
    · exact ⟨i.supply.trans supply, i.ms.trans ms, i.pins.trans (congrArg LineUnit.pins lu), i.timers.trans (congrArg LineUnit.timers lu),
        i.debounced.trans (congrArg LineUnit.debounced lu), i.testLevels.trans (congrArg LineUnit.testLevels lu), i.pending.trans pending⟩
    · exact congrArg (fun v : Vector PeerRecord 12 => v[j]) (i.peers.trans (congrArg Membership.peers b.mu))
  · exact (execTransmitCut_stuck up noFrame).trans (congrArg Host.Outcome.next (driverStuck_cut cut))
  · exact (execTransmitCut_stuck up noFrame).trans (congrArg Host.Outcome.next (driverStuck_continues uncut m own clear))
  · exact (execTransmitCut_stuck up noFrame).trans (congrArg Host.Outcome.next (driverStuck_elsewhere uncut elsewhere))

/-- Settles O17: the position moves on by one, or back to 0, before the opening begins. -/
theorem quietMedium : Obligations.QuietMedium := by
  unfold Obligations.QuietMedium
  refine ⟨fun s runs => ?_, fun s runs => ?_⟩
  · refine ⟨setPosition (s.lc.position + 1) (advanceTo (s.lc.openingStart + Config.quietInterval) s), congrArg Host.Outcome.next (if_pos runs),
      setPosition_now _ _, fun inside => ?_, fun wraps => ?_, ?_⟩
    · exact congrArg State.lc (setPosition_next_inside (s := advanceTo (s.lc.openingStart + Config.quietInterval) s) inside)
    · exact congrArg State.lc (setPosition_next_wraps (s := advanceTo (s.lc.openingStart + Config.quietInterval) s) wraps)
    · unfold setPosition
      split <;> rfl
  · exact ⟨_, congrArg Host.Outcome.next (if_pos runs), rfl, rfl⟩

end Sys2Proof.Proofs
end

section
/-! O18 and O19: an own frame completes, with the effects of its kind (R35, R37, R50, R57, R190, R204, R214, R217). -/

namespace Sys2Proof.Machine

variable {s : State} {f : OwnFrame}

/-! ## The wheel after an own frame -/

/-- The state in which the completion effects of an own frame take place: the medium quiet, the position past the own opening. -/
def State.ownFrameOver (s : State) (f : OwnFrame) : State :=
  setPosition s.positionAfterOwn (mediumEnds (advanceTo (f.start + frameTime f) s))

theorem ownFrameComplete_runs (up : s.supply = true) (m : s.lc.medium = .own f) :
    exec .ownFrameComplete s = .next (beginOpening (endEvent .none (completionEffects f.content (s.ownFrameOver f)))) := by
  have ends : exec .ownFrameComplete s = .next (ownFrameEnds f.content (advanceTo (f.start + frameTime f) s)) := by
    simp only [exec, execOwnFrameComplete, up, m]
  exact ends

theorem ownFrameOver_eq (s : State) (f : OwnFrame) : s.ownFrameOver f =
    { s with now := max s.now (f.start + 36 * (f.bytes.length + 1)), lc := (s.ownFrameOver f).lc } := by
  unfold State.ownFrameOver setPosition
  split <;> rfl

theorem ownFrameOver_medium (s : State) (f : OwnFrame) : (s.ownFrameOver f).lc.medium = .quiet := setPosition_medium _ _

/-- Past the own number the wheel goes on in the same round (R50). -/
theorem ownFrameOver_inside (runs : s.serviceMode = false) (inside : s.cs.number.toNat + 1 ≤ s.wheelSize) :
    (s.ownFrameOver f).lc.position = s.cs.number.toNat + 1 ∧ (s.ownFrameOver f).lc.roundCount = s.lc.roundCount := by
  have next : s.positionAfterOwn = s.cs.number.toNat + 1 := if_neg (Bool.eq_false_iff.1 runs)
  have moved : s.ownFrameOver f = _ := if_neg (by rw [next]; exact Nat.not_lt.2 inside)
  rw [moved, next]
  exact ⟨rfl, rfl⟩

/-- Past the service opening, or past the last number of the wheel, the position is 0 and a round is counted (R48, R50). -/
theorem ownFrameOver_wraps (past : s.serviceMode = true ∨ s.wheelSize ≤ s.cs.number.toNat) :
    (s.ownFrameOver f).lc.position = 0 ∧ (s.ownFrameOver f).lc.roundCount = s.lc.roundCount + 1 := by
  have beyond : s.wheelSize < s.positionAfterOwn := by
    unfold State.positionAfterOwn
    split
    · exact Nat.lt_succ_self _
    · rename_i runs
      exact Nat.lt_succ_of_le (past.resolve_left runs)
  have moved : s.ownFrameOver f = _ := if_pos beyond
  rw [moved]
  exact ⟨rfl, rfl⟩

/-! ## Completion effects -/

theorem completeChanges_leaves (number : Byte) (numberOf : Nat → Byte) (s : State) :
    (completeChanges number numberOf s).lc = s.lc ∧ (completeChanges number numberOf s).now = s.now ∧
      (completeChanges number numberOf s).rp = s.rp := by
  unfold completeChanges
  have k := placeFreed_claimed (setOwner s.me { s.ct[s.me] with applied := some number } { s with oc := { s.oc with
    claims := s.oc.claims.map (markSent s.oc.inFlight numberOf s.oc.unsent), awaiting := freeReleased s.oc.inFlight s.oc.awaiting
    changeNumber := number, inFlight := [] } })
  exact ⟨k.lc, k.now, k.rp⟩

/-- A frame other than a REPLY is counted once in SENT, and writes no other counter but RESYNCS_SENT. -/
theorem completionEffects_counters (content : OwnContent) (other : content ≠ .reply) (s : State) :
    s.Counted (completionEffects content s) .sent ∧
      ∀ c, c ≠ .sent → c ≠ .resyncsSent → (completionEffects content s).counter c = s.counter c := by
  have sent : ∀ t : State, t.rp = (count .sent s).rp → s.Counted t .sent ∧ ∀ c, c ≠ .sent → c ≠ .resyncsSent → t.counter c = s.counter c :=
    fun t same => by
      have counters : ∀ c, t.counter c = (count .sent s).counter c := fun c => by unfold State.counter; rw [same]
      exact ⟨(counters _).trans (count_same _ s), fun c notSent _ => (counters c).trans (count_other _ _ s notSent)⟩
  have asked : ∀ t : State, t.rp = (count .resyncsSent (count .sent s)).rp →
      s.Counted t .sent ∧ ∀ c, c ≠ .sent → c ≠ .resyncsSent → t.counter c = s.counter c := fun t same => by
    have counters : ∀ c, c ≠ .resyncsSent → t.counter c = (count .sent s).counter c := fun c notAsked => by
      refine Eq.trans ?_ (count_other .resyncsSent c (count .sent s) notAsked)
      unfold State.counter
      rw [same]
    exact ⟨(counters _ (by decide)).trans (count_same _ s), fun c notSent notAsked => (counters c notAsked).trans (count_other _ _ s notSent)⟩
  cases content with
  | presence fields => exact sent _ rfl
  | claim => exact sent _ (completeChanges_leaves _ _ (count .sent s)).2.2
  | claimSet number => exact sent _ (completeChanges_leaves _ _ _).2.2
  | resync join =>
    cases join with
    | true => exact asked _ rfl
    | false => exact asked _ rfl
  | hazard => exact sent _ rfl
  | reply => exact absurd rfl other
  | setupReply => exact sent _ rfl

/-- A completed REPLY leaves the question answered and the slot as it is (R214). -/
theorem replySent_slot (s : State) : (replySent s).rp.slot = s.rp.slot ∧ (replySent s).rp.inFlight = none ∧ (replySent s).lc = s.lc ∧
    (replySent s).now = s.now := by
  unfold replySent
  dsimp only
  split
  · split <;> exact ⟨rfl, rfl, rfl, rfl⟩
  · exact ⟨rfl, rfl, rfl, rfl⟩

/-- The completion effects leave the clock, the medium and the wheel. -/
theorem completionEffects_leaves (content : OwnContent) (s : State) : (completionEffects content s).now = s.now ∧
    (completionEffects content s).lc.medium = s.lc.medium ∧ (completionEffects content s).lc.position = s.lc.position ∧
    (completionEffects content s).lc.roundCount = s.lc.roundCount := by
  have wheel : ∀ t : State, t.lc = s.lc ∧ t.now = s.now → t.now = s.now ∧ t.lc.medium = s.lc.medium ∧ t.lc.position = s.lc.position ∧
      t.lc.roundCount = s.lc.roundCount := fun t ⟨lc, now⟩ => by rw [lc]; exact ⟨now, rfl, rfl, rfl⟩
  cases content with
  | presence fields => exact ⟨rfl, rfl, rfl, rfl⟩
  | claim =>
    obtain ⟨lc, now, -⟩ := completeChanges_leaves ((count .sent s).oc.changeNumber + byteOf (count .sent s).oc.inFlight.length)
      (fun i => (count .sent s).oc.changeNumber + byteOf (i + 1)) (count .sent s)
    exact wheel _ ⟨lc, now⟩
  | claimSet number =>
    have k := fun t => completeChanges_leaves number (fun _ => number) t
    exact wheel _ ⟨(k _).1, (k _).2.1⟩
  | resync join => cases join <;> exact ⟨rfl, rfl, rfl, rfl⟩
  | hazard => exact ⟨rfl, rfl, rfl, rfl⟩
  | reply =>
    obtain ⟨-, -, lc, now⟩ := replySent_slot s
    exact wheel _ ⟨lc, now⟩
  | setupReply => exact ⟨rfl, rfl, rfl, rfl⟩

/-! ## A REPLY to COUNTERS with the clear flag (R217) -/

/-- After a clearing answer every counter but RESTARTS is 0, SENT 0 or 1: which of the two is first is open. -/
theorem replySent_clears {q : Question} (asked : s.rp.inFlight = some q) (subject : q.subject = .counters) (clear : q.clear = true) :
    (replySent s).counter .restarts = s.counter .restarts ∧ (∀ c, c ≠ .restarts → c ≠ .sent → (replySent s).counter c = 0) ∧
      ((replySent s).counter .sent = 0 ∨ (replySent s).counter .sent = 1) := by
  have cleared : ∀ t : State, (clearCounters t).counter .restarts = t.counter .restarts ∧ ∀ c, c ≠ .restarts → (clearCounters t).counter c = 0 := by
    refine fun t => ⟨rfl, fun c other => ?_⟩
    cases c <;> first | rfl | exact absurd rfl other
  obtain ⟨subject', clear', requester⟩ := q
  cases subject
  cases clear
  have shape : replySent s = if Config.clearBeforeSent s.free then
      { count .sent (clearCounters { s with free := s.free + 1 }) with
        rp := { (count .sent (clearCounters { s with free := s.free + 1 })).rp with inFlight := none } }
      else { clearCounters (count .sent { s with free := s.free + 1 }) with
        rp := { (clearCounters (count .sent { s with free := s.free + 1 })).rp with inFlight := none } } := by
    unfold replySent
    rw [asked]
  rw [shape]
  split
  · obtain ⟨kept, zero⟩ := cleared { s with free := s.free + 1 }
    refine ⟨(count_other .sent .restarts _ (by decide)).trans kept, fun c other notSent => (count_other .sent c _ notSent).trans (zero c other), .inr ?_⟩
    exact (count_same .sent _).trans (by rw [zero _ (by decide)]; rfl)
  · obtain ⟨kept, zero⟩ := cleared (count .sent { s with free := s.free + 1 })
    exact ⟨kept.trans (count_other .sent .restarts _ (by decide)), fun c other _ => zero c other, .inl (zero _ (by decide))⟩

theorem replySent_counts {q : Question} (asked : s.rp.inFlight = some q) (keeps : q.subject ≠ .counters ∨ q.clear = false) :
    s.Counted (replySent s) .sent ∧ ∀ c, c ≠ .sent → (replySent s).counter c = s.counter c := by
  have shape : replySent s = { count .sent s with rp := { (count .sent s).rp with inFlight := none } } := by
    unfold replySent
    split
    · rename_i requester same
      cases asked.symm.trans same
      rcases keeps with other | kept
      · exact absurd rfl other
      · cases kept
    · rfl
  rw [shape]
  exact ⟨count_same .sent s, fun c other => count_other .sent c s other⟩

/-! ## Own claims -/

/-- What the completion of own changes writes, before waiting requests take the places freed (R11, R35, R37). -/
def changesCompleted (number : Byte) (numberOf : Nat → Byte) (s : State) : State :=
  setOwner s.me { s.ct[s.me] with applied := some number } { s with oc := { s.oc with
    claims := s.oc.claims.map (markSent s.oc.inFlight numberOf s.oc.unsent), awaiting := freeReleased s.oc.inFlight s.oc.awaiting
    changeNumber := number, inFlight := [] } }

theorem completeChanges_eq (number : Byte) (numberOf : Nat → Byte) (s : State) :
    completeChanges number numberOf s = placeFreed (changesCompleted number numberOf s) := rfl

theorem changesCompleted_entry (number : Byte) (numberOf : Nat → Byte) (s : State) :
    (changesCompleted number numberOf s).ct[s.me] = { s.ct[s.me] with applied := some number } := setAt_same ..

/-- A tag awaits its RELEASE no longer where that RELEASE has completed. -/
theorem freeReleased_get (t : Tag) : ∀ (carried : List Change) (v : Vector Bool 8),
    (freeReleased carried v)[t] = (v[t] && !carried.any (fun ch => ch.tag == t && ch.op == .release))
  | [], v => (Bool.and_true _).symm
  | ch :: rest, v => by
    have step : freeReleased (ch :: rest) v = freeReleased rest (match ch.op with
      | .release => setAt v ch.tag false
      | _ => v) := rfl
    rw [step, freeReleased_get t rest, List.any_cons, Bool.not_or, ← Bool.and_assoc]
    refine congrArg (· && _) ?_
    cases op : ch.op with
    | release =>
      by_cases same : ch.tag = t
      · subst same
        simp only [setAt_same, beq_self_eq_true, Bool.and_self, Bool.not_true, Bool.and_false]
      · simp [setAt_other _ _ _ _ same, same]
    | new resource cls amount => simp
    | amend cls amount => simp

/-- One number for all carried changes: a claim whose latest change was carried takes it (R37). -/
theorem markSent_const (carried unsent : List Change) (number : Byte) (c : OwnClaim) :
    markSent carried (fun _ => number) unsent c =
      if carried.any (fun ch => ch.tag == c.tag) && !unsent.any (fun ch => ch.tag == c.tag) then { c with sent := .sent number } else c := by
  unfold markSent
  cases found : carried.findIdx? (fun ch => ch.tag == c.tag) with
  | none =>
    have absent : carried.any (fun ch => ch.tag == c.tag) = false := by
      rw [List.any_eq_false]
      exact fun x hx => Bool.eq_false_iff.1 (List.findIdx?_eq_none_iff.1 found x hx)
    rw [absent, Bool.false_and, if_neg Bool.false_ne_true]
  | some i =>
    have present : carried.any (fun ch => ch.tag == c.tag) = true := by
      obtain ⟨lt, holds, -⟩ := List.findIdx?_eq_some_iff_getElem.1 found
      exact List.any_eq_true.2 ⟨_, List.getElem_mem lt, holds⟩
    rw [present, Bool.true_and]
    cases unsent.any (fun ch => ch.tag == c.tag) <;> rfl

end Sys2Proof.Machine

namespace Sys2Proof.Proofs

open Sys2Proof.Machine

/-- Settles O18: the wheel past the own opening, then the effects of the frame's kind. -/
theorem ownFrameCompletes : Obligations.OwnFrameCompletes := by
  unfold Obligations.OwnFrameCompletes
  refine ⟨fun s f up m => ?_, fun s f q up m isReply asked => ?_⟩
  · obtain ⟨now, medium, position, rounds⟩ := completionEffects_leaves f.content (s.ownFrameOver f)
    have ended := ownFrameOver_eq s f
    have counters := completionEffects_counters f.content
    refine ⟨_, ownFrameComplete_runs up m, medium.trans (ownFrameOver_medium s f), now.trans (congrArg State.now ended), fun runs inside => ?_,
      fun past => ?_, fun other => ?_, fun fields isPresence => ?_, fun join isResync => ?_, fun isHazard => ?_, fun isReply => ?_,
      fun isSetupReply => ?_⟩
    · obtain ⟨here, same⟩ := ownFrameOver_inside (f := f) runs inside
      exact ⟨position.trans here, rounds.trans same⟩
    · obtain ⟨here, next⟩ := ownFrameOver_wraps (f := f) past
      exact ⟨position.trans here, rounds.trans next⟩
    · have counted := counters other (s.ownFrameOver f)
      rw [ended] at counted ⊢
      exact counted
    · rw [isPresence]; exact ⟨rfl, rfl⟩
    · rw [isResync, ended]
      cases join with
      | true => exact ⟨(count_same .resyncsSent _).trans (by rw [count_other .sent .resyncsSent _ (by decide)]; rfl), fun _ => ⟨rfl, fun k => mapAll_get _ _ k⟩⟩
      | false => exact ⟨(count_same .resyncsSent _).trans (by rw [count_other .sent .resyncsSent _ (by decide)]; rfl), nofun⟩
    · rw [isHazard, ended]; rfl
    · rw [isReply]
      obtain ⟨slot, none, -, -⟩ := replySent_slot (s.ownFrameOver f)
      exact ⟨slot.trans (by rw [ended]), none⟩
    · rw [isSetupReply, ended]; rfl
  · have runs := ownFrameComplete_runs up m
    rw [isReply] at runs
    have ended := ownFrameOver_eq s f
    generalize s.ownFrameOver f = w at *
    have same : ∀ c, w.counter c = s.counter c := fun c => by rw [ended]; rfl
    have question : w.rp.inFlight = some q := by rw [ended]; exact asked
    obtain ⟨slot, none, -, -⟩ := replySent_slot w
    refine ⟨replySent w, runs, none, slot.trans (by rw [ended]), ?_, fun subject clear => ?_, fun keeps => ?_⟩
    · by_cases clears : q.subject = .counters ∧ q.clear = true
      · exact (replySent_clears question clears.1 clears.2).1.trans (same _)
      · exact ((replySent_counts question (by rw [← Bool.not_eq_true]; exact Classical.not_and_iff_not_or_not.1 clears)).2 _ (by decide)).trans (same _)
    · exact (replySent_clears question subject clear).2
    · obtain ⟨sent, others⟩ := replySent_counts question keeps
      exact ⟨sent.trans (by rw [same]), fun c other => (others c other).trans (same c)⟩

/-- Settles O19: the own change number, the sent states and the tags freed, before waiting requests are placed. -/
theorem ownClaimsComplete : Obligations.OwnClaimsComplete := by
  unfold Obligations.OwnClaimsComplete
  refine ⟨fun s f up m isClaim => ?_, fun s f number up m isSet => ?_⟩
  · have runs := ownFrameComplete_runs up m
    rw [isClaim, ownFrameOver_eq] at runs
    let sent := count .sent { s with now := max s.now (f.start + 36 * (f.bytes.length + 1)), lc := (s.ownFrameOver f).lc }
    have entry := changesCompleted_entry (s.oc.changeNumber + byteOf s.oc.inFlight.length) (fun i => s.oc.changeNumber + byteOf (i + 1)) sent
    exact ⟨changesCompleted (s.oc.changeNumber + byteOf s.oc.inFlight.length) (fun i => s.oc.changeNumber + byteOf (i + 1)) sent, runs, rfl, rfl,
      rfl, rfl, congrArg OwnerEntry.applied entry, (congrArg OwnerEntry.records entry :), rfl, fun t => freeReleased_get t _ _, rfl⟩
  · have runs := ownFrameComplete_runs up m
    rw [isSet, ownFrameOver_eq] at runs
    let sent := count .sent { s with now := max s.now (f.start + 36 * (f.bytes.length + 1)), lc := (s.ownFrameOver f).lc }
    let restated : State := { sent with oc := { sent.oc with
      restatementDue := false, restatedSinceStart := true, restatedSinceJoined := sent.oc.restatedSinceJoined || sent.mu.linkState == .joined } }
    have entry := changesCompleted_entry number (fun _ => number) restated
    exact ⟨changesCompleted number (fun _ => number) restated, runs, rfl, rfl, rfl, rfl, congrArg OwnerEntry.applied entry, rfl, rfl, rfl,
      List.map_congr_left fun c _ => markSent_const _ _ _ c, fun t => freeReleased_get t _ _⟩

end Sys2Proof.Proofs
end

section
/-! O20: an own frame collides, and its content goes back to the block that gave it (R35, R58, R190, R204, R214). -/

namespace Sys2Proof.Machine

variable {s : State} {content : OwnContent}

theorem takeBack_changes (carries : content = .claim ∨ ∃ n, content = .claimSet n) (s : State) : takeBack content s = returnChanges s := by
  rcases carries with rfl | ⟨n, rfl⟩ <;> rfl

/-- Content of another kind than changes leaves the claims and the table. -/
theorem takeBack_claims (notClaim : content ≠ .claim) (notSet : ∀ n, content ≠ .claimSet n) (s : State) :
    (takeBack content s).oc = s.oc ∧ (takeBack content s).ct = s.ct := by
  cases content with
  | claim => exact absurd rfl notClaim
  | claimSet n => exact absurd rfl (notSet n)
  | reply =>
    show (returnQuestion s).oc = _ ∧ (returnQuestion s).ct = _
    unfold returnQuestion
    split <;> exact ⟨rfl, rfl⟩
  | setupReply =>
    show (returnSetupReply s).oc = _ ∧ (returnSetupReply s).ct = _
    unfold returnSetupReply
    split <;> exact ⟨rfl, rfl⟩
  | presence | resync | hazard => exact ⟨rfl, rfl⟩

/-- The carried entry is no longer on the wire; without a HAZARD the queue is as it was (R190). -/
theorem takeBack_queue (content : OwnContent) (s : State) : (takeBack content s).hz =
    { s.hz with queue := if content = .hazard then (s.hz.queue.map fun e => { e with onWire := false }) else s.hz.queue } := by
  cases content with
  | hazard => rw [if_pos rfl]; rfl
  | claim => rw [if_neg nofun]; exact (returnChanges_claimed s).hz
  | claimSet n => rw [if_neg nofun]; exact (returnChanges_claimed s).hz
  | reply =>
    rw [if_neg nofun]
    show (returnQuestion s).hz = _
    unfold returnQuestion
    split <;> rfl
  | setupReply =>
    rw [if_neg nofun]
    show (returnSetupReply s).hz = _
    unfold returnSetupReply
    split <;> rfl
  | presence | resync => rw [if_neg nofun]; rfl

/-- Content of another kind than a REPLY leaves the Report Unit. -/
theorem takeBack_questions (other : content ≠ .reply) (s : State) : (takeBack content s).rp = s.rp := by
  cases content with
  | reply => exact absurd rfl other
  | claim => exact (returnChanges_claimed s).rp
  | claimSet n => exact (returnChanges_claimed s).rp
  | setupReply =>
    show (returnSetupReply s).rp = _
    unfold returnSetupReply
    split <;> rfl
  | presence | resync | hazard => rfl

/-- A question goes back to an empty slot, and is dropped with a count where a newer one stands there (R214). -/
theorem returnQuestion_cases (s : State) : (returnQuestion s).rp.inFlight = none ∧
    (s.rp.slot = none → (returnQuestion s).rp.slot = s.rp.inFlight ∧ (returnQuestion s).counter .replyOverruns = s.counter .replyOverruns) ∧
    (s.rp.slot ≠ none → (returnQuestion s).rp.slot = s.rp.slot ∧ s.Counted (returnQuestion s) .replyOverruns) := by
  unfold returnQuestion
  cases stands : s.rp.slot with
  | none => exact ⟨rfl, fun _ => ⟨rfl, rfl⟩, fun newer => absurd rfl newer⟩
  | some q => exact ⟨rfl, nofun, fun _ => ⟨stands, count_same .replyOverruns _⟩⟩

/-- Content of another kind than a setup reply leaves the Configuration Store. -/
theorem takeBack_store (other : content ≠ .setupReply) (s : State) : (takeBack content s).cs = s.cs := by
  cases content with
  | setupReply => exact absurd rfl other
  | claim => exact (returnChanges_claimed s).cs
  | claimSet n => exact (returnChanges_claimed s).cs
  | reply =>
    show (returnQuestion s).cs = _
    unfold returnQuestion
    split <;> rfl
  | presence | resync | hazard => rfl

/-- A setup reply is pending again but where a newer one is (R204). -/
theorem returnSetupReply_cases (s : State) : (returnSetupReply s).cs.replyInFlight = none ∧
    (returnSetupReply s).cs.reply = if s.cs.reply = none then s.cs.replyInFlight else s.cs.reply := by
  unfold returnSetupReply
  cases pending : s.cs.reply with
  | none => exact ⟨rfl, (if_pos rfl).symm⟩
  | some r => exact ⟨rfl, pending.trans (if_neg nofun).symm⟩

/-- The taking back of an own frame's content writes the blocks that give content, and no other. -/
theorem takeBack_writes (content : OwnContent) (s : State) : takeBack content s = { s with
    oc := (takeBack content s).oc, ct := (takeBack content s).ct, hz := { s.hz with queue := (takeBack content s).hz.queue }
    rp := (takeBack content s).rp
    cs := { s.cs with reply := (takeBack content s).cs.reply, replyInFlight := (takeBack content s).cs.replyInFlight } } := by
  have claims : ∀ t, Claimed s t → t = { s with
      oc := t.oc, ct := t.ct, hz := { s.hz with queue := t.hz.queue }, rp := t.rp
      cs := { s.cs with reply := t.cs.reply, replyInFlight := t.cs.replyInFlight } } := fun t k => by
    rw [k.hz, k.rp, k.cs]; exact k
  cases content with
  | claim => exact claims _ (returnChanges_claimed s)
  | claimSet n => exact claims _ (returnChanges_claimed s)
  | reply =>
    show returnQuestion s = _
    unfold takeBack returnQuestion
    split <;> rfl
  | setupReply =>
    show returnSetupReply s = _
    unfold takeBack returnSetupReply
    split <;> rfl
  | presence | resync | hazard => rfl

/-- The state in which the event of a collision ends. -/
def State.collided (s : State) (f : OwnFrame) : State :=
  setMedium (.reception { start := f.start, babble := false, afterOwn := true }) (takeBack f.content (count .collisions s))

theorem collision_runs {f : OwnFrame} (up : s.supply = true) (m : s.lc.medium = .own f) :
    exec .collision s = .next (endEvent .none (s.collided f)) := by
  have ends : exec .collision s = .next (collides s) := by simp only [exec, execCollision, up, m]
  have stops : stopOwnFrame (count .collisions s) = s.collided f := by
    have same : (count .collisions s).lc.medium = .own f := m
    unfold stopOwnFrame State.collided
    rw [same]
  rw [ends]
  unfold collides
  rw [stops]

end Sys2Proof.Machine

namespace Sys2Proof.Proofs

open Sys2Proof.Machine

/-- Settles O20: each kind of content is back with its block, and nothing else is written but COLLISIONS and the medium. -/
theorem collisionRule : Obligations.CollisionRule := by
  unfold Obligations.CollisionRule
  intro s f up m
  have back := takeBack_taken f.content (count .collisions s)
  have overruns : (count .collisions s).counter .replyOverruns = s.counter .replyOverruns := count_other _ _ s (by decide)
  refine ⟨s.collided f, collision_runs up m, (back.counters .collisions (by decide)).trans (count_same _ s),
    fun c notCollision notOverrun => (back.counters c notOverrun).trans (count_other _ _ s notCollision), ?_, back.number, fun carries => ⟨back.flight carries, fun idle => ?_⟩,
    fun notClaim notSet => takeBack_claims notClaim notSet _, congrArg HazardUnit.queue (takeBack_queue f.content _), fun isReply => ?_,
    fun other => ?_, fun isSetupReply => ?_, fun other => takeBack_store other _⟩
  · have writes := takeBack_writes f.content (count .collisions s)
    unfold State.collided
    generalize takeBack f.content (count .collisions s) = t at *
    rw [writes]
    rfl
  · have changes := takeBack_changes carries (count .collisions s)
    obtain ⟨table, claims, unsent⟩ := returnChanges_kept (s := count .collisions s) idle
    unfold State.collided
    rw [changes]
    refine ⟨table, claims, unsent, fun apart distinct => ?_⟩
    exact congrArg State.oc (returnChanges_apart (s := count .collisions s) idle apart distinct)
  · obtain ⟨none, empty, newer⟩ := returnQuestion_cases (count .collisions s)
    unfold State.collided
    rw [isReply]
    refine ⟨none, fun slot => ?_, fun slot => ?_⟩
    · obtain ⟨question, kept⟩ := empty slot
      exact ⟨question, kept.trans overruns⟩
    · obtain ⟨kept, counted⟩ := newer slot
      exact ⟨kept, counted.trans (by rw [overruns])⟩
  · have same := takeBack_questions other (count .collisions s)
    exact ⟨⟨(congrArg ReportUnit.slot same :), (congrArg ReportUnit.inFlight same :)⟩,
      (congrArg (fun r : ReportUnit => r.counters[counterPlace .replyOverruns]) same).trans overruns⟩
  · unfold State.collided
    rw [isSetupReply]
    exact returnSetupReply_cases (count .collisions s)

end Sys2Proof.Proofs
end

section
/-! O21: the frames the part builds are valid receptions, and read back as what they were built from (R46, R63, R64). -/

namespace Sys2Proof.Machine

/-! ## Two values in one byte, two bytes in one word -/

theorem packed_high (high low : Nat) : (packed high low).extractLsb' 4 4 = BitVec.ofNat 4 high := by
  apply BitVec.eq_of_toNat_eq
  simp only [packed, byteOf, BitVec.extractLsb'_toNat, BitVec.toNat_ofNat, Nat.shiftRight_eq_div_pow]
  omega

theorem packed_low (high low : Nat) : (packed high low).extractLsb' 0 4 = BitVec.ofNat 4 low := by
  apply BitVec.eq_of_toNat_eq
  simp only [packed, byteOf, BitVec.extractLsb'_toNat, BitVec.toNat_ofNat, Nat.shiftRight_zero]
  omega

theorem highByte_lowByte (w : Word16) : highByte w ++ lowByte w = w := by
  apply BitVec.eq_of_getLsbD_eq
  intro i hi
  unfold highByte lowByte
  rw [BitVec.getLsbD_append, BitVec.getLsbD_extractLsb', BitVec.getLsbD_extractLsb', Nat.zero_add]
  split
  · rename_i low
    rw [decide_eq_true low, Bool.true_and]
  · rename_i high
    rw [decide_eq_true (by omega), Bool.true_and]
    congr 1
    omega

/-- A group from its high byte and its low four bits. -/
theorem group_split (group : BitVec 12) : byteOf (group.toNat / 16) ++ BitVec.ofNat 4 group.toNat = group := by
  have bound := group.isLt
  apply BitVec.eq_of_toNat_eq
  rw [BitVec.toNat_append, byteOf, BitVec.toNat_ofNat, BitVec.toNat_ofNat, ← Nat.shiftLeft_add_eq_or_of_lt (Nat.mod_lt _ (by decide)),
    Nat.shiftLeft_eq]
  omega

theorem kindOfCode_kindCode (kind : FrameKind) (coded : ∀ code, kind = .undefined code → 12 ≤ code.toNat) :
    kindOfCode (BitVec.ofNat 4 (kindCode kind)) = kind := by
  cases kind with
  | undefined code =>
    have big := coded code rfl
    have small := code.isLt
    have back : BitVec.ofNat 4 (kindCode (.undefined code)) = code := by
      apply BitVec.eq_of_toNat_eq
      rw [BitVec.toNat_ofNat]
      exact Nat.mod_eq_of_lt small
    rw [back]
    unfold kindOfCode
    split <;> first | rfl | omega
  | _ => rfl

/-! ## A frame as its bytes -/

variable (sender : Nat) (kind : FrameKind) (group : BitVec 12) (payload : List Byte)

theorem frameBytes_eq : frameBytes sender kind group payload =
    packed sender (kindCode kind) :: byteOf (group.toNat / 16) :: packed group.toNat 1 :: byteOf payload.length ::
      (payload ++ [highByte (crc16 (frameBody sender kind group 1 payload)), lowByte (crc16 (frameBody sender kind group 1 payload))]) := rfl

theorem frameBytes_length : (frameBytes sender kind group payload).length = payload.length + 6 := by
  simp [frameBytes_eq]

theorem frameBody_length : (frameBody sender kind group 1 payload).length = payload.length + 4 := by
  simp [frameBody]

/-- The length field of a frame that is not too long. -/
theorem lengthByte (short : payload.length ≤ 56) : (byteOf payload.length).toNat = payload.length :=
  Nat.mod_eq_of_lt (by omega)

theorem frameBytes_check : crc16 ((frameBytes sender kind group payload).take (payload.length + 4)) =
    (frameBytes sender kind group payload).getD (payload.length + 4) 0 ++ (frameBytes sender kind group payload).getD (payload.length + 5) 0 := by
  have body := frameBody_length sender kind group payload
  have shape : frameBytes sender kind group payload = frameBody sender kind group 1 payload ++
    [highByte (crc16 (frameBody sender kind group 1 payload)), lowByte (crc16 (frameBody sender kind group 1 payload))] := rfl
  rw [shape]
  generalize frameBody sender kind group 1 payload = bytes at *
  rw [← body, List.take_left, getD_append_past _ _ _ (Nat.le_refl _), getD_append_past _ _ _ (by omega), Nat.sub_self,
    show payload.length + 5 - bytes.length = 1 by omega]
  exact (highByte_lowByte _).symm

/-- A frame of the part passes the four tests of a reception (R46). -/
theorem validReception_frameBytes (short : payload.length ≤ 56) : validReception (frameBytes sender kind group payload) = true := by
  have field : ((frameBytes sender kind group payload).getD 3 0).toNat = payload.length := lengthByte payload short
  unfold validReception
  dsimp only
  rw [field, frameBytes_length, show payload.length + 6 - 2 = payload.length + 4 by omega, show payload.length + 6 - 1 = payload.length + 5 by omega,
    frameBytes_check, beq_self_eq_true, Bool.and_true]
  simp only [Bool.and_eq_true, decide_eq_true_eq, beq_iff_eq]
  omega

/-- Read back by the same layout a frame gives what it was built from (R63). -/
theorem readFrame_frameBytes (short : payload.length ≤ 56) (coded : ∀ code, kind = .undefined code → 12 ≤ code.toNat) :
    readFrame (frameBytes sender kind group payload) = some {
      kind := kind, header := { sender := BitVec.ofNat 4 sender, group := group, version := 1 }, payload := payload } := by
  have valid := validReception_frameBytes sender kind group payload short
  have kindRead : kindOfCode (((frameBytes sender kind group payload).getD 0 0).extractLsb' 0 4) = kind :=
    (congrArg kindOfCode (packed_low sender (kindCode kind))).trans (kindOfCode_kindCode kind coded)
  have senderRead : ((frameBytes sender kind group payload).getD 0 0).extractLsb' 4 4 = BitVec.ofNat 4 sender := packed_high _ _
  have groupRead : (frameBytes sender kind group payload).getD 1 0 ++ ((frameBytes sender kind group payload).getD 2 0).extractLsb' 4 4 = group := by
    refine Eq.trans ?_ (group_split group)
    exact congrArg (byteOf (group.toNat / 16) ++ ·) (packed_high group.toNat 1)
  have versionRead : ((frameBytes sender kind group payload).getD 2 0).extractLsb' 0 4 = 1 := packed_low group.toNat 1
  have payloadRead : ((frameBytes sender kind group payload).drop 4).take (field (frameBytes sender kind group payload) 3) = payload := by
    have length : field (frameBytes sender kind group payload) 3 = payload.length := lengthByte payload short
    rw [length]
    exact List.take_left
  unfold readFrame
  dsimp only
  rw [if_pos valid, kindRead, senderRead, groupRead, versionRead, payloadRead]

/-! ## A reception as its command -/

theorem frameOf_frameCommand (straps : Straps) (f : ReceivedFrame) :
    frameOf (frameCommand straps f) = some (f.kind, f.header, f.payload) := by
  obtain ⟨kind, h, payload⟩ := f
  cases kind with
  | operator =>
    show frameOf (operatorCommand h payload) = _
    unfold operatorCommand
    split <;> rfl
  | query =>
    show frameOf (queryCommand h payload) = _
    unfold queryCommand
    split <;> rfl
  | setup =>
    show frameOf (setupCommand h payload) = _
    unfold setupCommand
    split <;> rfl
  | _ => rfl

theorem readFrame_isSome (bytes : List Byte) : (readFrame bytes).isSome = validReception bytes := by
  unfold readFrame
  dsimp only
  cases validReception bytes <;> rfl

end Sys2Proof.Machine

namespace Sys2Proof.Proofs

open Sys2Proof.Machine

/-- Settles O21: field by field through the layout of a frame. -/
theorem ownFramesAreValid : Obligations.OwnFramesAreValid := by
  unfold Obligations.OwnFramesAreValid
  refine ⟨fun sender kind group payload short => ⟨validReception_frameBytes sender kind group payload short,
    frameBytes_length sender kind group payload, readFrame_frameBytes sender kind group payload short⟩,
    fun straps bytes => ⟨fun f reads => ?_, fun fails => ?_, readFrame_isSome bytes⟩⟩
  · unfold commandOf
    rw [reads]
    exact frameOf_frameCommand straps f
  · unfold commandOf
    rw [fails]

end Sys2Proof.Proofs
end

section
/-! O22: the tests of acceptance and what a dropped frame leaves (R48, R65, R66, R68 to R74). -/

namespace Sys2Proof.Machine

variable {s u : State} {c : Instr} {kind : FrameKind} {h : Header} {payload : List Byte}

/-- A frame that is not accepted is received as any other, whatever its kind. -/
theorem exec_unaccepted (f : frameOf c = some (kind, h, payload)) (fails : s.acceptance kind h payload ≠ .accepted) :
    exec c s = .next (receiveFrame kind h payload s) := by
  by_cases query : kind = .query
  · subst query
    exact (exec_query f).trans (congrArg Host.Outcome.next (receiveQuery_alone (replyMeetsQuery_dropped fails)))
  by_cases restart : kind = .restart
  · subst restart
    have missed : ∀ straps, receiveRestart h payload straps s = receiveFrame .restart h payload s := fun straps => by
      have judged : (s.acceptance .restart h payload == .accepted) = false := beq_eq_false_iff_ne.2 fails
      unfold receiveRestart
      rw [judged, Bool.and_false, Bool.false_and, Bool.false_and, if_neg Bool.false_ne_true]
    cases c with
    | restart h' payload' straps =>
      obtain ⟨rfl, rfl⟩ : h' = h ∧ payload' = payload := by simpa [frameOf] using f
      exact congrArg Host.Outcome.next (missed straps)
    | replyReceived ofSetup h' payload' => cases ofSetup <;> simp [frameOf] at f
    | _ => simp [frameOf] at f
  · exact exec_frame f query restart

/-- What a frame dropped by acceptance leaves: one counter has risen, and the rest of the event is internal to the blocks. -/
structure Dropped (counter : Counter) (s u : State) : Prop where
  counted : s.Counted u counter
  others : s.SameCounters u [counter]
  mode : s.SameMode u
  zone : s.SameZoneSide u
  program : s.SameProgram u
  memory : s.SameHazardMemory u
  questions : s.SameQuestions u
  peers : s.SamePeers u (fun _ => False)
  owners : s.SameOwners u (fun _ => False)

theorem Dropped.ofInternal {counter : Counter} (raised : counter ≠ .incidentsRaised) (relayed : counter ≠ .relayDrops)
    (i : Internal (count counter (mediumEnds s)) u) : Dropped counter s u where
  counted := (i.counters counter raised relayed).trans (count_same counter (mediumEnds s))
  others := fun k other h1 h2 => (i.counters k h1 h2).trans (count_other counter k (mediumEnds s) (fun e => other (List.mem_singleton.2 e)))
  mode := ⟨i.cs, i.zoneMode⟩
  zone := ⟨i.supply, i.ms, i.pins, i.timers, i.debounced, i.testLevels, i.pending⟩
  program := ⟨i.phase, i.demand, i.serial, i.silencePause, i.silenceTimer, i.regulation⟩
  memory := ⟨i.memory, i.gateStop⟩
  questions := ⟨i.slot, i.question⟩
  peers := fun j _ => congrArg (fun v : Vector PeerRecord 12 => v[j]) i.peers
  owners := fun j _ => ⟨(i.entries j).1, (i.entries j).2, i.others j⟩

theorem acceptFrame_filtered (a : s.acceptance kind h payload = .filtered) : acceptFrame kind h payload s = count .filtered s := by
  unfold acceptFrame; rw [a]

theorem acceptFrame_error (a : s.acceptance kind h payload = .badFormat ∨ s.acceptance kind h payload = .badSender ∨
    s.acceptance kind h payload = .badForm) : acceptFrame kind h payload s = count .protocolErrors s := by
  unfold acceptFrame
  rcases a with a | a | a <;> rw [a]

/-- A frame that fails a test of acceptance but the first is dropped with one count (R72). -/
theorem exec_dropped (f : frameOf c = some (kind, h, payload)) (receives : s.canReceive = true) {counter : Counter}
    (fails : (counter = .filtered ∧ s.acceptance kind h payload = .filtered) ∨
      (counter = .protocolErrors ∧ (s.acceptance kind h payload = .badFormat ∨ s.acceptance kind h payload = .badSender ∨
        s.acceptance kind h payload = .badForm))) :
    ∃ u, exec c s = .next (frameEnds h.sender.toNat u) ∧ Dropped counter s u := by
  have refused : s.acceptance kind h payload ≠ .accepted := by
    rcases fails with ⟨-, a⟩ | ⟨-, a | a | a⟩ <;> rw [a] <;> exact nofun
  have counts : acceptFrame kind h payload (mediumEnds s) = count counter (mediumEnds s) := by
    rcases fails with ⟨rfl, a⟩ | ⟨rfl, a⟩
    · exact acceptFrame_filtered (s := mediumEnds s) a
    · exact acceptFrame_error (s := mediumEnds s) a
  have raised : counter ≠ .incidentsRaised := by rcases fails with ⟨rfl, -⟩ | ⟨rfl, -⟩ <;> exact nofun
  have relayed : counter ≠ .relayDrops := by rcases fails with ⟨rfl, -⟩ | ⟨rfl, -⟩ <;> exact nofun
  have received : receiveFrame kind h payload s = afterFrame h (count counter (mediumEnds s)) := by
    unfold receiveFrame
    rw [if_pos receives, counts]
  exact ⟨endEvent .none (count counter (mediumEnds s)), (exec_unaccepted f refused).trans (congrArg Host.Outcome.next received),
    .ofInternal raised relayed (endEvent_internal .none _)⟩

/-! ## The tests by the bytes of the image and of the payload -/

theorem wheelSize_eq (s : State) : s.wheelSize =
    if (s.zoneMode = .setup ∨ s.zoneMode = .haltedConfig) ∧ ¬ (2 ≤ s.image.byteAt 0 ∧ s.image.byteAt 0 ≤ 12) then 12 else s.image.byteAt 0 := by
  have mode := serviceMode_iff s
  have wide : (2 ≤ s.image.wheelSize && s.image.wheelSize ≤ 12) = true ↔ 2 ≤ s.image.byteAt 0 ∧ s.image.byteAt 0 ≤ 12 := by
    rw [Bool.and_eq_true, decide_eq_true_eq, decide_eq_true_eq]
    rfl
  unfold State.wheelSize
  by_cases service : s.serviceMode = true
  · rw [if_pos service]
    by_cases fits : 2 ≤ s.image.byteAt 0 ∧ s.image.byteAt 0 ≤ 12
    · exact (if_pos (wide.2 fits)).trans (if_neg fun both => both.2 fits).symm
    · exact (if_neg (mt wide.1 fits)).trans (if_pos ⟨mode.1 service, fits⟩).symm
  · exact (if_neg service).trans (if_neg fun both => service (mode.2 both.1)).symm

/-- The bytes of a filter, in the order in which the image holds them (R198). -/
theorem filter_agrees (m : Memory) (n : Nat) (g : BitVec 12) :
    (∀ i < 12, (m.filter n).mask.getLsbD i = true → g.getLsbD i = (m.filter n).value.getLsbD i) ↔
      ∀ i < 12, (if i < 4 then (m.read (83 + 4 * n + 3)).getLsbD (4 + i) else (m.read (83 + 4 * n + 2)).getLsbD (i - 4)) = true →
        g.getLsbD i = if i < 8 then (m.read (83 + 4 * n + 1)).getLsbD i else (m.read (83 + 4 * n + 0)).getLsbD (i - 8) := by
  refine forall_congr' fun i => forall_congr' fun hi => ?_
  obtain ⟨value, mask⟩ := filter_bits m n i hi
  rw [value, mask, show 83 + 4 * n + 3 = 86 + 4 * n by omega, show 83 + 4 * n + 2 = 85 + 4 * n by omega,
    show 83 + 4 * n + 1 = 84 + 4 * n by omega, Nat.add_zero]

/-- A PRESENCE as its bytes (R66, R74). -/
theorem readPresence_bytes (me sender : Station) (p : PresenceReport) (payload : List Byte) :
    readPresence me sender payload = some p ↔ payload.length = 24 ∧ field payload 0 = linkCode p.link ∧ (field payload 0 = 2 ∨ field payload 0 = 3) ∧
      (field payload 1 = 1 ∨ field payload 1 = 2) ∧ field payload 20 ≤ 8 ∧ field payload 21 ≤ 9 ∧ field payload 22 ≤ 6 ∧
      p.digest = payload.getD 2 0 ++ payload.getD 3 0 ∧ (∀ k : Station, p.heard[k] = (payload.getD 4 0 ++ payload.getD 5 0).getLsbD k.val) ∧
      p.ackOfMe = (if (payload.getD 6 0 ++ payload.getD 7 0).getLsbD me.val = true then none else some (payload.getD (8 + me.val) 0)) ∧
      p.ownEntry = if (payload.getD 6 0 ++ payload.getD 7 0).getLsbD sender.val = true then none else some (payload.getD (8 + sender.val) 0) := by
  rw [readPresence_iff]
  dsimp only
  rw [stationSet_ext, stationSetOf_get, stationSetOf_get]
  refine and_congr_right fun _ => and_congr_right fun code => and_congr_left fun _ => ?_
  rw [code]
  cases p.link <;> decide

end Sys2Proof.Machine

namespace Sys2Proof.Proofs

open Sys2Proof.Machine

/-- Settles O22: each test as it reads the bytes, and the one count of a frame that fails. -/
theorem acceptanceDrops : Obligations.AcceptanceDrops := by
  unfold Obligations.AcceptanceDrops
  refine ⟨fun c kind h payload s f receives counter fails => ?_, fun code h payload s receives other => ?_,
    fun kind h payload s => acceptance_cases payload s kind h, fun s g => ?_, wheelSize_eq, fun kind h s => senderPasses_iff s kind h,
    fun kind payload s => formPasses_iff payload s kind, fun payload => ⟨fun me sender p => readPresence_bytes me sender p payload,
      readResync_iff payload, readHazard_iff payload, readProgram_iff payload, readOperator_iff payload, readQuery_iff payload,
      readSetup_iff payload, readRestart_iff payload⟩, rfl, rfl⟩
  · obtain ⟨u, answers, d⟩ := exec_dropped f receives fails
    exact ⟨u, answers, d.counted, d.others, d.mode, d.zone, d.program, d.memory, d.questions, d.peers, d.owners⟩
  · have format : s.acceptance (.undefined code) h payload = .badFormat :=
      (acceptance_cases payload s (.undefined code) h).2.1 other (.inr ⟨code, rfl⟩)
    obtain ⟨u, answers, d⟩ := exec_dropped (c := .undefinedKindFrame code h payload) rfl receives (.inr ⟨rfl, .inl format⟩)
    exact ⟨u, answers, d.counted, d.others, d.mode, d.zone, d.program, d.memory, d.questions, d.peers, d.owners⟩
  · rw [groupPasses_iff]
    exact or_congr_right (or_congr_right (and_congr_right fun _ => exists_congr fun n => and_congr_right fun _ =>
      and_congr_right fun _ => filter_agrees s.image n g))

end Sys2Proof.Proofs
end

section
/-! O23 and O24: a frame from the own number, and an accepted frame that no block takes (R12, R59, R75, R76, R78, R82, R95, R96). -/

namespace Sys2Proof.Machine

variable {s : State} {c : Instr} {kind : FrameKind} {h : Header} {payload : List Byte}

/-! ## The own number -/

/-- A frame from the own number is received as a duplicate number (R59). -/
theorem exec_ownNumber (f : frameOf c = some (kind, h, payload)) (receives : s.canReceive = true) (inService : s.serviceMode = false)
    (own : h.sender = s.cs.number) : exec c s = .next (afterFrame h (duplicateNumber (mediumEnds s))) := by
  have judged : s.acceptance kind h payload = .ownNumber := (acceptance_cases payload s kind h).1 own
  have taken : acceptFrame kind h payload (mediumEnds s) = duplicateNumber (mediumEnds s) := by
    have judged' : (mediumEnds s).acceptance kind h payload = .ownNumber := judged
    unfold acceptFrame
    rw [judged']
    exact if_neg (Bool.eq_false_iff.1 inService)
  refine (exec_unaccepted f (by rw [judged]; exact nofun)).trans (congrArg Host.Outcome.next ?_)
  unfold receiveFrame
  rw [if_pos receives, taken]

theorem duplicateNumber_isolated (isolated : s.mu.linkState = .isolated) :
    duplicateNumber s = { s with mu := { s.mu with duplicateLatch := true, isolationReason := some .duplicateNumber } } := if_pos isolated

theorem duplicateNumber_isolates (joined : s.mu.linkState ≠ .isolated) (onLink : s.mu.linkState ≠ .offline) :
    duplicateNumber s = isolate .duplicateNumber { s with mu := { s.mu with duplicateLatch := true } } :=
  (if_neg joined).trans (if_neg onLink)

/-! ## Frames that no block takes -/

/-- A frame that is not a QUERY or RESTART for this station is received as any other. -/
theorem exec_received (f : frameOf c = some (kind, h, payload)) (query : kind = .query → s.takesQuery h payload = false)
    (restart : kind = .restart → (s.canReceive && s.acceptance .restart h payload == .accepted && !s.senderForeign h &&
      (readRestart payload).any (fun k => k.val == s.cs.number.toNat)) = false) :
    exec c s = .next (receiveFrame kind h payload s) := by
  by_cases isQuery : kind = .query
  · subst isQuery
    refine (exec_query f).trans (congrArg Host.Outcome.next (receiveQuery_alone ?_))
    unfold State.replyMeetsQuery
    rw [query rfl]
    rfl
  by_cases isRestart : kind = .restart
  · subst isRestart
    have missed : ∀ straps, receiveRestart h payload straps s = receiveFrame .restart h payload s :=
      fun straps => if_neg (Bool.eq_false_iff.1 (restart rfl))
    cases c with
    | restart h' payload' straps =>
      obtain ⟨rfl, rfl⟩ : h' = h ∧ payload' = payload := by simpa [frameOf] using f
      exact congrArg Host.Outcome.next (missed straps)
    | replyReceived ofSetup h' payload' => cases ofSetup <;> simp [frameOf] at f
    | _ => simp [frameOf] at f
  · exact exec_frame f isQuery isRestart

theorem takesQuery_foreign (foreign : s.senderForeign h = true) : s.takesQuery h payload = false := by
  unfold State.takesQuery
  rw [foreign, Bool.not_true, Bool.and_false, Bool.false_and]

/-- A QUERY for another station is not taken. -/
theorem takesQuery_other {target : Station} {subject : Subject} {clear : Bool} (reads : readQuery payload = some (target, subject, clear))
    (other : target.val ≠ s.cs.number.toNat) : s.takesQuery h payload = false := by
  unfold State.takesQuery
  rw [reads, Option.any_some, beq_eq_false_iff_ne.2 other, Bool.and_false]

theorem receiveFrame_accepted (receives : s.canReceive = true) (accepted : s.acceptance kind h payload = .accepted) :
    receiveFrame kind h payload s = afterFrame h (deliver kind h payload s.asTaken) := by
  have judged : (mediumEnds s).acceptance kind h payload = .accepted := accepted
  unfold receiveFrame acceptFrame
  rw [if_pos receives, judged]
  rfl

/-- In service an accepted frame that no block takes makes its arrival record alone (R75, R76). -/
theorem deliver_turnedAway (runs : s.runMode = true)
    (away : (kind ≠ .presence ∧ s.senderForeign h = true) ∨ deliverRun kind h payload s.asTaken = s.asTaken) :
    deliver kind h payload s.asTaken = arrived h s.asTaken := by
  have inRun : deliver kind h payload s.asTaken =
      arrived h (if s.senderForeign h && kind != .presence then s.asTaken else deliverRun kind h payload s.asTaken) :=
    if_pos (show s.asTaken.runMode = true from runs)
  rw [inRun]
  rcases away with ⟨notPresence, foreign⟩ | same
  · rw [foreign, Bool.true_and, if_pos (bne_iff_ne.2 notPresence)]
  · rw [same, ite_self]

/-- In the service modes one that no block takes leaves nothing more. -/
theorem deliver_serviceAway (service : s.serviceMode = true) (away : deliverService kind h payload s.asTaken = s.asTaken) :
    deliver kind h payload s.asTaken = s.asTaken := by
  have inService : deliver kind h payload s.asTaken = deliverService kind h payload s.asTaken :=
    (if_neg (Bool.eq_false_iff.1 (serviceMode_not_run service))).trans (if_pos service)
  rw [inService, away]

/-- The arrival record of a frame from no station of the wheel. -/
theorem arrived_none (outside : headerStation h = none) (s : State) : arrived h s = s := by
  unfold arrived
  rw [outside]

/-- The arrival record of a station, and the end of an isolation that is not latched (R82, R95). -/
theorem arrived_mu {k : Station} (from_k : headerStation h = some k) (s : State) : (arrived h s).mu = { s.mu with
    peers := setAt s.mu.peers k { s.mu.peers[k] with lastAccepted := some s.now }
    linkState := if s.mu.linkState = .isolated ∧ s.mu.duplicateLatch = false then .listening else s.mu.linkState
    listenStart := if s.mu.linkState = .isolated ∧ s.mu.duplicateLatch = false then some s.now else s.mu.listenStart } := by
  unfold arrived arrivalRecord
  rw [from_k]
  dsimp only
  split <;> rfl

/-- A link state other than JOINING is as it was at the end of the event. -/
theorem Internal.linkState_of_notJoining {t : State} (i : Internal s t) (l : s.mu.linkState ≠ .joining) : t.mu.linkState = s.mu.linkState :=
  i.link.resolve_right fun moved => l ((joinEnds_iff s).1 moved.1).1

/-- A frame of these kinds for another station than this. -/
def State.forAnother (s : State) (kind : FrameKind) (payload : List Byte) : Prop :=
  (∃ target, readResync payload = some target ∧ kind = .resync ∧ target ≠ s.me.val ∧ target ≠ 15) ∨
    (∃ target command, readOperator payload = some (target, command) ∧ kind = .operator ∧ target ≠ s.me) ∨
    (∃ target subject clear, readQuery payload = some (target, subject, clear) ∧ kind = .query ∧ target.val ≠ s.cs.number.toNat) ∨
    (∃ target, readRestart payload = some target ∧ kind = .restart ∧ target.val ≠ s.cs.number.toNat)

/-- A frame for another station is neither a QUERY nor a RESTART for this one. -/
theorem forAnother_received (f : frameOf c = some (kind, h, payload)) (other : s.forAnother kind payload) :
    exec c s = .next (receiveFrame kind h payload s) := by
  rcases other with ⟨target, -, rfl, -⟩ | ⟨target, command, -, rfl, -⟩ | ⟨target, subject, clear, reads, rfl, away⟩ | ⟨target, reads, rfl, away⟩
  · exact exec_received f nofun nofun
  · exact exec_received f nofun nofun
  · exact exec_received f (fun _ => takesQuery_other reads away) nofun
  · refine exec_received f nofun fun _ => ?_
    rw [reads, Option.any_some, beq_eq_false_iff_ne.2 away, Bool.and_false]

/-- A number on the wheel's twelve is the own station. -/
theorem me_val (small : s.cs.number.toNat < 12) : s.me.val = s.cs.number.toNat := Nat.mod_eq_of_lt small

theorem deliverRun_forAnother (small : s.cs.number.toNat < 12) (other : s.forAnother kind payload) :
    deliverRun kind h payload s.asTaken = s.asTaken := by
  rcases other with ⟨target, reads, rfl, away, notAll⟩ | ⟨target, command, reads, rfl, away⟩ | ⟨target, subject, clear, reads, rfl, away⟩ |
    ⟨target, reads, rfl, away⟩
  · unfold deliverRun
    rw [reads]
    exact if_neg (not_or.2 ⟨away, notAll⟩)
  · unfold deliverRun
    rw [reads]
    exact if_neg away
  · unfold deliverRun
    rw [reads]
    refine if_neg fun mine => away ?_
    rw [← me_val small, mine]
    rfl
  · rfl

theorem deliverService_forAnother (other : s.forAnother kind payload) : deliverService kind h payload s.asTaken = s.asTaken := by
  rcases other with ⟨target, reads, rfl, -⟩ | ⟨target, command, reads, rfl, -⟩ | ⟨target, subject, clear, reads, rfl, away⟩ | ⟨target, reads, rfl, -⟩
  · rfl
  · rfl
  · unfold deliverService
    rw [reads]
    exact if_neg away
  · rfl

/-- While ISOLATED the table takes no claim frame (R12). -/
theorem deliverRun_isolatedClaims (isolated : s.mu.linkState = .isolated) (claims : kind = .claim ∨ kind = .claimSet) :
    deliverRun kind h payload s.asTaken = s.asTaken := by
  have closed : ∀ k, s.asTaken.tableTakes k = false := fun k => by
    rw [← Bool.not_eq_true, tableTakes_iff]
    rintro ⟨link, -⟩
    rw [asTaken_mu, isolated] at link
    simp at link
  cases from_k : headerStation h with
  | none => rcases claims with rfl | rfl <;> simp only [deliverRun, from_k]
  | some k =>
    have stays : ∀ w : State, (if s.asTaken.tableTakes k then w else s.asTaken) = s.asTaken := fun _ => if_neg (Bool.eq_false_iff.1 (closed k))
    rcases claims with rfl | rfl
    · simp only [deliverRun, from_k]
      exact stays _
    · simp only [deliverRun, from_k]
      exact stays _

end Sys2Proof.Machine

namespace Sys2Proof.Proofs

open Sys2Proof.Machine

/-- Settles O23: the own number in a header isolates, or writes the reason where the part is isolated. -/
theorem duplicateNumberIsolates : Obligations.DuplicateNumberIsolates := by
  unfold Obligations.DuplicateNumberIsolates
  intro c kind h payload s f receives inService own onLink
  have answers := exec_ownNumber f receives inService own
  by_cases isolated : s.mu.linkState = .isolated
  · rw [duplicateNumber_isolated (s := mediumEnds s) isolated] at answers
    exact ⟨_, answers, rfl, rfl, fun notIsolated => absurd isolated notIsolated, fun _ => ⟨rfl, rfl, rfl, rfl⟩, rfl, rfl⟩
  · rw [duplicateNumber_isolates (s := mediumEnds s) isolated onLink] at answers
    have i := isolate_isolates .duplicateNumber { mediumEnds s with mu := { (mediumEnds s).mu with duplicateLatch := true } }
    have latch := isolate_latch .duplicateNumber { mediumEnds s with mu := { (mediumEnds s).mu with duplicateLatch := true } }
    have counter := isolate_counter .duplicateNumber { mediumEnds s with mu := { (mediumEnds s).mu with duplicateLatch := true } }
    exact ⟨_, answers, latch, i.link.2, fun _ => ⟨i.link, i.peers, i.timers, i.table, i.ownClaims, i.sequence, i.suspended, i.detectors,
      i.silent, i.kept⟩, fun is => absurd is isolated, counter .accepted (by decide), counter .protocolErrors (by decide)⟩

/-- Settles O24: delivery turns the frame away, and its arrival record is made. -/
theorem replyMakesArrivalRecord : Obligations.ReplyMakesArrivalRecord := by
  unfold Obligations.ReplyMakesArrivalRecord
  refine ⟨fun ofSetup h payload s k delivered from_k => ?_, fun c kind h payload s f receives accepted => ⟨fun runs small away => ?_, fun service away => ?_⟩⟩
  · have i := endEvent_internal .none (arrived h s.asTaken)
    obtain ⟨alone, counted, -⟩ := (asTaken_leftAlone s).ends i
    have answers : exec (.replyReceived ofSetup h payload) s = .next (frameEnds h.sender.toNat (endEvent .none (arrived h s.asTaken))) := by
      have received := receiveFrame_delivers delivered
      have nothing : deliverRun (if ofSetup then FrameKind.setupReply else .reply) h payload s.asTaken = s.asTaken := by cases ofSetup <;> rfl
      rw [nothing] at received
      exact congrArg Host.Outcome.next received
    have record := arrived_mu from_k s.asTaken
    have link := i.linkState_of_notJoining
    rw [record] at link
    refine ⟨_, answers, counted, fun c other h1 h2 => ?_, ?_, ends_samePeers i k from_k (fun _ _ => rfl), fun isolated free => ?_, fun isolated latched => ?_,
      alone.mode, alone.zone, alone.program, ends_sameHazardMemory i rfl, alone.questions, ends_sameOwners i rfl rfl _⟩
    · exact (ends_counter i c h1 h2).trans (asTaken_counter s c fun e => other (List.mem_singleton.2 e))
    · rw [ends_peers i k from_k, setAt_same]; rfl
    · have ends : s.asTaken.mu.linkState = .isolated ∧ s.asTaken.mu.duplicateLatch = false := ⟨isolated, free⟩
      refine ⟨(link (by rw [if_pos ends]; exact nofun)).trans (if_pos ends), i.listenStart.trans ?_⟩
      rw [record]
      exact if_pos ends
    · have stays : ¬ (s.asTaken.mu.linkState = .isolated ∧ s.asTaken.mu.duplicateLatch = false) :=
        fun both => Bool.false_ne_true (both.2.symm.trans latched)
      refine (link ?_).trans ((if_neg stays).trans isolated)
      dsimp only
      rw [if_neg stays, asTaken_mu, isolated]
      exact nofun
  · have received : exec c s = .next (receiveFrame kind h payload s) := by
      rcases away with ⟨-, foreign⟩ | rfl | other | ⟨rfl | rfl, -⟩
      · exact exec_received f (fun _ => takesQuery_foreign foreign) fun _ => by rw [foreign, Bool.not_true, Bool.and_false, Bool.false_and]
      · exact exec_received f nofun nofun
      · exact forAnother_received f other
      · exact exec_received f nofun nofun
      · exact exec_received f nofun nofun
    have nothing : (kind ≠ .presence ∧ s.senderForeign h = true) ∨ deliverRun kind h payload s.asTaken = s.asTaken := by
      rcases away with foreign | rfl | other | ⟨claims, isolated⟩
      · exact .inl foreign
      · exact .inr rfl
      · exact .inr (deliverRun_forAnother small other)
      · exact .inr (deliverRun_isolatedClaims isolated claims)
    rw [received, receiveFrame_accepted receives accepted, deliver_turnedAway runs nothing]
    refine ⟨arrived h s.asTaken, rfl, arrived_eq h s.asTaken, fun outside => ?_, fun k from_k => arrived_mu from_k s.asTaken⟩
    rw [arrived_none outside]
    rfl
  · have received : exec c s = .next (receiveFrame kind h payload s) := by
      rcases away with ⟨query, -, restart⟩ | other | ⟨target, command, -, rfl, -⟩
      · exact exec_received f (fun e => absurd e query) (fun e => absurd e restart)
      · exact forAnother_received f other
      · exact exec_received f nofun nofun
    have nothing : deliverService kind h payload s.asTaken = s.asTaken := by
      rcases away with ⟨query, setup, -⟩ | other | ⟨target, command, reads, rfl, away⟩
      · cases kind with
        | query => exact absurd rfl query
        | setup => exact absurd rfl setup
        | _ => rfl
      · exact deliverService_forAnother other
      · unfold deliverService
        rw [reads]
        exact if_neg away
    rw [received, receiveFrame_accepted receives accepted, deliver_serviceAway service nothing]

end Sys2Proof.Proofs
end

section
/-! O25 and O26: a PRESENCE at the Membership Unit, with the own digest and with another (R66, R80 to R82, R90, R21, R23, R95). -/

namespace Sys2Proof.Machine

variable {s v : State} {kind : FrameKind} {h : Header} {payload : List Byte} {k : Station}

/-- A delivered frame at the end of its event, by what the block that owns its kind leaves. -/
theorem receiveFrame_ends (d : s.Delivers kind h payload) (block : deliverRun kind h payload s.asTaken = v) :
    receiveFrame kind h payload s = frameEnds h.sender.toNat (endEvent .none (arrived h v)) := by
  rw [receiveFrame_delivers d, block, afterFrame_eq]

/-- A PRESENCE reaches the Peer Table in LISTENING, JOINING and JOINED. -/
theorem deliverRun_presence {p : PresenceReport} (from_k : headerStation h = some k) (reads : readPresence s.me k payload = some p)
    (part : s.mu.linkState = .listening ∨ s.takesPart = true) :
    deliverRun .presence h payload s.asTaken =
      if p.digest = s.image.digest then takeMatching k p s.asTaken else takeDiffering k p s.asTaken := by
  have block : deliverRun .presence h payload s.asTaken = takePresence k p s.asTaken := by
    have reads' : readPresence s.asTaken.me k payload = some p := reads
    simp only [deliverRun, from_k, reads']
  rw [block]
  exact if_pos part

/-- While ISOLATED no PRESENCE reaches it. -/
theorem deliverRun_presence_isolated (isolated : s.mu.linkState = .isolated) :
    deliverRun .presence h payload s.asTaken = s.asTaken := by
  have closed : ¬ (s.asTaken.mu.linkState = .listening ∨ s.asTaken.takesPart = true) := by
    simp only [takesPart_iff, asTaken_mu, isolated]
    simp
  cases from_k : headerStation h with
  | none => simp only [deliverRun, from_k]
  | some k => cases reads : readPresence s.asTaken.me k payload with
    | none => simp only [deliverRun, from_k, reads]
    | some p =>
      simp only [deliverRun, from_k, reads]
      exact if_neg closed

/-- A block that leaves all but the Membership Unit and the Claim Table leaves alone what a frame leaves alone. -/
theorem leftAlone_of_writes (e : v = { s.asTaken with mu := v.mu, ct := v.ct }) : LeftAlone s v := by
  rw [e]
  exact ⟨rfl, ⟨rfl, rfl, rfl, rfl, rfl, rfl, rfl⟩, ⟨rfl, rfl⟩, ⟨rfl, rfl, rfl, rfl, rfl, rfl⟩, ⟨rfl, rfl⟩, fun _ _ _ _ => rfl⟩

/-- The counters of an event whose block counted no protocol error. -/
theorem sameCounters_of_protocolErrors {u : State} (same : s.SameCounters u [.accepted, .protocolErrors])
    (errors : u.counter .protocolErrors = s.counter .protocolErrors) : s.SameCounters u [.accepted] := by
  intro c other raised drops
  by_cases e : c = .protocolErrors
  · exact e ▸ errors
  · refine same c ?_ raised drops
    simp only [List.mem_cons, List.not_mem_nil, or_false, not_or] at other ⊢
    exact ⟨other, e⟩

/-- Outside JOINING the rest of an event leaves the Membership Unit, the interval of R93 aside. -/
theorem Internal.mu_of_notJoining {u : State} (i : Internal s u) (l : s.mu.linkState ≠ .joining) :
    u.mu = { s.mu with notHeardBySince := u.mu.notHeardBySince } := by
  have peers := i.peers; have link := i.linkState_of_notJoining l; have reason := i.isolationReason; have latch := i.duplicateLatch
  have listen := i.listenStart; have done := i.joinRequestDone
  have armed : u.mu.armedAt = s.mu.armedAt := congrArg (fun x => x.2.2.2.2.1.2.2.2.2.1) i.kept_eq
  generalize u.mu = after at *
  generalize s.mu = before at *
  cases after
  cases before
  simp only at peers link reason latch listen done armed
  subst peers link reason latch listen done armed
  rfl

/-- The arrival record of a frame while ISOLATED: only the latch keeps the isolation (R82, R95). -/
theorem arrived_isolated (from_k : headerStation h = some k) (isolated : s.mu.linkState = .isolated) : (arrived h s).mu = { s.mu with
    peers := setAt s.mu.peers k { s.mu.peers[k] with lastAccepted := some s.now }
    linkState := if s.mu.duplicateLatch = true then .isolated else .listening
    listenStart := if s.mu.duplicateLatch = true then s.mu.listenStart else some s.now } := by
  rw [arrived_mu from_k]
  cases latched : s.mu.duplicateLatch <;> simp [isolated]

/-! ## A PRESENCE with another digest (R81, R23) -/

theorem takeDiffering_foreign {p : PresenceReport} (foreign : s.mu.peers[k].state = .foreign) :
    takeDiffering k p s = setPeer k { s.mu.peers[k] with digest := some p.digest, lastPresence := some s.now } s := if_pos foreign

/-- The peer's record as R81 writes it where the peer becomes FOREIGN. -/
def State.foreignRecord (s : State) (k : Station) (p : PresenceReport) : PeerRecord :=
  { s.mu.peers[k] with
    state := .foreign, reportedLink := none, digest := some p.digest, heardSet := none, ackOfMe := none
    lastPresence := some s.now, restated := false }

/-- Where a peer becomes FOREIGN: its record and the error, its entry of the Claim Table emptied, the others as they were. -/
structure MadeForeign (k : Station) (p : PresenceReport) (s v : State) : Prop where
  alone : LeftAlone s v
  errors : s.Counted v .protocolErrors
  hz : v.hz = s.hz
  me : v.me = s.me
  peers : v.mu.peers = setAt s.mu.peers k (s.foreignRecord k p)
  emptied : v.ct[k].applied = none ∧ v.ct[k].stale = false ∧ (k ≠ s.me → v.ct[k].records = [])
  others : s.SameOwners v (· = k)

theorem takeDiffering_makesForeign {p : PresenceReport} (foreign : s.mu.peers[k].state ≠ .foreign) :
    MadeForeign k p s (takeDiffering k p s.asTaken) := by
  have taken : takeDiffering k p s.asTaken =
      recomputeMarks (removeOwner k (count .protocolErrors (setPeer k (s.foreignRecord k p) s.asTaken))) := if_neg foreign
  rw [taken]
  have table : (removeOwner k (count .protocolErrors (setPeer k (s.foreignRecord k p) s.asTaken))).ct = setAt s.ct k OwnerEntry.empty := rfl
  have i := recomputeMarks_internal (removeOwner k (count .protocolErrors (setPeer k (s.foreignRecord k p) s.asTaken)))
  have entries := i.entries
  have records := i.others
  rw [table] at entries records
  have counted : s.Counted (count .protocolErrors s.asTaken) .protocolErrors := by
    have risen := count_same .protocolErrors s.asTaken
    rw [asTaken_counter s .protocolErrors (by decide)] at risen
    exact risen
  refine ⟨⟨rfl, ⟨rfl, rfl, rfl, rfl, rfl, rfl, rfl⟩, ⟨rfl, rfl⟩, ⟨rfl, rfl, rfl, rfl, rfl, rfl⟩, ⟨rfl, rfl⟩,
    fun c other _ _ => count_other .protocolErrors c s.asTaken other⟩, counted, rfl, rfl, rfl, ?_, fun j other => ?_⟩
  · have entry := entries k
    have none := records k
    rw [setAt_same] at entry none
    exact ⟨entry.1, entry.2, fun notMe => List.map_eq_nil_iff.1 (none notMe)⟩
  · have entry := entries j
    have same := records j
    rw [setAt_other _ _ _ _ (Ne.symm other)] at entry same
    exact ⟨entry.1, entry.2, same⟩

end Sys2Proof.Machine

namespace Sys2Proof.Proofs

open Sys2Proof.Machine

/-- Settles O25: what `takeMatching` writes, read again after the arrival record and the end of the event. -/
theorem presenceMatching : Obligations.PresenceMatching := by
  unfold Obligations.PresenceMatching
  refine ⟨fun h payload s k p delivered from_k reads part digest => ?_, fun h payload s k delivered from_k isolated => ?_, fun s k => lagging_iff s k⟩
  · obtain ⟨writes, peers, armed, table⟩ := takeMatching_writes k p s.asTaken
    have block := (deliverRun_presence (s := s) from_k reads part).trans (if_pos digest)
    generalize takeMatching k p s.asTaken = v at *
    have i := endEvent_internal .none (arrived h v)
    obtain ⟨alone, counted, same⟩ := (leftAlone_of_writes writes).ends i
    have me : v.me = s.me := by rw [writes]; rfl
    have hz : v.hz = s.hz := by rw [writes]; rfl
    have now : v.now = s.now := by rw [writes]; rfl
    have errors : v.counter .protocolErrors = s.counter .protocolErrors := by
      rw [writes]; exact asTaken_counter s .protocolErrors (by decide)
    obtain ⟨applied, stale, records⟩ := ends_owners i k
    rw [table, setAt_same] at applied stale records
    refine ⟨_, congrArg Host.Outcome.next (receiveFrame_ends delivered block), ?_, ?_, (ends_armedAt i).trans armed, applied, stale, ?_, ?_, counted,
      sameCounters_of_protocolErrors same ((ends_counter i .protocolErrors (by decide) (by decide)).trans errors), alone.mode, alone.zone,
      alone.program, ends_sameHazardMemory i hz, alone.questions⟩
    · rw [ends_peers i k from_k, setAt_same, peers, setAt_same, now]; rfl
    · exact ends_samePeers i k from_k fun j other => by rw [peers, setAt_other _ _ _ _ (Ne.symm other)]; rfl
    · exact fun notMe => records (by rw [me]; exact notMe)
    · intro j other
      have entry := ends_owners i j
      rw [table, setAt_other _ _ _ _ (Ne.symm other), me] at entry
      exact entry
  · have i := endEvent_internal .none (arrived h s.asTaken)
    obtain ⟨alone, counted, same⟩ := (asTaken_leftAlone s).ends i
    have errors : s.asTaken.counter .protocolErrors = s.counter .protocolErrors := asTaken_counter s .protocolErrors (by decide)
    refine ⟨_, congrArg Host.Outcome.next (receiveFrame_ends delivered (deliverRun_presence_isolated isolated)), ?_,
      ends_sameOwners i rfl rfl _, counted,
      sameCounters_of_protocolErrors same ((ends_counter i .protocolErrors (by decide) (by decide)).trans errors), alone.mode, alone.zone,
      alone.program, ends_sameHazardMemory i rfl, alone.questions⟩
    have record := arrived_isolated (s := s.asTaken) from_k isolated
    have notJoining : (arrived h s.asTaken).mu.linkState ≠ .joining := by
      rw [record]
      dsimp only
      split <;> exact nofun
    refine (i.mu_of_notJoining notJoining).trans ?_
    rw [record]
    rfl

/-- Settles O26: the sender becomes FOREIGN and its entry of the table is emptied, where it was not FOREIGN yet. -/
theorem presenceDiffering : Obligations.PresenceDiffering := by
  unfold Obligations.PresenceDiffering
  intro h payload s k p delivered from_k reads part digest
  have block := (deliverRun_presence (s := s) from_k reads part).trans (if_neg digest)
  by_cases foreign : s.mu.peers[k].state = .foreign
  · rw [takeDiffering_foreign (s := s.asTaken) foreign] at block
    generalize stored : setPeer k _ s.asTaken = v at block
    have peers : v.mu.peers = setAt s.mu.peers k { s.mu.peers[k] with digest := some p.digest, lastPresence := some s.now } := by
      rw [← stored]; rfl
    have writes : v = { s.asTaken with mu := v.mu, ct := v.ct } := by rw [← stored]; rfl
    have i := endEvent_internal .none (arrived h v)
    obtain ⟨alone, counted, same⟩ := (leftAlone_of_writes writes).ends i
    have errors : v.counter .protocolErrors = s.counter .protocolErrors := by
      rw [writes]; exact asTaken_counter s .protocolErrors (by decide)
    have table : v.ct = s.ct := by rw [← stored]; rfl
    have me : v.me = s.me := by rw [writes]; rfl
    have now : v.now = s.now := by rw [writes]; rfl
    refine ⟨_, congrArg Host.Outcome.next (receiveFrame_ends delivered block), fun other => absurd foreign other,
      fun _ => ⟨(ends_counter i .protocolErrors (by decide) (by decide)).trans errors, ?_, ends_sameOwners i table me _⟩,
      ends_samePeers i k from_k fun j other => by rw [peers, setAt_other _ _ _ _ (Ne.symm other)], ends_sameOwners i table me _, counted, same,
      alone.mode, alone.zone, alone.program, ends_sameHazardMemory i (by rw [writes]; rfl), alone.questions⟩
    rw [ends_peers i k from_k, setAt_same, peers, setAt_same, now]
  · have made := takeDiffering_makesForeign (p := p) foreign
    generalize takeDiffering k p s.asTaken = v at *
    have i := endEvent_internal .none (arrived h v)
    obtain ⟨alone, counted, same⟩ := made.alone.ends i
    obtain ⟨applied, stale, records⟩ := ends_owners i k
    obtain ⟨noneApplied, notStale, noRecords⟩ := made.emptied
    have errors := ends_counter i .protocolErrors (by decide) (by decide)
    refine ⟨_, congrArg Host.Outcome.next (receiveFrame_ends delivered block), fun _ => ⟨errors.trans made.errors, ?_, applied.trans noneApplied,
      stale.trans notStale, fun notMe => ?_⟩, fun is => absurd is foreign,
      ends_samePeers i k from_k fun j other => by rw [made.peers, setAt_other _ _ _ _ (Ne.symm other)], fun j other => ?_, counted, same,
      alone.mode, alone.zone, alone.program, ends_sameHazardMemory i made.hz, alone.questions⟩
    · rw [ends_peers i k from_k, setAt_same, made.peers, setAt_same, made.alone.now]; rfl
    · have removed := records (by rw [made.me]; exact notMe)
      rw [noRecords notMe] at removed
      exact List.map_eq_nil_iff.1 removed
    · have entry := ends_owners i j
      have before := made.others j other
      rw [made.me] at entry
      exact ⟨entry.1.trans before.1, entry.2.1.trans before.2.1, fun notMe => (entry.2.2 notMe).trans (before.2.2 notMe)⟩

end Sys2Proof.Proofs
end

section
/-! O27, O28 and O29: a CLAIM and a CLAIM_SET at the Claim Table (R10, R12 to R20, R67, R86, R194). -/

namespace Sys2Proof.Machine

variable {s : State} {h : Header} {payload items : List Byte} {k : Station} {first a : Byte}

/-! ## A CLAIM -/

theorem deliverRun_claim (from_k : headerStation h = some k) (takes : s.tableTakes k = true) :
    deliverRun .claim h payload s.asTaken = takeClaim k payload s.asTaken := by
  have block : deliverRun .claim h payload s.asTaken = deliverClaim k payload s.asTaken := by simp only [deliverRun, from_k]
  rw [block]
  exact if_pos takes

/-- The items of a CLAIM that has the form of R67: one to four whole changes. -/
def WholeChanges (items : List Byte) : Prop := items.length % 3 = 0 ∧ 1 ≤ (rawChanges items).length ∧ (rawChanges items).length ≤ 4

theorem not_wholeChanges_iff : (items.length % 3 ≠ 0 || (rawChanges items).length = 0 || Config.maxChanges < (rawChanges items).length) = true ↔
    ¬ WholeChanges items := by
  have four : Config.maxChanges = 4 := rfl
  unfold WholeChanges
  rw [Bool.or_eq_true, Bool.or_eq_true, decide_eq_true_eq, decide_eq_true_eq, decide_eq_true_eq, four]
  omega

/-- As many changes as whole items. -/
theorem rawChanges_length_of_whole (whole : items.length % 3 = 0) : 3 * (rawChanges items).length = items.length := by
  rw [rawChanges_length (items.length / 3) items (by omega)]
  omega

theorem not_wholeChanges (malformed : (first :: items).length % 3 ≠ 1 ∨ (first :: items).length < 4 ∨ 13 < (first :: items).length) :
    ¬ WholeChanges items := by
  rintro ⟨whole, one, four⟩
  have count := rawChanges_length_of_whole whole
  rw [List.length_cons] at malformed
  omega

theorem takeClaim_malformed (malformed : payload.length % 3 ≠ 1 ∨ payload.length < 4 ∨ 13 < payload.length) (s : State) :
    takeClaim k payload s = claimRefused k s := by
  cases payload with
  | nil => rfl
  | cons first items =>
    exact if_pos (not_wholeChanges_iff.2 (not_wholeChanges malformed))

/-- A CLAIM of whole changes from an owner with Applied, not stale: in sequence, a gap, a duplicate or an overlap (R13). -/
theorem takeClaim_numbered (whole : WholeChanges items) (applied : s.ct[k].applied = some a) (current : s.ct[k].stale = false) :
    takeClaim k (first :: items) s =
      if first = a + 1 then applySelected k (rawChanges items) (first + byteOf ((rawChanges items).length - 1)) s
      else if after first (a + 1) then markStale k s
      else if atOrAfter a (first + byteOf ((rawChanges items).length - 1)) then s
      else applySelected k ((rawChanges items).drop (a + 1 - first).toNat) (first + byteOf ((rawChanges items).length - 1)) s := by
  unfold takeClaim
  dsimp only
  rw [if_neg fun fails => not_wholeChanges_iff.1 fails whole, applied, current]

theorem takeClaim_unnumbered (whole : WholeChanges items) (unnumbered : s.ct[k].applied = none ∨ s.ct[k].stale = true) :
    takeClaim k (first :: items) s = markStale k s := by
  unfold takeClaim
  dsimp only
  rw [if_neg fun fails => not_wholeChanges_iff.1 fails whole]
  rcases unnumbered with none | stale
  · rw [none]
  · rw [stale]
    cases s.ct[k].applied <;> rfl

/-- A CLAIM in sequence or overlapping: the changes after Applied are selected (R13, R15). -/
theorem takeClaim_selects (whole : WholeChanges items) (applied : s.ct[k].applied = some a) (current : s.ct[k].stale = false)
    (next : first = a + 1 ∨ (after first (a + 1) = false ∧ atOrAfter a (first + byteOf ((rawChanges items).length - 1)) = false)) :
    takeClaim k (first :: items) s =
      applySelected k ((rawChanges items).drop (a + 1 - first).toNat) (first + byteOf ((rawChanges items).length - 1)) s := by
  rw [takeClaim_numbered whole applied current]
  by_cases sequence : first = a + 1
  · rw [if_pos sequence, sequence, BitVec.sub_self]
    rfl
  · obtain ⟨noGap, noDuplicate⟩ := next.resolve_left sequence
    rw [if_neg sequence, noGap, noDuplicate, if_neg Bool.false_ne_true, if_neg Bool.false_ne_true]

/-- Whatever a CLAIM carries, the table keeps what a claim frame keeps. -/
theorem takeClaim_stored (takes : s.tableTakes k = true) (payload : List Byte) :
    ∃ applied stale records err, ClaimStored k s (takeClaim k payload s.asTaken) applied stale records err := by
  have marked := markStale_claimStored s k
  have refused := claimRefused_claimStored s k
  have selected : ∀ sel last, ∃ applied stale records err, ClaimStored k s (applySelected k sel last s.asTaken) applied stale records err := by
    intro sel last
    obtain ⟨passes, fails⟩ := applySelected_claimStored takes sel last
    cases outcome : applyRaw sel s.ct[k].records with
    | none => exact ⟨_, _, _, _, fails outcome⟩
    | some records => exact ⟨_, _, _, _, passes records outcome⟩
  unfold takeClaim
  split
  · exact ⟨_, _, _, _, refused⟩
  · dsimp only
    split
    · exact ⟨_, _, _, _, refused⟩
    · split
      · split
        · exact selected _ _
        · split
          · exact ⟨_, _, _, _, marked⟩
          · split
            · exact ⟨_, _, _, _, claimStored_unchanged s k⟩
            · exact selected _ _
      · exact ⟨_, _, _, _, marked⟩

/-! ## A CLAIM_SET -/

theorem deliverRun_claimSet (from_k : headerStation h = some k) :
    deliverRun .claimSet h payload s.asTaken = deliverClaimSet k payload s.asTaken := by
  simp only [deliverRun, from_k]

theorem deliverClaimSet_refused (takes : s.tableTakes k = true) (refused : readRestatement payload = none) :
    deliverClaimSet k payload s = claimRefused k s := by
  unfold deliverClaimSet
  rw [if_pos takes, refused]

theorem deliverClaimSet_applied {number : Byte} {fresh : Bool} {records : List ClaimRecord} (takes : s.tableTakes k = true)
    (reads : readRestatement payload = some (number, fresh, records)) :
    deliverClaimSet k payload s = reportRestated k fresh (applyRestatement k number records s) := by
  unfold deliverClaimSet
  rw [if_pos takes, reads]

/-- What becomes of the table where a restatement is applied is a claim frame's; the report adds the mark and the fresh notice memory. -/
theorem reportRestated_eq (k : Station) (fresh : Bool) (s : State) : reportRestated k fresh s = { s with
    mu := { s.mu with peers := setAt s.mu.peers k { s.mu.peers[k] with restated := true } }
    hz := if fresh = true then { s.hz with gateStop := setAt s.hz.gateStop k false, memory := setAt s.hz.memory k none } else s.hz } := by
  cases fresh <;> rfl

/-- What a frame leaves alone has no part in the Peer Table and the Hazard Unit. -/
theorem LeftAlone.report {v : State} (alone : LeftAlone s v) (k : Station) (fresh : Bool) : LeftAlone s (reportRestated k fresh v) := by
  rw [reportRestated_eq]
  obtain ⟨z1, z2, z3, z4, z5, z6, z7⟩ := alone.zone
  obtain ⟨p1, p2, p3, p4, p5, p6⟩ := alone.program
  obtain ⟨m1, m2⟩ := alone.mode
  obtain ⟨q1, q2⟩ := alone.questions
  exact ⟨alone.now, ⟨z1, z2, z3, z4, z5, z6, z7⟩, ⟨m1, m2⟩, ⟨p1, p2, p3, p4, p5, p6⟩, ⟨q1, q2⟩, alone.counters⟩

end Sys2Proof.Machine

namespace Sys2Proof.Proofs

open Sys2Proof.Machine

/-- Settles O27: the selected changes through `applySelected`, and the rules of R10 and R14 change by change. -/
theorem claimAppliedOrRefused : Obligations.ClaimAppliedOrRefused := by
  unfold Obligations.ClaimAppliedOrRefused
  refine ⟨fun h first items s k a delivered from_k takes whole one four applied current next => ?_, tableTakes_iff,
    fun a b => ⟨atOrAfter_iff a b, after_iff a b⟩, ⟨rfl, fun _ _ _ _ => rfl⟩, rfl, rfl, amountInRange_iff, fun _ => rfl,
    fun raw rest records => ?_, fun r before behind low high => insertRecord_place r behind high before low⟩
  · have selects := takeClaim_selects (s := s.asTaken) ⟨whole, one, four⟩ applied current next
    have block := (deliverRun_claim (payload := first :: items) from_k takes).trans selects
    obtain ⟨passes, fails⟩ := applySelected_claimStored takes ((rawChanges items).drop (a + 1 - first).toNat)
      (first + byteOf ((rawChanges items).length - 1))
    generalize applySelected k _ _ s.asTaken = v at *
    have i := endEvent_internal .none (arrived h v)
    have notMe := tableTakes_ne_me takes
    refine ⟨_, congrArg Host.Outcome.next (receiveFrame_ends delivered block), ?_⟩
    cases outcome : applyRaw ((rawChanges items).drop (a + 1 - first).toNat) s.ct[k].records with
    | none =>
      have t := (fails outcome).ends from_k notMe i
      exact ⟨nofun, fun _ => ⟨t.app.trans applied, t.st, t.recs, t.cnt⟩, t.ow, t.pe, t.acc, t.sc, t.m, t.z, t.p, t.hm, t.q⟩
    | some result =>
      have t := (passes result outcome).ends from_k notMe i
      refine ⟨fun records e => ?_, nofun, t.ow, t.pe, t.acc, t.sc, t.m, t.z, t.p, t.hm, t.q⟩
      cases e
      exact ⟨t.app, t.st.trans current, t.recs, t.cnt⟩
  · refine ⟨fun undefined => applyRaw_fails (checkChange_undefined undefined), fun op bad => applyRaw_fails (new_fails op bad),
      fun op bad => applyRaw_fails (amend_fails op bad), fun op bad => applyRaw_fails (release_fails op bad), fun tag t =>
      ⟨fun resource cls op free room code clsCode range => ?_, fun r cls op held clsCode range => ?_, fun op held => ?_⟩⟩
    · refine applyRaw_passes (c := { tag := tag, op := .new resource cls raw.amount }) ?_
      rw [checkChange_new op t, (resourceOfCode_iff _ _).2 code, (classOfCode_iff _ _).2 clsCode]
      exact if_pos ⟨free, room, range⟩
    · refine applyRaw_passes (c := { tag := tag, op := .amend cls raw.amount }) ?_
      have found : Machine.standing raw.tag records = some r := held
      rw [checkChange_amend op t, found, (classOfCode_iff _ _).2 clsCode]
      exact if_pos range
    · refine applyRaw_passes (c := { tag := tag, op := .release }) ?_
      rw [checkChange_release op t]
      exact if_neg held

/-- Settles O28: a malformed CLAIM is refused; a gap marks the owner stale; a duplicate leaves the entry. -/
theorem claimIgnored : Obligations.ClaimIgnored := by
  unfold Obligations.ClaimIgnored
  intro h payload s k delivered from_k takes
  have block := deliverRun_claim (payload := payload) from_k takes
  have notMe := tableTakes_ne_me takes
  have i := endEvent_internal .none (arrived h (takeClaim k payload s.asTaken))
  obtain ⟨_, _, _, _, stored⟩ := takeClaim_stored takes payload
  have t := stored.ends from_k notMe i
  refine ⟨_, congrArg Host.Outcome.next (receiveFrame_ends delivered block), fun malformed => ?_, ?_, t.ow, t.pe, t.acc⟩
  · have refused := claimRefused_claimStored s k
    rw [← takeClaim_malformed malformed] at refused
    have t := refused.ends from_k notMe i
    exact ⟨t.app, t.st, t.recs, t.cnt⟩
  · rintro first items rfl whole one four
    have form : WholeChanges items := ⟨whole, one, four⟩
    refine ⟨fun behind => ?_, fun a applied current notNext noGap duplicate => ?_⟩
    · have marks : takeClaim k (first :: items) s.asTaken = Machine.markStale k s.asTaken := by
        by_cases unnumbered : s.ct[k].applied = none ∨ s.ct[k].stale = true
        · exact takeClaim_unnumbered form unnumbered
        · obtain ⟨-, current⟩ := not_or.1 unnumbered
          rcases behind with none | stale | ⟨a, applied, notNext, gap⟩
          · exact absurd (.inl none) unnumbered
          · exact absurd stale current
          · rw [takeClaim_numbered (s := s.asTaken) form applied (Bool.eq_false_iff.2 current), if_neg notNext, if_pos gap]
      have marked := markStale_claimStored s k
      rw [← marks] at marked
      have t := marked.ends from_k notMe i
      exact ⟨t.app, t.st, t.recs, t.cnt⟩
    · have unchanged := claimStored_unchanged s k
      have stays : takeClaim k (first :: items) s.asTaken = s.asTaken := by
        rw [takeClaim_numbered (s := s.asTaken) form applied current, if_neg notNext, noGap, if_neg Bool.false_ne_true, if_pos duplicate]
      rw [stays] at i ⊢
      have t := unchanged.ends from_k notMe i
      exact ⟨t.app.trans applied, t.st.trans current, t.recs, t.cnt⟩

/-- Settles O29: the restatement through `setOwner_claimStored`, the report to the Membership and Hazard Units after it. -/
theorem restatementApplied : Obligations.RestatementApplied := by
  unfold Obligations.RestatementApplied
  refine ⟨fun h payload s k delivered from_k takes => ?_, fun payload short => ?_, ⟨rfl, fun _ _ _ _ => rfl⟩, fun number fresh items =>
    ⟨readRestatement_fails, readRestatement_passes⟩⟩
  · have notMe := tableTakes_ne_me takes
    have block := deliverRun_claimSet (s := s) (payload := payload) from_k
    cases reads : readRestatement payload with
    | none =>
      have stored := claimRefused_claimStored s k
      rw [deliverClaimSet_refused (s := s.asTaken) takes reads] at block
      have i := endEvent_internal .none (arrived h (claimRefused k s.asTaken))
      have t := stored.ends from_k notMe i
      exact ⟨_, congrArg Host.Outcome.next (receiveFrame_ends delivered block), nofun,
        fun _ => ⟨t.app, t.st, t.recs, t.cnt, t.hm, t.peer⟩, t.ow, t.pe, t.acc, t.sc, t.m, t.z, t.p, t.q⟩
    | some carried =>
      obtain ⟨number, fresh, records⟩ := carried
      rw [deliverClaimSet_applied (s := s.asTaken) takes reads] at block
      have stored := setOwner_claimStored s k { applied := some number, stale := false, records := records } notMe
      have restated : deliverRun .claimSet h payload s.asTaken = reportRestated k fresh
          (recomputeMarks (setOwner k { applied := some number, stale := false, records := records } s.asTaken)) := block
      generalize recomputeMarks (setOwner k _ s.asTaken) = t at *
      have i := endEvent_internal .none (arrived h (reportRestated k fresh t))
      obtain ⟨alone, counted, same⟩ := (stored.la.report k fresh).ends i
      have e := reportRestated_eq k fresh t
      have peers : (reportRestated k fresh t).mu.peers = setAt s.mu.peers k { s.mu.peers[k] with restated := true } := by
        rw [e, stored.mu]
      have table : (reportRestated k fresh t).ct = t.ct := by rw [e]
      have now : (reportRestated k fresh t).now = s.now := by rw [e]; exact stored.la.now
      have me : (reportRestated k fresh t).me = s.me := by rw [e]; exact stored.me
      have errors : (reportRestated k fresh t).counter .protocolErrors = s.counter .protocolErrors := by rw [e]; exact stored.cnt
      have hazard := ends_hazardMemory i
      have owners := ends_owners i
      refine ⟨_, congrArg Host.Outcome.next (receiveFrame_ends delivered restated), fun _ _ _ is => ?_, nofun, fun j other => ?_,
        ends_samePeers i k from_k fun j other => by rw [peers, setAt_other _ _ _ _ (Ne.symm other)], counted, same, alone.mode, alone.zone,
        alone.program, alone.questions⟩
      · cases is
        obtain ⟨applied, stale, marks⟩ := owners k
        rw [table] at applied stale marks
        refine ⟨applied.trans stored.app, stale.trans stored.st, (marks (by rw [me]; exact notMe)).trans stored.recs, ?_, ?_, ?_,
          (ends_counter i .protocolErrors (by decide) (by decide)).trans errors⟩
        · rw [ends_peers i k from_k, setAt_same, peers, setAt_same, now]
        · rintro rfl
          refine ⟨hazard.2.trans ?_, hazard.1.trans ?_⟩
          · rw [e, if_pos rfl, stored.hz]
          · rw [e, if_pos rfl, stored.hz]
        · rintro rfl
          have kept : (reportRestated k false t).hz = s.hz := by rw [e]; exact stored.hz
          exact ends_sameHazardMemory i kept
      · obtain ⟨applied, stale, marks⟩ := owners j
        rw [table] at applied stale marks
        rw [me] at marks
        obtain ⟨before, was, held⟩ := stored.others j other
        exact ⟨applied.trans before, stale.trans was, fun away => (marks away).trans (held away)⟩
  · match payload, short with
    | [], _ => rfl
    | [_], _ => rfl

end Sys2Proof.Proofs
end

section
/-! O30, O31 and O32: a RESYNC at the Own Claim Unit; a HAZARD taken, answered and relayed; own notices (R37, R89, R91, R188 to R193, R198). -/

namespace Sys2Proof.Machine

variable {s v u : State} {h : Header} {payload : List Byte} {k : Station} {target : Nat}

/-! ## A RESYNC -/

theorem deliverRun_resync (reads : readResync payload = some target) :
    deliverRun .resync h payload s.asTaken = if target = s.me.val ∨ target = 15 then takeResync s.asTaken else s.asTaken := by
  simp only [deliverRun, reads]
  rfl

theorem takeResync_takesPart (part : s.takesPart = true) :
    takeResync s = { s with oc := { s.oc with restatementDue := true } } := if_pos ((takesPart_iff s).1 part)

theorem takeResync_outside (part : s.takesPart = false) : takeResync s = s :=
  if_neg fun joined => Bool.false_ne_true (part.symm.trans ((takesPart_iff s).2 joined))

/-- An arrival record ends an isolation and moves the link state in no other way (R95). -/
theorem arrived_linkState (joined : s.mu.linkState ≠ .isolated) (h : Header) : (arrived h s).mu.linkState = s.mu.linkState := by
  cases from_k : headerStation h with
  | none => rw [arrived_none from_k]
  | some k =>
    rw [arrived_mu from_k]
    exact if_neg fun both => joined both.1

theorem arrived_oc (h : Header) (s : State) : (arrived h s).oc = s.oc := by rw [arrived_eq h s]

/-- Where the JOINING wait does not end, the restatement-due mark is as the block left it. -/
theorem ends_restatementDue (i : Internal (arrived h v) u) (waits : v.joinEnds = false) : u.oc.restatementDue = v.oc.restatementDue := by
  have stays : ¬ (arrived h v).joinEnds = true := by rw [arrived_joinEnds, waits]; exact Bool.false_ne_true
  rw [← arrived_oc h v]
  exact i.due.resolve_right fun ended => stays ended.1

/-- Once a restatement is due it is still so at the end of the event. -/
theorem ends_due (i : Internal (arrived h v) u) (due : v.oc.restatementDue = true) : u.oc.restatementDue = true :=
  i.due.elim (fun same => same.trans ((congrArg OwnClaimUnit.restatementDue (arrived_oc h v)).trans due)) And.right

theorem joinEnds_of_notJoining (l : s.mu.linkState ≠ .joining) : s.joinEnds = false :=
  Bool.eq_false_iff.2 fun ends => l ((joinEnds_iff s).1 ends).1

/-! ## The outgoing queue (R189) -/

theorem pushHazard_room (room : s.hz.queue.length < 4) (e : HazardEntry) :
    pushHazard e s = { s with hz := { s.hz with queue := s.hz.queue ++ [e] } } := if_pos room

theorem pushHazard_full (full : ¬ s.hz.queue.length < 4) (e : HazardEntry) :
    pushHazard e s = count .relayDrops { s with hz := { s.hz with queue := makeRoom s.hz.queue ++ [e] } } := if_neg full

/-- The own notice of a code, under the next serial (R188). -/
def State.ownNotice (s : State) (code : HazardCode) : HazardEntry :=
  { origin := s.me, serial := s.hz.serial + 1, code := code, hops := s.image.hopLimit, group := s.image.feederGroup, sends := 3
    relay := false, onWire := false }

/-- The serial and the inflow-stop mark of an own notice. -/
def State.numbered (s : State) (code : HazardCode) : State :=
  { s with hz := { s.hz with serial := s.hz.serial + 1, stopMark := stopMarkAfter code s.hz.stopMark } }

theorem queueNotice_eq (code : HazardCode) (s : State) : queueNotice code s = pushHazard (s.ownNotice code) (s.numbered code) := rfl

/-! ## A HAZARD (R191 to R193) -/

variable {origin : Station} {serial : Byte} {code : HazardCode} {hops : Nat} {e : ResponseEntry}

theorem takeHazard_dropped (known : origin = s.me ∨ s.hz.memory[origin] = some serial) : takeHazard origin serial code hops s = s := by
  by_cases own : origin = s.me
  · exact if_pos own
  · exact (if_neg own).trans (if_pos (known.resolve_left own))

/-- The notice memory with a new notice stored. -/
def State.noticed (s : State) (origin : Station) (serial : Byte) : State :=
  { s with hz := { s.hz with memory := setAt s.hz.memory origin (some serial) } }

theorem takeHazard_unanswered (other : origin ≠ s.me) (new : s.hz.memory[origin] ≠ some serial) (silent : s.responseTo origin code = none) :
    takeHazard origin serial code hops s = s.noticed origin serial := by
  have response : (s.noticed origin serial).responseTo origin code = none := silent
  unfold takeHazard
  rw [if_neg other, if_neg new]
  show (match (s.noticed origin serial).responseTo origin code with
    | some e => answerNotice e origin serial code hops (s.noticed origin serial)
    | none => s.noticed origin serial) = _
  rw [response]

theorem takeHazard_answered (other : origin ≠ s.me) (new : s.hz.memory[origin] ≠ some serial) (answers : s.responseTo origin code = some e) :
    takeHazard origin serial code hops s = answerNotice e origin serial code hops (s.noticed origin serial) := by
  have response : (s.noticed origin serial).responseTo origin code = some e := answers
  unfold takeHazard
  rw [if_neg other, if_neg new]
  show (match (s.noticed origin serial).responseTo origin code with
    | some e => answerNotice e origin serial code hops (s.noticed origin serial)
    | none => s.noticed origin serial) = _
  rw [response]

/-- The gate-stop set as an entry's action leaves it. -/
def State.acted (s : State) (e : ResponseEntry) (origin : Station) : State :=
  { s with hz := { s.hz with gateStop := actOnGate e.action origin s.hz.gateStop } }

/-- The relay of a notice, one hop less (R193). -/
def ResponseEntry.relayOf (e : ResponseEntry) (origin : Station) (serial : Byte) (code : HazardCode) (hops : Nat) : HazardEntry :=
  { origin := origin, serial := serial, code := code, hops := hops - 1, group := e.relayGroup, sends := 3, relay := true, onWire := false }

theorem answerNotice_unrelayed (ends : e.relay = false ∨ hops = 0) : answerNotice e origin serial code hops s = s.acted e origin := by
  refine if_neg fun relays => ?_
  rw [Bool.and_eq_true, decide_eq_true_eq] at relays
  rcases ends with silent | last
  · exact Bool.false_ne_true (silent.symm.trans relays.1)
  · omega

theorem answerNotice_relayed (relays : e.relay = true) (left : 0 < hops) :
    answerNotice e origin serial code hops s = pushHazard (e.relayOf origin serial code hops) (s.acted e origin) := by
  refine if_pos ?_
  rw [relays, decide_eq_true left]
  rfl

/-- What an answer writes: the gate-stop set by its action, and the queue of relays. -/
theorem answerNotice_writes (e : ResponseEntry) (origin : Station) (serial : Byte) (code : HazardCode) (hops : Nat) (s : State) :
    answerNotice e origin serial code hops s = { s with
      hz := (answerNotice e origin serial code hops s).hz, rp := (answerNotice e origin serial code hops s).rp } ∧
    (answerNotice e origin serial code hops s).hz.memory = s.hz.memory ∧
    (answerNotice e origin serial code hops s).hz.gateStop = actOnGate e.action origin s.hz.gateStop ∧
    s.SameQuestions (answerNotice e origin serial code hops s) ∧
    ∀ c, c ≠ .relayDrops → (answerNotice e origin serial code hops s).counter c = s.counter c := by
  by_cases ends : e.relay = false ∨ hops = 0
  · rw [answerNotice_unrelayed ends]
    exact ⟨rfl, rfl, rfl, ⟨rfl, rfl⟩, fun _ _ => rfl⟩
  · obtain ⟨relays, left⟩ := not_or.1 ends
    rw [answerNotice_relayed (Bool.of_not_eq_false relays) (Nat.pos_of_ne_zero left)]
    obtain ⟨writes, ⟨memory, gates⟩, ⟨slot, question⟩, counters⟩ := pushHazard_writes (e.relayOf origin serial code hops) (s.acted e origin)
    exact ⟨writes, memory, gates, ⟨slot, question⟩, counters⟩

/-- A HAZARD writes the Hazard Unit alone, and no counter but RELAY_DROPS. -/
theorem takeHazard_writes (origin : Station) (serial : Byte) (code : HazardCode) (hops : Nat) (s : State) :
    takeHazard origin serial code hops s = { s with
      hz := (takeHazard origin serial code hops s).hz, rp := (takeHazard origin serial code hops s).rp } ∧
    s.SameQuestions (takeHazard origin serial code hops s) ∧
    ∀ c, c ≠ .relayDrops → (takeHazard origin serial code hops s).counter c = s.counter c := by
  by_cases known : origin = s.me ∨ s.hz.memory[origin] = some serial
  · rw [takeHazard_dropped known]
    exact ⟨rfl, ⟨rfl, rfl⟩, fun _ _ => rfl⟩
  · obtain ⟨other, new⟩ := not_or.1 known
    cases response : s.responseTo origin code with
    | none =>
      rw [takeHazard_unanswered other new response]
      exact ⟨rfl, ⟨rfl, rfl⟩, fun _ _ => rfl⟩
    | some e =>
      rw [takeHazard_answered other new response]
      obtain ⟨writes, -, -, ⟨slot, question⟩, counters⟩ := answerNotice_writes e origin serial code hops (s.noticed origin serial)
      exact ⟨writes, ⟨slot, question⟩, counters⟩

theorem deliverRun_hazard (reads : readHazard payload = some (origin, serial, code, hops)) :
    deliverRun .hazard h payload s.asTaken = takeHazard origin serial code hops s.asTaken := by
  simp only [deliverRun, reads]

end Sys2Proof.Machine

namespace Sys2Proof.Proofs

open Sys2Proof.Machine

/-- Settles O30: the mark as the unit writes it, and the end of the JOINING wait at the end of the event. -/
theorem resyncMakesRestatementDue : Obligations.ResyncMakesRestatementDue := by
  unfold Obligations.ResyncMakesRestatementDue
  intro h payload s target delivered reads
  have block := deliverRun_resync (s := s) (h := h) reads
  generalize taken : (if target = s.me.val ∨ target = 15 then takeResync s.asTaken else s.asTaken) = v at block
  have left : v = { s.asTaken with oc := v.oc } ∧ ((target = s.me.val ∨ target = 15) → s.takesPart = true → v.oc.restatementDue = true) ∧
      ((¬ (target = s.me.val ∨ target = 15) ∨ s.takesPart = false) → v.oc.restatementDue = s.oc.restatementDue) := by
    by_cases mine : target = s.me.val ∨ target = 15
    · rw [if_pos mine] at taken
      cases part : s.takesPart with
      | true =>
        rw [takeResync_takesPart (s := s.asTaken) part] at taken
        subst taken
        exact ⟨rfl, fun _ _ => rfl, fun away => absurd mine (away.resolve_right nofun)⟩
      | false =>
        rw [takeResync_outside (s := s.asTaken) part] at taken
        subst taken
        exact ⟨rfl, fun _ => nofun, fun _ => rfl⟩
    · rw [if_neg mine] at taken
      subst taken
      exact ⟨rfl, fun is => absurd is mine, fun _ => rfl⟩
  obtain ⟨writes, due, same⟩ := left
  have i := endEvent_internal .none (arrived h v)
  have alone : LeftAlone s v := by
    rw [writes]
    exact ⟨rfl, ⟨rfl, rfl, rfl, rfl, rfl, rfl, rfl⟩, ⟨rfl, rfl⟩, ⟨rfl, rfl, rfl, rfl, rfl, rfl⟩, ⟨rfl, rfl⟩, fun _ _ _ _ => rfl⟩
  have ends : v.joinEnds = s.joinEnds := by rw [writes]; rfl
  have mu : v.mu = s.mu := by rw [writes]; rfl
  have errors : v.counter .protocolErrors = s.counter .protocolErrors := by
    rw [writes]; exact asTaken_counter s .protocolErrors (by decide)
  obtain ⟨alone, counted, counters⟩ := alone.ends i
  refine ⟨_, congrArg Host.Outcome.next (receiveFrame_ends delivered block), fun mine part => ends_due i (due mine part),
    fun notMe notAll notJoining => ?_, fun notMe notAll joining => ⟨fun waits => ⟨?_, ?_⟩, fun ended => ?_⟩, fun outside => ?_, counted,
    sameCounters_of_protocolErrors counters ((ends_counter i .protocolErrors (by decide) (by decide)).trans errors),
    ends_sameOwners i (by rw [writes]; rfl) (by rw [writes]; rfl) _, alone.mode, alone.zone, alone.program,
    ends_sameHazardMemory i (by rw [writes]; rfl), alone.questions, fun k from_k => ends_samePeers i k from_k fun _ _ => by rw [mu]⟩
  · exact (ends_restatementDue i (ends.trans (joinEnds_of_notJoining notJoining))).trans (same (.inl (not_or.2 ⟨notMe, notAll⟩)))
  · have stays : ¬ (arrived h v).joinEnds = true := by rw [arrived_joinEnds, ends, waits]; exact Bool.false_ne_true
    refine (i.link.resolve_right fun moved => stays moved.1).trans ?_
    rw [arrived_linkState (by rw [mu, joining]; exact nofun), mu, joining]
  · exact (ends_restatementDue i (ends.trans waits)).trans (same (.inl (not_or.2 ⟨notMe, notAll⟩)))
  · exact endEvent_joined_due .none (arrived h v) ((arrived_joinEnds h v).trans (ends.trans ended))
  · have notJoining : s.mu.linkState ≠ .joining := fun joining =>
      Bool.false_ne_true (outside.symm.trans ((takesPart_iff s).2 (.inl joining)))
    exact (ends_restatementDue i (ends.trans (joinEnds_of_notJoining notJoining))).trans (same (.inr outside))

/-- Settles O31: the block's writes after the end of the event; the entries of R192 and R198 byte by byte. -/
theorem hazardTaken : Obligations.HazardTaken := by
  unfold Obligations.HazardTaken
  refine ⟨fun h payload s origin serial code hops delivered reads => ?_, fun s origin code => ⟨responseTo_none s origin code,
    fun n low => responseTo_first s origin code n low⟩, fun image n => ⟨rfl, response_action image n, response_group image n⟩⟩
  have block := deliverRun_hazard (s := s) (h := h) reads
  have taken : ∀ other : origin ≠ s.me, ∀ new : s.hz.memory[origin] ≠ some serial,
      (takeHazard origin serial code hops s.asTaken).hz.memory = setAt s.hz.memory origin (some serial) ∧
      (takeHazard origin serial code hops s.asTaken).hz.gateStop = (match s.responseTo origin code with
        | some e => actOnGate e.action origin s.hz.gateStop
        | none => s.hz.gateStop) := by
    intro other new
    cases response : s.responseTo origin code with
    | none => rw [takeHazard_unanswered (s := s.asTaken) other new response]; exact ⟨rfl, rfl⟩
    | some e =>
      rw [takeHazard_answered (s := s.asTaken) other new response]
      obtain ⟨-, memory, gates, -⟩ := answerNotice_writes e origin serial code hops (s.asTaken.noticed origin serial)
      exact ⟨memory, gates⟩
  have known : origin = s.me ∨ s.hz.memory[origin] = some serial → takeHazard origin serial code hops s.asTaken = s.asTaken :=
    fun known => takeHazard_dropped (s := s.asTaken) known
  obtain ⟨writes, ⟨slot, question⟩, counters⟩ := takeHazard_writes origin serial code hops s.asTaken
  generalize takeHazard origin serial code hops s.asTaken = v at *
  have i := endEvent_internal .none (arrived h v)
  have alone : LeftAlone s v := by
    refine ⟨?_, ?_, ?_, ?_, ⟨slot, question⟩, fun c _ _ drops => counters c drops⟩ <;> rw [writes]
    · rfl
    · exact ⟨rfl, rfl, rfl, rfl, rfl, rfl, rfl⟩
    · exact ⟨rfl, rfl⟩
    · exact ⟨rfl, rfl, rfl, rfl, rfl, rfl⟩
  have mu : v.mu = s.mu := by rw [writes]; rfl
  have errors : v.counter .protocolErrors = s.counter .protocolErrors :=
    (counters .protocolErrors (by decide)).trans (asTaken_counter s .protocolErrors (by decide))
  have hazard := ends_hazardMemory i
  obtain ⟨alone, counted, same⟩ := alone.ends i
  refine ⟨_, congrArg Host.Outcome.next (receiveFrame_ends delivered block), fun dropped => ?_, fun other new => ?_, counted,
    sameCounters_of_protocolErrors same ((ends_counter i .protocolErrors (by decide) (by decide)).trans errors),
    ends_sameOwners i (by rw [writes]; rfl) (by rw [writes]; rfl) _, alone.mode, alone.zone, alone.program, alone.questions,
    fun k from_k => ends_samePeers i k from_k fun _ _ => by rw [mu]⟩
  · exact ends_sameHazardMemory i (by rw [known dropped]; rfl)
  · obtain ⟨memory, gates⟩ := taken other new
    refine ⟨hazard.1.trans memory, hazard.2.trans (gates.trans ?_)⟩
    cases s.responseTo origin code with
    | none => rfl
    | some e => cases e with | mk enable relay action => cases action <;> rfl

/-- Settles O32: an answer's relay and an own notice through `pushHazard`, with room and without. -/
theorem noticesQueued : Obligations.NoticesQueued := by
  unfold Obligations.NoticesQueued
  refine ⟨fun s origin serial code hops e other new response => ?_, fun s code => ?_⟩
  · have answered := takeHazard_answered (hops := hops) other new response
    refine ⟨fun ends => ?_, fun relays left room => ?_, fun relays left full => ?_⟩
    · rw [answered, answerNotice_unrelayed ends]
      exact ⟨rfl, rfl⟩
    · rw [answered, answerNotice_relayed relays left, pushHazard_room (s := (s.noticed origin serial).acted e origin) room]
      exact ⟨rfl, rfl⟩
    · rw [answered, answerNotice_relayed relays left, pushHazard_full (s := (s.noticed origin serial).acted e origin) full]
      exact ⟨count_same .relayDrops _, rfl⟩
  · have notice := queueNotice_eq code s
    have last := queueNotice_last code s
    by_cases room : s.hz.queue.length < 4
    · rw [pushHazard_room (s := s.numbered code) room] at notice
      rw [notice] at last ⊢
      exact ⟨rfl, by cases code <;> rfl, last, fun _ => ⟨List.dropLast_concat, rfl⟩, fun full => absurd room full, ⟨rfl, rfl⟩, rfl, rfl, rfl⟩
    · rw [pushHazard_full (s := s.numbered code) room] at notice
      rw [notice] at last ⊢
      exact ⟨rfl, by cases code <;> rfl, last, fun is => absurd is room, fun _ => ⟨count_same .relayDrops _,
        fun c other => count_other .relayDrops c _ other, List.dropLast_concat⟩, ⟨rfl, rfl⟩, rfl, rfl, rfl⟩

end Sys2Proof.Proofs
end

section
/-! O33: a PROGRAM, a phase change, and what the Program Drive asks for at the end of an event (R120, R122, R125 to R130). -/

namespace Sys2Proof.Machine

variable {s v w u : State} {h : Header} {payload : List Byte} {phase : Phase} {demand : Demand} {serial : Byte}

/-! ## A PROGRAM -/

theorem deliverRun_program (reads : readProgram payload = some (phase, demand, serial)) :
    deliverRun .program h payload s.asTaken = phaseEvaluated s.pd.phase (takeProgram phase demand serial s.asTaken) := by
  simp only [deliverRun, reads]
  rfl

theorem phaseEvaluated_internal (before : Phase) (s : State) : Internal s (phaseEvaluated before s) := by
  unfold phaseEvaluated
  split
  · exact .refl s
  · exact evalTimed_internal _ s

/-- What a frame leaves alone is so after further steps of the event. -/
theorem LeftAlone.step (b : LeftAlone s v) (i : Internal v w) : LeftAlone s w := by
  obtain ⟨z1, z2, z3, z4, z5, z6, z7⟩ := b.zone
  obtain ⟨p1, p2, p3, p4, p5, p6⟩ := b.program
  exact ⟨i.now.trans b.now, ⟨i.supply.trans z1, i.ms.trans z2, i.pins.trans z3, i.timers.trans z4, i.debounced.trans z5,
    i.testLevels.trans z6, i.pending.trans z7⟩, ⟨i.cs.trans b.mode.1, i.zoneMode.trans b.mode.2⟩,
    ⟨i.phase.trans p1, i.demand.trans p2, i.serial.trans p3, i.silencePause.trans p4, i.silenceTimer.trans p5, i.regulation.trans p6⟩,
    ⟨i.slot.trans b.questions.1, i.question.trans b.questions.2⟩,
    fun c errors raised drops => (i.counters c raised drops).trans (b.counters c errors raised drops)⟩

/-- The Program Drive as a PROGRAM leaves it (R120, R122). -/
theorem takeProgram_writes (phase : Phase) (demand : Demand) (serial : Byte) (s : State) :
    takeProgram phase demand serial s = { s with pd := (takeProgram phase demand serial s).pd } ∧
    (takeProgram phase demand serial s).pd.phase = phase ∧ (takeProgram phase demand serial s).pd.demand = demand ∧
    (takeProgram phase demand serial s).pd.serial = some serial ∧ (takeProgram phase demand serial s).pd.silencePause = false ∧
    (takeProgram phase demand serial s).pd.silenceTimer = some s.now ∧
    (phase = s.pd.phase → (takeProgram phase demand serial s).pd.regulation = s.pd.regulation) ∧
    (regulates phase = false → phase ≠ s.pd.phase → (takeProgram phase demand serial s).pd.regulation = false) := by
  obtain ⟨writes, is, kept, number, pause, timer, same, clears⟩ := changePhase_writes phase
    { s with pd := { s.pd with demand := demand, serial := some serial, silencePause := false, silenceTimer := some s.now } }
  exact ⟨writes, is, kept, number, pause, timer, fun stays => (congrArg (fun t : State => t.pd.regulation) (same stays) :), clears⟩

/-! ## A phase change (R122) -/

/-- The phase set, before the regulation request and the drained mark are judged. -/
def State.inPhase (s : State) (phase : Phase) : State :=
  { s with pd := { s.pd with phase := phase, drained := false, regulation := s.pd.regulation && regulates phase } }

theorem changePhase_change (change : phase ≠ s.pd.phase) : changePhase phase s =
    judgeDrained (if regulates phase && !regulates s.pd.phase then judgeRegulation (s.inPhase phase) else s.inPhase phase) := if_neg change

/-- Where the phase begins to regulate the request is judged, else it stays or goes with the phase. -/
theorem changePhase_regulation (change : phase ≠ s.pd.phase) : (changePhase phase s).pd.regulation =
    if regulates phase = true ∧ regulates s.pd.phase = false ∧ s.driveRuns = true then s.judgedRegulation
    else (s.pd.regulation && regulates phase) := by
  rw [changePhase_change change, judgeDrained_marks]
  have runs : (s.inPhase phase).driveRuns = s.driveRuns := driveRuns_of rfl rfl
  cases now : regulates phase with
  | false => simp [State.inPhase, now]
  | true =>
    cases before : regulates s.pd.phase with
    | true => simp [State.inPhase, now]
    | false =>
      have judged : (s.inPhase phase).judgedRegulation = s.judgedRegulation :=
        judgedRegulation_of rfl rfl (by simp [State.inPhase, now])
      have inPhase : regulates (s.inPhase phase).pd.phase = true := now
      have kept : (s.inPhase phase).pd.regulation = (s.pd.regulation && true) := congrArg (s.pd.regulation && ·) now
      dsimp only
      rw [Bool.not_false, Bool.and_true, if_pos rfl, judgeRegulation_regulation, runs, judged, inPhase, kept]
      simp

/-- What else a phase change writes. -/
theorem changePhase_marks (change : phase ≠ s.pd.phase) : changePhase phase s = { s with pd := { s.pd with
    phase := phase, regulation := (changePhase phase s).pd.regulation, drained := phase == .drainDown && s.dry .levelLow } } := by
  have shape : ∃ r, (if regulates phase && !regulates s.pd.phase then judgeRegulation (s.inPhase phase) else s.inPhase phase) =
      { s with pd := { s.pd with phase := phase, drained := false, regulation := r } } := by
    split
    · unfold judgeRegulation
      split <;> exact ⟨_, rfl⟩
    · exact ⟨_, rfl⟩
  obtain ⟨r, shape⟩ := shape
  have changed := changePhase_change change
  rw [shape, judgeDrained_marks] at changed
  rw [changed]
  rfl

/-! ## The drive's requests and claims -/

theorem driveRuns_iff : s.driveRuns = true ↔ s.zoneMode = .inService ∧ s.hasTank = true := by
  unfold State.driveRuns
  rw [Bool.and_eq_true, beq_iff_eq]

theorem keepsLevel_iff (phase : Phase) : keepsLevel phase = true ↔ phase ∈ [Phase.fillUp, .heatUp, .run, .pause] := by
  cases phase <;> decide

theorem conveyorRuns_iff : s.conveyorRuns = true ↔
    s.pd.phase = .run ∧ s.pd.demand = .run ∧ ∀ (k : Station), ∀ r ∈ s.ct[k].records, r.resource ≠ .hold := by
  unfold State.conveyorRuns
  rw [Bool.and_eq_true, Bool.and_eq_true, Bool.not_eq_true', holdIndication_iff, beq_iff_eq, beq_iff_eq, and_assoc]

theorem fillWanted_iff : s.fillWanted = true ↔ s.zoneMode = .inService ∧ s.hasTank = true ∧ s.wet .levelHigh = false ∧
    ((s.pd.phase ∈ [Phase.fillUp, .heatUp, .run, .pause] ∧ s.dry .levelNormal = true) ∨
      (s.finalRinse = true ∧ s.pd.phase = .run ∧ s.pd.demand = .run ∧ ∀ (k : Station), ∀ r ∈ s.ct[k].records, r.resource ≠ .hold)) := by
  unfold State.fillWanted
  rw [Bool.and_eq_true, Bool.and_eq_true, Bool.or_eq_true, Bool.and_eq_true, Bool.and_eq_true, driveRuns_iff, keepsLevel_iff,
    conveyorRuns_iff, Bool.not_eq_true', and_assoc, and_assoc]

theorem drainWanted_iff : s.drainWanted = true ↔
    s.zoneMode = .inService ∧ s.hasTank = true ∧ s.pd.phase = .drainDown ∧ s.pd.drained = false := by
  unfold State.drainWanted
  rw [Bool.and_eq_true, Bool.and_eq_true, driveRuns_iff, beq_iff_eq, Bool.not_eq_true', and_assoc, and_assoc]

theorem driveEvaluate_eq (s : State) : driveEvaluate s = updateProgramClaims { judgeDrained s with
    pd := { (judgeDrained s).pd with fillRequest := (judgeDrained s).fillWanted, drainRequest := (judgeDrained s).drainWanted } } := rfl

theorem withdrawUnneeded_eq (resource : Resource) (held wanted : Option Nat) (s : State) :
    withdrawUnneeded resource held wanted s = if held ≠ none ∧ wanted = none then withdraw resource .program s else s := by
  cases held <;> cases wanted <;> rfl

theorem requestNeeded_eq (resource : Resource) (held wanted : Option Nat) (s : State) :
    requestNeeded resource held wanted s = match wanted with
      | none => s
      | some amount => if held = some amount then s
        else request { resource := resource, cls := .process, amount := amount, purpose := .program } s := by
  cases wanted <;> rfl

/-- The claims asked for after those no longer needed are withdrawn (R122, R128, R129). -/
def State.programClaimsAsked (s : State) (fill drain : Option Nat) : State :=
  requestNeeded .drain s.pd.drainClaim drain (requestNeeded .fill s.pd.fillClaim fill (requestNeeded .heat s.pd.heatClaim s.heatWanted
    (withdrawUnneeded .drain s.pd.drainClaim drain (withdrawUnneeded .fill s.pd.fillClaim fill
      (withdrawUnneeded .heat s.pd.heatClaim s.heatWanted s)))))

theorem programClaimsAsked_claimed (s : State) (fill drain : Option Nat) : Claimed s (s.programClaimsAsked fill drain) :=
  (((((withdrawUnneeded_claimed .heat s.pd.heatClaim s.heatWanted s).trans (withdrawUnneeded_claimed .fill s.pd.fillClaim fill _)).trans
    (withdrawUnneeded_claimed .drain s.pd.drainClaim drain _)).trans (requestNeeded_claimed .heat s.pd.heatClaim s.heatWanted _)).trans
    (requestNeeded_claimed .fill s.pd.fillClaim fill _)).trans (requestNeeded_claimed .drain s.pd.drainClaim drain _)

theorem updateProgramClaims_isolated (isolated : s.mu.linkState = .isolated) :
    updateProgramClaims s = { s with pd := { s.pd with heatClaim := none, fillClaim := none, drainClaim := none } } := if_pos isolated

theorem updateProgramClaims_asks (joined : s.mu.linkState ≠ .isolated) {fill drain : Option Nat}
    (f : (if s.pd.fillRequest = true then some 1 else none) = fill) (d : (if s.pd.drainRequest = true then some 1 else none) = drain) :
    updateProgramClaims s = { s with
      oc := (s.programClaimsAsked fill drain).oc, ct := (s.programClaimsAsked fill drain).ct
      pd := { s.pd with heatClaim := s.heatWanted, fillClaim := fill, drainClaim := drain } } := by
  have claimed := programClaimsAsked_claimed s fill drain
  have asks : updateProgramClaims s = { s.programClaimsAsked fill drain with
      pd := { (s.programClaimsAsked fill drain).pd with heatClaim := s.heatWanted, fillClaim := fill, drainClaim := drain } } := by
    subst f d
    exact if_neg joined
  generalize s.programClaimsAsked fill drain = t at *
  rw [asks, claimed.pd]
  exact congrArg (fun t : State => { t with pd := { s.pd with heatClaim := s.heatWanted, fillClaim := fill, drainClaim := drain } }) claimed

end Sys2Proof.Machine

namespace Sys2Proof.Proofs

open Sys2Proof.Machine

/-- Settles O33: the PROGRAM's writes kept to the end of the event, the phase change in its order, the claims withdrawn and asked for. -/
theorem programRule : Obligations.ProgramRule := by
  unfold Obligations.ProgramRule
  refine ⟨fun h payload s phase demand serial delivered reads => ?_, fun s phase change => ?_, fun s => ⟨fillWanted_iff, drainWanted_iff, rfl,
    ?_, updateProgramClaims_isolated, fun joined => ?_⟩⟩
  · obtain ⟨writes, is, asked, number, pause, timer, same, clears⟩ := takeProgram_writes phase demand serial s.asTaken
    have block := deliverRun_program (s := s) (h := h) reads
    generalize takeProgram phase demand serial s.asTaken = t at *
    have evaluated := phaseEvaluated_internal s.pd.phase t
    generalize phaseEvaluated s.pd.phase t = v at *
    have taken : { s with pd := t.pd }.asTaken = t := by rw [writes]; rfl
    have alone : LeftAlone { s with pd := t.pd } v := by
      have began := asTaken_leftAlone { s with pd := t.pd }
      rw [taken] at began
      exact began.step evaluated
    have i := endEvent_internal .none (arrived h v)
    have mu : v.mu.peers = s.mu.peers := by rw [evaluated.peers, writes]; rfl
    have hazard := ends_hazardMemory i
    have memory : v.hz.memory = s.hz.memory ∧ v.hz.gateStop = s.hz.gateStop := by
      rw [evaluated.memory, evaluated.gateStop, writes]; exact ⟨rfl, rfl⟩
    have errors : v.counter .protocolErrors = s.counter .protocolErrors := by
      rw [evaluated.counters .protocolErrors (by decide) (by decide), writes]; exact asTaken_counter s .protocolErrors (by decide)
    have owners : s.SameOwners v (fun _ => False) := by
      have o := evaluated.sameOwners fun _ => False
      rw [writes] at o
      exact o
    have me : v.me = s.me := by
      have cs := evaluated.cs
      rw [writes] at cs
      exact Fin.ext (congrArg (fun c : ConfigStore => c.number.toNat % 12) cs)
    obtain ⟨⟨-, zone, mode, program, questions, -⟩, counted, counters⟩ := alone.ends i
    obtain ⟨z1, z2, z3, z4, z5, z6, z7⟩ := zone
    obtain ⟨m1, m2⟩ := mode
    obtain ⟨q1, q2⟩ := questions
    obtain ⟨p1, p2, p3, p4, p5, p6⟩ := program
    refine ⟨_, congrArg Host.Outcome.next (receiveFrame_ends delivered block), p1.trans is, p2.trans asked, p3.trans number, p4.trans pause,
      p5.trans timer, fun stays => p6.trans (same stays), fun ends change => p6.trans (clears ends change), counted,
      sameCounters_of_protocolErrors counters ((ends_counter i .protocolErrors (by decide) (by decide)).trans errors), fun j _ => ?_, ⟨m1, m2⟩,
      ⟨z1, z2, z3, z4, z5, z6, z7⟩, ⟨hazard.1.trans memory.1, hazard.2.trans memory.2⟩, ⟨q1, q2⟩,
      fun k from_k => ends_samePeers i k from_k fun j _ => by rw [mu]⟩
    obtain ⟨applied, stale, records⟩ := ends_owners i j
    obtain ⟨before, was, held⟩ := owners j id
    rw [me] at records
    exact ⟨applied.trans before, stale.trans was, fun away => (records away).trans (held away)⟩
  · have marks := changePhase_marks change
    have regulation := changePhase_regulation change
    generalize changePhase phase s = t at *
    have pd := congrArg State.pd marks
    refine ⟨congrArg ProgramDrive.phase pd, fun ends => ?_, fun now before => ?_, fun now before runs => ?_, congrArg ProgramDrive.drained pd, ?_,
      (congrArg ProgramDrive.demand pd :), (congrArg ProgramDrive.serial pd :), (congrArg ProgramDrive.silenceTimer pd :)⟩
    · rw [regulation, ends]
      simp
    · rw [regulation, now, before]
      simp
    · rw [regulation, if_pos ⟨now, before, runs⟩]
      rfl
    · rw [marks]
  · dsimp only
    rw [driveEvaluate_eq, judgeDrained_marks]
  · have asks := updateProgramClaims_asks joined rfl rfl
    unfold State.programClaimsAsked at asks
    simp only [withdrawUnneeded_eq, requestNeeded_eq] at asks
    exact asks

end Sys2Proof.Proofs
end

section
/-! O34, O35 and O36: the operator's commands at the Recovery Sequencer (R181 to R184, R164, R172, R188, R195). -/

namespace Sys2Proof.Machine

variable {s v : State} {h : Header} {payload : List Byte} {command : OperatorCommand} {id : Nat} {r : Incident}

/-- A delivered frame at the end of its event, before the rest of the event is carried out. -/
theorem receiveFrame_arrived {kind : FrameKind} (d : s.Delivers kind h payload) (block : deliverRun kind h payload s.asTaken = v) :
    receiveFrame kind h payload s = afterFrame h (arrived h v) := by
  rw [receiveFrame_delivers d, block]

theorem deliverRun_operator (reads : readOperator payload = some (s.me, command)) :
    deliverRun .operator h payload s.asTaken = deliverOperator command s.asTaken := by
  have block : deliverRun .operator h payload s.asTaken = if s.me = s.asTaken.me then deliverOperator command s.asTaken else s.asTaken := by
    simp only [deliverRun, reads]
  rw [block]
  exact if_pos rfl

/-- A refused command: OPERATOR_REFUSED counts it, and nothing else is written. -/
theorem operatorRefused_writes (s : State) : count .operatorRefused s.asTaken = { s.asTaken with rp := (count .operatorRefused s.asTaken).rp } ∧
    s.Counted (count .operatorRefused s.asTaken) .operatorRefused ∧ s.Counted (count .operatorRefused s.asTaken) .accepted ∧
    s.SameCounters (count .operatorRefused s.asTaken) [.operatorRefused, .accepted] ∧ s.SameQuestions (count .operatorRefused s.asTaken) := by
  refine ⟨rfl, ?_, ?_, fun c other _ _ => ?_, ⟨rfl, rfl⟩⟩
  · have risen := count_same .operatorRefused s.asTaken
    rw [asTaken_counter s .operatorRefused (by decide)] at risen
    exact risen
  · exact (count_other .operatorRefused .accepted s.asTaken (by decide)).trans (asTaken_accepted s)
  · simp only [List.mem_cons, List.not_mem_nil, or_false, not_or] at other
    exact (count_other .operatorRefused c s.asTaken other.1).trans (asTaken_counter s c other.2)

/-! ## ACKNOWLEDGE (R181) -/

theorem acknowledge_failed {reason : FailureReason} (found : s.record id = some r) (failed : r.state = .failed reason) :
    acknowledge id s = updateRecord id (fun q => { q with state := .pending, attempts := 0, carried := false }) s := by
  simp only [acknowledge, found, failed]

theorem acknowledge_cleared {outcome : RecoveryOutcome} (found : s.record id = some r) (cleared : r.state = .cleared outcome) :
    acknowledge id s = resubmitUnrecorded (removeRecord id s) := by
  simp only [acknowledge, found, cleared]

theorem acknowledge_refused (refused : s.record id = none ∨ ∃ r, s.record id = some r ∧ isFailed r = false ∧ isCleared r = false) :
    acknowledge id s = count .operatorRefused s := by
  rcases refused with none | ⟨r, found, notFailed, notCleared⟩
  · simp only [acknowledge, none]
  · cases state : r.state with
    | failed reason => simp [isFailed, state] at notFailed
    | cleared outcome => simp [isCleared, state] at notCleared
    | _ => simp only [acknowledge, found, state]

/-! ## ABANDON (R182, R183) -/

theorem abandon_failed {reason : FailureReason} (found : s.record id = some r) (failed : r.state = .failed reason) :
    abandon id s = if s.zoneMode = .inService then leaveService (updateRecord id (fun q => { q with state := .abandoned reason }) s)
      else updateRecord id (fun q => { q with state := .abandoned reason }) s := by
  simp only [abandon, found, failed]

theorem abandon_refused (refused : s.record id = none ∨ ∃ r, s.record id = some r ∧ isFailed r = false) :
    abandon id s = count .operatorRefused s := by
  rcases refused with none | ⟨r, found, notFailed⟩
  · simp only [abandon, none]
  · cases state : r.state with
    | failed reason => simp [isFailed, state] at notFailed
    | _ => simp only [abandon, found, state]

/-- Taking a frame has no part in the steps and the record list. -/
theorem updateRecord_asTaken_leakCompletes (id : Nat) (f : Incident → Incident) (s : State) :
    (updateRecord id f s.asTaken).leakCompletes = (updateRecord id f s).leakCompletes := rfl

/-- What OUT_OF_SERVICE writes: the mode, the regulation request, a ZONE_DOWN. -/
theorem outOfService_writes (s : State) : (outOfService s).zoneMode = .outOfService ∧ (outOfService s).pd = { s.pd with regulation := false } ∧
    (outOfService s).rs = s.rs ∧ (outOfService s).fd.unrecorded = s.fd.unrecorded ∧ (outOfService s).hz.serial = s.hz.serial + 1 ∧
    ((outOfService s).hz.queue.getLast?).map HazardEntry.code = some .zoneDown := by
  obtain ⟨serial, last, writes⟩ := queueNotice_writes .zoneDown (driveOutOfService (changeZoneMode .outOfService s))
  have out : outOfService s = queueNotice .zoneDown (driveOutOfService (changeZoneMode .outOfService s)) := rfl
  rw [← out] at serial last writes
  refine ⟨?_, ?_, ?_, ?_, serial, last⟩ <;> rw [writes] <;> rfl

theorem leaveService_suspends (running : s.leakCompletes = none) : leaveService s = outOfService (suspend s) := by
  simp only [leaveService, running]

theorem leaveService_clears {active : Nat} (completes : s.leakCompletes = some active) :
    leaveService s = clearRecord active .leak .leakVerify .restored (outOfService s) := by
  simp only [leaveService, completes]

/-- The mode and the Program Drive after the zone has left service. -/
theorem leaveService_mode (s : State) : (leaveService s).zoneMode = .outOfService ∧ (leaveService s).pd = { s.pd with regulation := false } := by
  cases completes : s.leakCompletes with
  | none =>
    rw [leaveService_suspends completes]
    obtain ⟨mode, pd, -⟩ := outOfService_writes (suspend s)
    exact ⟨mode, pd.trans (by rw [(suspend_writes s).2])⟩
  | some active =>
    rw [leaveService_clears completes]
    obtain ⟨mode, pd, -⟩ := outOfService_writes s
    obtain ⟨_, _, _, _, _, _, writes⟩ := clearRecord_writes active .leak .leakVerify .restored (outOfService s)
    rw [writes]
    exact ⟨mode, pd⟩

/-- With no LEAK completing, the ACTIVE record is suspended and a ZONE_DOWN queued. -/
theorem leaveService_suspended (running : s.leakCompletes = none) : (leaveService s).hz.serial = s.hz.serial + 1 ∧
    ((leaveService s).hz.queue.getLast?).map HazardEntry.code = some .zoneDown ∧
    (leaveService s).rs.incidents = (match s.activeStep with
      | some (id, _, _) => s.rs.incidents.map (fun r => if r.id = id then { r with state := .pending } else r)
      | none => s.rs.incidents) := by
  rw [leaveService_suspends running]
  obtain ⟨incidents, writes⟩ := suspend_writes s
  obtain ⟨-, -, rs, -, serial, last⟩ := outOfService_writes (suspend s)
  have hz : (suspend s).hz = s.hz := by rw [writes]
  exact ⟨serial.trans (by rw [hz]), last, (by rw [rs]; exact incidents)⟩

/-- A LEAK that completes as the zone leaves service is CLEARED, its INFLOW_RESUME behind the ZONE_DOWN (R195). -/
theorem leaveService_cleared {active : Nat} (completes : s.leakCompletes = some active) (recorded : s.fd.unrecorded = []) :
    (leaveService s).hz.serial = s.hz.serial + 2 ∧
    (∃ before, (leaveService s).hz.queue.map HazardEntry.code = before ++ [.zoneDown, .inflowResume]) ∧
    (leaveService s).rs.incidents = s.rs.incidents.map (fun q => if q.id = active then { q with state := .cleared .restored } else q) := by
  rw [leaveService_clears completes]
  obtain ⟨-, -, rs, unrecorded, serial, -⟩ := outOfService_writes s
  obtain ⟨incidents, hz⟩ := clearRecord_alone active .leak .leakVerify .restored (unrecorded.trans recorded)
  rw [if_pos rfl] at hz
  obtain ⟨next, -, -⟩ := queueNotice_writes .inflowResume (outOfService s)
  obtain ⟨before, codes⟩ := queueNotice_twice .zoneDown .inflowResume (driveOutOfService (changeZoneMode .outOfService s))
  refine ⟨?_, ⟨before, ?_⟩, ?_⟩
  · rw [hz, next, serial]
    exact BitVec.add_assoc ..
  · rw [hz]
    exact codes
  · rw [incidents, rs]

/-! ## RESUME_ZONE (R184) -/

/-- The ABANDONED records PENDING again. -/
def State.unabandoned (s : State) : State :=
  { s with rs := { s.rs with incidents := s.rs.incidents.map (fun r =>
    if isAbandoned r then { r with state := .pending, attempts := 0 } else r) } }

theorem resumeZone_resumes (out : s.zoneMode = .outOfService) :
    resumeZone s = queueNotice .zoneUp (judgeRegulation (changeZoneMode .inService s.unabandoned)) := if_pos out

theorem resumeZone_refused (notOut : s.zoneMode ≠ .outOfService) : resumeZone s = count .operatorRefused s := if_neg notOut

end Sys2Proof.Machine

namespace Sys2Proof.Proofs

open Sys2Proof.Machine

/-- Settles O34: the record by its state. -/
theorem acknowledgeRule : Obligations.AcknowledgeRule := by
  unfold Obligations.AcknowledgeRule
  intro h payload s id delivered reads
  exact ⟨_, congrArg Host.Outcome.next (receiveFrame_arrived delivered (deliverRun_operator reads)),
    fun r reason found failed => acknowledge_failed (s := s.asTaken) found failed,
    fun r outcome found cleared => acknowledge_cleared (s := s.asTaken) found cleared, fun refused => by
      have counts : deliverOperator (.acknowledge id) s.asTaken = count .operatorRefused s.asTaken := acknowledge_refused (s := s.asTaken) refused
      rw [counts]
      exact operatorRefused_writes s⟩

/-- Settles O35: ABANDON in service and out of it, the two orders of R195 at a LEAK that completes. -/
theorem abandonRule : Obligations.AbandonRule := by
  unfold Obligations.AbandonRule
  intro h payload s id delivered reads
  refine ⟨_, congrArg Host.Outcome.next (receiveFrame_arrived delivered (deliverRun_operator reads)), fun r reason found failed => ?_, fun refused => ?_⟩
  · have abandons : deliverOperator (.abandon id) s.asTaken = _ := abandon_failed (s := s.asTaken) found failed
    rw [abandons]
    obtain ⟨-, runs, -⟩ := delivered
    have modes : s.zoneMode = .inService ∨ s.zoneMode = .outOfService := by
      simpa only [State.runMode, Bool.or_eq_true, beq_iff_eq] using runs
    rcases modes with inService | out
    · rw [if_pos (show s.asTaken.zoneMode = .inService from inService)]
      obtain ⟨mode, pd⟩ := leaveService_mode (updateRecord id (fun q => { q with state := .abandoned reason }) s.asTaken)
      refine ⟨mode, fun _ => ⟨pd, fun running => ?_, fun active completes recorded => ?_⟩, fun out => ?_⟩
      · exact leaveService_suspended ((updateRecord_asTaken_leakCompletes id _ s).trans running)
      · exact leaveService_cleared ((updateRecord_asTaken_leakCompletes id _ s).trans completes) recorded
      · rw [inService] at out
        exact nomatch out
    · have stays : ¬ s.asTaken.zoneMode = .inService := by
        rw [asTaken_zoneMode, out]
        exact nofun
      rw [if_neg stays]
      refine ⟨out, fun inService => ?_, fun _ => rfl⟩
      rw [out] at inService
      exact nomatch inService
  · have counts : deliverOperator (.abandon id) s.asTaken = count .operatorRefused s.asTaken := abandon_refused (s := s.asTaken) refused
    rw [counts]
    exact operatorRefused_writes s

/-- Settles O36: the records, the mode, the regulation request and the ZONE_UP in that order. -/
theorem resumeZoneRule : Obligations.ResumeZoneRule := by
  unfold Obligations.ResumeZoneRule
  intro h payload s delivered reads
  refine ⟨_, congrArg Host.Outcome.next (receiveFrame_arrived delivered (deliverRun_operator reads)), fun out => ?_, fun notOut => ?_⟩
  · have resumes : deliverOperator .resumeZone s.asTaken = _ := resumeZone_resumes (s := s.asTaken) out
    rw [resumes]
    obtain ⟨serial, last, writes⟩ := queueNotice_writes .zoneUp (judgeRegulation (changeZoneMode .inService s.asTaken.unabandoned))
    have regulation := judgeRegulation_eq (changeZoneMode .inService s.asTaken.unabandoned)
    generalize judgeRegulation (changeZoneMode .inService s.asTaken.unabandoned) = w at *
    generalize queueNotice .zoneUp w = v at *
    refine ⟨?_, ?_, serial.trans (by rw [regulation]; rfl), last, ?_, ?_, ?_, ?_⟩ <;> rw [writes, regulation] <;> rfl
  · have counts : deliverOperator .resumeZone s.asTaken = count .operatorRefused s.asTaken := resumeZone_refused (s := s.asTaken) notOut
    rw [counts]
    exact operatorRefused_writes s

end Sys2Proof.Proofs
end

section
/-! O37: a QUERY for this station, taken as any frame or after the REPLY its reception's end has begun (R203, R214, R217). -/

namespace Sys2Proof.Machine

variable {s t u w z : State} {h : Header} {payload : List Byte} {target : Station} {subject : Subject} {clear : Bool} {q : Question}

/-- A question taken: the slot, and REPLY_OVERRUNS where it replaces one (R214). -/
theorem takeQuery_writes (q : Question) (s : State) : takeQuery q s = { s with rp := (takeQuery q s).rp } ∧
    (takeQuery q s).rp.slot = some q ∧ (takeQuery q s).rp.inFlight = s.rp.inFlight ∧
    (∀ c, c ≠ .replyOverruns → (takeQuery q s).counter c = s.counter c) ∧
    (s.rp.slot = none → (takeQuery q s).counter .replyOverruns = s.counter .replyOverruns) ∧
    (s.rp.slot ≠ none → s.Counted (takeQuery q s) .replyOverruns) := by
  unfold takeQuery
  cases slot : s.rp.slot with
  | none => exact ⟨rfl, rfl, rfl, fun _ _ => rfl, fun _ => rfl, fun full => absurd rfl full⟩
  | some old => exact ⟨rfl, rfl, rfl, fun c other => count_other .replyOverruns c _ other, nofun, fun _ => count_same .replyOverruns _⟩

/-- A QUERY for this station in a state that takes it, in service and in the service modes. -/
theorem acceptFrame_query (accepted : w.acceptance .query h payload = .accepted) (reads : readQuery payload = some (target, subject, clear))
    (mine : target.val = w.cs.number.toNat) (takes : (w.runMode = true ∧ w.senderForeign h = false) ∨ w.serviceMode = true) :
    let taken := takeQuery { subject := subject, clear := clear, requester := h.sender } (count .accepted w)
    acceptFrame .query h payload w = arrived h taken ∨ acceptFrame .query h payload w = taken := by
  have delivers : acceptFrame .query h payload w = deliver .query h payload (count .accepted w) := by
    unfold acceptFrame
    rw [accepted]
  rw [delivers]
  rcases takes with ⟨runs, known⟩ | service
  · have me : target = (count .accepted w).me := Fin.ext (by
      refine Eq.trans ?_ (me_val (s := w) ?_).symm
      · exact mine
      · exact mine ▸ target.isLt)
    have block : deliver .query h payload (count .accepted w) =
        arrived h (if w.senderForeign h && FrameKind.query != .presence then count .accepted w
          else deliverRun .query h payload (count .accepted w)) := if_pos (show (count .accepted w).runMode = true from runs)
    have query : deliverRun .query h payload (count .accepted w) =
        takeQuery { subject := subject, clear := clear, requester := h.sender } (count .accepted w) := by
      simp only [deliverRun, reads]
      exact if_pos me
    exact .inl (block.trans (by rw [known, Bool.false_and, if_neg Bool.false_ne_true, query]))
  · have block : deliver .query h payload (count .accepted w) = deliverService .query h payload (count .accepted w) :=
      (if_neg (Bool.eq_false_iff.1 (serviceMode_not_run service))).trans (if_pos service)
    have query : deliverService .query h payload (count .accepted w) =
        takeQuery { subject := subject, clear := clear, requester := h.sender } (count .accepted w) := by
      simp only [deliverService, reads]
      exact if_pos mine
    exact .inr (block.trans query)

/-- The end of an event at which a question entered the slot, from the state `w` that its reception left. -/
structure QueryTaken (q : Question) (w u : State) : Prop where
  slot : u.rp.slot = some q
  inFlight : u.rp.inFlight = w.rp.inFlight
  lc : u.lc = w.lc
  accepted : w.Counted u .accepted
  counters : w.SameCounters u [.accepted, .replyOverruns]
  free : w.rp.slot = none → u.counter .replyOverruns = w.counter .replyOverruns
  full : w.rp.slot ≠ none → w.Counted u .replyOverruns
  owners : w.SameOwners u (fun _ => False)
  mode : w.SameMode u
  zone : w.SameZoneSide u
  program : w.SameProgram u
  hazard : w.SameHazardMemory u

/-- An arrival record, or none, and the rest of the event keep what the question wrote. -/
theorem queryTaken_of_ends (shape : z = { takeQuery q (count .accepted w) with mu := z.mu }) (i : Internal z u) : QueryTaken q w u := by
  obtain ⟨writes, slot, inFlight, others, free, full⟩ := takeQuery_writes q (count .accepted w)
  have overruns : (count .accepted w).counter .replyOverruns = w.counter .replyOverruns := count_other .accepted .replyOverruns w (by decide)
  have counter : ∀ c, z.counter c = (takeQuery q (count .accepted w)).counter c := fun c => by rw [shape]; rfl
  have rp : z.rp = (takeQuery q (count .accepted w)).rp := by rw [shape]
  generalize takeQuery q (count .accepted w) = y at *
  have owners := i.sameOwners fun _ => False
  have mode := i.mode
  have zone := i.zoneSide
  have program := i.program
  have hazard := i.hazardMemory
  have lc := i.lc
  rw [shape, writes] at owners mode zone program hazard lc
  obtain ⟨z1, z2, z3, z4, z5, z6, z7⟩ := zone
  obtain ⟨p1, p2, p3, p4, p5, p6⟩ := program
  obtain ⟨m1, m2⟩ := mode
  obtain ⟨h1, h2⟩ := hazard
  have overrun : u.counter .replyOverruns = y.counter .replyOverruns := (i.counters _ (by decide) (by decide)).trans (counter _)
  refine ⟨i.slot.trans ((congrArg ReportUnit.slot rp).trans slot), i.question.trans ((congrArg ReportUnit.inFlight rp).trans inFlight), lc, ?_,
    fun c other raised drops => ?_, fun empty => overrun.trans ((free empty).trans overruns), fun held => ?_, owners, ⟨m1, m2⟩,
    ⟨z1, z2, z3, z4, z5, z6, z7⟩, ⟨p1, p2, p3, p4, p5, p6⟩, ⟨h1, h2⟩⟩
  · exact ((i.counters _ (by decide) (by decide)).trans (counter _)).trans
      ((others .accepted (by decide)).trans (count_same .accepted w))
  · simp only [List.mem_cons, List.not_mem_nil, or_false, not_or] at other
    exact ((i.counters c raised drops).trans (counter c)).trans ((others c other.2).trans (count_other .accepted c w other.1))
  · have risen := full held
    unfold State.Counted at risen ⊢
    rw [overrun, risen, overruns]

/-- The event of a QUERY for this station, from the state its reception left. -/
theorem queryTaken_of_accepts (accepted : w.acceptance .query h payload = .accepted)
    (reads : readQuery payload = some (target, subject, clear)) (mine : target.val = w.cs.number.toNat)
    (takes : (w.runMode = true ∧ w.senderForeign h = false) ∨ w.serviceMode = true) :
    QueryTaken { subject := subject, clear := clear, requester := h.sender } w (endEvent .none (acceptFrame .query h payload w)) := by
  rcases acceptFrame_query accepted reads mine takes with arrives | alone
  · rw [arrives]
    exact queryTaken_of_ends (arrived_eq h _) (endEvent_internal .none _)
  · rw [alone]
    exact queryTaken_of_ends rfl (endEvent_internal .none _)

theorem receiveFrame_query (receives : s.canReceive = true) :
    receiveFrame .query h payload s = frameEnds h.sender.toNat (endEvent .none (acceptFrame .query h payload (mediumEnds s))) := if_pos receives

/-- A QUERY received alone, or before the REPLY, or after it (R217). -/
theorem receiveQuery_cases (h : Header) (payload : List Byte) (s : State) : receiveQuery h payload s = receiveFrame .query h payload s ∨
    receiveQuery h payload s = receiveFrame .query h payload { s with free := s.free + 1 } ∨
    (s.replyMeetsQuery h payload = true ∧
      receiveQuery h payload s = { queryAfterReply h payload s with free := (queryAfterReply h payload s).free + 1 }) := by
  unfold receiveQuery
  split
  · rename_i meets
    dsimp only
    split
    · exact .inr (.inr ⟨meets, rfl⟩)
    · exact .inr (.inl rfl)
  · exact .inl rfl

end Sys2Proof.Machine

namespace Sys2Proof.Proofs

open Sys2Proof.Machine

/-- Settles O37: the two orders of R217, each through the event of the QUERY. -/
theorem queryEntersSlot : Obligations.QueryEntersSlot := by
  unfold Obligations.QueryEntersSlot
  intro c h payload s target subject clear f reads mine delivered
  have receives : s.canReceive = true := delivered.elim (fun d => d.1) (fun d => d.1)
  have accepted : s.acceptance .query h payload = .accepted := delivered.elim (fun d => d.2.2.1) (fun d => d.2.2)
  have takes : (s.runMode = true ∧ s.senderForeign h = false) ∨ s.serviceMode = true :=
    delivered.imp (fun d => ⟨d.2.1, d.2.2.2.resolve_left nofun⟩) (fun d => d.2.1)
  have answers := exec_query (s := s) f
  rcases receiveQuery_cases h payload s with alone | before | ⟨meets, after⟩
  · rw [alone, receiveFrame_query receives] at answers
    have t := queryTaken_of_accepts (w := mediumEnds s) accepted reads mine takes
    exact ⟨_, t.slot, t.accepted, t.counters, t.owners, t.mode, t.zone, t.program, t.hazard, .inl ⟨answers, t.inFlight, t.free, t.full⟩⟩
  · rw [before, receiveFrame_query (s := { s with free := s.free + 1 }) receives] at answers
    have t := queryTaken_of_accepts (w := mediumEnds { s with free := s.free + 1 }) accepted reads mine takes
    exact ⟨_, t.slot, t.accepted, t.counters, t.owners, t.mode, t.zone, t.program, t.hazard, .inl ⟨answers, t.inFlight, t.free, t.full⟩⟩
  · obtain ⟨q, reply, slot, shape, medium, content, start⟩ := openedFirst_reply meets
    rw [after] at answers
    have t := queryTaken_of_accepts (w := openedFirst h s) (by rw [shape]; exact accepted) reads (by rw [shape]; exact mine)
      (by rw [shape]; exact takes)
    have event : queryAfterReply h payload s = endEvent .none (acceptFrame .query h payload (openedFirst h s)) := rfl
    rw [← event] at t
    generalize queryAfterReply h payload s = u at *
    generalize openedFirst h s = w at *
    obtain ⟨l, rfl⟩ : ∃ l, w = { s with lc := l, rp := { s.rp with slot := none, inFlight := some q } } := ⟨_, shape⟩
    obtain ⟨z1, z2, z3, z4, z5, z6, z7⟩ := t.zone
    obtain ⟨p1, p2, p3, p4, p5, p6⟩ := t.program
    obtain ⟨m1, m2⟩ := t.mode
    obtain ⟨h1, h2⟩ := t.hazard
    exact ⟨{ u with free := u.free + 1 }, t.slot, t.accepted, t.counters, t.owners, ⟨m1, m2⟩, ⟨z1, z2, z3, z4, z5, z6, z7⟩, ⟨p1, p2, p3, p4, p5, p6⟩, ⟨h1, h2⟩,
      .inr ⟨meets, answers, t.inFlight.trans slot.symm, t.free rfl, reply, (congrArg LinkController.medium t.lc).trans medium, content, start⟩⟩

end Sys2Proof.Proofs
end

section
/-! O40, O41 and O42: COMMIT and LOCK, the completion of a row, LINE_TEST (R116, R203, R204, R207 to R209). -/

namespace Sys2Proof.Machine

variable {s : State}

/-! ## The completion of a row (R207) -/

theorem exec_rowProgrammed {p : Programming} (up : s.supply = true) (commits : s.cs.commit = some p) :
    exec .rowProgrammed s = .next (rowDone p (advanceTo (p.start + 5000) s)) := by
  simp only [exec, execRowProgrammed, up, commits, Config.rowTime]

/-! ## LINE_TEST (R209) -/

/-- The test levels under the three masks, line by line. -/
theorem takeLineTest_level (set clear toggle : Word16) (s : State) (i : Line) : (takeLineTest set clear toggle s).lu.testLevels[i] =
    if (outputOf (s.image.lineFunction i)).isSome then
      (((s.lu.testLevels[i] || set.getLsbD i.val) && !clear.getLsbD i.val) != toggle.getLsbD i.val)
    else s.lu.testLevels[i] := lines_get _ i

theorem driven_setup (up : s.supply = true) (mode : s.zoneMode = .setup) {i : Line}
    (output : (outputOf (s.image.lineFunction i)).isSome = true) : s.driven i = some s.lu.testLevels[i] := by
  obtain ⟨f, carries⟩ := Option.isSome_iff_exists.1 output
  simp only [State.driven, carries, up, mode]
  rfl

theorem driven_halted (up : s.supply = true) (mode : s.zoneMode = .haltedConfig) {i : Line} {f : OutputFunction}
    (carries : outputOf (s.image.lineFunction i) = some f) : s.driven i = some (if f = .alert then true else s.lu.testLevels[i]) := by
  have driven : s.driven i = some (f == .alert || s.lu.testLevels[i]) := by
    simp only [State.driven, carries, up, mode]
    rfl
  rw [driven]
  by_cases alert : f = .alert
  · rw [alert]; rfl
  · rw [beq_eq_false_iff_ne.2 alert, if_neg alert, Bool.false_or]

end Sys2Proof.Machine

namespace Sys2Proof.Proofs

open Sys2Proof.Machine

/-- Settles O40: COMMIT and LOCK, each by its tests in their order. -/
theorem commitAndLockRule : Obligations.CommitAndLockRule := by
  unfold Obligations.CommitAndLockRule
  intro h payload s target lock delivered reads mine ⟨_, workingWf, _⟩
  cases lock with
  | false =>
    obtain ⟨rp, locked, busy, invalid, begins⟩ := takeCommit_cases s.asTaken
    obtain ⟨u, ends, store, counted, others⟩ := receiveFrame_setup_leaves (c := .commit) delivered reads mine rp
    have store : u.cs = (takeCommit s.asTaken).cs := store
    refine ⟨u, congrArg Host.Outcome.next ends, ⟨fun isLocked => ?_, fun opened committing => ?_, fun _ _ => nofun,
      fun opened idle _ fails => ?_, fun opened idle _ passes => ?_⟩, counted, others⟩
    · exact store.trans (congrArg State.cs (locked isLocked))
    · exact store.trans (congrArg State.cs (busy opened committing))
    · exact store.trans (congrArg State.cs (invalid opened idle fails))
    · rw [store, begins opened idle passes]
      exact beginProgramming_cs false s.cs.working s.asTaken workingWf
  | true =>
    obtain ⟨rp, locked, busy, differs, invalid, begins⟩ := takeLock_cases s.asTaken
    obtain ⟨u, ends, store, counted, others⟩ := receiveFrame_setup_leaves (c := .lock) delivered reads mine rp
    have store : u.cs = (takeLock s.asTaken).cs := store
    refine ⟨u, congrArg Host.Outcome.next ends, ⟨fun isLocked => ?_, fun opened committing => ?_, fun opened idle _ other => ?_,
      fun opened idle same fails => ?_, fun opened idle same passes => ?_⟩, counted, others⟩
    · exact store.trans (congrArg State.cs (locked isLocked))
    · exact store.trans (congrArg State.cs (busy opened committing))
    · exact store.trans (congrArg State.cs (differs opened idle other))
    · exact store.trans (congrArg State.cs (invalid opened idle (same rfl) fails))
    · rw [store, begins opened idle (same rfl) passes]
      exact beginProgramming_cs true (s.cs.working.write 253 0x5A) s.asTaken (Memory.write_wf _ 253 _ (by decide) workingWf)

/-- Settles O41: the row written, and the commit at the next row or ended. -/
theorem rowProgrammedRule : Obligations.RowProgrammedRule := by
  unfold Obligations.RowProgrammedRule
  intro s p up commits ⟨storedWf, _, rows⟩
  have stored := rowDone_stored p (advanceTo (p.start + 5000) s)
  have only := rowDone_only_cs p (advanceTo (p.start + 5000) s)
  refine ⟨_, exec_rowProgrammed up commits, ?_, fun b => ?_, fun before => ?_, fun last => ?_, ?_⟩
  · rw [only]; rfl
  · rw [stored]
    exact programRow_read p.row s.cs b (rows p commits) storedWf
  · rw [stored]
    exact rowDone_before p _ before
  · rw [stored]
    exact rowDone_last p _ last
  · rw [only]; rfl

/-- Settles O42: the levels under the masks, and the pins that follow them. -/
theorem lineTestRule : Obligations.LineTestRule := by
  unfold Obligations.LineTestRule
  intro h payload s target set clear toggle delivered reads mine
  have ends := receiveFrame_setup delivered target (.lineTest set clear toggle) reads mine
  have i := endEvent_internal .none (deliverSetup (.lineTest set clear toggle) s.asTaken)
  have up : s.supply = true := by
    have receives := delivered.1
    simp only [State.canReceive, Bool.and_eq_true] at receives
    exact receives.1.1
  generalize endEvent .none (deliverSetup (.lineTest set clear toggle) s.asTaken) = u at *
  have cs : u.cs = { s.cs with reply := some { status := .done, data := [] } } := i.cs
  have levels : u.lu.testLevels = (takeLineTest set clear toggle s.asTaken).lu.testLevels := i.testLevels
  have image : u.image = s.image := by unfold State.image; rw [cs]
  have supply : u.supply = true := i.supply.trans up
  obtain ⟨counted, others⟩ := setup_counts i (rfl : (takeLineTest set clear toggle s.asTaken).rp = s.asTaken.rp)
  refine ⟨u, congrArg Host.Outcome.next ends, cs, fun line => ?_, fun mode line output => ?_, fun mode line f carries => ?_, counted, others⟩
  · rw [levels]
    exact takeLineTest_level set clear toggle s.asTaken line
  · exact driven_setup supply (i.zoneMode.trans mode) (by rw [image]; exact output)
  · exact driven_halted supply (i.zoneMode.trans mode) (by rw [image]; exact carries)

end Sys2Proof.Proofs
end

section
/-! O43 to O46: the ends of the listen timer, of a peer's timers, of the intervals of a lost contact, of the panel's silence
(R83, R84, R88, R89, R92 to R94, R121, R122). -/

namespace Sys2Proof.Machine

variable {s : State} {k : Station}

/-! ## The listen timer (R88, R92) -/

/-- JOINING as the listen timer's end makes it. -/
def State.listened (s : State) (start : Nat) : State := becomeJoining (advanceTo (start + s.image.tListen) s)

theorem exec_listenTimer {start : Nat} (up : s.supply = true) (listens : s.mu.linkState = .listening) (runs : s.mu.listenStart = some start) :
    exec .listenTimerExpiry s = .next (endEvent .none (if (s.listened start).contactDeadline.any (fun d => d ≤ (s.listened start).now)
      then isolate .notHeardFrom (s.listened start) else s.listened start)) := by
  simp only [exec, execListenTimerExpiry, up, listens, runs]
  rfl

/-- The interval of R92 has run out as the listen timer ends. -/
theorem listened_lost (s : State) (start : Nat) : (s.listened start).contactDeadline.any (fun d => d ≤ (s.listened start).now) = true ↔
    ∃ d, s.contactDeadline = some d ∧ d ≤ max s.now (start + s.image.tListen) := by
  have deadline : (s.listened start).contactDeadline = s.contactDeadline := rfl
  have now : (s.listened start).now = max s.now (start + s.image.tListen) := rfl
  rw [deadline, now]
  cases s.contactDeadline with
  | none => simp
  | some d => simp

/-- In the JOINING that begins, the wait ends at once where no peer is PRESENT, and goes on where one is. -/
theorem listened_joinEnds (s : State) (start : Nat) : (s.listened start).joinEnds = true ↔ ∀ k : Station, s.mu.peers[k].state ≠ .present := by
  rw [joinEnds_iff]
  exact ⟨fun ends => ends.2.resolve_right fun done => done.1 rfl, fun none => ⟨rfl, .inl none⟩⟩

/-! ## The timers of a peer (R83, R84) -/

theorem exec_silenceTimer {last : Nat} (up : s.supply = true) (present : s.mu.peers[k].state = .present)
    (heard : s.mu.peers[k].lastPresence = some last) :
    exec (.silenceTimerExpiry k) s = .next (endEvent .none (peerSilent k (advanceTo (last + s.image.tSilent) s))) := by
  simp only [exec, execSilenceTimerExpiry, up, present, heard]

theorem exec_expiryTimer {last : Nat} (up : s.supply = true) (silent : s.mu.peers[k].state = .silent)
    (heard : s.mu.peers[k].lastPresence = some last) :
    exec (.expiryTimerExpiry k) s = .next (endEvent .none (peerAbsent k (advanceTo (last + s.image.tExpire) s))) := by
  simp only [exec, execExpiryTimerExpiry, up, silent, heard]

/-- The required set holds PRESENT peers alone. -/
theorem not_mem_requiredSet (notPresent : s.mu.peers[k].state ≠ .present) : k ∉ s.requiredSet := by
  intro m
  simp only [State.requiredSet, List.mem_filter, Bool.and_eq_true, beq_iff_eq] at m
  exact notPresent m.2.1

/-- The record of an ABSENT peer. -/
def PeerRecord.expired (r : PeerRecord) : PeerRecord :=
  { r with state := .absent, ackOfMe := none, restated := false, reportedLink := none, heardSet := none }

/-- An ABSENT peer's entry is emptied, the others stand. -/
theorem peerAbsent_owners (k : Station) (s : State) : ((peerAbsent k s).ct[k].applied = none ∧ (peerAbsent k s).ct[k].stale = false ∧
      (k ≠ s.me → (peerAbsent k s).ct[k].records = [])) ∧ s.SameOwners (peerAbsent k s) (· = k) := by
  have table : (removeOwner k (setPeer k s.mu.peers[k].expired s)).ct = setAt s.ct k OwnerEntry.empty := rfl
  have i : Internal (removeOwner k (setPeer k s.mu.peers[k].expired s)) (peerAbsent k s) := recomputeMarks_internal _
  have entries := i.entries
  have records := i.others
  rw [table] at entries records
  refine ⟨?_, fun j other => ?_⟩
  · have entry := entries k
    have none := records k
    rw [setAt_same] at entry none
    exact ⟨entry.1, entry.2, fun notMe => List.map_eq_nil_iff.1 (none notMe)⟩
  · have entry := entries j
    have same := records j
    rw [setAt_other _ _ _ _ (Ne.symm other)] at entry same
    exact ⟨entry.1, entry.2, same⟩

/-! ## The intervals of R92 and R93 -/

theorem exec_notHeardFrom {d : Nat} (up : s.supply = true) (part : s.takesPart = true) (deadline : s.contactDeadline = some d) :
    exec .notHeardFrom s = .next (endEvent .none (isolate .notHeardFrom (advanceTo d s))) := by
  simp only [exec, execNotHeardFrom, up, part, deadline, Bool.and_self]

theorem exec_notHeardBy {since : Nat} (up : s.supply = true) (part : s.takesPart = true) (runs : s.mu.notHeardBySince = some since) :
    exec .notHeardBy s = .next (endEvent .none (isolate .notHeardBy (advanceTo (since + s.image.tIsolate) s))) := by
  simp only [exec, execNotHeardBy, up, part, runs, Bool.and_self]

/-! ## The panel's silence (R121) -/

theorem exec_panelSilence {start : Nat} (up : s.supply = true) (runs : s.pd.silenceTimer = some start) :
    exec .panelSilence s = .next (endEvent .none (phaseEvaluated s.pd.phase (panelSilent (advanceTo (start + s.image.tPanel) s)))) := by
  simp only [exec, execPanelSilence, up, runs]

/-- A zone that fills, heats or runs pauses. -/
theorem panelSilent_pauses (s : State) (runs : s.pd.phase = .fillUp ∨ s.pd.phase = .heatUp ∨ s.pd.phase = .run) :
    panelSilent s = changePhase .pause { s with pd := { s.pd with silenceTimer := none, demand := .stop, silencePause := true } } := by
  rcases runs with phase | phase | phase <;> simp only [panelSilent, phase]

theorem panelSilent_stays (s : State) (rests : s.pd.phase = .off ∨ s.pd.phase = .pause ∨ s.pd.phase = .drainDown) :
    panelSilent s = { s with pd := { s.pd with silenceTimer := none } } := by
  rcases rests with phase | phase | phase <;> simp only [panelSilent, phase]

theorem panelSilent_writes (s : State) : panelSilent s = { s with pd := (panelSilent s).pd } ∧ (panelSilent s).pd.silenceTimer = none ∧
    (panelSilent s).pd.serial = s.pd.serial ∧
    (s.pd.phase = .fillUp ∨ s.pd.phase = .heatUp ∨ s.pd.phase = .run →
      (panelSilent s).pd.phase = .pause ∧ (panelSilent s).pd.demand = .stop ∧ (panelSilent s).pd.silencePause = true) ∧
    (s.pd.phase = .off ∨ s.pd.phase = .pause ∨ s.pd.phase = .drainDown → (panelSilent s).pd = { s.pd with silenceTimer := none }) := by
  by_cases runs : s.pd.phase = .fillUp ∨ s.pd.phase = .heatUp ∨ s.pd.phase = .run
  · have rests : ¬ (s.pd.phase = .off ∨ s.pd.phase = .pause ∨ s.pd.phase = .drainDown) := by
      rcases runs with phase | phase | phase <;> simp [phase]
    obtain ⟨writes, phase, demand, serial, pause, timer, -⟩ := changePhase_writes .pause
      { s with pd := { s.pd with silenceTimer := none, demand := .stop, silencePause := true } }
    rw [panelSilent_pauses s runs]
    exact ⟨writes, timer, serial, fun _ => ⟨phase, demand, pause⟩, fun is => absurd is rests⟩
  · have rests : s.pd.phase = .off ∨ s.pd.phase = .pause ∨ s.pd.phase = .drainDown := by
      cases phase : s.pd.phase <;> simp_all
    rw [panelSilent_stays s rests]
    exact ⟨rfl, rfl, rfl, fun is => absurd is runs, fun _ => rfl⟩

end Sys2Proof.Machine

namespace Sys2Proof.Proofs

open Sys2Proof.Machine

/-- Settles O43: JOINING or ISOLATED by the interval of R92, then the rest of the event. -/
theorem listenTimerEnds : Obligations.ListenTimerEnds := by
  unfold Obligations.ListenTimerEnds
  intro s start up listens runs
  have answers := exec_listenTimer up listens runs
  by_cases lost : (s.listened start).contactDeadline.any (fun d => d ≤ (s.listened start).now) = true
  · rw [if_pos lost] at answers
    have isolates := isolate_isolates .notHeardFrom (s.listened start)
    have now := isolate_now .notHeardFrom (s.listened start)
    generalize isolate .notHeardFrom (s.listened start) = v at *
    have i := endEvent_internal .none v
    have time : (endEvent .none v).now = max s.now (start + s.image.tListen) := i.now.trans now
    obtain ⟨gateStop, memory, -, -, stored, working, mode, pd, -⟩ := isolates.kept
    have program : s.pd = v.pd := pd.symm
    refine ⟨_, answers, time, fun _ _ _ => ⟨isolates.stays .none, i.isolationReason.trans isolates.link.2⟩, fun waits => ?_,
      i.zoneMode.trans mode, (congrArg ConfigStore.stored i.cs).trans stored, (congrArg ConfigStore.working i.cs).trans working, ?_,
      ⟨i.memory.trans memory, i.gateStop.trans gateStop⟩⟩
    · obtain ⟨d, deadline, reached⟩ := (listened_lost s start).1 lost
      rw [time] at waits
      exact absurd reached (Nat.not_le.2 (waits d deadline))
    · have kept := i.program
      unfold State.SameProgram at *
      rw [program]
      exact kept
  · rw [if_neg lost] at answers
    have i := endEvent_internal .none (s.listened start)
    have time : (endEvent .none (s.listened start)).now = max s.now (start + s.image.tListen) := i.now
    refine ⟨_, answers, time, fun d deadline reached => absurd ((listened_lost s start).2 ⟨d, deadline, time ▸ reached⟩) lost,
      fun _ => ⟨i.listenStart, i.peers, fun none => ?_, fun some => ⟨?_, i.joinRequestDone⟩, i.cs⟩, i.zoneMode, congrArg ConfigStore.stored i.cs,
      congrArg ConfigStore.working i.cs, i.program, i.hazardMemory⟩
    · exact endEvent_joined .none _ ((listened_joinEnds s start).2 none)
    · obtain ⟨k, present⟩ := some
      exact i.link.resolve_right fun ended => (listened_joinEnds s start).1 ended.1 k present

/-- Settles O44: the record as the timer leaves it, and the entry that expires with it. -/
theorem peerTimers : Obligations.PeerTimers := by
  unfold Obligations.PeerTimers
  refine ⟨fun s k last up present heard => ?_, fun s k last up silent heard => ?_⟩
  · have i := endEvent_internal .none (peerSilent k (advanceTo (last + s.image.tSilent) s))
    have peers : (endEvent .none (peerSilent k (advanceTo (last + s.image.tSilent) s))).mu.peers =
      setAt s.mu.peers k { s.mu.peers[k] with state := .silent } := i.peers
    refine ⟨_, exec_silenceTimer up present heard, i.now, ?_, not_mem_requiredSet ?_, fun j other => ?_, i.sameOwners _, i.sameCounters [], i.mode,
      i.zoneSide, i.program, i.hazardMemory, i.questions⟩
    · rw [peers, setAt_same]
    · rw [peers, setAt_same]; exact nofun
    · rw [peers, setAt_other _ _ _ _ (Ne.symm other)]
  · have i := endEvent_internal .none (peerAbsent k (advanceTo (last + s.image.tExpire) s))
    obtain ⟨⟨noneApplied, notStale, noRecords⟩, others⟩ := peerAbsent_owners k (advanceTo (last + s.image.tExpire) s)
    have peers : (endEvent .none (peerAbsent k (advanceTo (last + s.image.tExpire) s))).mu.peers =
      setAt s.mu.peers k s.mu.peers[k].expired := i.peers
    refine ⟨_, exec_expiryTimer up silent heard, i.now, ?_, (i.entries k).1.trans noneApplied, (i.entries k).2.trans notStale, fun notMe => ?_,
      fun j other => ?_, fun j other => ?_, i.sameCounters [], i.mode, i.zoneSide, i.program, i.hazardMemory, i.questions⟩
    · rw [peers, setAt_same]; rfl
    · have removed := i.others k notMe
      rw [noRecords notMe] at removed
      exact List.map_eq_nil_iff.1 removed
    · rw [peers, setAt_other _ _ _ _ (Ne.symm other)]
    · obtain ⟨applied, stale, records⟩ := others j other
      exact ⟨(i.entries j).1.trans applied, (i.entries j).2.trans stale, fun notMe => (i.others j notMe).trans (records notMe)⟩

/-- Settles O45: both intervals end in isolation; the first one's deadline and the second one's start and stop. -/
theorem lossOfContactIsolates : Obligations.LossOfContactIsolates := by
  unfold Obligations.LossOfContactIsolates
  refine ⟨fun s d up part deadline => ?_, fun s since up part runs => ?_, fun s => ⟨contactDeadline_disarmed s, contactDeadline_armed s⟩,
    fun tr s => ⟨notHeard_iff s, fun holds starts => ?_, fun since holds runs => ?_, fun fails => ?_⟩⟩
  · have isolates := isolate_isolates .notHeardFrom (advanceTo d s)
    exact ⟨_, exec_notHeardFrom up part deadline, isolates.before d, isolate_now .notHeardFrom (advanceTo d s), isolates.stays .none⟩
  · have isolates := isolate_isolates .notHeardBy (advanceTo (since + s.image.tIsolate) s)
    exact ⟨_, exec_notHeardBy up part runs, isolates.before _, isolate_now .notHeardBy (advanceTo _ s), isolates.stays .none⟩
  · rw [endEvent_watch, if_pos ((notHeard_iff s).2 holds), starts]; rfl
  · rw [endEvent_watch, if_pos ((notHeard_iff s).2 holds), runs]; rfl
  · rw [endEvent_watch, if_neg fun holds => fails ((notHeard_iff s).1 holds)]

/-- Settles O46: the Program Drive as `panelSilent` leaves it, through the rest of the event. -/
theorem panelSilencePauses : Obligations.PanelSilencePauses := by
  unfold Obligations.PanelSilencePauses
  intro s start up runs
  have answers := exec_panelSilence up runs
  obtain ⟨writes, timer, serial, pauses, rests⟩ := panelSilent_writes (advanceTo (start + s.image.tPanel) s)
  have i := (phaseEvaluated_internal s.pd.phase (panelSilent (advanceTo (start + s.image.tPanel) s))).trans (endEvent_internal .none _)
  generalize panelSilent (advanceTo (start + s.image.tPanel) s) = v at *
  generalize endEvent .none (phaseEvaluated s.pd.phase v) = t at *
  have now := i.now
  have peers := i.peers
  have owners := i.sameOwners fun _ => False
  have counters := i.sameCounters []
  have mode := i.mode
  have zone := i.zoneSide
  have hazard := i.hazardMemory
  have questions := i.questions
  rw [writes] at now peers owners counters mode zone hazard questions
  refine ⟨t, answers, now, i.silenceTimer.trans timer, fun runs => ?_, fun resting => ?_, i.serial.trans serial, fun j _ => by rw [peers]; rfl, owners,
    counters, mode, zone, hazard, questions⟩
  · obtain ⟨phase, demand, pause⟩ := pauses runs
    exact ⟨i.phase.trans phase, i.demand.trans demand, i.silencePause.trans pause⟩
  · have same := rests resting
    rw [i.phase, i.demand, i.silencePause, i.regulation, same]
    exact ⟨rfl, rfl, rfl, rfl⟩

end Sys2Proof.Proofs
end

section
/-! O47: when each detector runs, what it judges and what becomes of its detection (R137 to R147, R151, R152, R155). -/

namespace Sys2Proof.Machine

variable {s t u v : State} {f : FaultId} {n : Nat} {P Q : Prop}

theorem State.JudgesAtOnce.congr {lapsed gone : Prop} (j : u.JudgesAtOnce v f P lapsed) (holds : P ↔ Q) (lapses : lapsed ↔ gone) :
    u.JudgesAtOnce v f Q gone := propext holds ▸ propext lapses ▸ j

theorem State.JudgesSample.congr (j : u.JudgesSample v f n P) (holds : P ↔ Q) : u.JudgesSample v f n Q := propext holds ▸ j

/-! ## Conditions (R141 to R146) -/

theorem anyHeatOn_iff : s.anyHeatOn = true ↔ ∃ e : Element, (s.output (.heat e)).active = true := by
  have all : ∀ e : Element, e ∈ allElements := by decide
  unfold State.anyHeatOn
  rw [List.any_eq_true]
  exact exists_congr fun e => and_iff_right (all e)

theorem atOnce_dryHeat : s.atOnce .dryHeat = true ↔ s.dry .levelLow = true ∧ ∃ e : Element, (s.output (.heat e)).active = true := by
  rw [← anyHeatOn_iff]
  exact Bool.and_eq_true_iff

theorem lapsed_dryHeat : s.lapsed .dryHeat = true ↔ ¬ (s.dry .levelLow = true ∧ ∃ e : Element, (s.output (.heat e)).active = true) := by
  rw [← atOnce_dryHeat]
  unfold State.lapsed
  simp

theorem evalAtOnce_dryHeat (s : State) : s.JudgesAtOnce (evalAtOnce .dryHeat s) .dryHeat
    (s.dry .levelLow = true ∧ ∃ e : Element, (s.output (.heat e)).active = true)
    (¬ (s.dry .levelLow = true ∧ ∃ e : Element, (s.output (.heat e)).active = true)) :=
  (evalAtOnce_judges .dryHeat s).congr atOnce_dryHeat lapsed_dryHeat

theorem overLimit_iff (c : Channel) (limit : Int) (x : Sample) :
    overLimit c limit x = true ↔ x = .over ∨ ∃ n, validValue c x = some n ∧ limit ≤ n := by
  unfold overLimit
  rw [Bool.or_eq_true, beq_iff_eq]
  cases validValue c x <;> simp

theorem underLimit_iff (c : Channel) (limit : Int) (x : Sample) :
    underLimit c limit x = true ↔ x = .under ∨ ∃ n, validValue c x = some n ∧ n < limit := by
  unfold underLimit
  rw [Bool.or_eq_true, beq_iff_eq]
  cases validValue c x <;> simp

theorem sampleMeets_stuck (e : Element) (x : Sample) : s.sampleMeets (.elementStuck e) x = true ↔ (s.output (.heat e)).active = false ∧
    (x = .over ∨ ∃ n, validValue (currentChannel e) x = some n ∧ s.image.iOnMin ≤ n) := by
  rw [← overLimit_iff, ← Bool.not_eq_true']
  exact Bool.and_eq_true_iff

theorem sampleMeets_open (e : Element) (x : Sample) : s.sampleMeets (.elementOpen e) x = true ↔
    (s.output (.heat e)).active = true ∧ (s.output .heatIsolate).active = true ∧
      (x = .under ∨ ∃ n, validValue (currentChannel e) x = some n ∧ n < s.image.iOnMin) := by
  rw [← underLimit_iff, ← and_assoc, ← Bool.and_eq_true_iff]
  exact Bool.and_eq_true_iff

theorem sampleMeets_sensor (x : Sample) : s.sampleMeets .sensorFault x = true ↔ validValue 0 x = none := Option.isNone_iff_eq_none

theorem timerState_tempLow : s.timerState .tempLow = true ↔ s.pd.phase = .run ∧ ∃ t, s.latestValid 0 = some t ∧ t < s.image.tempMin := by
  unfold State.timerState
  rw [Bool.and_eq_true, beq_iff_eq]
  cases s.latestValid 0 <;> simp

theorem timerState_filterBlocked : s.timerState .filterBlocked = true ↔
    (s.output .pumpRun).active = true ∧ ∃ p, s.latestValid 1 = some p ∧ s.image.dpLimit ≤ p := by
  unfold State.timerState
  rw [Bool.and_eq_true]
  cases s.latestValid 1 <;> simp

theorem timerState_fillTimeout : s.timerState .fillTimeout = true ↔
    s.output .fillValve = { active := true, source := .program } ∧ s.wet .levelNormal = false := by
  unfold State.timerState
  rw [Bool.and_eq_true, beq_iff_eq, Bool.not_eq_true']

theorem timerState_drainTimeout : s.timerState .drainTimeout = true ↔
    s.output .drainValve = { active := true, source := .program } ∧ s.dry .levelLow = false := by
  unfold State.timerState
  rw [Bool.and_eq_true, beq_iff_eq, Bool.not_eq_true']

/-! ## Run conditions (R137, R138) -/

theorem onLink_iff : (s.zoneMode == .inService && s.mu.linkState == .joined) = true ↔ s.zoneMode = .inService ∧ s.mu.linkState = .joined := by
  rw [Bool.and_eq_true, beq_iff_eq, beq_iff_eq]

theorem carried_iff (function : LineFunction) : (!(linesOf s.image function).isEmpty) = true ↔ ∃ i : Line, s.image.lineFunction i = function := by
  rw [Bool.not_eq_true', List.isEmpty_eq_false_iff_exists_mem]
  exact exists_congr fun i => mem_linesOf s.image function i

theorem detectorRuns_iff (f : FaultId) : s.detectorRuns f = true ↔ match f with
    | .leak => s.cs.stage = .entered ∧ s.serviceMode = false
    | .elementStuck e => s.cs.stage = .entered ∧ s.serviceMode = false ∧ e.val < s.image.elementCount
    | .dryHeat => (s.zoneMode = .inService ∧ s.mu.linkState = .joined) ∧ ∃ i : Line, s.image.lineFunction i = .levelLow
    | .elementOpen e => (s.zoneMode = .inService ∧ s.mu.linkState = .joined) ∧ e.val < s.image.elementCount
    | .tempLow => (s.zoneMode = .inService ∧ s.mu.linkState = .joined) ∧ s.image.tempCritical = true
    | _ => s.zoneMode = .inService ∧ s.mu.linkState = .joined := by
  have inService : (s.cs.stage == .entered && !s.serviceMode) = true ↔ s.cs.stage = .entered ∧ s.serviceMode = false := by
    rw [Bool.and_eq_true, beq_iff_eq, Bool.not_eq_true']
  have counted : ∀ g, elementCounted s.image g = true ↔ faultElement g ≤ s.image.elementCount := fun g => decide_eq_true_iff
  cases f with
  | leak => exact inService
  | elementStuck e => exact Bool.and_eq_true_iff.trans ((and_congr inService (counted (.elementStuck e))).trans and_assoc)
  | dryHeat => exact Bool.and_eq_true_iff.trans (and_congr onLink_iff (carried_iff .levelLow))
  | elementOpen e => exact Bool.and_eq_true_iff.trans (and_congr onLink_iff (counted (.elementOpen e)))
  | tempLow => exact Bool.and_eq_true_iff.trans (and_congr onLink_iff .rfl)
  | sensorFault | fillTimeout | drainTimeout | filterBlocked => exact onLink_iff

theorem runDetector_goesOn (running : (s.detector f).state ≠ .stopped) (runs : s.detectorRuns f = true) : runDetector s f = s := by
  unfold runDetector
  rw [runs]
  cases state : (s.detector f).state with
  | stopped => exact absurd state running
  | _ => rfl

theorem runDetector_stops (running : (s.detector f).state ≠ .stopped) (ends : s.detectorRuns f = false) :
    runDetector s f = setDetector f Detector.off s := by
  unfold runDetector
  rw [ends]
  cases state : (s.detector f).state with
  | stopped => exact absurd state running
  | _ => rfl

theorem runDetector_rests (stopped : (s.detector f).state = .stopped) (ends : s.detectorRuns f = false) : runDetector s f = s := by
  unfold runDetector
  rw [stopped, ends]

theorem runDetector_starts (stopped : (s.detector f).state = .stopped) (runs : s.detectorRuns f = true) :
    runDetector s f = evalDetector f (setDetector f Detector.fresh s) := by
  unfold runDetector
  rw [stopped, runs]

theorem changeZoneMode_detector (mode : ZoneMode) (f : FaultId) (s : State) :
    (changeZoneMode mode s).detector f = { s.detector f with count := 0, timer := none } := mapAll_get _ _ _

/-! ## The timed detectors (R146, R155) -/

theorem evalTimed_stopped (stopped : (s.detector f).state = .stopped) : evalTimed f s = s := by
  unfold evalTimed
  dsimp only
  rw [stopped]

theorem evalTimed_lapses (watching : (s.detector f).state = .watching) (lapsed : s.timerState f = false) :
    evalTimed f s = setDetector f { s.detector f with timer := none } s := by
  unfold evalTimed
  dsimp only
  rw [watching]
  rw [if_neg (Bool.eq_false_iff.1 lapsed)]

theorem evalTimed_starts (watching : (s.detector f).state = .watching) (holds : s.timerState f = true) (still : (s.detector f).timer = none) :
    evalTimed f s = setDetector f { s.detector f with timer := some s.now } s := by
  unfold evalTimed
  dsimp only
  rw [watching]
  dsimp only
  rw [if_pos holds, still]

theorem evalTimed_runs {start : Nat} (watching : (s.detector f).state = .watching) (holds : s.timerState f = true)
    (running : (s.detector f).timer = some start) :
    evalTimed f s = if s.fd.unrecorded.contains f = true ∧ start + detectorTime s.image f ≤ s.now then submit f s else s := by
  unfold evalTimed
  dsimp only
  rw [watching]
  dsimp only
  rw [if_pos holds, running]
  dsimp only
  simp only [Bool.and_eq_true, decide_eq_true_eq]

theorem evalTimed_latched (latched : (s.detector f).state = .latched) :
    evalTimed f s = if s.timerState f = true then s else setDetector f Detector.fresh s := by
  unfold evalTimed
  dsimp only
  rw [latched]

theorem timerFault_notLeak {c : Instr} (ends : timerFault c = some f) : f ≠ .leak := by
  rintro rfl
  cases c <;> simp [timerFault] at ends

/-! ## Outputs handed to the detectors (R106) -/

theorem handOutputs_judges (s : State) :
    let t := resolveOutputs s
    let changed := fun g : OutputFunction => (s.output g).active ≠ (t.output g).active
    let heat := if changed (.heat 0) ∨ changed (.heat 1) ∨ changed (.heat 2) then evalAtOnce .dryHeat t else t
    let fill := if s.output .fillValve ≠ t.output .fillValve then evalTimed .fillTimeout heat else heat
    let drain := if s.output .drainValve ≠ t.output .drainValve then evalTimed .drainTimeout fill else fill
    handOutputs s = if changed .pumpRun then evalTimed .filterBlocked drain else drain := by
  simp only [handOutputs, evalOutputs, heatLines, List.any_cons, List.any_nil, Bool.or_false, Bool.or_eq_true, bne_iff_ne]
  rfl

/-! ## A sample arrival (R105, R142, R144, R145) -/

theorem exec_sampleArrival {c : Channel} {p : Presented} (reads : s.reads = true) :
    exec (.sampleArrival c p) s = .next (endEvent (.sample c) (countValid c (sampleOf p)
      (if c = 0 then judgeRegulation (evalArrival c (sampleOf p) (storeSample c (sampleOf p) s))
        else evalArrival c (sampleOf p) (storeSample c (sampleOf p) s)))) := by
  simp only [exec, execSampleArrival, reads, if_true]
  rfl

theorem evalArrival_current (e : Element) (x : Sample) (s : State) :
    evalArrival (currentChannel e) x s = evalSample (.elementOpen e) x (evalSample (.elementStuck e) x s) := by
  have element : channelElement (currentChannel e) = some e := by
    unfold channelElement currentChannel
    rw [dif_pos (Nat.le_add_left 2 e.val)]
    exact congrArg some (Fin.ext (Nat.add_sub_cancel e.val 2))
  unfold evalArrival
  rw [element]

/-! ## The submission of an Unrecorded fault (R155) -/

/-- With room for a record one is made and the fault leaves the Unrecorded set; the detector latches where it runs. -/
theorem submit_recorded (waits : s.fd.unrecorded.contains f = true) (created : (submitRecord f s).2 = .created) :
    submit f s = latch f { (submitRecord f s).1 with fd := { (submitRecord f s).1.fd with
      unrecorded := (submitRecord f s).1.fd.unrecorded.erase f } } := by
  unfold submit afterSubmit
  rw [created, waits]
  rfl

theorem submitRecord_created (new : s.rs.incidents.find? (matchesFault f) = none)
    (room : s.rs.incidents.length < 8 ∨ s.rs.incidents.find? isCleared ≠ none) : (submitRecord f s).2 = .created ∧
    (submitRecord f s).1 = { s with rs := (submitRecord f s).1.rs, rp := (submitRecord f s).1.rp } := by
  unfold submitRecord
  rw [new]
  dsimp only
  split
  · exact ⟨rfl, rfl⟩
  · rename_i full
    cases cleared : s.rs.incidents.find? isCleared with
    | none => exact absurd cleared (room.resolve_left full)
    | some old => exact ⟨rfl, rfl⟩

theorem latch_eq (f : FaultId) (s : State) : latch f s = { s with fd := (latch f s).fd } ∧ (latch f s).fd.unrecorded = s.fd.unrecorded ∧
    ((latch f s).detector f).state = if (s.detector f).state = .stopped then .stopped else .latched := by
  unfold latch
  split
  · rename_i stopped
    exact ⟨rfl, rfl, stopped⟩
  · refine ⟨rfl, rfl, ?_⟩
    rw [setDetector_get]
    rfl

/-- An Unrecorded fault that finds room. -/
theorem submit_unrecorded (waits : s.fd.unrecorded.contains f = true) (new : s.rs.incidents.find? (matchesFault f) = none)
    (room : s.rs.incidents.length < 8 ∨ s.rs.incidents.find? isCleared ≠ none) :
    (submit f s).rs = (submitRecord f s).1.rs ∧ (submit f s).fd.unrecorded = s.fd.unrecorded.erase f ∧
    ((submit f s).detector f).state = (if (s.detector f).state = .stopped then .stopped else .latched) ∧
    (submit f s).hz = s.hz ∧ (submit f s).oc = s.oc ∧ (submit f s).ct = s.ct ∧ (submit f s).pd = s.pd ∧ (submit f s).lu = s.lu ∧
    (submit f s).mu = s.mu := by
  obtain ⟨created, writes⟩ := submitRecord_created new room
  rw [submit_recorded waits created]
  generalize (submitRecord f s).1 = t at *
  obtain ⟨shape, unrecorded, state⟩ := latch_eq f { t with fd := { t.fd with unrecorded := t.fd.unrecorded.erase f } }
  generalize latch f _ = v at *
  have detector : ({ t with fd := { t.fd with unrecorded := t.fd.unrecorded.erase f } } : State).detector f = s.detector f := by rw [writes]; rfl
  rw [detector] at state
  refine ⟨by rw [shape], unrecorded.trans (by rw [writes]), state, ?_, ?_, ?_, ?_, ?_, ?_⟩ <;> rw [shape, writes]

/-- A full list without a CLEARED record takes no Unrecorded fault. -/
theorem submit_full (waits : s.fd.unrecorded.contains f = true) (new : s.rs.incidents.find? (matchesFault f) = none)
    (full : 8 ≤ s.rs.incidents.length) (noCleared : s.rs.incidents.find? isCleared = none) : submit f s = s := by
  have placed : submitRecord f s = (s, .unchanged) := by
    unfold submitRecord
    rw [new]
    dsimp only
    rw [if_neg (show ¬ s.rs.incidents.length < Config.maxIncidents from Nat.not_lt.2 full), noCleared]
    dsimp only
    rw [if_pos waits]
  unfold submit
  rw [placed]
  rfl

end Sys2Proof.Machine

namespace Sys2Proof.Proofs

open Sys2Proof.Machine

/-- Settles O47: each detector's run condition and judgement, the commands that bring them about, the Unrecorded set. -/
theorem timedDetection : Obligations.TimedDetection := by
  unfold Obligations.TimedDetection
  refine ⟨fun c f s start ends up watching running fresh => ?_, fun c f s start => detectorTimer_runs c f s start,
    fun s i start up running changed => ⟨fun carries => ?_, fun carries => ?_, fun carries => ?_⟩,
    fun s c p reads => ⟨fun e is => ?_, fun is => ?_, fun is => ?_⟩,
    fun s => ⟨detectorRuns_iff, runDetectors_stopped s, fun _ => runDetector_goesOn, fun _ => runDetector_stops, fun _ => runDetector_rests,
      fun f stopped runs => (runDetector_starts stopped runs).trans (by cases f <;> rfl), rfl, evalAtOnce_judges .leak s, evalAtOnce_dryHeat s,
      fun mode f => changeZoneMode_detector mode f s⟩,
    fun s => ⟨timerState_tempLow, timerState_fillTimeout, timerState_drainTimeout, timerState_filterBlocked, rfl,
      fun f => ⟨evalTimed_stopped, evalTimed_lapses, evalTimed_starts, fun _ => evalTimed_runs, evalTimed_latched⟩, fun _ => rfl,
      handOutputs_judges s⟩,
    fun s f waits new => ⟨submit_unrecorded waits new, submit_full waits new⟩,
    fun s => ⟨rfl, fun id r found cleared => ?_⟩⟩
  · have answers := detectorTimer_runs c f s start ends up watching running
    have runs : (({ s with now := max s.now (start + detectorTime s.image f) } : State).detector f).state ≠ .stopped := by
      intro stopped
      exact nomatch stopped.symm.trans watching
    have detects := submit_detects f runs fresh
    obtain ⟨now, oc, ct, mu, cs, pd, ms, lu⟩ := detects.kept
    exact ⟨_, answers, now, detects.latched, oc, ct, mu, cs, pd, ms, lu, detects.notice.trans (if_neg fun leak => timerFault_notLeak ends leak.1)⟩
  · have answers := lineChange_runs i start s up running changed
    rw [carries] at answers
    exact ⟨_, answers, evalAtOnce_judges .leak _⟩
  · have answers := lineChange_runs i start s up running changed
    rw [carries] at answers
    exact ⟨_, answers, evalAtOnce_dryHeat _⟩
  · have answers := lineChange_runs i start s up running changed
    rw [carries] at answers
    exact answers
  · have answers := exec_sampleArrival (c := c) (p := p) reads
    have notFirst : c ≠ 0 := by
      rintro rfl
      exact absurd (congrArg Fin.val is) (by simp [currentChannel])
    rw [if_neg notFirst, countValid_elsewhere c _ (.inr notFirst)] at answers
    subst is
    rw [evalArrival_current] at answers
    refine ⟨_, _, answers, (evalSample_judges (.elementStuck e) (sampleOf p) _).congr (sampleMeets_stuck e _),
      (evalSample_judges (.elementOpen e) (sampleOf p) _).congr ?_⟩
    rw [sampleMeets_open, evalSample_image]
    rfl
  · subst is
    have answers := exec_sampleArrival (c := 0) (p := p) reads
    exact ⟨_, answers, (evalSample_judges .sensorFault (sampleOf p) _).congr (sampleMeets_sensor _)⟩
  · subst is
    have answers := exec_sampleArrival (c := 1) (p := p) reads
    rw [if_neg (by decide), countValid_elsewhere 1 _ (.inr (by decide))] at answers
    exact answers
  · obtain ⟨outcome, state⟩ : ∃ outcome, r.state = .cleared outcome := by
      cases state : r.state with
      | cleared outcome => exact ⟨outcome, rfl⟩
      | _ => simp [isCleared, state] at cleared
    exact acknowledge_cleared found state

end Sys2Proof.Proofs
end

section
/-! O48: a submission placed in the Incident List, the id of a new record, and arbitration (R150 to R152, R161 to R164). -/

namespace Sys2Proof.Machine

variable {s : State} {f : FaultId} {r a : Incident}

/-! ## Submission (R151, R152) -/

theorem submitRecord_recurs (found : s.rs.incidents.find? (matchesFault f) = some r) :
    (submitRecord f s).1 = updateRecord r.id (fun q => { q with recurrences := min (q.recurrences + 1) 255 }) s := by
  unfold submitRecord
  rw [found]

theorem submitRecord_room (new : s.rs.incidents.find? (matchesFault f) = none) (room : s.rs.incidents.length < 8) :
    (submitRecord f s).1 = createRecord f .pending 0 false s := by
  unfold submitRecord
  rw [new]
  dsimp only
  rw [if_pos (show s.rs.incidents.length < Config.maxIncidents from room)]

theorem submitRecord_replaces {old : Incident} (new : s.rs.incidents.find? (matchesFault f) = none) (full : ¬ s.rs.incidents.length < 8)
    (cleared : s.rs.incidents.find? isCleared = some old) : (submitRecord f s).1 = createRecord f .pending 0 false (removeRecord old.id s) := by
  unfold submitRecord
  rw [new]
  dsimp only
  rw [if_neg (show ¬ s.rs.incidents.length < Config.maxIncidents from full), cleared]

theorem submitRecord_joins (new : s.rs.incidents.find? (matchesFault f) = none) (full : ¬ s.rs.incidents.length < 8)
    (noCleared : s.rs.incidents.find? isCleared = none) : (submitRecord f s).1.rs = s.rs ∧ (submitRecord f s).1.fd.unrecorded =
      if s.fd.unrecorded.contains f then s.fd.unrecorded else s.fd.unrecorded ++ [f] := by
  unfold submitRecord
  rw [new]
  dsimp only
  rw [if_neg (show ¬ s.rs.incidents.length < Config.maxIncidents from full), noCleared]
  dsimp only
  split
  · exact ⟨rfl, rfl⟩
  · exact ⟨rfl, rfl⟩

/-- A record made is the last of the list, under the new id, and counted (R149, R150). -/
theorem createRecord_pending (f : FaultId) (s : State) : (createRecord f .pending 0 false s).rs.incidents = s.rs.incidents ++ [{
      id := s.newId, fault := f, state := .pending, attempts := 0, detectedAt := s.now / 1000, recurrences := 0, carried := false }] ∧
    (createRecord f .pending 0 false s).rs.nextId = (if 255 ≤ s.newId then 1 else s.newId + 1) ∧
    s.Counted (createRecord f .pending 0 false s) .incidentsRaised := ⟨rfl, rfl, count_same .incidentsRaised _⟩

/-! ## Arbitration (R161 to R164) -/

theorem mayRecover_iff : s.mayRecover = true ↔ s.zoneMode = .inService ∧ s.mu.linkState = .joined := by
  unfold State.mayRecover
  rw [Bool.and_eq_true, beq_iff_eq, beq_iff_eq]

theorem mayRecover_barred (barred : s.zoneMode ≠ .inService ∨ s.mu.linkState ≠ .joined) : s.mayRecover = false :=
  Bool.eq_false_iff.2 fun run =>
    barred.elim (fun away => away (mayRecover_iff.1 run).1) (fun away => away (mayRecover_iff.1 run).2)

/-- The record that returns to PENDING with its step ended. -/
def State.pendingAgain (s : State) (a : Incident) (step : Step) : State :=
  endStep a.id step (updateRecord a.id (fun q => { q with state := .pending }) s)

theorem pendingAgain_incidents (s : State) (a : Incident) (step : Step) : (s.pendingAgain a step).rs.incidents =
    s.rs.incidents.map (fun q => if q.id = a.id then { q with state := .pending } else q) := endStep_incidents _ _ _

theorem pendingAgain_image (s : State) (a : Incident) (step : Step) : (s.pendingAgain a step).image = s.image :=
  (congrArg ConfigStore.working (endStep_claimed a.id step (updateRecord a.id (fun q => { q with state := .pending }) s)).cs :)

end Sys2Proof.Machine

namespace Sys2Proof.Proofs

open Sys2Proof.Machine

/-- Settles O48: the four places of a submission, the id of R150, and the five outcomes of arbitration. -/
theorem submissionPlaced : Obligations.SubmissionPlaced := by
  unfold Obligations.SubmissionPlaced
  refine ⟨matchesFault_iff, fun f s => ⟨fun r => submitRecord_recurs, fun new room => ?_, fun old new full cleared => ?_, submitRecord_joins⟩,
    newId_first, fun s r before behind inService joined list pending lower least => ?_, fun s inService joined none => ?_,
    fun s barred => ⟨?_, fun a step active state => ?_⟩⟩
  · rw [submitRecord_room new room]
    exact createRecord_pending f s
  · rw [submitRecord_replaces new full cleared]
    exact ⟨rfl, createRecord_pending f (removeRecord old.id s)⟩
  · have run := mayRecover_iff.2 ⟨inService, joined⟩
    have best : bestPending s.rs.incidents = some r := list ▸ bestPending_first before behind pending lower least
    refine ⟨fun idle => ?_, fun a step active state rank => ?_, fun a active rank => arbitrate_keeps run best active rank⟩
    · have starts := arbitrate_starts run best idle
      exact ⟨(congrArg (fun x : State × Trigger => x.1.rs.incidents) starts).trans (activate_incidents r s), starts⟩
    · have replaces : arbitrate s = (activate r (s.pendingAgain a step), .start) := arbitrate_replaces run best active state rank
      refine ⟨(congrArg (fun x : State × Trigger => x.1.rs.incidents) replaces).trans ?_, replaces⟩
      rw [activate_incidents, pendingAgain_incidents, pendingAgain_image]
  · exact arbitrate_idle (mayRecover_iff.2 ⟨inService, joined⟩) (bestPending_none _ none)
  · exact arbitrate_barred (mayRecover_barred barred)
  · have suspends : arbitrate s = (s.pendingAgain a step, .none) := arbitrate_suspends (mayRecover_barred barred) active state
    exact ⟨(congrArg (fun x : State × Trigger => x.1.rs.incidents) suspends).trans (pendingAgain_incidents s a step), suspends⟩

end Sys2Proof.Proofs
end

section
/-! The steps of the procedures: their timers, completion and failure, the judgement and what it carries out (R165 to R180). -/

namespace Sys2Proof.Machine

variable {s t : State} {id : Nat} {fault : FaultId} {step : Step} {tr : Trigger} {since : Nat}

/-! ## The ends of the step's timers -/

theorem exec_stepTimer (up : s.supply = true) (active : s.activeStep = some (id, fault, step)) (runs : s.rs.stepSince = some since) :
    exec .stepTimerExpiry s = .next (endEvent .timer (advanceTo (since + (stepDuration s.image step - s.rs.stepElapsed)) s)) := by
  simp only [exec, execStepTimerExpiry, up, active, runs]

theorem exec_dryTimer (up : s.supply = true) (active : s.activeStep = some (id, fault, .leakDryWait)) (runs : s.rs.dryTimer = some since) :
    exec .dryTimerExpiry s = .next (endEvent .none (advanceTo (since + s.image.tDry) s)) := by
  simp only [exec, execDryTimerExpiry, up, active, runs]

theorem stepTime_running (runs : s.rs.stepSince = some since) : s.stepTime = s.rs.stepElapsed + (s.now - since) := by
  unfold State.stepTime
  rw [runs]

theorem stepTime_waiting (waits : s.rs.stepSince = none) : s.stepTime = s.rs.stepElapsed := by
  unfold State.stepTime
  rw [waits]
  rfl

/-! ## Usable claims and the two timers (R166) -/

/-- A step with a claim of its own, or none. -/
theorem claimsUsable_own (notBoost : step ≠ .boost) (notRetest : step ≠ .openRetest) : s.claimsUsable id fault step = true ↔
    ∀ resource cls, stepClaim step = some (resource, cls) → ∃ c, s.ownClaim resource (.step id) = some c ∧ 0 < c.usable := by
  have shape : s.claimsUsable id fault step = match stepClaim step with
      | some (resource, _) => match s.ownClaim resource (.step id) with
        | some c => decide (0 < c.usable)
        | none => false
      | none => true := by
    unfold State.claimsUsable
    split
    · exact absurd rfl notBoost
    · exact absurd rfl notRetest
    · rfl
  rw [shape]
  cases stepClaim step with
  | none => exact ⟨fun _ _ _ => nofun, fun _ => rfl⟩
  | some x =>
    obtain ⟨resource, cls⟩ := x
    dsimp only
    constructor
    · intro usable resource' cls' e
      cases e
      cases own : s.ownClaim resource (.step id) with
      | none => rw [own] at usable; exact nomatch usable
      | some c => rw [own] at usable; exact ⟨c, rfl, of_decide_eq_true usable⟩
    · intro all
      obtain ⟨c, own, positive⟩ := all resource cls rfl
      rw [own]
      exact decide_eq_true positive

theorem claimsUsable_boost : s.claimsUsable id fault .boost = true ↔
    ∃ c, s.ownClaim .heat .program = some c ∧ c.boosted = true ∧ 0 < c.usable := by
  show (match s.ownClaim .heat .program with
    | some c => c.boosted && decide (0 < c.usable)
    | none => false) = true ↔ _
  cases s.ownClaim .heat .program <;> simp

theorem claimsUsable_retest : s.claimsUsable id fault .openRetest = true ↔
    ∃ c e, s.ownClaim .heat .program = some c ∧ fault = .elementOpen e ∧ 0 < c.usable ∧ s.image.rating e ≤ c.usable := by
  show (match s.ownClaim .heat .program, fault with
    | some c, .elementOpen e => decide (0 < c.usable) && decide (s.image.rating e ≤ c.usable)
    | _, _ => false) = true ↔ _
  cases s.ownClaim .heat .program with
  | none => simp
  | some c => cases fault <;> simp

theorem claimsUsable_iff (s : State) (id : Nat) (fault : FaultId) (step : Step) : s.claimsUsable id fault step = true ↔ match step with
    | .boost => ∃ c, s.ownClaim .heat .program = some c ∧ c.boosted = true ∧ 0 < c.usable
    | .openRetest => ∃ c e, s.ownClaim .heat .program = some c ∧ fault = .elementOpen e ∧ 0 < c.usable ∧ s.image.rating e ≤ c.usable
    | _ => ∀ resource cls, stepClaim step = some (resource, cls) → ∃ c, s.ownClaim resource (.step id) = some c ∧ 0 < c.usable := by
  split
  · exact claimsUsable_boost
  · exact claimsUsable_retest
  · rename_i notBoost notRetest
    exact claimsUsable_own notBoost notRetest

theorem stepTimers_idle (idle : s.activeStep = none) : Machine.stepTimers s = s := by
  unfold Machine.stepTimers
  rw [idle]

/-- The dry timer after the claims have been judged (R172). -/
def State.dryAfter (s : State) (step : Step) : Option Nat :=
  if step = .leakDryWait ∧ s.dry .leakProbe = true then some (s.rs.dryTimer.getD s.now) else none

theorem stepTimers_active (active : s.activeStep = some (id, fault, step)) : Machine.stepTimers s =
    if s.claimsUsable id fault step = true then
      { s with rs := { s.rs with stepSince := some (s.rs.stepSince.getD s.now), claimWait := none, dryTimer := s.dryAfter step } }
    else { s with rs := { s.rs with
      stepElapsed := s.stepTime, stepSince := none, claimWait := some (s.rs.claimWait.getD s.now), dryTimer := s.dryAfter step } } := by
  have dry : (if step = .leakDryWait && s.dry .leakProbe then some (s.rs.dryTimer.getD s.now) else none) = s.dryAfter step := by
    unfold State.dryAfter
    simp only [Bool.and_eq_true, decide_eq_true_eq]
  unfold Machine.stepTimers
  rw [active]
  dsimp only
  rw [dry]

/-- The step timer goes on from where it stood. -/
theorem stepTime_goesOn (elapsed : t.rs.stepElapsed = s.rs.stepElapsed) (runs : t.rs.stepSince = some (s.rs.stepSince.getD s.now))
    (past : ∀ since, s.rs.stepSince = some since → since ≤ s.now) {later : Nat} (now : t.now = s.now + later) :
    t.stepTime = s.stepTime + later := by
  rw [stepTime_running runs, elapsed, now]
  cases stood : s.rs.stepSince with
  | none =>
    rw [stepTime_waiting stood]
    show s.rs.stepElapsed + (s.now + later - s.now) = _
    omega
  | some since =>
    have le := past since stood
    rw [stepTime_running stood]
    show s.rs.stepElapsed + (s.now + later - since) = _
    omega

/-! ## Completion and failure (R172 to R180) -/

theorem stepCompletes_iff (s : State) (step : Step) : s.stepCompletes step = true ↔ match step with
    | .leakDrain | .drainDrain => s.dry .levelLow = true
    | .leakDryWait => ∃ start, s.rs.dryTimer = some start ∧ start + s.image.tDry ≤ s.now
    | .leakRefill | .dryRefill | .fillRefill | .filterTopUp => s.wet .levelNormal = true
    | .leakVerify => stepDuration s.image step ≤ s.stepTime ∧ s.dry .leakProbe = true ∧ s.wet .levelNormal = true
    | .dryVerify | .openRest | .fillRest | .drainRest | .filterStop | .filterBackflush | .filterVerify =>
      stepDuration s.image step ≤ s.stepTime
    | .waitValid => 50 ≤ s.rs.validCount
    | .boost => ∃ t, s.latestValid 0 = some t ∧ s.image.tempMin + s.image.hysteresis ≤ t
    | .cutCheck | .openRetest => False := by
  cases step with
  | leakDrain | drainDrain | leakRefill | dryRefill | fillRefill | filterTopUp => exact .rfl
  | dryVerify | openRest | fillRest | drainRest | filterStop | filterBackflush | filterVerify | waitValid => exact decide_eq_true_iff
  | cutCheck | openRetest => exact ⟨nofun, nofun⟩
  | leakVerify =>
    refine Bool.and_eq_true_iff.trans ((and_congr_left fun _ => Bool.and_eq_true_iff.trans (and_congr_left fun _ => decide_eq_true_iff)).trans ?_)
    exact and_assoc
  | leakDryWait =>
    show (match s.rs.dryTimer with
      | some t => decide (t + s.image.tDry ≤ s.now)
      | none => false) = true ↔ _
    cases s.rs.dryTimer <;> simp
  | boost =>
    show (match s.latestValid 0 with
      | some t => decide (s.image.tempMin + s.image.hysteresis ≤ t)
      | none => false) = true ↔ _
    cases s.latestValid 0 <;> simp

theorem overfilled_iff : s.overfilled = true ↔ s.wet .levelHigh = true ∧ s.dry .levelNormal = true := Bool.and_eq_true_iff

theorem stepFails_iff (s : State) (step : Step) (tr : Trigger) : s.stepFails step tr = true ↔ match step with
    | .leakRefill => s.wet .leakProbe = true ∨ (s.wet .levelHigh = true ∧ s.dry .levelNormal = true)
    | .leakVerify => s.wet .leakProbe = true ∨ s.dry .levelLow = true
    | .dryRefill | .fillRefill | .filterTopUp => s.wet .levelHigh = true ∧ s.dry .levelNormal = true
    | .dryVerify => s.dry .levelLow = true
    | .filterVerify => (tr = .start ∨ tr = .sample 1) ∧ (s.output .pumpRun).active = true ∧
        ∃ p, s.latestValid 1 = some p ∧ s.image.dpLimit ≤ p
    | _ => False := by
  cases step with
  | leakRefill => exact Bool.or_eq_true_iff.trans (or_congr_right overfilled_iff)
  | leakVerify => exact Bool.or_eq_true_iff
  | dryRefill | fillRefill | filterTopUp => exact overfilled_iff
  | dryVerify => exact .rfl
  | filterVerify =>
    show ((tr == .start || tr == .sample 1) && (s.output .pumpRun).active && (match s.latestValid 1 with
      | some p => decide (s.image.dpLimit ≤ p)
      | none => false)) = true ↔ _
    cases s.latestValid 1 <;> simp [and_assoc]
  | _ => exact ⟨nofun, nofun⟩

/-! ## The judgement (R167, R168) -/

theorem judgement_unsampled (unsampled : s.elementVerdict fault step tr = none) :
    s.judgement fault step tr = firstJudged s.free (s.stepCompletes step) (s.failureVerdict step tr) := by
  unfold State.judgement
  rw [unsampled]

theorem judgement_sampled {v : Verdict} (sampled : s.elementVerdict fault step tr = some v) : s.judgement fault step tr = v := by
  unfold State.judgement
  rw [sampled]

theorem failureVerdict_fails (fails : s.stepFails step tr = true) : s.failureVerdict step tr = .attemptFails := if_pos fails

theorem failureVerdict_limit (holds : s.stepFails step tr = false) (limit : tr = .timer ∧ stepDuration s.image step ≤ s.stepTime) :
    s.failureVerdict step tr = limitVerdict step := by
  refine (if_neg (Bool.eq_false_iff.1 holds)).trans (if_pos ?_)
  rw [Bool.and_eq_true, decide_eq_true_eq, decide_eq_true_eq]
  exact limit

theorem failureVerdict_stay (holds : s.stepFails step tr = false) (under : ¬ (tr = .timer ∧ stepDuration s.image step ≤ s.stepTime)) :
    s.failureVerdict step tr = .stay := by
  refine (if_neg (Bool.eq_false_iff.1 holds)).trans (if_neg ?_)
  rw [Bool.and_eq_true, decide_eq_true_eq, decide_eq_true_eq]
  exact under

theorem firstJudged_alone (free : Nat) (v : Verdict) : firstJudged free false v = v := rfl

theorem firstJudged_stay (free : Nat) : firstJudged free true .stay = .complete := rfl

theorem firstJudged_either (free : Nat) (v : Verdict) : firstJudged free true v = .complete ∨ firstJudged free true v = v := by
  unfold firstJudged
  rw [if_pos rfl]
  split
  · exact .inl rfl
  · split
    · exact .inl rfl
    · exact .inr rfl

/-! ## Samples of an element's channel (R173, R177) -/

variable {e : Element} {x : Sample}

theorem retestVerdict_on {image : Memory} {n : Int} (valid : validValue (currentChannel e) x = some n) (on : image.iOnMin ≤ n) :
    retestVerdict image e x = .complete := by
  unfold retestVerdict
  rw [valid]
  exact if_pos on

theorem retestVerdict_off {image : Memory}
    (off : x = .under ∨ ∃ n, validValue (currentChannel e) x = some n ∧ n < image.iOnMin) : retestVerdict image e x = .markedOut e false := by
  unfold retestVerdict
  rcases off with rfl | ⟨n, valid, off⟩
  · exact if_pos rfl
  · rw [valid]
    exact if_neg (Int.not_le.2 off)

theorem retestVerdict_invalid {image : Memory} (known : x ≠ .under) (invalid : validValue (currentChannel e) x = none) :
    retestVerdict image e x = .attemptFails := by
  unfold retestVerdict
  rw [invalid]
  exact if_neg known

theorem elementVerdict_cut (early : s.stepTime < 2000000) (sampled : tr = .sample (currentChannel e))
    (latest : s.ms.latest[currentChannel e] = some x)
    (below : x = .under ∨ ∃ n, validValue (currentChannel e) x = some n ∧ n < s.image.iOffMax) :
    s.elementVerdict (.elementStuck e) .cutCheck tr = some (.markedOut e true) := by
  unfold State.elementVerdict
  dsimp only
  rw [if_pos (by rw [Bool.and_eq_true, decide_eq_true_eq, decide_eq_true_eq]; exact ⟨sampled, early⟩), latest]
  exact if_pos ((underLimit_iff _ _ _).2 below)

theorem elementVerdict_out (out : s.lu.elementOut[e] = true) : s.elementVerdict (.elementOpen e) .openRetest tr = some .degraded := by
  unfold State.elementVerdict
  dsimp only
  rw [if_pos out]

theorem elementVerdict_retest (used : s.lu.elementOut[e] = false) (late : 2000000 ≤ s.stepTime) (sampled : tr = .sample (currentChannel e))
    (latest : s.ms.latest[currentChannel e] = some x) :
    s.elementVerdict (.elementOpen e) .openRetest tr = some (retestVerdict s.image e x) := by
  unfold State.elementVerdict
  dsimp only
  rw [if_neg (Bool.eq_false_iff.1 used), if_pos (by rw [Bool.and_eq_true, decide_eq_true_eq, decide_eq_true_eq]; exact ⟨sampled, late⟩), latest]
  rfl

/-- Where a sample is judged. -/
theorem elementVerdict_cases (s : State) (fault : FaultId) (step : Step) (tr : Trigger) : s.elementVerdict fault step tr = none ∨
    (∃ (e : Element) (x : Sample), fault = .elementStuck e ∧ step = .cutCheck ∧ s.stepTime < 2000000 ∧ tr = .sample (currentChannel e) ∧
      s.ms.latest[currentChannel e] = some x ∧
      (x = .under ∨ ∃ n, validValue (currentChannel e) x = some n ∧ n < s.image.iOffMax)) ∨
    (∃ e : Element, fault = .elementOpen e ∧ step = .openRetest ∧ (s.lu.elementOut[e] = true ∨
      (2000000 ≤ s.stepTime ∧ tr = .sample (currentChannel e) ∧ ∃ x, s.ms.latest[currentChannel e] = some x))) := by
  unfold State.elementVerdict
  split
  · rename_i e
    split
    · rename_i early
      rw [Bool.and_eq_true, decide_eq_true_eq, decide_eq_true_eq] at early
      cases latest : s.ms.latest[currentChannel e] with
      | none => exact .inl rfl
      | some x =>
        dsimp only
        split
        · rename_i below
          exact .inr (.inl ⟨e, x, rfl, rfl, early.2, early.1, latest, (underLimit_iff _ _ _).1 below⟩)
        · exact .inl rfl
    · exact .inl rfl
  · rename_i e
    split
    · rename_i out
      exact .inr (.inr ⟨e, rfl, rfl, .inl out⟩)
    · split
      · rename_i late
        rw [Bool.and_eq_true, decide_eq_true_eq, decide_eq_true_eq] at late
        cases latest : s.ms.latest[currentChannel e] with
        | none => exact .inl rfl
        | some x => exact .inr (.inr ⟨e, rfl, rfl, .inr ⟨late.2, late.1, x, latest⟩⟩)
      · exact .inl rfl
  · exact .inl rfl

end Sys2Proof.Machine
end

section
/-! O49 and O50: the steps of the procedures, what a judgement carries out, and the claim wait (R165 to R180). -/

namespace Sys2Proof.Machine

variable {s : State} {id : Nat} {fault : FaultId} {step : Step} {tr : Trigger} {since : Nat} {r : Incident}

/-! ## What follows a judgement (R167, R169 to R171) -/

/-- The sequencer with the step's timers stopped (R163, R165). -/
def State.stoppedTimers (s : State) : Sequencer :=
  { s.rs with stepElapsed := 0, stepSince := none, claimWait := none, dryTimer := none, validCount := 0 }

theorem endStep_rs (id : Nat) (step : Step) (s : State) : (endStep id step s).rs = s.stoppedTimers := (endStep_claimed id step s).rs

theorem startStep_rs (id : Nat) (step : Step) (s : State) : (startStep id step s).rs = { s.stoppedTimers with
    incidents := s.rs.incidents.map (fun q => if q.id = id then { q with state := .active step } else q) } := (startStep_claimed id step s).rs

/-- A record's state set and its step ended. -/
def State.ended (s : State) (id : Nat) (step : Step) (state : IncidentState) : State :=
  endStep id step (updateRecord id (fun q => { q with state := state }) s)

theorem ended_rs (s : State) (id : Nat) (step : Step) (state : IncidentState) : (s.ended id step state).rs = { s.stoppedTimers with
    incidents := s.rs.incidents.map (fun q => if q.id = id then { q with state := state } else q) } := endStep_rs _ _ _

theorem completeStep_next {next : Step} (more : nextStep step = some next) :
    completeStep id fault step s = (startStep id next (endStep id step s), .start) := by
  unfold completeStep
  rw [more]

theorem completeStep_last (last : nextStep step = none) :
    completeStep id fault step s = (clearRecord id fault step .restored s, .none) := by
  unfold completeStep
  rw [last]

/-- With nothing unrecorded a CLEARED record's end leaves the sequencer with that record's state set. -/
theorem clearRecord_rs (id : Nat) (fault : FaultId) (step : Step) (outcome : RecoveryOutcome) (recorded : s.fd.unrecorded = []) :
    (clearRecord id fault step outcome s).rs = { s.stoppedTimers with
      incidents := s.rs.incidents.map (fun q => if q.id = id then { q with state := .cleared outcome } else q) } := by
  have none : (s.ended id step (.cleared outcome)).fd.unrecorded = [] :=
    (congrArg FaultDetector.unrecorded (endStep_claimed id step (updateRecord id (fun q => { q with state := .cleared outcome }) s)).fd).trans recorded
  have ended := ended_rs s id step (.cleared outcome)
  show (resubmitUnrecorded (if fault = .leak then queueNotice .inflowResume (s.ended id step (.cleared outcome))
    else s.ended id step (.cleared outcome))).rs = _
  split
  · obtain ⟨-, -, writes⟩ := queueNotice_writes .inflowResume (s.ended id step (.cleared outcome))
    rw [resubmitUnrecorded_none (by rw [writes]; exact none), writes]
    exact ended
  · rw [resubmitUnrecorded_none none, ended]

/-- An attempt fails with another left: the procedure starts again (R169). -/
theorem failAttempt_again (cause : AttemptCause) (active : s.activeIncident = some r) (left : r.attempts < s.image.attempts) :
    failAttempt id fault step cause s = (startStep id (firstStep fault) (updateRecord id (fun q => { q with attempts := q.attempts + 1 })
      (endStep id step { s with rs := { s.rs with lastCause := some cause } })), .start) := by
  have same : ({ s with rs := { s.rs with lastCause := some cause } } : State).activeIncident = some r := active
  unfold failAttempt
  dsimp only
  rw [same]
  exact if_pos left

/-- With none left the record is FAILED (R170). -/
theorem failAttempt_last (cause : AttemptCause) (active : s.activeIncident = some r) (none : s.image.attempts ≤ r.attempts) :
    failAttempt id fault step cause s = (failRecord id step (if cause = .claimWait then .claimWait else .attemptsExhausted)
      { s with rs := { s.rs with lastCause := some cause } }, .none) := by
  have same : ({ s with rs := { s.rs with lastCause := some cause } } : State).activeIncident = some r := active
  unfold failAttempt
  dsimp only
  rw [same]
  exact if_neg (Nat.not_lt.2 none)

/-- One more attempt counted and its first step begun, record by record. -/
theorem attempted_records (id : Nat) (step : Step) (records : List Incident) :
    (records.map (fun q => if q.id = id then { q with attempts := q.attempts + 1 } else q)).map
      (fun q => if q.id = id then { q with state := .active step } else q) =
    records.map (fun q => if q.id = id then { q with attempts := q.attempts + 1, state := .active step } else q) := by
  rw [List.map_map]
  refine List.map_congr_left fun q _ => ?_
  by_cases is : q.id = id
  · simp [Function.comp, is]
  · simp [Function.comp, is]

theorem failAttempt_again_rs (cause : AttemptCause) (active : s.activeIncident = some r) (left : r.attempts < s.image.attempts) :
    (failAttempt id fault step cause s).1.rs = { s.stoppedTimers with
      lastCause := some cause
      incidents := s.rs.incidents.map (fun q =>
        if q.id = id then { q with attempts := q.attempts + 1, state := .active (firstStep fault) } else q) } := by
  rw [failAttempt_again cause active left, startStep_rs]
  unfold State.stoppedTimers updateRecord
  rw [endStep_rs]
  exact congrArg (fun l : List Incident => ({ s.stoppedTimers with lastCause := some cause, incidents := l } : Sequencer))
    (attempted_records id (firstStep fault) s.rs.incidents)

theorem failAttempt_last_rs (cause : AttemptCause) (active : s.activeIncident = some r) (none : s.image.attempts ≤ r.attempts) :
    (failAttempt id fault step cause s).1.rs = { s.stoppedTimers with
      lastCause := some cause
      incidents := s.rs.incidents.map (fun q => if q.id = id then
        { q with state := .failed (if cause = .claimWait then .claimWait else .attemptsExhausted) } else q) } := by
  rw [failAttempt_last cause active none]
  exact endStep_rs _ _ _

/-- A failed attempt writes the sequencer and the claims of its step. -/
theorem failAttempt_writes (id : Nat) (fault : FaultId) (step : Step) (cause : AttemptCause) (s : State) :
    ∃ rs oc ct, (failAttempt id fault step cause s).1 = { s with rs := rs, oc := oc, ct := ct } := by
  unfold failAttempt
  dsimp only
  split
  · exact ⟨_, _, _, rfl⟩
  · split
    · have starts := startStep_claimed id (firstStep fault) (updateRecord id (fun q => { q with attempts := q.attempts + 1 })
        (endStep id step { s with rs := { s.rs with lastCause := some cause } }))
      have ends := endStep_claimed id step { s with rs := { s.rs with lastCause := some cause } }
      generalize startStep id (firstStep fault) _ = v at *
      generalize endStep id step _ = w at *
      rw [starts, ends]
      exact ⟨_, _, _, rfl⟩
    · have ends := endStep_claimed id step (updateRecord id
        (fun q => { q with state := .failed (if cause = .claimWait then .claimWait else .attemptsExhausted) })
        { s with rs := { s.rs with lastCause := some cause } })
      unfold failRecord
      generalize endStep id step _ = w at *
      rw [ends]
      exact ⟨_, _, _, rfl⟩

/-! ## The pass of an event (log 9, log 25) -/

theorem judgeStep_active (active : s.activeStep = some (id, fault, step)) :
    ∃ free, judgeStep tr s = carryOut id fault step (s.judgement fault step tr) { s with free := free } := by
  have counts : ∃ free, countFree step tr s = { s with free := free } := by
    unfold countFree
    split
    · exact ⟨_, rfl⟩
    · exact ⟨s.free, rfl⟩
  obtain ⟨free, counts⟩ := counts
  refine ⟨free, ?_⟩
  unfold judgeStep
  rw [active]
  dsimp only
  rw [counts]

theorem judgeStep_idle (idle : s.activeStep = none) : judgeStep tr s = (s, .none) := by
  unfold judgeStep
  rw [idle]

theorem settle_passes (n : Nat) (tr : Trigger) (s : State) : settle (n + 1) tr s =
    if (pass tr s).1 = s ∧ (pass tr s).2 = .none then s else settle n (pass tr s).2 (pass tr s).1 := rfl

theorem endEvent_passes (tr : Trigger) (s : State) : endEvent tr s =
    if (pass tr s).1 = s ∧ (pass tr s).2 = .none then s else settle 255 (pass tr s).2 (pass tr s).1 := settle_passes 255 tr s

end Sys2Proof.Machine

namespace Sys2Proof.Proofs

open Sys2Proof.Machine

/-- Settles O50: the attempt fails with cause CLAIM_WAIT, again or for the last time. -/
theorem claimWaitFails : Obligations.ClaimWaitFails := by
  unfold Obligations.ClaimWaitFails
  intro s r step since up active state waits
  have answers : exec .claimWaitExpiry s = .next (endEvent
      (failAttempt r.id r.fault step .claimWait (advanceTo (since + s.image.tClaimWait) s)).2
      (failAttempt r.id r.fault step .claimWait (advanceTo (since + s.image.tClaimWait) s)).1) := by
    simp only [exec, execClaimWaitExpiry, up, activeStep_of active state, waits]
  obtain ⟨rs, oc, ct, writes⟩ := failAttempt_writes r.id r.fault step .claimWait (advanceTo (since + s.image.tClaimWait) s)
  have kept : ∀ v, v = (failAttempt r.id r.fault step .claimWait (advanceTo (since + s.image.tClaimWait) s)).1 →
      v.now = max s.now (since + s.image.tClaimWait) ∧ v.mu = s.mu ∧ v.pd = s.pd ∧ v.ms = s.ms ∧ v.cs = s.cs ∧ v.hz = s.hz ∧ v.lu = s.lu := by
    rintro v rfl
    rw [writes]
    exact ⟨rfl, rfl, rfl, rfl, rfl, rfl, rfl⟩
  obtain ⟨now, mu, pd, ms, cs, hz, lu⟩ := kept _ rfl
  refine ⟨_, _, answers, now, ?_⟩
  by_cases left : r.attempts < s.image.attempts
  · have again := failAttempt_again (id := r.id) (fault := r.fault) (step := step) (s := advanceTo (since + s.image.tClaimWait) s)
      .claimWait active left
    have sequencer := failAttempt_again_rs (id := r.id) (fault := r.fault) (step := step) (s := advanceTo (since + s.image.tClaimWait) s)
      .claimWait active left
    rw [sequencer]
    exact ⟨rfl, rfl, rfl, fun _ => ⟨congrArg Prod.snd again, rfl⟩, fun none => absurd left (Nat.not_lt.2 none), mu, pd, ms, cs, hz, lu⟩
  · have sequencer := failAttempt_last_rs (id := r.id) (fault := r.fault) (step := step) (s := advanceTo (since + s.image.tClaimWait) s)
      .claimWait active (Nat.not_lt.1 left)
    rw [sequencer]
    exact ⟨rfl, rfl, rfl, fun more => absurd more left, fun _ => rfl, mu, pd, ms, cs, hz, lu⟩

/-- Settles O49: the timers' ends, the tables, the pass of an event, the conditions and the judgement step by step. -/
theorem stepTimers : Obligations.StepTimers := by
  unfold Obligations.StepTimers
  refine ⟨fun s id fault step since up active runs => ?_, fun s id fault since up active runs => ?_, fun image => rfl, fun e => rfl,
    fun e => ⟨?_, ?_, rfl⟩, claimsUsable_iff, fun s => stepTimers_idle, fun s id fault step active => ?_,
    fun tr s => ⟨endEvent_passes tr s, rfl, fun n => settle_passes n tr s, judgeStep_idle⟩,
    fun s => ⟨rfl, keepBoost_other s, fun id fault active => ⟨keepBoost_none active, fun c => keepBoost_amends active⟩, rfl, rfl, rfl, rfl,
      resolveOutputs_output s, rfl⟩,
    fun tr s id fault step => judgeStep_active, stepCompletes_iff, stepFails_iff, fun s fault step tr unsampled => ?_, fun s e tr x => ?_,
    elementVerdict_cases, fun s id fault step => ?_⟩
  · have reached : stepDuration s.image step ≤
        (advanceTo (since + (stepDuration s.image step - s.rs.stepElapsed)) s).stepTime := by
      rw [stepTime_running (s := advanceTo _ s) runs, advanceTo_now, advanceTo_rs]
      omega
    refine ⟨_, exec_stepTimer up active runs, reached, rfl, fun unsampled incomplete holds => ?_⟩
    rw [judgement_unsampled unsampled, incomplete, failureVerdict_limit holds ⟨rfl, reached⟩, firstJudged_alone]
  · have completes : (advanceTo (since + s.image.tDry) s).stepCompletes .leakDryWait = true :=
      (stepCompletes_iff _ _).2 ⟨since, runs, Nat.le_max_right _ _⟩
    refine ⟨_, exec_dryTimer up active runs, rfl, completes, ?_⟩
    have stay : (advanceTo (since + s.image.tDry) s).failureVerdict .leakDryWait .none = .stay :=
      failureVerdict_stay rfl fun limit => nomatch limit.1
    rw [judgement_unsampled rfl, completes, stay, firstJudged_stay]
  · rfl
  · revert e; decide
  · have judged := stepTimers_active active
    refine ⟨fun usable => ?_, fun unusable => ?_⟩
    · rw [if_pos usable] at judged
      refine ⟨judged, fun past later => ?_⟩
      rw [judged]
      exact stepTime_goesOn (by rfl) (by rfl) past (by rfl)
    · rw [if_neg (Bool.eq_false_iff.1 unusable)] at judged
      refine ⟨judged, fun later => ?_⟩
      rw [judged]
      exact stepTime_waiting rfl
  · have judged := judgement_unsampled unsampled
    refine ⟨fun completes holds stays => ?_, fun incomplete fails => ?_, fun incomplete holds limit => ?_, fun incomplete holds under => ?_,
      fun completes fails => ?_, fun completes holds limit _ => ?_⟩
    · have stay : s.failureVerdict step tr = .stay := by
        by_cases limit : tr = .timer ∧ stepDuration s.image step ≤ s.stepTime
        · exact (failureVerdict_limit holds limit).trans (stays limit)
        · exact failureVerdict_stay holds limit
      rw [judged, completes, stay, firstJudged_stay]
    · rw [judged, incomplete, failureVerdict_fails fails, firstJudged_alone]
    · rw [judged, incomplete, failureVerdict_limit holds limit, firstJudged_alone]
    · rw [judged, incomplete, failureVerdict_stay holds under, firstJudged_alone]
    · rw [judged, completes, failureVerdict_fails fails]
      exact firstJudged_either _ _
    · rw [judged, completes, failureVerdict_limit holds limit]
      exact firstJudged_either _ _
  · refine ⟨fun early sampled latest below => judgement_sampled (elementVerdict_cut early sampled latest below),
      fun out => judgement_sampled (elementVerdict_out out), fun used late sampled latest => ?_⟩
    have judged := judgement_sampled (elementVerdict_retest used late sampled latest)
    exact ⟨fun n valid on => judged.trans (retestVerdict_on valid on), fun off => judged.trans (retestVerdict_off off),
      fun known invalid => judged.trans (retestVerdict_invalid known invalid)⟩
  · refine ⟨rfl, rfl, fun next more => ?_, fun outcome verdict ends => ?_, fun reason => ⟨rfl, ended_rs s id step (.failed reason)⟩,
      fun r active is => ⟨fun left => ?_, fun none => ?_⟩⟩
    · have starts : carryOut id fault step .complete s = (startStep id next (endStep id step s), .start) := completeStep_next more
      refine ⟨starts, ?_⟩
      rw [starts, startStep_rs]
      unfold State.stoppedTimers
      rw [endStep_rs]
      rfl
    · have clears : carryOut id fault step verdict s = (clearRecord id fault step outcome s, .none) := by
        rcases ends with ⟨last, rfl, rfl⟩ | ⟨rfl, rfl⟩
        · exact completeStep_last last
        · rfl
      refine ⟨clears, fun recorded => ?_⟩
      rw [clears]
      exact ⟨clearRecord_rs id fault step outcome recorded, (clearRecord_alone id fault step outcome recorded).2⟩
    · exact ⟨congrArg Prod.snd (failAttempt_again .condition active left), failAttempt_again_rs .condition active left⟩
    · exact ⟨congrArg Prod.snd (failAttempt_last .condition active none), failAttempt_last_rs .condition active none⟩

end Sys2Proof.Proofs
end

section
/-! The Own Claim Unit: the usable amount and the confirmation of an own claim (R38 to R41), what a request, a boost and a withdrawal make of the
list (R28 to R33, R42), and what a freed place takes from the waiting requests (R32). -/

namespace Sys2Proof.Machine

variable {s : State} {c : OwnClaim} {r : Request}

/-! ## Quorum, confirmation, usable amounts (R38 to R41) -/

theorem requiredSet_eq : s.requiredSet = allStations.filter (fun k =>
    k != s.me && (s.mu.peers[k].state == .present && s.mu.peers[k].reportedLink == some .joined)) := by
  unfold State.requiredSet State.peerNumbers
  rw [List.filter_filter]
  exact List.filter_congr fun k _ => Bool.and_comm ..

theorem quorumHolds_iff : s.quorumHolds = true ↔ s.image.quorum ≤ (if s.mu.linkState = .joined then 1 else 0) + (allStations.filter (fun k =>
    k != s.me && (s.mu.peers[k].state == .present && s.mu.peers[k].reportedLink == some .joined))).length := by
  unfold State.quorumHolds State.quorumCount
  rw [requiredSet_eq, decide_eq_true_eq]

/-- What a claim needs for any usable amount (R40). -/
theorem usableOf_needs (h : 0 < usableOf s c) : s.mu.linkState = .joined ∧ s.quorumHolds = true ∧ s.ownGranted c.tag = true := by
  refine Classical.byContradiction fun n => ?_
  rw [usableOf, if_neg n] at h
  exact Nat.lt_irrefl _ h

/-- A HOLD needs no confirmation; any other claim is usable as far as the confirmed values cover it (R40). -/
theorem usableOf_cases (joined : s.mu.linkState = .joined) (quorum : s.quorumHolds = true) (granted : s.ownGranted c.tag = true) :
    (c.resource = .hold → usableOf s c = 1) ∧ (c.resource ≠ .hold → c.confirmed = none → usableOf s c = 0) ∧
    (∀ cls amount, c.resource ≠ .hold → c.confirmed = some (cls, amount) →
      usableOf s c = if c.amount ≤ amount ∧ classOrder cls ≤ classOrder c.cls then c.amount else 0) := by
  unfold usableOf
  rw [if_pos ⟨joined, quorum, granted⟩]
  refine ⟨fun hold => if_pos hold, fun other none => ?_, fun cls amount other some => ?_⟩
  · rw [if_neg other, none]
  · rw [if_neg other, some]

theorem cls_eq (c : OwnClaim) : c.cls = if c.boosted = true ∧ c.requested = .process then .recovery else c.requested := by
  unfold OwnClaim.cls
  simp only [Bool.and_eq_true, beq_iff_eq]

theorem confirmClaim_sent {n : Byte} (sent : c.sent = .sent n) : confirmClaim s c =
    if s.acknowledged n = true ∧ s.quorumHolds = true then { c with sent := .confirmed, confirmed := some (c.cls, c.amount) } else c := by
  unfold confirmClaim
  rw [sent]
  simp only [Bool.and_eq_true]

theorem confirmClaim_other (other : ∀ n, c.sent ≠ .sent n) : confirmClaim s c = c := by
  unfold confirmClaim
  split
  · exact absurd ‹_› (other _)
  · rfl

theorem mem_refreshClaims {d : OwnClaim} (h : d ∈ (refreshClaims s).oc.claims) :
    ∃ b ∈ s.oc.claims, d = { confirmClaim s b with usable := usableOf s (confirmClaim s b) } := by
  obtain ⟨b, mem, e⟩ := List.mem_map.1 h
  exact ⟨b, mem, e.symm⟩

/-! ## The request as it is taken (R28) -/

theorem asTaken_other (other : r.resource ≠ .hold) : asTaken r = r := if_neg other

theorem request_other (other : r.resource ≠ .hold) : request r s =
    if r.amount = 0 then withdraw r.resource r.purpose s else if amountInRange r.resource r.amount then placeRequest r s else s := by
  unfold request
  rw [asTaken_other other]

theorem request_hold (hold : r.resource = .hold) : request r s = request { r with cls := .safety, amount := 1 } s := by
  have taken : asTaken { r with cls := .safety, amount := 1 } = asTaken r := by
    unfold asTaken
    rw [if_pos hold, if_pos hold]
  unfold request
  rw [taken]

/-- A request of amount 0 withdraws the claim (R28, R42). -/
theorem request_withdraws (other : r.resource ≠ .hold) (zero : r.amount = 0) (claim : s.ownClaim r.resource r.purpose = some c) :
    ∃ u, request r s = placeFreed u ∧ s.Releases u c := by
  rw [request_other other, if_pos zero, withdraw, claim]
  exact removeClaim_releases c s

theorem request_leaves (other : r.resource ≠ .hold) (zero : r.amount = 0) (none : s.ownClaim r.resource r.purpose = none) :
    request r s = { s with oc := { s.oc with
      waiting := s.oc.waiting.filter (fun q => !(q.resource == r.resource && samePurpose q.purpose r.purpose)) } } := by
  rw [request_other other, if_pos zero, withdraw, none]

theorem request_outOfRange (other : r.resource ≠ .hold) (some : r.amount ≠ 0) (range : amountInRange r.resource r.amount = false) :
    request r s = s := by
  rw [request_other other, if_neg some, if_neg (by rw [range]; exact Bool.false_ne_true)]

/-! ## The claim created, the request that waits -/

/-- The claim created stands by its tag, its NEW at the end of the unsent list (R28, R31, R33). -/
theorem createClaim_oc {t : Tag} (fresh : ∀ c ∈ s.oc.unsent, c.tag ≠ t) : (createClaim r t s).oc = { s.oc with
    claims := insertOwn { tag := t, resource := r.resource, requested := r.cls, boosted := false, amount := r.amount
                          purpose := r.purpose, sent := .unsent, confirmed := none, usable := 0 } s.oc.claims
    unsent := s.oc.unsent ++ [{ tag := t, op := .new r.resource r.cls r.amount }] } := by
  unfold createClaim
  rw [makeChange_oc]
  dsimp only
  rw [placeChange_new { tag := t, op := .new r.resource r.cls r.amount } s.oc.unsent fresh]
  rfl

theorem createClaim_records {t : Tag} : (createClaim r t s).ct[s.me].records.map unmarked = (insertRecord
    { tag := t, resource := r.resource, cls := r.cls, amount := r.amount, mark := .waiting } s.ct[s.me].records).map unmarked :=
  makeChange_records { tag := t, op := .new r.resource r.cls r.amount }
    { s with oc := { s.oc with claims := insertOwn (newClaim r t) s.oc.claims } }

/-- What a request does to the list where it waits (R32). -/
theorem waitForRoom_list (r : Request) (s : State) :
    let same := fun q : Request => q.resource = r.resource ∧ samePurpose q.purpose r.purpose = true
    ∃ list, waitForRoom r s = { s with oc := { s.oc with waiting := list } } ∧
      ((∀ q ∈ s.oc.waiting, ¬ same q) → list = if s.oc.waiting.length < 8 then s.oc.waiting ++ [r] else s.oc.waiting) ∧
      (∀ before q behind, s.oc.waiting = before ++ q :: behind → s.oc.waiting.length ≤ 8 → (∀ p ∈ before, ¬ same p) → same q →
        list = before ++ mergeRequest q r :: behind) := by
  have waiting {t : State} {list} (e : t = { s with oc := { s.oc with waiting := list } }) : t.oc.waiting = list := by rw [e]
  refine ⟨(waitForRoom r s).oc.waiting, ?_, fun new => waiting (waitForRoom_new new),
    fun before q behind list few new same => waiting (waitForRoom_same list few new same)⟩
  unfold waitForRoom
  dsimp only
  split <;> rfl

/-! ## A holder withdrawn (R29, R32) -/

theorem dropWaitingHolder_eq (h : Holder) (list : List Request) : dropWaitingHolder h list = list.filterMap (fun q => match q.purpose with
    | .contain hs => if hs.erase h = [] then none else some { q with purpose := .contain (hs.erase h) }
    | _ => some q) := by
  unfold dropWaitingHolder
  refine congrArg (fun f => list.filterMap f) (funext fun q => ?_)
  cases q.purpose with
  | contain hs => exact ite_congr (propext List.isEmpty_iff) (fun _ => rfl) (fun _ => rfl)
  | _ => rfl

theorem withdrawHolder_waiting (h : Holder) (none : s.ownClaim .hold (.contain []) = none) :
    withdrawHolder h s = { s with oc := { s.oc with waiting := dropWaitingHolder h s.oc.waiting } } := by
  unfold withdrawHolder
  rw [none]

theorem withdrawHolder_claim {hs : List Holder} (h : Holder) (claim : s.ownClaim .hold (.contain []) = some c) (purpose : c.purpose = .contain hs) :
    withdrawHolder h s = if hs.erase h = [] then removeClaim c s else replaceClaim { c with purpose := .contain (hs.erase h) } s := by
  unfold withdrawHolder
  rw [claim]
  dsimp only
  rw [purpose]
  exact ite_congr (propext List.isEmpty_iff) (fun _ => rfl) (fun _ => rfl)

/-! ## Changes of one tag (R33) -/

theorem placeChange_same (tag : Tag) (old new : ChangeOp) (before behind : List Change) (others : ∀ d ∈ before, d.tag ≠ tag) :
    placeChange { tag := tag, op := new } (before ++ { tag := tag, op := old } :: behind) = match old, new with
      | .new resource _ _, .amend cls amount => (before ++ { tag := tag, op := .new resource cls amount } :: behind, false)
      | .new _ _ _, .release => (before ++ behind, true)
      | _, _ => (before ++ { tag := tag, op := new } :: behind, false) := by
  have first : placeChange { tag := tag, op := new } ({ tag := tag, op := old } :: behind) = match coalesce old new with
      | some op => ({ tag := tag, op := op } :: behind, false)
      | none => (behind, true) := if_pos rfl
  rw [placeChange_behind { tag := tag, op := new } _ before others, first]
  cases old with
  | new _ _ _ => cases new <;> rfl
  | _ => rfl

end Sys2Proof.Machine

namespace Sys2Proof.Proofs
open Sys2Proof.Machine

/-- Settles O52: the usable amount and the confirmation by their branches; a request by whether a claim of its resource and purpose stands, and
where none does by whether it finds room; the waiting list by the class of its head. -/
theorem usableAmount : Obligations.UsableAmount := by
  unfold Obligations.UsableAmount
  refine ⟨fun s c => ⟨usableOf_needs, usableOf_cases, fun d => mem_refreshClaims, quorumHolds_iff, cls_eq c, ?_⟩,
    fun s r amount range hold => ⟨fun none => ⟨?_, ?_, ?_⟩, fun c claim => ⟨?_, ?_⟩⟩, fun s resource boost => ⟨?_, ?_⟩,
    fun s r c other zero claim => request_withdraws other zero claim, fun s h => ⟨fun c hs claim purpose => ⟨?_, ?_⟩, ?_⟩,
    fun s => ⟨hasRoom_iff s, ?_, ?_⟩, fun s r => ⟨request_hold, request_outOfRange, request_leaves⟩,
    fun s => ⟨fun _ _ => rfl, tagFree_iff s, ownGranted_iff s⟩, samePurpose_iff, mem_addHolders,
    fun c before behind low high => insertOwn_place c behind high before low, placeChange_new, placeChange_same⟩
  · refine ⟨fun n sent acked quorum => ?_, fun n sent lacks => ?_, confirmClaim_other⟩
    · rw [confirmClaim_sent sent, if_pos ⟨(acknowledged_iff s n).2 acked, quorum⟩]
    · rw [confirmClaim_sent sent, if_neg fun h => lacks ⟨(acknowledged_iff s n).1 h.1, h.2⟩]
  · intro isolated
    rw [request_placed amount range hold, placeRequest_new none, requestNew_isolated isolated]
  · intro t on room free lowest fresh
    rw [request_placed amount range hold, placeRequest_new none, requestNew_created on room free lowest]
    exact ⟨createClaim_oc fresh, createClaim_records⟩
  · intro on full
    rw [request_placed amount range hold, placeRequest_new none, requestNew_waits on full]
    exact waitForRoom_list r s
  · intro hs purpose
    rw [request_placed amount range hold]
    exact placeRequest_contain claim purpose
  · intro plain
    rw [request_placed amount range hold, placeRequest_standing claim plain]
    exact amendClaim_amends c { c with requested := r.cls, amount := r.amount } rfl s
  · intro none
    rw [setBoost, none]
  · intro c claim
    rw [setBoost, claim]
    exact amendClaim_amends c { c with boosted := boost } rfl s
  · intro more
    rw [withdrawHolder_claim h claim purpose, if_neg more]
    rfl
  · intro empty
    rw [withdrawHolder_claim h claim purpose, if_pos empty]
    exact removeClaim_releases c s
  · intro none
    exact (withdrawHolder_waiting h none).trans (congrArg (fun list : List Request =>
      ({ s with oc := { s.oc with waiting := list } } : State)) (dropWaitingHolder_eq h s.oc.waiting))
  · rintro (empty | full)
    · exact placeFreed_nil s empty
    · exact placeFreed_full full
  · intro before r behind list few room higher high amount range hold
    rw [placeFreed_next list few room higher high, request_placed amount range hold]

end Sys2Proof.Proofs
end

section
/-! What forces an output function, what requests it, ALERT and the conveyor (R107, R108, R111, R115, R124), and the containment HOLD (R147,
R148). -/

namespace Sys2Proof.Machine

variable {s : State} {f : OutputFunction} {c : OwnClaim}

/-! ## The forced set (R107) -/

theorem incidentForces_iff (f : OutputFunction) (r : Incident) : incidentForces f r = true ↔ f ∈ containment r.fault ∧
    (r.state = .pending ∨ (∃ reason, r.state = .failed reason) ∨ ∃ step, r.state = .active step ∧ stepReleases r.fault step f = false) := by
  unfold incidentForces
  rw [Bool.and_eq_true, List.contains_iff_mem]
  refine and_congr_right fun _ => ?_
  cases r.state <;> simp

theorem forces_iff : s.forces f = true ↔ (s.zoneMode ≠ .inService ∨ s.mu.linkState ≠ .joined ∨
    (∃ r ∈ s.rs.incidents, f ∈ containment r.fault ∧ (r.state = .pending ∨ (∃ reason, r.state = .failed reason) ∨
      ∃ step, r.state = .active step ∧ stepReleases r.fault step f = false)) ∨
    (∃ k ∈ s.fd.unrecorded, f ∈ containment k)) := by
  unfold State.forces State.inForcedSet
  simp only [Bool.or_eq_true, bne_iff_ne, List.any_eq_true, incidentForces_iff, List.contains_iff_mem, or_assoc]

/-- A forced function other than ALERT is inactive, whatever requests it. -/
theorem resolve_forced (other : f ≠ .alert) (forced : s.forces f = true) : s.resolve f = { active := false, source := .forced } := by
  cases f with
  | alert => exact absurd rfl other
  | heat e => exact if_pos ((elementForced_iff s e).2 (.inl forced))
  | _ => exact if_pos forced

/-! ## The requested level (R108) -/

theorem requested_step {id : Nat} {fault : FaultId} {step : Step} {level : Bool} (active : s.activeStep = some (id, fault, step))
    (names : stepNames step f = some level) : s.requested f = { active := level, source := .step } := by
  have asked : s.stepRequest f = some level := by
    unfold State.stepRequest
    rw [active]
    exact names
  unfold State.requested
  rw [asked]

theorem stepRequest_none (silent : ∀ id fault step, s.activeStep = some (id, fault, step) → stepNames step f = none) :
    s.stepRequest f = none := by
  unfold State.stepRequest
  cases active : s.activeStep with
  | none => rfl
  | some a => exact silent a.1 a.2.1 a.2.2 active

theorem requested_drive {level : Bool} (silent : s.stepRequest f = none) (asks : s.driveRequest f = some level) :
    s.requested f = { active := level, source := .program } := by
  unfold State.requested
  rw [silent, asks]

theorem requested_none (silent : s.stepRequest f = none) (asks : s.driveRequest f = none) :
    s.requested f = { active := false, source := .none } := by
  unfold State.requested
  rw [silent, asks]

/-! ## The requests of the drive (R124, R131) -/

/-- The functions whose request needs a tank (R123, R124). -/
def needsTank : OutputFunction → Bool
  | .conveyorEnable => false
  | .alert => false
  | .heat _ => false
  | _ => true

theorem driveRequest_outOfService (out : s.zoneMode ≠ .inService) (f : OutputFunction) : s.driveRequest f = none := by
  unfold State.driveRequest
  rw [if_pos out]

theorem driveRequest_untanked (service : s.zoneMode = .inService) : s.driveRequest .alert = none ∧ (∀ e, s.driveRequest (.heat e) = none) ∧
    s.driveRequest .conveyorEnable = some (s.pd.phase == .run && s.pd.demand == .run) :=
  ⟨if_neg (not_not_intro service), fun _ => if_neg (not_not_intro service), if_neg (not_not_intro service)⟩

theorem driveRequest_tanked (service : s.zoneMode = .inService) (tank : s.hasTank = true) :
    s.driveRequest .fillValve = some s.pd.fillRequest ∧ s.driveRequest .drainValve = some s.pd.drainRequest ∧
    s.driveRequest .pumpRun = some (s.pd.phase == .run) ∧ s.driveRequest .pumpReverse = some false ∧
    s.driveRequest .heatIsolate = some true ∧
    s.driveRequest .cascadeGate = some (s.pd.phase == .run && s.hz.gateStop.toList.all (fun m => !m)) := by
  have decided {a b : Option Bool} : (if s.zoneMode ≠ .inService then none else if s.hasTank = true then a else b) = a :=
    (if_neg (not_not_intro service)).trans (if_pos tank)
  exact ⟨decided, decided, decided, decided, decided, decided⟩

theorem driveRequest_noTank (dry : s.hasTank = false) (needs : needsTank f = true) : s.driveRequest f = none := by
  unfold State.driveRequest
  split
  · rfl
  · cases f
    case conveyorEnable => cases needs
    case alert => cases needs
    case heat => cases needs
    all_goals exact if_neg (ne_true_of_eq_false dry)

/-- No station stops the cascade gate (R187). -/
theorem gateStop_clear_iff (marks : Vector Bool 12) : marks.toList.all (fun m => !m) = true ↔ ∀ k : Station, marks[k] = false := by
  simp only [List.all_eq_true, Vector.mem_toList_iff, Bool.not_eq_true']
  constructor
  · exact fun all k => all _ (Vector.getElem_mem ..)
  · intro all m mem
    obtain ⟨i, small, rfl⟩ := Vector.getElem_of_mem mem
    exact all ⟨i, small⟩

/-! ## The conveyor and ALERT (R111, R115) -/

theorem stepNames_conveyorEnable (step : Step) : stepNames step .conveyorEnable = none := by cases step <;> rfl

theorem gated_conveyorEnable (s : State) : (s.gated .conveyorEnable).active = ((s.requested .conveyorEnable).active && s.conveyorRuns) := rfl

/-- Where the conveyor runs and is not forced the drive requests it, no step naming it. -/
theorem resolve_conveyor_runs (free : s.forces .conveyorEnable = false) (runs : s.conveyorRuns = true) :
    (s.resolve .conveyorEnable).active = true := by
  have service : s.zoneMode = .inService := by
    refine Classical.byContradiction fun out => ?_
    rw [forces_iff.2 (.inl out)] at free
    cases free
  obtain ⟨phase, demand, -⟩ := conveyorRuns_iff.1 runs
  obtain ⟨-, -, asks⟩ := driveRequest_untanked service
  rw [resolve_eq_gated rfl free, gated_conveyorEnable, runs,
    requested_drive (stepRequest_none fun _ _ step _ => stepNames_conveyorEnable step) asks, phase, demand]
  rfl

theorem alertActive_iff : s.alertActive = true ↔ ((∃ r ∈ s.rs.incidents, isFailed r = true ∨ isAbandoned r = true) ∨
      s.zoneMode = .outOfService ∨ s.zoneMode = .haltedConfig ∨ s.mu.linkState = .isolated) := by
  unfold State.alertActive
  simp only [Bool.or_eq_true, List.any_eq_true, beq_iff_eq, or_assoc]

/-! ## Which incidents need the HOLD (R147) -/

theorem callsForHold_iff (image : Memory) (f : FaultId) : callsForHold image f = true ↔ f = .leak ∨ f = .tempLow ∨
    (((∃ e, f = .elementStuck e) ∨ f = .sensorFault) ∧ image.tempCritical = true) := by
  cases f <;> simp [callsForHold]

theorem skipped_iff : s.skipped = true ↔ s.image.skippable = true ∧ s.zoneMode = .outOfService := by
  unfold State.skipped
  rw [Bool.and_eq_true, beq_iff_eq]

/-- A record FAILED or ABANDONED needs it too, but for FILTER_BLOCKED of a zone that can be skipped. -/
theorem incidentNeedsHold_iff (r : Incident) : s.incidentNeedsHold r = true ↔ ¬ s.skipped = true ∧
    ((isCleared r = false ∧ callsForHold s.image r.fault = true) ∨
      ((isFailed r = true ∨ isAbandoned r = true) ∧ ¬ (r.fault = .filterBlocked ∧ s.image.skippable = true))) := by
  unfold State.incidentNeedsHold isCleared isFailed isAbandoned
  rw [Bool.and_eq_true, Bool.not_eq_true', ← Bool.not_eq_true]
  refine and_congr_right fun _ => ?_
  by_cases blocked : r.fault = .filterBlocked
  · cases r.state <;> simp [blocked]
  · cases r.state <;> simp [blocked]

theorem mem_neededHolders (h : Holder) : h ∈ s.neededHolders ↔ (∃ r ∈ s.rs.incidents, s.incidentNeedsHold r = true ∧ h = .incident r.id) ∨
    ∃ f ∈ s.fd.unrecorded, ¬ s.skipped = true ∧ callsForHold s.image f = true ∧ h = .unrecorded f := by
  unfold State.neededHolders
  simp only [List.mem_append, List.mem_map, List.mem_filter, Bool.and_eq_true, Bool.not_eq_true', Bool.not_eq_true, and_assoc, eq_comm (a := h)]

/-! ## The review (R148) -/

theorem reviewHolds_isolated (isolated : s.mu.linkState = .isolated) : reviewHolds s = s := by
  unfold reviewHolds
  rw [if_pos isolated]

theorem reviewHolds_needless (on : s.mu.linkState ≠ .isolated) (alone : s.ownClaim .hold (.contain []) = none)
    (plain : ∀ q ∈ s.oc.waiting, ∀ hs, q.purpose ≠ .contain hs) (needless : s.neededHolders = []) : reviewHolds s = s := by
  have held := heldFor_none alone plain
  rw [reviewHolds_alone on held (by rw [needless]; simp [held]), needless]
  rfl

/-- A lowest free tag is the only one. -/
theorem lowest_unique {t u : Tag} (free : s.tagFree t = true) (lowest : ∀ i : Tag, i < t → s.tagFree i = false) (other : s.tagFree u = true)
    (low : ∀ i : Tag, i < u → s.tagFree i = false) : u = t := by
  rcases Nat.lt_trichotomy u.val t.val with less | same | more
  · rw [lowest u less] at other; cases other
  · exact Fin.ext same
  · rw [low t more] at free; cases free

/-- With no CONTAIN claim and no waiting request for one, the HOLD that is needed is created, or waits (R29, R32, R148). -/
theorem reviewHolds_needed (on : s.mu.linkState ≠ .isolated) (alone : s.ownClaim .hold (.contain []) = none)
    (plain : ∀ q ∈ s.oc.waiting, ∀ hs, q.purpose ≠ .contain hs) (needs : s.neededHolders ≠ []) :
    ∃ held, (∀ h, h ∈ held ↔ h ∈ s.neededHolders) ∧
      (∀ t : Tag, s.oc.claims.length < 6 → s.tagFree t = true → (∀ i : Tag, i < t → s.tagFree i = false) → (∀ c ∈ s.oc.unsent, c.tag ≠ t) →
        (reviewHolds s).oc = { s.oc with
          claims := insertOwn { tag := t, resource := .hold, requested := .safety, boosted := false, amount := 1
                                purpose := .contain held, sent := .unsent, confirmed := none, usable := 0 } s.oc.claims
          unsent := s.oc.unsent ++ [{ tag := t, op := .new .hold .safety 1 }] }) ∧
      (6 ≤ s.oc.claims.length ∨ (∀ t, s.tagFree t = false) → s.oc.waiting.length < 8 →
        reviewHolds s = { s with oc := { s.oc with
          waiting := s.oc.waiting ++ [{ resource := .hold, cls := .safety, amount := 1, purpose := .contain held }] } }) := by
  by_cases place : ∃ t : Tag, s.oc.claims.length < 6 ∧ s.tagFree t = true ∧ ∀ i : Tag, i < t → s.tagFree i = false
  · obtain ⟨t, room, free, lowest⟩ := place
    obtain ⟨held, mem, created⟩ := reviewHolds_created on alone plain needs room free lowest
    refine ⟨held, mem, fun u _ other low fresh => ?_, fun full _ => ?_⟩
    · obtain rfl := lowest_unique free lowest other low
      rw [created, createClaim_oc fresh]
      rfl
    · rcases full with full | full
      · exact absurd room (Nat.not_lt.2 full)
      · rw [full t] at free; cases free
  · have none (t : Tag) (room : s.oc.claims.length < 6) (free : s.tagFree t = true) (lowest : ∀ i : Tag, i < t → s.tagFree i = false) : False :=
      place ⟨t, room, free, lowest⟩
    by_cases waits : (6 ≤ s.oc.claims.length ∨ ∀ t, s.tagFree t = false) ∧ s.oc.waiting.length < 8
    · obtain ⟨held, mem, e⟩ := reviewHolds_waits on alone plain needs waits.1 waits.2
      exact ⟨held, mem, fun t room free lowest _ => (none t room free lowest).elim, fun _ _ => e⟩
    · exact ⟨s.neededHolders, fun _ => .rfl, fun t room free lowest _ => (none t room free lowest).elim,
        fun full few => absurd ⟨full, few⟩ waits⟩

end Sys2Proof.Machine

namespace Sys2Proof.Proofs
open Sys2Proof.Machine

/-- Settles O54: the forced set by the records and the Unrecorded entries, the request of a function by its step and its drive, and the review by
whether the CONTAIN claim stands, can be created, or waits. -/
theorem forcedAndFree : Obligations.ForcedAndFree := by
  unfold Obligations.ForcedAndFree
  refine ⟨fun s f other forced => resolve_forced other (forces_iff.2 forced), fun s f => forces_iff,
    fun s f => ⟨fun id fault step level => requested_step, fun silent => ⟨fun level => requested_drive (stepRequest_none silent),
      requested_none (stepRequest_none silent)⟩, ?_⟩,
    fun s => ⟨driveRequest_outOfService, fun service => ⟨?_, ?_, ?_, fun tank => ?_, fun noTank f mem => driveRequest_noTank noTank ?_⟩⟩,
    fun s => ⟨fun runs => ?_, fun free phase demand noHold => resolve_conveyor_runs free (conveyorRuns_iff.2 ⟨phase, demand, noHold⟩),
      alertActive_iff⟩,
    fun _ => rfl, fun s => ⟨bne_iff_ne, beq_iff_eq, driveRuns_iff⟩, rfl, fun s => ⟨fun r => ?_, fun h => ?_⟩,
    fun s => ⟨reviewHolds_isolated, fun on c hs claim purpose => ?_, fun on alone plain => ⟨reviewHolds_needless on alone plain,
      reviewHolds_needed on alone plain⟩⟩⟩
  · rintro (rfl | rfl) free
    · exact resolve_eq_gated rfl free
    · exact resolve_eq_gated rfl free
  · exact (driveRequest_untanked service).1
  · exact (driveRequest_untanked service).2.1
  · exact (driveRequest_untanked service).2.2
  · obtain ⟨fill, drain, run, reverse, isolate, gate⟩ := driveRequest_tanked service tank
    refine ⟨fill, drain, run, reverse, isolate, _, gate, ?_⟩
    rw [Bool.and_eq_true, beq_iff_eq, gateStop_clear_iff]
  · revert f
    decide
  · obtain ⟨-, gated⟩ := (resolve_active_iff rfl).1 runs
    rw [gated_conveyorEnable, Bool.and_eq_true] at gated
    exact conveyorRuns_iff.1 gated.2
  · rw [incidentNeedsHold_iff, skipped_iff, callsForHold_iff]
  · rw [mem_neededHolders, skipped_iff]
    simp only [callsForHold_iff]
  · obtain ⟨needed, needless⟩ := reviewHolds_claim on claim purpose
    refine ⟨fun needs => ?_, needless⟩
    obtain ⟨held, mem, ⟨same, now⟩ | replaced⟩ := needed needs
    · exact ⟨held, mem, .inl ⟨Purpose.contain.inj (now.symm.trans purpose), same⟩⟩
    · exact ⟨held, mem, .inr replaced⟩

end Sys2Proof.Proofs
end

section
/-! The heater elements (R112, R113): the walk that switches them on within the usable HEAT amount, the heat request, the HEAT claim of the drive
(R128), and an element that recovery marks out (R173, R177). -/

namespace Sys2Proof.Machine

variable {s : State} {limit : Nat} {e : Element}

/-! ## The walk (R113) -/

/-- An element that is free and fits beside those already on is switched on. -/
theorem selectElements_takes {sum : Nat} (rest : List Element) (fits : s.elementForced e = false ∧ sum + s.image.rating e ≤ limit) :
    selectElements s limit sum (e :: rest) = e :: selectElements s limit (sum + s.image.rating e) rest := by
  rw [selectElements, if_neg (ne_true_of_eq_false fits.1), if_pos fits.2]

/-- Any other is passed over. -/
theorem selectElements_passes {sum : Nat} (rest : List Element) (not : ¬ (s.elementForced e = false ∧ sum + s.image.rating e ≤ limit)) :
    selectElements s limit sum (e :: rest) = selectElements s limit sum rest := by
  rw [selectElements]
  by_cases forced : s.elementForced e = true
  · rw [if_pos forced]
  · rw [if_neg forced, if_neg fun fits => not ⟨Bool.eq_false_iff.2 forced, fits⟩]

theorem selectElements_sublist : ∀ (sum : Nat) (l : List Element), (selectElements s limit sum l).Sublist l
  | _, [] => .slnil
  | sum, e :: rest => by
    by_cases fits : s.elementForced e = false ∧ sum + s.image.rating e ≤ limit
    · rw [selectElements_takes rest fits]
      exact (selectElements_sublist _ rest).cons_cons e
    · rw [selectElements_passes rest fits]
      exact (selectElements_sublist sum rest).cons e

theorem selectElements_free : ∀ (sum : Nat) (l : List Element), ∀ d ∈ selectElements s limit sum l, s.elementForced d = false
  | sum, e :: rest, d, mem => by
    by_cases fits : s.elementForced e = false ∧ sum + s.image.rating e ≤ limit
    · rw [selectElements_takes rest fits] at mem
      rcases List.mem_cons.1 mem with rfl | mem
      · exact fits.1
      · exact selectElements_free _ rest d mem
    · rw [selectElements_passes rest fits] at mem
      exact selectElements_free sum rest d mem

/-- The ratings of the elements switched on stay within the limit. -/
theorem selectElements_sum : ∀ (sum : Nat) (l : List Element), sum ≤ limit →
    sum + ((selectElements s limit sum l).map s.image.rating).sum ≤ limit
  | _, [], within => within
  | sum, e :: rest, within => by
    by_cases fits : s.elementForced e = false ∧ sum + s.image.rating e ≤ limit
    · rw [selectElements_takes rest fits, List.map_cons, List.sum_cons, ← Nat.add_assoc]
      exact selectElements_sum _ rest fits.2
    · rw [selectElements_passes rest fits]
      exact selectElements_sum sum rest within

/-- The walk over what follows starts from the ratings already on. -/
theorem selectElements_append (behind : List Element) : ∀ (sum : Nat) (before : List Element),
    selectElements s limit sum (before ++ behind) = selectElements s limit sum before ++
      selectElements s limit (sum + ((selectElements s limit sum before).map s.image.rating).sum) behind
  | _, [] => rfl
  | sum, e :: before => by
    rw [List.cons_append]
    by_cases fits : s.elementForced e = false ∧ sum + s.image.rating e ≤ limit
    · rw [selectElements_takes _ fits, selectElements_takes _ fits, selectElements_append behind _ before, List.map_cons, List.sum_cons,
        ← Nat.add_assoc, List.cons_append]
    · rw [selectElements_passes _ fits, selectElements_passes _ fits]
      exact selectElements_append behind sum before

/-- The element the walk looks at is switched on where it is free and fits. -/
theorem mem_selectElements_cons {sum : Nat} {rest : List Element} (once : e ∉ rest) :
    e ∈ selectElements s limit sum (e :: rest) ↔ s.elementForced e = false ∧ sum + s.image.rating e ≤ limit := by
  by_cases fits : s.elementForced e = false ∧ sum + s.image.rating e ≤ limit
  · rw [selectElements_takes rest fits]
    exact iff_of_true (List.mem_cons_self ..) fits
  · rw [selectElements_passes rest fits]
    exact iff_of_false (fun mem => once ((selectElements_sublist sum rest).subset mem)) fits

theorem allElements_split : ∀ e : Element, allElements = allElements.take e ++ e :: allElements.drop (e + 1) := by decide
theorem lt_of_mem_take : ∀ e : Element, ∀ d ∈ allElements.take e, d < e := by decide
theorem not_lt_of_mem_drop : ∀ e : Element, ∀ d ∈ e :: allElements.drop (e + 1), ¬ d < e := by decide
theorem not_mem_drop : ∀ e : Element, e ∉ allElements.drop (e + 1) := by decide

/-- The elements of lower number that the walk switches on are those it switches on among them. -/
theorem selectElements_below (s : State) (limit : Nat) (e : Element) :
    (selectElements s limit 0 allElements).filter (fun d => decide (d < e)) = selectElements s limit 0 (allElements.take e) := by
  have below : ∀ d ∈ selectElements s limit 0 (allElements.take e), decide (d < e) = true := fun d mem =>
    decide_eq_true (lt_of_mem_take e d ((selectElements_sublist _ _).subset mem))
  have others (sum : Nat) : ∀ d ∈ selectElements s limit sum (e :: allElements.drop (e + 1)), ¬ decide (d < e) = true := fun d mem less =>
    not_lt_of_mem_drop e d ((selectElements_sublist _ _).subset mem) (of_decide_eq_true less)
  conv => lhs; rw [allElements_split e, selectElements_append]
  rw [List.filter_append, List.filter_eq_self.2 below, List.filter_eq_nil_iff.2 (others _), List.append_nil]

theorem mem_selectElements (s : State) (limit : Nat) (e : Element) : e ∈ selectElements s limit 0 allElements ↔
    s.elementForced e = false ∧ ((selectElements s limit 0 (allElements.take e)).map s.image.rating).sum + s.image.rating e ≤ limit := by
  have out : e ∉ selectElements s limit 0 (allElements.take e) := fun mem =>
    Nat.lt_irrefl _ (lt_of_mem_take e e ((selectElements_sublist _ _).subset mem))
  conv => lhs; rw [allElements_split e, selectElements_append]
  rw [List.mem_append, or_iff_right out, mem_selectElements_cons (not_mem_drop e), Nat.zero_add]

/-! ## The elements on -/

theorem elementsOn_sublist (s : State) : s.elementsOn.Sublist allElements := by
  have all : ∀ e : Element, e ∈ allElements := by decide
  unfold State.elementsOn
  split
  · exact List.nil_sublist _
  · exact selectElements_sublist _ _
  · split
    · exact List.singleton_sublist.2 (all _)
    · exact List.nil_sublist _

theorem elementsOn_free : ∀ e ∈ s.elementsOn, s.elementForced e = false := by
  intro e mem
  unfold State.elementsOn at mem
  split at mem
  · cases mem
  · exact selectElements_free _ _ e mem
  · split at mem
    · rename_i fits
      obtain rfl := List.mem_singleton.1 mem
      rw [Bool.and_eq_true, Bool.not_eq_true'] at fits
      exact fits.1
    · cases mem

theorem elementsOn_sum (s : State) : (s.elementsOn.map s.image.rating).sum ≤ s.usableSum .heat := by
  unfold State.elementsOn
  split
  · exact Nat.zero_le _
  · have within := selectElements_sum (s := s) 0 allElements (Nat.zero_le (s.usableSum .heat))
    rwa [Nat.zero_add] at within
  · split
    · rename_i fits
      rw [Bool.and_eq_true, decide_eq_true_eq] at fits
      simpa using fits.2
    · exact Nat.zero_le _

theorem mem_elementsOn (free : s.elementForced e = false) : e ∈ s.elementsOn ↔ match s.heatRequest.1 with
    | .off => False
    | .on => ((selectElements s (s.usableSum .heat) 0 (allElements.take e)).map s.image.rating).sum + s.image.rating e ≤ s.usableSum .heat
    | .only d => e = d ∧ s.image.rating e ≤ s.usableSum .heat := by
  unfold State.elementsOn
  cases s.heatRequest.1 with
  | off => exact List.mem_nil_iff e
  | on => exact (mem_selectElements s _ e).trans (and_iff_right free)
  | only d =>
    dsimp only
    by_cases same : e = d
    · subst same
      simp [free]
    · have other (l : List Element) (few : l = [d] ∨ l = []) : e ∉ l := by
        rcases few with rfl | rfl <;> simp [same]
      exact iff_of_false (other _ (by split <;> simp)) fun h => same h.1

/-! ## The elements resolved (R112, R113) -/

theorem resolve_element_forced (forced : s.elementForced e = true) : s.resolve (.heat e) = { active := false, source := .forced } := if_pos forced

theorem resolve_element_free (free : s.elementForced e = false) :
    s.resolve (.heat e) = { active := s.elementsOn.contains e, source := s.heatRequest.2 } := if_neg (ne_true_of_eq_false free)

theorem element_active_iff (s : State) (e : Element) : (s.resolve (.heat e)).active = true ↔ e ∈ s.elementsOn := by
  cases forced : s.elementForced e with
  | true =>
    rw [resolve_element_forced forced]
    refine iff_of_false Bool.false_ne_true fun mem => ?_
    rw [elementsOn_free e mem] at forced
    cases forced
  | false =>
    rw [resolve_element_free forced]
    exact List.contains_iff_mem

/-- The members of a sublist, filtered out of a list without duplicates, are the sublist. -/
theorem filter_mem_of_sublist {α : Type} (p : α → Bool) {l all : List α} (sub : l.Sublist all) (once : all.Nodup)
    (members : ∀ x ∈ all, p x = true ↔ x ∈ l) : all.filter p = l := by
  induction sub with
  | slnil => rfl
  | @cons l all a sub ih =>
    obtain ⟨new, once⟩ := List.nodup_cons.1 once
    have out : ¬ p a = true := fun yes => new (sub.subset ((members a (List.mem_cons_self ..)).1 yes))
    rw [List.filter_cons_of_neg out]
    exact ih once fun x mem => members x (List.mem_cons_of_mem _ mem)
  | @cons_cons l all a sub ih =>
    obtain ⟨new, once⟩ := List.nodup_cons.1 once
    have same (x : α) (mem : x ∈ all) : x ∈ a :: l ↔ x ∈ l :=
      List.mem_cons.trans (or_iff_right fun e => new (e ▸ mem))
    rw [List.filter_cons_of_pos ((members a (List.mem_cons_self ..)).2 (List.mem_cons_self ..)),
      ih once fun x mem => (members x (List.mem_cons_of_mem _ mem)).trans (same x mem)]

/-- The elements that are active are those the heat request switches on, in their order. -/
theorem active_elements (s : State) : allElements.filter (fun e => (s.resolve (.heat e)).active) = s.elementsOn :=
  filter_mem_of_sublist _ (elementsOn_sublist s) (by decide) fun e _ => element_active_iff s e

/-- The active elements below one, where the request is on, are those the walk has switched on before it. -/
theorem active_below (on : s.heatRequest.1 = .on) (e : Element) :
    allElements.filter (fun d => decide (d < e) && (s.resolve (.heat d)).active) =
      selectElements s (s.usableSum .heat) 0 (allElements.take e) := by
  have walked : s.elementsOn = selectElements s (s.usableSum .heat) 0 allElements := by
    unfold State.elementsOn
    rw [on]
  rw [← List.filter_filter, active_elements, walked, selectElements_below]

theorem active_iff_request (free : s.elementForced e = false) : (s.resolve (.heat e)).active = true ↔ match s.heatRequest.1 with
    | .off => False
    | .on => ((allElements.filter (fun d => decide (d < e) && (s.resolve (.heat d)).active)).map s.image.rating).sum +
        s.image.rating e ≤ s.usableSum .heat
    | .only d => e = d ∧ s.image.rating e ≤ s.usableSum .heat := by
  rw [element_active_iff, mem_elementsOn free]
  cases request : s.heatRequest.1 with
  | on =>
    dsimp only
    rw [active_below request]
  | _ => rfl

/-! ## The heat request (R113) and the HEAT claim (R128) -/

theorem heatRequest_step {id : Nat} {fault : FaultId} {step : Step} {request : HeatRequest} (active : s.activeStep = some (id, fault, step))
    (asks : stepHeat fault step = some request) : s.heatRequest = (request, .step) := by
  have bound : s.activeStep.bind (fun a => stepHeat a.2.1 a.2.2) = some request := by rw [active]; exact asks
  unfold State.heatRequest
  rw [bound]

theorem heatRequest_drive (silent : ∀ id fault step, s.activeStep = some (id, fault, step) → stepHeat fault step = none) :
    s.heatRequest = if s.driveRuns then (if s.pd.regulation then .on else .off, .program) else (.off, .none) := by
  have bound : s.activeStep.bind (fun a => stepHeat a.2.1 a.2.2) = none := by
    cases active : s.activeStep with
    | none => rfl
    | some a => exact silent a.1 a.2.1 a.2.2 active
  unfold State.heatRequest
  rw [bound]

theorem heatWanted_iff (amount : Nat) : s.heatWanted = some amount ↔ s.zoneMode = .inService ∧ s.hasTank = true ∧ regulates s.pd.phase = true ∧
    1 ≤ amount ∧ amount = s.heatAmount := by
  unfold State.heatWanted
  rw [Option.ite_none_right_eq_some, Bool.and_eq_true, Bool.and_eq_true, driveRuns_iff, decide_eq_true_eq, Option.some.injEq]
  constructor
  · rintro ⟨⟨⟨⟨service, tank⟩, phase⟩, some⟩, rfl⟩
    exact ⟨service, tank, phase, some, rfl⟩
  · rintro ⟨service, tank, phase, some, rfl⟩
    exact ⟨⟨⟨⟨service, tank⟩, phase⟩, some⟩, rfl⟩

/-! ## An element marked out (R173, R177) -/

theorem carryOut_markedOut (s : State) (id : Nat) (fault : FaultId) (step : Step) (e : Element) (failed : Bool) :
    (carryOut id fault step (.markedOut e failed) s).1 =
      if failed then failRecord id step .needsService (markOut e s) else clearRecord id fault step .degraded (markOut e s) := by
  cases failed <;> rfl

theorem failRecord_lu (id : Nat) (step : Step) (reason : FailureReason) (s : State) : (failRecord id step reason s).lu = s.lu := by
  unfold failRecord
  rw [endStep_claimed id step]
  rfl

theorem clearRecord_lu (id : Nat) (fault : FaultId) (step : Step) (outcome : RecoveryOutcome) (s : State) :
    (clearRecord id fault step outcome s).lu = s.lu := by
  obtain ⟨_, _, _, _, _, _, shape⟩ := clearRecord_writes id fault step outcome s
  rw [shape]

end Sys2Proof.Machine

namespace Sys2Proof.Proofs
open Sys2Proof.Machine

/-- Settles O55: the active elements are those the heat request switches on, and the walk of the request on is cut at an element. -/
theorem heatWithinShare : Obligations.HeatWithinShare := by
  unfold Obligations.HeatWithinShare
  refine ⟨fun s => ⟨?_, fun e => ⟨fun on => elementsOn_free e ((element_active_iff s e).1 on), elementForced_iff s e⟩⟩,
    fun s e out => resolve_element_forced ((elementForced_iff s e).2 (.inr (.inr out))), fun s id fault step e failed => ⟨?_, ?_, ?_⟩,
    fun s => heatWanted_iff, fun s => ⟨fun id fault step request => heatRequest_step, fun silent => ⟨fun runs => ?_, fun stands => ?_⟩,
      fun e free => ⟨congrArg Output.source (resolve_element_free free), active_iff_request free⟩⟩⟩
  · rw [active_elements]
    exact elementsOn_sum s
  · rw [carryOut_markedOut]
    split
    · rw [failRecord_lu]; rfl
    · rw [clearRecord_lu]; rfl
  · rintro rfl
    exact failRecord_incidents id step .needsService (markOut e s)
  · rintro rfl recorded
    exact (clearRecord_alone (s := markOut e s) id fault step .degraded recorded).1
  · rw [heatRequest_drive silent, if_pos (driveRuns_iff.2 runs)]
  · rw [heatRequest_drive silent, if_neg fun runs => stands (driveRuns_iff.1 runs)]

end Sys2Proof.Proofs
end
